-- ==== Sys2Proof/Word.lean ====
section
/-! DEFINITION. The word types: bytes of DMA memory, 16-bit PHY registers, 32-bit registers and descriptor words (spec/00_scope.md R9, R13). -/

namespace Sys2Proof

/-- One byte of DMA memory or of a payload. -/
abbrev Byte := BitVec 8

/-- A PHY management register, and the IMM field of a command word. -/
abbrev Half := BitVec 16

/-- A register of the block, a descriptor word, a bus address (ADDR_W = 32). -/
abbrev Word := BitVec 32

end Sys2Proof
end

