-- ==== Sys2Proof/Config.lean ====
section
/-! DEFINITION. The value sets of spec/00_scope.md R15 and R16, the parameters of one instance of the block (R7), the
instance the model resets to, and the free value of the PHY agent (spec/45_dma_engines.md R270). -/

namespace Sys2Proof

/-- Link speed in Mbps (R15). -/
inductive Speed where
  | s10 | s100 | s1000
deriving DecidableEq, Repr

/-- Duplex (R15). -/
inductive Duplex where
  | half | full
deriving DecidableEq, Repr

/-- Carrier (R15). -/
inductive Carrier where
  | down | up
deriving DecidableEq, Repr

/-- Negotiation mode (R15). -/
inductive NegMode where
  | auto | forced
deriving DecidableEq, Repr

/-- A mode is a pair of a speed and a duplex (R16). -/
structure LinkMode where
  speed  : Speed
  duplex : Duplex
deriving DecidableEq, Repr

/-- The two rings (R21, R23), also the operand of INIT_RING (R130). -/
inductive RingKind where
  | tx | rx
deriving DecidableEq, Repr

/-- How the DMA engine finds the next descriptor of a ring (R18). -/
inductive RingMode where
  | ring | chain
deriving DecidableEq, Repr

/-- The six bytes of a MAC address, b0 first as given to set_mac_address (R44). -/
structure MacAddr where
  b0 : Byte
  b1 : Byte
  b2 : Byte
  b3 : Byte
  b4 : Byte
  b5 : Byte
deriving DecidableEq, Repr

/-- The parameters of an instance (R7). They are fixed for an instance (R8): no step of the model changes them. ADDR_W and
DESC_SIZE have one legal value each and are written into the types; CTR_W is OPEN (R12) and has no field. -/
structure Params where
  nTx        : Nat
  nRx        : Nat
  modeTx     : RingMode
  modeRx     : RingMode
  bufSize    : Nat
  txDescBase : Word
  rxDescBase : Word
  txBufBase  : Word
  rxBufBase  : Word
  bufStride  : Nat
  mmioBase   : Word
  phyAddr    : BitVec 5
  macGigabit : Bool
  advCaps    : BitVec 6
  negPollMax : Nat
  rxqDepth   : Nat
  stallTicks : Nat
  sharedLine : Bool
deriving DecidableEq, Repr

/-- The instance the model resets to: the one of spec/95_test_vectors.md section 0, with R7's defaults.
DESIGN CHOICE (log 1): R7 leaves these to the instance. -/
def Params.standard : Params where
  nTx        := 8
  nRx        := 8
  modeTx     := .ring
  modeRx     := .ring
  bufSize    := 1536
  txDescBase := 0x00100000
  rxDescBase := 0x00101000
  txBufBase  := 0x00200000
  rxBufBase  := 0x00300000
  bufStride  := 1536
  mmioBase   := 0x1FE10000
  phyAddr    := 1
  macGigabit := false
  advCaps    := 0x0F
  negPollMax := 3000
  rxqDepth   := 8
  stallTicks := 3
  sharedLine := false

/-- FREE VALUE (log 10): what the PHY agent answers to its n-th read that the input gives no value for. R270 puts no
constraint on it, so it has no body. -/
opaque Config.freePhyRead : Nat → Half

end Sys2Proof
end

