-- ==== Sys2Proof/Syntax.lean ====
section
/-! DEFINITION. The operations of the block as syntax: one constructor per row of spec/opcode_table.json (R113). Operands
are the fields of the command word and its payload (R114); a draw of an environment step (R10, R267) is an operand of it. -/

namespace Sys2Proof

/-- The operations of spec/30_encoding.md R113. The first eleven are host command words (format CMD), then the internal
operations (INT), then the environment events (EVT). -/
inductive Instr where
  | attach
  | start
  | stop
  | send (len : Half) (bytes : List Byte)
  | receive (cap : Half)
  | getLinkState
  | getStats
  | setMacAddress (mac : MacAddr)
  | setModeAuto
  | setModeForced (speed : Speed) (duplex : Duplex)
  | watchdog
  | initRing (kind : RingKind)
  | enqueueTx (len : Half) (bytes : List Byte)
  | reclaimTx
  | reclaimRx (maxCount : Half)
  | mdioRead (reg : BitVec 5)
  | mdioWrite (reg : BitVec 5) (value : Half)
  | startNegotiation (adv : BitVec 6)
  | negPoll
  | forceLink (speed : Speed) (duplex : Duplex)
  | resolveLinkMode
  | reconfigureMac (speed : Speed) (duplex : Duplex)
  | isr
  | linkChangeService
  | handleFatalError
  | recStepStopping
  | recStepReinit
  | recStepReapply
  | recStepRestart
  | handleRxStopped
  | handleTxStopped
  | startFin
  | stopEnd
  | txdmaStep (underflow : Bool)
  | rxdmaFrame (len : Half) (bytes : List Byte) (crc lerr ovf : Bool)
  | busError
  | phyLinkEvent
deriving DecidableEq, Repr

end Sys2Proof
end

