-- ==== Sys2Proof/WellFormed.lean ====
section
/-! DEFINITION. Which operations are well formed: a payload is as long as the IMM field says (R114, R118; R264 for the bytes
of a received frame). Every other operand is kept in its range by its type. -/

namespace Sys2Proof

/-- The payload length that R118 fixes by OP and IMM. A SEND or an ENQUEUE_TX that breaks it can still be issued: it is the
host-duty violation of R117. -/
def Instr.wellFormed : Instr → Bool
  | .send len bytes => bytes.length == len.toNat
  | .enqueueTx len bytes => bytes.length == len.toNat
  | .rxdmaFrame len bytes _ _ _ => bytes.length == len.toNat
  | .attach | .start | .stop | .receive _ | .getLinkState | .getStats | .setMacAddress _ | .setModeAuto
  | .setModeForced _ _ | .watchdog | .initRing _ | .reclaimTx | .reclaimRx _ | .mdioRead _ | .mdioWrite _ _
  | .startNegotiation _ | .negPoll | .forceLink _ _ | .resolveLinkMode | .reconfigureMac _ _ | .isr
  | .linkChangeService | .handleFatalError | .recStepStopping | .recStepReinit | .recStepReapply | .recStepRestart
  | .handleRxStopped | .handleTxStopped | .startFin | .stopEnd | .txdmaStep _ | .busError | .phyLinkEvent => true

end Sys2Proof
end

