-- ==== Sys2Proof/Decode.lean ====
section
/-! DEFINITION. The command word of spec/30_encoding.md (R110 to R118): a decoder, total on any bytes and rejecting by name,
the host port's reading of a packet (R116), and the encoder. A packet is the 32-bit word and then the
payload (R110). The word's four bytes come least significant first: no rule says in which order a command word arrives
(DESIGN CHOICE, log 29). How a 16-bit payload value and the draws of an environment step are laid out in the payload is the
model's own (DESIGN CHOICE, log 9). -/

namespace Sys2Proof

/-! ## Fields of the command word (R111) -/

def opField (w : Word) : BitVec 8 := w.extractLsb' 0 8
def subField (w : Word) : BitVec 4 := w.extractLsb' 8 4
def reservedField (w : Word) : BitVec 4 := w.extractLsb' 12 4
def immField (w : Word) : Half := w.extractLsb' 16 16

/-- The command word with the given fields and reserved bits 15:12 zero (R111). -/
def commandWord (op : BitVec 8) (sub : BitVec 4) (imm : Half) : Word := imm ++ (0 : BitVec 4) ++ sub ++ op

/-- The four bytes of a word, least significant first: R72 for a word of DMA memory, log 29 for a command word. -/
def wordBytes (w : Word) : List Byte :=
  [w.extractLsb' 0 8, w.extractLsb' 8 8, w.extractLsb' 16 8, w.extractLsb' 24 8]

/-- The word of four bytes, `b0` least significant: R71 for a word of DMA memory, log 29 for a command word. -/
def bytesWord (b0 b1 b2 b3 : Byte) : Word := b3 ++ b2 ++ b1 ++ b0

/-! ## Codes (R113) -/

/-- Speed codes: 0 = 10, 1 = 100, 2 = 1000, 3 reserved (R113). -/
def speedOfCode (c : BitVec 2) : Option Speed :=
  if c = 0 then some .s10 else if c = 1 then some .s100 else if c = 2 then some .s1000 else none

def speedCode : Speed → BitVec 2
  | .s10 => 0
  | .s100 => 1
  | .s1000 => 2

/-- Duplex: 0 = HALF, 1 = FULL (R113). -/
def duplexOfBit (b : Bool) : Duplex := if b then .full else .half

def duplexBit : Duplex → Bool
  | .half => false
  | .full => true

/-- IMM of SET_MODE, FORCE_LINK and RECONFIGURE_MAC: IMM[1:0] speed, IMM[2] duplex, IMM[15:3] = 0 (R113, R114). -/
def modeImm (speed : Speed) (duplex : Duplex) : Half :=
  (0 : BitVec 13) ++ BitVec.ofBool (duplexBit duplex) ++ speedCode speed

/-! ## The decoder -/

/-- Why a packet is no instruction. -/
inductive DecodeError where
  /-- Fewer than four bytes: there is no command word. -/
  | truncated
  /-- Bits 15:12 are not 0 (R111). -/
  | reservedBits
  /-- OP is in no row of R113. -/
  | reservedOp
  /-- SUB is a value R113 gives no meaning for this OP. -/
  | badSub
  /-- IMM has a bit R113 says is 0. -/
  | badImm
  /-- Speed code 3 (R113). -/
  | badSpeed
  /-- The payload has a length or a form R118 does not give this OP. -/
  | badPayload
deriving DecidableEq, Repr

/-- A word whose SUB and IMM are 0 and that carries no payload. -/
def decodePlain (sub : BitVec 4) (imm : Half) (p : List Byte) (i : Instr) : Except DecodeError Instr :=
  if sub ≠ 0 then .error .badSub else if imm ≠ 0 then .error .badImm
  else if p ≠ [] then .error .badPayload else .ok i

/-- A word whose SUB is 0, whose IMM is an operand and that carries no payload. -/
def decodeImm (sub : BitVec 4) (p : List Byte) (i : Instr) : Except DecodeError Instr :=
  if sub ≠ 0 then .error .badSub else if p ≠ [] then .error .badPayload else .ok i

/-- A word whose SUB is 0, whose IMM is a length and whose payload the instruction takes as it is: a payload of another
length is a host-duty violation, not an encoding error (R117). -/
def decodeFrame (sub : BitVec 4) (i : Instr) : Except DecodeError Instr :=
  if sub ≠ 0 then .error .badSub else .ok i

/-- A word whose IMM is a speed and a duplex (R114). -/
def decodeMode (imm : Half) (p : List Byte) (i : Speed → Duplex → Instr) : Except DecodeError Instr :=
  if imm.extractLsb' 3 13 ≠ 0 then .error .badImm
  else match speedOfCode (imm.extractLsb' 0 2) with
    | none => .error .badSpeed
    | some s => if p ≠ [] then .error .badPayload else .ok (i s (duplexOfBit (imm.getLsbD 2)))

/-- A word whose SUB is 0 and whose IMM[4:0] is a PHY register (R113). -/
def decodePhyReg (sub : BitVec 4) (imm : Half) (k : BitVec 5 → Except DecodeError Instr) : Except DecodeError Instr :=
  if sub ≠ 0 then .error .badSub else if imm.extractLsb' 5 11 ≠ 0 then .error .badImm else k (imm.extractLsb' 0 5)

/-- REC_STEP: SUB 1 STOPPING, 2 REINIT, 3 REAPPLY, 4 RESTART (R113). -/
def decodeRecStep (sub : BitVec 4) (imm : Half) (p : List Byte) : Except DecodeError Instr :=
  if sub = 1 then decodePlain 0 imm p .recStepStopping
  else if sub = 2 then decodePlain 0 imm p .recStepReinit
  else if sub = 3 then decodePlain 0 imm p .recStepReapply
  else if sub = 4 then decodePlain 0 imm p .recStepRestart
  else .error .badSub

/-- INIT_RING: SUB 0 = TX, 1 = RX (R113). -/
def decodeInitRing (sub : BitVec 4) (imm : Half) (p : List Byte) : Except DecodeError Instr :=
  if sub = 0 then decodePlain 0 imm p (.initRing .tx)
  else if sub = 1 then decodePlain 0 imm p (.initRing .rx)
  else .error .badSub

/-- SET_MODE: SUB 0 = AUTO with IMM 0, SUB 1 = FORCED (R113, R114). -/
def decodeSetMode (sub : BitVec 4) (imm : Half) (p : List Byte) : Except DecodeError Instr :=
  if sub = 0 then decodePlain 0 imm p .setModeAuto
  else if sub = 1 then decodeMode imm p .setModeForced
  else .error .badSub

/-- The six payload bytes of SET_MAC_ADDRESS in order (R114). -/
def decodeMac : List Byte → Except DecodeError Instr
  | [b0, b1, b2, b3, b4, b5] => .ok (.setMacAddress ⟨b0, b1, b2, b3, b4, b5⟩)
  | _ => .error .badPayload

/-- The 16-bit value of MDIO_WRITE, low byte first (log 9). -/
def decodeMdioWrite (reg : BitVec 5) : List Byte → Except DecodeError Instr
  | [lo, hi] => .ok (.mdioWrite reg (hi ++ lo))
  | _ => .error .badPayload

/-- The draw of TXDMA_STEP: one byte, bit 0 = underflow (log 9). -/
def decodeTxDraw : List Byte → Except DecodeError Instr
  | [f] => if f &&& 0xFE ≠ 0 then .error .badPayload else .ok (.txdmaStep (f.getLsbD 0))
  | _ => .error .badPayload

/-- The flag byte of RXDMA_FRAME: bit 0 CRC, bit 1 LERR, bit 2 OVF, the positions of DES0 (R101; log 9). -/
def decodeRxFlags (len : Half) (bytes : List Byte) : List Byte → Except DecodeError Instr
  | [f] =>
    if f &&& 0xF8 ≠ 0 then .error .badPayload
    else .ok (.rxdmaFrame len bytes (f.getLsbD 0) (f.getLsbD 1) (f.getLsbD 2))
  | _ => .error .badPayload

/-- The draws of RXDMA_FRAME: IMM frame bytes, then the flag byte (log 9). -/
def decodeRxDraw (len : Half) (p : List Byte) : Except DecodeError Instr :=
  if (p.take len.toNat).length ≠ len.toNat then .error .badPayload
  else decodeRxFlags len (p.take len.toNat) (p.drop len.toNat)

/-- The opcode map of R113. -/
def decodeFields (op : BitVec 8) (sub : BitVec 4) (imm : Half) (p : List Byte) : Except DecodeError Instr :=
  if op = 0x01 then decodePlain sub imm p .attach
  else if op = 0x02 then decodePlain sub imm p .start
  else if op = 0x03 then decodePlain sub imm p .stop
  else if op = 0x04 then decodeFrame sub (.send imm p)
  else if op = 0x05 then decodeImm sub p (.receive imm)
  else if op = 0x06 then decodePlain sub imm p .getLinkState
  else if op = 0x07 then decodePlain sub imm p .getStats
  else if op = 0x08 then
    if sub ≠ 0 then .error .badSub else if imm ≠ 0 then .error .badImm else decodeMac p
  else if op = 0x09 then decodeSetMode sub imm p
  else if op = 0x0A then decodePlain sub imm p .watchdog
  else if op = 0x20 then decodeInitRing sub imm p
  else if op = 0x21 then decodeFrame sub (.enqueueTx imm p)
  else if op = 0x22 then decodePlain sub imm p .reclaimTx
  else if op = 0x23 then decodeImm sub p (.reclaimRx imm)
  else if op = 0x24 then decodePhyReg sub imm fun r => decodePlain 0 0 p (.mdioRead r)
  else if op = 0x25 then decodePhyReg sub imm fun r => decodeMdioWrite r p
  else if op = 0x26 then
    if sub ≠ 0 then .error .badSub else if imm.extractLsb' 6 10 ≠ 0 then .error .badImm
    else decodePlain 0 0 p (.startNegotiation (imm.extractLsb' 0 6))
  else if op = 0x27 then decodePlain sub imm p .negPoll
  else if op = 0x28 then if sub ≠ 0 then .error .badSub else decodeMode imm p .forceLink
  else if op = 0x29 then decodePlain sub imm p .resolveLinkMode
  else if op = 0x2A then if sub ≠ 0 then .error .badSub else decodeMode imm p .reconfigureMac
  else if op = 0x2B then decodePlain sub imm p .isr
  else if op = 0x2C then decodePlain sub imm p .linkChangeService
  else if op = 0x2D then decodePlain sub imm p .handleFatalError
  else if op = 0x2E then decodeRecStep sub imm p
  else if op = 0x2F then decodePlain sub imm p .handleRxStopped
  else if op = 0x30 then decodePlain sub imm p .handleTxStopped
  else if op = 0x31 then decodePlain sub imm p .startFin
  else if op = 0x32 then decodePlain sub imm p .stopEnd
  else if op = 0x40 then
    if sub ≠ 0 then .error .badSub else if imm ≠ 0 then .error .badImm else decodeTxDraw p
  else if op = 0x41 then if sub ≠ 0 then .error .badSub else decodeRxDraw imm p
  else if op = 0x42 then decodePlain sub imm p .busError
  else if op = 0x43 then decodePlain sub imm p .phyLinkEvent
  else .error .reservedOp

def decodeWord (w : Word) (p : List Byte) : Except DecodeError Instr :=
  if reservedField w ≠ 0 then .error .reservedBits
  else decodeFields (opField w) (subField w) (immField w) p

/-- The instruction a packet holds, or why it holds none. The word's low byte comes first (DESIGN CHOICE, log 29). -/
def decode : List Byte → Except DecodeError Instr
  | b0 :: b1 :: b2 :: b3 :: p => decodeWord (bytesWord b0 b1 b2 b3) p
  | _ => .error .truncated

/-! ## The host port (R116) -/

/-- The host command words, format CMD of R113. -/
def Instr.isHostCommand : Instr → Bool
  | .attach | .start | .stop | .send _ _ | .receive _ | .getLinkState | .getStats | .setMacAddress _ | .setModeAuto
  | .setModeForced _ _ | .watchdog => true
  | .initRing _ | .enqueueTx _ _ | .reclaimTx | .reclaimRx _ | .mdioRead _ | .mdioWrite _ _
  | .startNegotiation _ | .negPoll | .forceLink _ _ | .resolveLinkMode | .reconfigureMac _ _ | .isr
  | .linkChangeService | .handleFatalError | .recStepStopping | .recStepReinit | .recStepReapply | .recStepRestart
  | .handleRxStopped | .handleTxStopped | .startFin | .stopEnd | .txdmaStep _ | .rxdmaFrame _ _ _ _ _ | .busError
  | .phyLinkEvent => false

/-- What the host port makes of a packet: a command, an illegal command word (R116, answered ILLEGAL_COMMAND), or bytes that
are no packet of R118 (log 25). -/
inductive HostWord where
  | command (i : Instr)
  | illegal
  | malformed
deriving DecidableEq, Repr

/-- R116: OP is one of 0x01 to 0x0A. -/
def hostOp (op : BitVec 8) : Bool := (1 ≤ op.toNat) && (op.toNat ≤ 10)

/-- A word R116 rejects by its encoding is illegal whatever bytes follow it; a word that is legal by its encoding, with a
payload R118 does not give it, is no packet (log 25). -/
def hostWordOf : Except DecodeError Instr → HostWord
  | .ok i => .command i
  | .error .badPayload => .malformed
  | .error .truncated => .malformed
  | .error .reservedBits | .error .reservedOp | .error .badSub | .error .badImm | .error .badSpeed => .illegal

/-- The host port's reading of a packet, but for the forced speed that depends on the MAC (`hostPacket` of
Machine/Fetch.lean). The word's low byte comes first (DESIGN CHOICE, log 29). -/
def decodeHost : List Byte → HostWord
  | b0 :: b1 :: b2 :: b3 :: p =>
    if hostOp (opField (bytesWord b0 b1 b2 b3)) then hostWordOf (decodeWord (bytesWord b0 b1 b2 b3) p) else .illegal
  | _ => .malformed

/-! ## The encoder -/

/-- The command word of an instruction: OP, SUB and IMM of its row in R113. -/
def instrWord : Instr → Word
  | .attach => commandWord 0x01 0 0
  | .start => commandWord 0x02 0 0
  | .stop => commandWord 0x03 0 0
  | .send len _ => commandWord 0x04 0 len
  | .receive cap => commandWord 0x05 0 cap
  | .getLinkState => commandWord 0x06 0 0
  | .getStats => commandWord 0x07 0 0
  | .setMacAddress _ => commandWord 0x08 0 0
  | .setModeAuto => commandWord 0x09 0 0
  | .setModeForced s d => commandWord 0x09 1 (modeImm s d)
  | .watchdog => commandWord 0x0A 0 0
  | .initRing .tx => commandWord 0x20 0 0
  | .initRing .rx => commandWord 0x20 1 0
  | .enqueueTx len _ => commandWord 0x21 0 len
  | .reclaimTx => commandWord 0x22 0 0
  | .reclaimRx n => commandWord 0x23 0 n
  | .mdioRead r => commandWord 0x24 0 (r.setWidth 16)
  | .mdioWrite r _ => commandWord 0x25 0 (r.setWidth 16)
  | .startNegotiation adv => commandWord 0x26 0 (adv.setWidth 16)
  | .negPoll => commandWord 0x27 0 0
  | .forceLink s d => commandWord 0x28 0 (modeImm s d)
  | .resolveLinkMode => commandWord 0x29 0 0
  | .reconfigureMac s d => commandWord 0x2A 0 (modeImm s d)
  | .isr => commandWord 0x2B 0 0
  | .linkChangeService => commandWord 0x2C 0 0
  | .handleFatalError => commandWord 0x2D 0 0
  | .recStepStopping => commandWord 0x2E 1 0
  | .recStepReinit => commandWord 0x2E 2 0
  | .recStepReapply => commandWord 0x2E 3 0
  | .recStepRestart => commandWord 0x2E 4 0
  | .handleRxStopped => commandWord 0x2F 0 0
  | .handleTxStopped => commandWord 0x30 0 0
  | .startFin => commandWord 0x31 0 0
  | .stopEnd => commandWord 0x32 0 0
  | .txdmaStep _ => commandWord 0x40 0 0
  | .rxdmaFrame len _ _ _ _ => commandWord 0x41 0 len
  | .busError => commandWord 0x42 0 0
  | .phyLinkEvent => commandWord 0x43 0 0

/-- The flag byte of RXDMA_FRAME (log 9). -/
def rxFlagByte (crc lerr ovf : Bool) : Byte :=
  (0 : BitVec 5) ++ BitVec.ofBool ovf ++ BitVec.ofBool lerr ++ BitVec.ofBool crc

/-- The draw byte of TXDMA_STEP (log 9). -/
def txDrawByte (underflow : Bool) : Byte := (0 : BitVec 7) ++ BitVec.ofBool underflow

/-- The payload that follows the command word (R118; log 9 for the draws). -/
def instrPayload : Instr → List Byte
  | .send _ bytes => bytes
  | .enqueueTx _ bytes => bytes
  | .setMacAddress m => [m.b0, m.b1, m.b2, m.b3, m.b4, m.b5]
  | .mdioWrite _ v => [v.extractLsb' 0 8, v.extractLsb' 8 8]
  | .txdmaStep u => [txDrawByte u]
  | .rxdmaFrame _ bytes crc lerr ovf => bytes ++ [rxFlagByte crc lerr ovf]
  | .attach | .start | .stop | .receive _ | .getLinkState | .getStats | .setModeAuto
  | .setModeForced _ _ | .watchdog | .initRing _ | .reclaimTx | .reclaimRx _ | .mdioRead _
  | .startNegotiation _ | .negPoll | .forceLink _ _ | .resolveLinkMode | .reconfigureMac _ _ | .isr
  | .linkChangeService | .handleFatalError | .recStepStopping | .recStepReinit | .recStepReapply | .recStepRestart
  | .handleRxStopped | .handleTxStopped | .startFin | .stopEnd | .busError | .phyLinkEvent => []

/-- The packet of an instruction, the word's low byte first (DESIGN CHOICE, log 29). -/
def encode (i : Instr) : List Byte := wordBytes (instrWord i) ++ instrPayload i

/-! ## The words of spec/opcode_table.json -/

/-- How many payload bytes the word calls for (R118, log 9). -/
def payloadLength (w : Word) : Nat :=
  if opField w = 0x04 then (immField w).toNat
  else if opField w = 0x08 then 6
  else if opField w = 0x21 then (immField w).toNat
  else if opField w = 0x25 then 2
  else if opField w = 0x40 then 1
  else if opField w = 0x41 then (immField w).toNat + 1
  else 0

/-- The low `n` bytes of a number, least significant first. -/
def bytesOfNat : Nat → Nat → List Byte
  | 0, _ => []
  | n + 1, v => BitVec.ofNat 8 v :: bytesOfNat n (v / 256)

/-- The packet whose bits are `w` below bit `nbits` and zero above: a table row's word and a payload of zeros. -/
def tablePacket (nbits w : Nat) : List Byte :=
  bytesOfNat (4 + payloadLength (BitVec.ofNat 32 (w % 2 ^ nbits))) (w % 2 ^ nbits)

/-- The instruction the decoder reads from the word of a table row. -/
def decodeTableWord (nbits w : Nat) : Option Instr :=
  match decode (tablePacket nbits w) with
  | .ok i => some i
  | .error _ => none

end Sys2Proof
end

