-- ==== Sys2Proof/Machine/State.lean ====
section
/-! DEFINITION. The state of the block as plain data: everything spec/10_state.md names (R20 to R57), the input and output
of the interface, and the reset state of spec/70_reset_and_hazards.md R330. -/

namespace Sys2Proof.Machine

/-! ## Value sets of the phase and device registers -/

/-- The device state (R20). -/
inductive Dev where
  | uninit | idle | running | fault
deriving DecidableEq, Repr

/-- `start_ph` (R35): NEG from START_BEGIN (R232) until START_FIN (R233). -/
inductive StartPhase where
  | none | neg
deriving DecidableEq, Repr

/-- `stop_ph` (R35): DRAIN from STOP (R235) until STOP_END (R236). -/
inductive StopPhase where
  | none | drain
deriving DecidableEq, Repr

/-- `rec_ph` (R35): the step of the full recovery that is next (R211 to R214). -/
inductive RecPhase where
  | none | stopping | reinit | reapply | restart
deriving DecidableEq, Repr

/-- `neg`, the negotiation state machine (R162). -/
inductive NegState where
  | idle | advertising | negotiating | forced | resolved
deriving DecidableEq, Repr

/-- `neg_result` (R35), and what RESOLVE_LINK_MODE returns (R166). -/
inductive NegResult where
  | ok | negotiationTimeout
deriving DecidableEq, Repr

/-- The result codes of R300 that a response can hold. -/
inductive ResultCode where
  | ok | ringFull | deviceNotRunning | negTimeout | illegalCommand
deriving DecidableEq, Repr

/-! ## Link, configuration, counters, queues -/

/-- The link state (R30). -/
structure Link where
  speed   : Speed
  duplex  : Duplex
  carrier : Carrier
  negmode : NegMode
deriving DecidableEq, Repr

/-- `cfg.mode` (R32). -/
inductive CfgMode where
  | auto
  | forced (mode : LinkMode)
deriving DecidableEq, Repr

/-- The configuration state (R32). -/
structure Cfg where
  mac    : MacAddr
  mode   : CfgMode
  filter : Word
deriving DecidableEq, Repr

/-- The ten counters of R33, in its order. They are natural numbers (R12; CTR_W is OPEN: log 13). -/
structure Stats where
  interrupts     : Nat
  txPackets      : Nat
  rxPackets      : Nat
  rxCrcErrors    : Nat
  rxLengthErrors : Nat
  rxOverflow     : Nat
  rxDropped      : Nat
  txUnderflow    : Nat
  fatalErrors    : Nat
  stalls         : Nat
deriving DecidableEq, Repr

/-- An entry of the RX hand-off FIFO (R34). -/
inductive RxEntry where
  | data (bytes : List Byte)
  | err
deriving DecidableEq, Repr

/-- A frame on the wire and its underflow flag (R57). -/
structure WireFrame where
  bytes : List Byte
  unf   : Bool
deriving DecidableEq, Repr

/-! ## Registers, engines, PHY -/

/-- The registers of R39 that hold a value. DMA_TX_POLL and DMA_RX_POLL hold none (R45) and DMA_CUR_TX, DMA_CUR_RX are
computed from the base and the cursor (R52). -/
structure Regs where
  macCfg    : Word
  macFilter : Word
  miiAddr   : Word
  miiData   : Word
  macAddrHi : Word
  macAddrLo : Word
  dmaRxBase : Word
  dmaTxBase : Word
  dmaStatus : Word
  dmaOpmode : Word
  dmaIer    : Word
deriving DecidableEq, Repr

/-- The hidden state of one DMA engine (R50). -/
structure Engine where
  cur    : Nat
  susp   : Bool
  halted : Bool
deriving DecidableEq, Repr

/-- The PHY registers that keep what is written (R54): 0 BMCR, 4 ANAR, 9 GTCR. -/
structure Phy where
  bmcr : Half
  anar : Half
  gtcr : Half
deriving DecidableEq, Repr

/-! ## The interface -/

/-- What follows the response word (R115). -/
inductive RespPayload where
  | none
  | bytes (b : List Byte)
  | linkWord (w : Word)
  | counters (c : List Nat)
deriving DecidableEq, Repr

/-- An answer to the host (R110, R115). -/
structure Response where
  word    : Word
  payload : RespPayload
deriving DecidableEq, Repr

/-- What the last internal or environment step gave back to its invoker (the model's record, log 18). -/
inductive OpResult where
  /-- the step returns nothing -/
  | none
  /-- the step was not enabled and changed nothing else (log 6) -/
  | notEnabled
  /-- reclaimed descriptors (R132, R133) -/
  | count (n : Nat)
  /-- the PHY register read (R160) -/
  | phyWord (v : Half)
  /-- a result code and a byte count (R131) -/
  | enqueue (code : ResultCode) (n : Nat)
  /-- the result of the resolution (R166) -/
  | link (r : NegResult)
deriving DecidableEq, Repr

/-- Where a packet arrives (log 5): the host's command port, to which R116 applies, or the schedule of the block's agents
and its environment, whose words name the operations of R112. -/
inductive Port where
  | host | agent
deriving DecidableEq, Repr

/-- One item of the input: a packet, or a turn of the HOST agent for a START that is held (log 7). -/
inductive Item where
  | packet (port : Port) (bytes : List Byte)
  | hostTurn
deriving DecidableEq, Repr

/-! ## The state -/

/-- The memory: a list of address and byte pairs, addresses strictly rising, no entry equal to what an unlisted address
reads as (Machine/Ops.lean `Memory.wf`), so that equal memories are equal lists. -/
abbrev Memory := List Host.Cell

/-- The whole state. `mem` is the DMA memory, a list of address and byte pairs in the canonical form of Machine/Ops.lean;
the rings and buffer pools of R21 and R23 are decoded views of it (R73). The last five fields are the model's own. -/
structure State where
  params    : Params
  dev       : Dev
  link      : Link
  knownGood : BitVec 6
  cfg       : Cfg
  stats     : Stats
  txHead    : Nat
  txTail    : Nat
  rxHead    : Nat
  rxq       : List RxEntry
  startPh   : StartPhase
  stopPh    : StopPhase
  recPh     : RecPhase
  neg       : NegState
  negPolls  : Nat
  negResult : NegResult
  wdCur     : Nat
  wdCount   : Nat
  regs      : Regs
  tx        : Engine
  rx        : Engine
  phy       : Phy
  mem       : Memory
  wireTx    : List WireFrame
  resp      : Option Response
  tickResp  : Option Word
  startHeld : Bool
  ret       : OpResult
  script    : List Item
  phyIn     : List Half
  drawCtr   : Nat
deriving DecidableEq, Repr

/-! ## Why a step stops -/

/-- The host duties of R302. -/
inductive HostDuty where
  /-- raised by SEND (R117, R238) and by ENQUEUE_TX on a length its caller must have checked (R131, log 12); safe -/
  | sendLength
  /-- raised by every command but ATTACH and STOP while the device is UNINIT (R231, R246); safe -/
  | notAttached
  /-- raised by ATTACH when the device is not UNINIT (R230); safe -/
  | reattach
  /-- raised by every command issued while START or STOP is unanswered (R245); safe -/
  | concurrent
deriving DecidableEq, Repr

/-- The model faults of R302: the run ends and no state change of the step is kept. -/
inductive Fault where
  /-- raised by the host commands and by ENQUEUE_TX; safe: the run ends where the spec ends it -/
  | hostDuty (duty : HostDuty)
deriving DecidableEq, Repr

/-- What the model gives no step. -/
inductive Refusal where
  /-- raised by an arm of exec for an instruction that has no meaning yet; safe -/
  | notModelled (mnemonic : String)
  /-- raised by step when the parameters break R7 or R79 (R75, R304); safe -/
  | illFormedInstance
  /-- raised by step for host bytes that are no packet of R118 (log 25); safe -/
  | malformedPacket
  /-- raised by step for scheduled bytes that name no operation of R113 (log 25); safe -/
  | undecodableItem
deriving DecidableEq, Repr

/-! ## Reset -/

/-- The reset column of R39. -/
def Regs.reset (p : Params) : Regs where
  macCfg    := if p.macGigabit then 0 else 0x00008000
  macFilter := 0
  miiAddr   := 0
  miiData   := 0
  macAddrHi := 0
  macAddrLo := 0
  dmaRxBase := 0
  dmaTxBase := 0
  dmaStatus := 0
  dmaOpmode := 0
  dmaIer    := 0

/-- R50. -/
def Engine.reset : Engine where
  cur    := 0
  susp   := false
  halted := false

/-- R30, R330. -/
def Link.reset : Link where
  speed   := .s10
  duplex  := .half
  carrier := .down
  negmode := .auto

/-- R32, R330. -/
def Cfg.reset : Cfg where
  mac    := ⟨0, 0, 0, 0, 0, 0⟩
  mode   := .auto
  filter := 0

/-- R33, R330. -/
def Stats.zero : Stats where
  interrupts     := 0
  txPackets      := 0
  rxPackets      := 0
  rxCrcErrors    := 0
  rxLengthErrors := 0
  rxOverflow     := 0
  rxDropped      := 0
  txUnderflow    := 0
  fatalErrors    := 0
  stalls         := 0

/-- The reset state of the instance with parameters `p` (R330, R331). Chosen by the model: the PHY registers (log 3), what
memory with nothing listed reads as (log 2), and the model's own fields (logs 4, 7, 10, 18). -/
def State.resetOf (p : Params) : State where
  params    := p
  dev       := .uninit
  link      := Link.reset
  knownGood := 0
  cfg       := Cfg.reset
  stats     := Stats.zero
  txHead    := 0
  txTail    := 0
  rxHead    := 0
  rxq       := []
  startPh   := .none
  stopPh    := .none
  recPh     := .none
  neg       := .idle
  negPolls  := 0
  negResult := .ok
  wdCur     := 0
  wdCount   := 0
  regs      := Regs.reset p
  tx        := Engine.reset
  rx        := Engine.reset
  phy       := ⟨0, 0, 0⟩
  mem       := []
  wireTx    := []
  resp      := none
  tickResp  := none
  startHeld := false
  ret       := .none
  script    := []
  phyIn     := []
  drawCtr   := 0

/-- The machine right after reset: the standard instance (log 1). -/
def State.reset : State := State.resetOf Params.standard

end Sys2Proof.Machine
end

