-- ==== Sys2Proof/Machine/Flags.lean ====
section
/-! DEFINITION. The flags of the block (spec/10_state.md R56): the bits of MAC_CFG, DMA_STATUS, DMA_OPMODE and DMA_IER, what
a register write keeps of a word, the interrupt line, and the words the sequencer composes. -/

namespace Sys2Proof.Machine

/-! ## DMA_STATUS and DMA_IER (R47, R49) -/

/-- TX descriptor completed. -/
def stTXD : Word := 0x01
/-- TX engine found a SW-owned descriptor and suspended. -/
def stTXU : Word := 0x02
/-- RX descriptor completed. -/
def stRXD : Word := 0x04
/-- RX engine found a SW-owned descriptor for an arriving frame and suspended. -/
def stRXU : Word := 0x08
/-- Fatal bus error. -/
def stFBE : Word := 0x10
/-- PHY link-status change. -/
def stLSC : Word := 0x20

/-- All six enables, the constant of spec/42_interrupt_engine.md. -/
def ieAll : Word := 0x0000003F

/-- A bit of a word given by its mask is 1. -/
def hasFlag (w flag : Word) : Bool := w &&& flag ≠ 0

/-! ## What a write keeps (R40 to R49): reserved bits read 0 and ignore writes -/

/-- RE 2, TE 3, DM 11, FES 14, PS 15 (R41). -/
def macCfgMask : Word := 0x0000C80C
/-- GB 0, GW 1, GR 10:6, PA 15:11 (R43). -/
def miiAddrMask : Word := 0x0000FFC3
/-- MII_DATA and MAC_ADDR_HI hold 16 bits (R43, R44). -/
def low16Mask : Word := 0x0000FFFF
/-- Bits 31:4 of a base (R46). -/
def baseMask : Word := 0xFFFFFFF0
/-- SR 1, ST 13 (R48). -/
def opmodeMask : Word := 0x00002002
/-- The six status bits and enables (R47, R49). -/
def statusMask : Word := 0x0000003F

/-- MAC_CFG after a write of `v`: PS is hardwired to 1 when the MAC has no gigabit (R41). -/
def macCfgWrite (gigabit : Bool) (v : Word) : Word :=
  if gigabit then v &&& macCfgMask else (v &&& macCfgMask) ||| 0x00008000

/-- MII_ADDR after a write of `v`: a write of 1 sets GB, a write of 0 leaves it (R43). -/
def miiAddrWrite (old v : Word) : Word := (v &&& 0x0000FFC2) ||| ((old ||| v) &&& 1)

/-- DMA_STATUS after a write of `v`: write 1 to clear (R47). -/
def w1c (old v : Word) : Word := old &&& statusMask &&& ~~~v

/-! ## Enables and the line -/

/-- RE (R41), SR (R48): the receive direction's enables. -/
def flagRE : Word := 0x00000004
def flagSR : Word := 0x00000002
/-- TE (R41), ST (R48): the transmit direction's enables. -/
def flagTE : Word := 0x00000008
def flagST : Word := 0x00002000
/-- Both start bits, 1 << 13 | 1 << 1 (R170, R214, R233). -/
def opmodeRun : Word := 0x00002002

/-- The interrupt line (R310). -/
def lineAsserted (r : Regs) : Bool := r.dmaStatus &&& r.dmaIer &&& statusMask ≠ 0

/-- TXDMA_STEP is enabled (R260). -/
def txEnabled (s : State) : Bool :=
  hasFlag s.regs.dmaOpmode flagST && hasFlag s.regs.macCfg flagTE && !s.tx.halted && !s.tx.susp

/-- RXDMA_FRAME is enabled (R260): a frame can arrive while the engine is suspended. -/
def rxEnabled (s : State) : Bool :=
  hasFlag s.regs.dmaOpmode flagSR && hasFlag s.regs.macCfg flagRE && !s.rx.halted

/-- BUS_ERROR is enabled (R260): an engine has its start bit set and is not halted. -/
def busErrorEnabled (s : State) : Bool :=
  (hasFlag s.regs.dmaOpmode flagST && !s.tx.halted) || (hasFlag s.regs.dmaOpmode flagSR && !s.rx.halted)

/-- An ISR invocation is enabled (R199). -/
def isrEnabled (s : State) : Bool := lineAsserted s.regs || s.params.sharedLine

/-- A START or STOP is unanswered (R245): START until START_FIN or while it is held, STOP until STOP_END. -/
def unanswered (s : State) : Bool := s.startPh ≠ .none || s.stopPh ≠ .none || s.startHeld

/-! ## Words the sequencer composes -/

/-- A word with bit `n` equal to `b`. -/
def bitAt (n : Nat) (b : Bool) : Word := if b then (1 : Word) <<< n else 0

/-- `mac_cfg(speed, duplex, en)` (R169). -/
def macCfgWord (speed : Speed) (duplex : Duplex) (en : Bool) : Word :=
  bitAt 2 en ||| bitAt 3 en ||| bitAt 11 (duplex = .full) ||| bitAt 14 (speed = .s100) ||| bitAt 15 (speed ≠ .s1000)

/-- MII_ADDR of a management cycle: PHY_ADDR << 11 | reg << 6 | GW << 1 | GB (R160, R161). -/
def miiCommand (phyAddr reg : BitVec 5) (write : Bool) : Word :=
  (phyAddr.setWidth 32 <<< 11) ||| (reg.setWidth 32 <<< 6) ||| bitAt 1 write ||| 1

/-! ## PHY register bits (R53) -/

/-- BMSR bit 5, AN_COMPLETE. -/
def anComplete (bmsr : Half) : Bool := bmsr.getLsbD 5

/-- The carrier BMSR bit 2 (LINK) reports. -/
def carrierOf (bmsr : Half) : Carrier := if bmsr.getLsbD 2 then .up else .down

/-- ANAR for an advertise mask (R163): selector 00001, the 10 and 100 modes in bits 8:5. -/
def anarWord (adv : BitVec 6) : Half :=
  (if adv.getLsbD 3 then 0x100 else 0) ||| (if adv.getLsbD 2 then 0x080 else 0)
    ||| (if adv.getLsbD 1 then 0x040 else 0) ||| (if adv.getLsbD 0 then 0x020 else 0) ||| 0x001

/-- GTCR for an advertise mask (R163). -/
def gtcrWord (adv : BitVec 6) : Half :=
  (if adv.getLsbD 5 then 0x200 else 0) ||| (if adv.getLsbD 4 then 0x100 else 0)

/-- BMCR of the auto path: AN_EN and RESTART_AN, 1 << 12 | 1 << 9 (R163). -/
def bmcrRestart : Half := 0x1200

/-- BMCR of the forced path: bit 13 for 100, bit 8 for FULL, bit 6 for 1000, AN_EN = 0 (R168). -/
def bmcrForced (speed : Speed) (duplex : Duplex) : Half :=
  (if speed = .s100 then 0x2000 else 0) ||| (if duplex = .full then 0x0100 else 0)
    ||| (if speed = .s1000 then 0x0040 else 0)

end Sys2Proof.Machine
end

