-- ==== Sys2Proof/Machine/Operands.lean ====
section
/-! DEFINITION. The forms the operations read and write: descriptors and their four words (spec/10_state.md R25,
spec/30_encoding.md R100 to R104), modes and the mode mask (R16, R167), the MAC address words (R44), the response and link
words (R115, R243), and the counters in order (R33). -/

namespace Sys2Proof.Machine

/-! ## Descriptors -/

/-- A descriptor, the abstract view of R25. `own` is true when the descriptor is HW-owned. -/
structure Desc where
  own   : Bool
  len   : BitVec 14
  flen  : BitVec 14
  fs    : Bool
  ls    : Bool
  wrap  : Bool
  chain : Bool
  crc   : Bool
  lerr  : Bool
  ovf   : Bool
  unf   : Bool
  buf   : Word
  next  : Word
deriving DecidableEq, Repr

/-- All fields 0, as INIT_RING starts from (R130). -/
def Desc.zero : Desc where
  own   := false
  len   := 0
  flen  := 0
  fs    := false
  ls    := false
  wrap  := false
  chain := false
  crc   := false
  lerr  := false
  ovf   := false
  unf   := false
  buf   := 0
  next  := 0

/-- One bit as a bit vector, for composing a word. -/
abbrev bit1 (b : Bool) : BitVec 1 := BitVec.ofBool b

/-- DES0, status (R101). A TX descriptor has OWN and UNF there, an RX descriptor OWN, FLEN, FS, LS, OVF, LERR, CRC. -/
def des0 (k : RingKind) (d : Desc) : Word :=
  match k with
  | .tx => bit1 d.own ++ (0 : BitVec 30) ++ bit1 d.unf
  | .rx => bit1 d.own ++ (0 : BitVec 1) ++ d.flen ++ (0 : BitVec 6) ++ bit1 d.fs ++ bit1 d.ls ++ (0 : BitVec 5)
      ++ bit1 d.ovf ++ bit1 d.lerr ++ bit1 d.crc

/-- DES1, control (R102). FS and LS are there in a TX descriptor only. -/
def des1 (k : RingKind) (d : Desc) : Word :=
  match k with
  | .tx => (0 : BitVec 1) ++ bit1 d.fs ++ bit1 d.ls ++ (0 : BitVec 3) ++ bit1 d.wrap ++ bit1 d.chain
      ++ (0 : BitVec 10) ++ d.len
  | .rx => (0 : BitVec 6) ++ bit1 d.wrap ++ bit1 d.chain ++ (0 : BitVec 10) ++ d.len

/-- The descriptor four words hold (R104). Reserved bits are ignored. -/
def descOfWords (k : RingKind) (w0 w1 w2 w3 : Word) : Desc :=
  match k with
  | .tx => {
      own := w0.getLsbD 31, unf := w0.getLsbD 0, flen := 0, crc := false, lerr := false, ovf := false
      fs := w1.getLsbD 30, ls := w1.getLsbD 29, wrap := w1.getLsbD 25, chain := w1.getLsbD 24
      len := w1.extractLsb' 0 14, buf := w2, next := w3 }
  | .rx => {
      own := w0.getLsbD 31, unf := false, flen := w0.extractLsb' 16 14
      fs := w0.getLsbD 9, ls := w0.getLsbD 8, ovf := w0.getLsbD 2, lerr := w0.getLsbD 1, crc := w0.getLsbD 0
      wrap := w1.getLsbD 25, chain := w1.getLsbD 24
      len := w1.extractLsb' 0 14, buf := w2, next := w3 }

/-- The fields a descriptor of the other ring would have are 0: what the four words can hold (R25 "RX only", "TX"). -/
def Desc.fits (k : RingKind) (d : Desc) : Prop :=
  match k with
  | .tx => d.flen = 0 ∧ d.crc = false ∧ d.lerr = false ∧ d.ovf = false
  | .rx => d.unf = false

/-! ## Indices (R11) -/

/-- `next_N(i)`. -/
def nextIndex (n i : Nat) : Nat := (i + 1) % n

/-! ## Modes (R16, R167) -/

/-- The bit number of a mode in the capability mask. -/
def modeIndex (m : LinkMode) : Nat :=
  match m.speed, m.duplex with
  | .s10, .half => 0
  | .s10, .full => 1
  | .s100, .half => 2
  | .s100, .full => 3
  | .s1000, .half => 4
  | .s1000, .full => 5

/-- `bit(m)`: the mask with only the bit of `m`. -/
def modeBit (m : LinkMode) : BitVec 6 := (1 : BitVec 6) <<< modeIndex m

/-- `highest(mask)`: the mode of the highest set bit (R167). It is used with a mask that is not 0. -/
def highestMode (mask : BitVec 6) : LinkMode :=
  if mask.getLsbD 5 then ⟨.s1000, .full⟩
  else if mask.getLsbD 4 then ⟨.s1000, .half⟩
  else if mask.getLsbD 3 then ⟨.s100, .full⟩
  else if mask.getLsbD 2 then ⟨.s100, .half⟩
  else if mask.getLsbD 1 then ⟨.s10, .full⟩
  else ⟨.s10, .half⟩

/-- `fallback_mode()` for a known-good mask (R165). -/
def fallbackMode (knownGood : BitVec 6) : LinkMode :=
  if knownGood ≠ 0 then highestMode knownGood else ⟨.s10, .half⟩

/-- The modes common to this device and its partner (R166): `la`, `lp` from registers 4 and 5; `es`, `gc`, `gs` from 15, 9
and 10, which count only when the MAC has gigabit. -/
def commonModes (gigabit : Bool) (la lp es gc gs : Half) : BitVec 6 :=
  bit1 (gigabit && es.getLsbD 13 && gc.getLsbD 9 && gs.getLsbD 11)
    ++ bit1 (gigabit && es.getLsbD 12 && gc.getLsbD 8 && gs.getLsbD 10)
    ++ bit1 (la.getLsbD 8 && lp.getLsbD 8) ++ bit1 (la.getLsbD 7 && lp.getLsbD 7)
    ++ bit1 (la.getLsbD 6 && lp.getLsbD 6) ++ bit1 (la.getLsbD 5 && lp.getLsbD 5)

/-! ## Words of the interface -/

/-- `mac_hi()` (R44): mac[5], mac[4] in bits 15:0. -/
def macHi (m : MacAddr) : Word := (0 : BitVec 16) ++ m.b5 ++ m.b4

/-- `mac_lo()` (R44): mac[3], mac[2], mac[1], mac[0]. -/
def macLo (m : MacAddr) : Word := m.b3 ++ m.b2 ++ m.b1 ++ m.b0

/-- The result codes of R300. -/
def resultByte : ResultCode → Byte
  | .ok => 0x00
  | .ringFull => 0x01
  | .deviceNotRunning => 0x02
  | .negTimeout => 0x03
  | .illegalCommand => 0x7F

/-- The response word (R115): value in bits 31:16, code in bits 7:0. -/
def responseWord (code : ResultCode) (value : Nat) : Word :=
  BitVec.ofNat 16 value ++ (0 : BitVec 8) ++ resultByte code

/-- The code START answers with (R234). -/
def negCode : NegResult → ResultCode
  | .ok => .ok
  | .negotiationTimeout => .negTimeout

/-- The link word of GET_LINK_STATE (R243). -/
def linkWord (l : Link) : Word :=
  (0 : BitVec 27) ++ bit1 (l.negmode = .forced) ++ bit1 (l.carrier = .up) ++ bit1 (l.duplex = .full)
    ++ speedCode l.speed

/-- The ten counters in the order of R33 (R244). -/
def countersOf (c : Stats) : List Nat :=
  [c.interrupts, c.txPackets, c.rxPackets, c.rxCrcErrors, c.rxLengthErrors, c.rxOverflow, c.rxDropped, c.txUnderflow,
    c.fatalErrors, c.stalls]

end Sys2Proof.Machine
end

