-- ==== Sys2Proof/Machine/Ops.lean ====
section
/-! DEFINITION. The shared operations: DMA memory (spec/20_memory.md R70 to R74), the rings and buffers as views of it (R73),
the register block (spec/10_state.md R39 to R52), PHY management (R53, R54), the well-formedness of an instance (R7, R75,
R79), the responses (R115), and what stands for exceptions on this block: the status snapshot of an interrupt (R313), the
fatal bus error (R266) and the host-duty fault (R302). -/

namespace Sys2Proof.Machine

/-! ## DMA memory -/

/-- What an address nothing has written reads as. DESIGN CHOICE, unsafe (log 2): the spec says any byte (R21, R23). -/
def unlistedByte : Byte := 0

/-- The byte at an address. -/
def Memory.read : Memory → Nat → Byte
  | [], _ => unlistedByte
  | (k, b) :: rest, a => if k = a then b else Memory.read rest a

/-- Put a byte in front of a list whose addresses are all higher, keeping the canonical form. -/
def Memory.consCell (a : Nat) (b : Byte) (m : Memory) : Memory := if b = unlistedByte then m else (a, b) :: m

/-- Store one byte. -/
def Memory.write : Memory → Nat → Byte → Memory
  | [], a, b => Memory.consCell a b []
  | (k, c) :: rest, a, b =>
    if a < k then Memory.consCell a b ((k, c) :: rest)
    else if a = k then Memory.consCell a b rest
    else (k, c) :: Memory.write rest a b

/-- An address is above a bound, if there is one. -/
def Memory.above : Option Nat → Nat → Bool
  | none, _ => true
  | some lo, a => lo < a

/-- Every address of the list is above `lo`, they rise strictly, and no byte is the unlisted one. -/
def Memory.wfFrom : Option Nat → Memory → Bool
  | _, [] => true
  | lo, (k, b) :: rest => Memory.above lo k && b ≠ unlistedByte && Memory.wfFrom (some k) rest

/-- The canonical form. -/
def Memory.wf (m : Memory) : Bool := Memory.wfFrom none m

/-- `MemRead(a, 4)` (R71). -/
def Memory.read32 (m : Memory) (a : Nat) : Word :=
  bytesWord (m.read a) (m.read (a + 1)) (m.read (a + 2)) (m.read (a + 3))

/-- Store bytes at consecutive addresses, the first at the lowest. -/
def Memory.writeBytes : Memory → Nat → List Byte → Memory
  | m, _, [] => m
  | m, a, b :: rest => Memory.writeBytes (m.write a b) (a + 1) rest

/-- `MemWrite(a, 4, v)` (R72). -/
def Memory.write32 (m : Memory) (a : Nat) (v : Word) : Memory := m.writeBytes a (wordBytes v)

/-- The `n` bytes from an address on. -/
def Memory.readBytes (m : Memory) : Nat → Nat → List Byte
  | _, 0 => []
  | a, n + 1 => m.read a :: Memory.readBytes m (a + 1) n

/-! ## Rings and buffers in memory (R73) -/

def ringSize (p : Params) : RingKind → Nat
  | .tx => p.nTx
  | .rx => p.nRx

def ringMode (p : Params) : RingKind → RingMode
  | .tx => p.modeTx
  | .rx => p.modeRx

def descBase (p : Params) : RingKind → Word
  | .tx => p.txDescBase
  | .rx => p.rxDescBase

def bufBase (p : Params) : RingKind → Word
  | .tx => p.txBufBase
  | .rx => p.rxBufBase

/-- The address of descriptor `i`: base + 16 i. -/
def descAddr (p : Params) (k : RingKind) (i : Nat) : Nat := (descBase p k).toNat + 16 * i

/-- The address of buffer `i`: base + BUF_STRIDE i. -/
def bufAddr (p : Params) (k : RingKind) (i : Nat) : Nat := (bufBase p k).toNat + p.bufStride * i

/-- Descriptor `i` of a ring, decoded from its 16 bytes (R100, R104). -/
def readDesc (p : Params) (k : RingKind) (m : Memory) (i : Nat) : Desc :=
  descOfWords k (m.read32 (descAddr p k i)) (m.read32 (descAddr p k i + 4)) (m.read32 (descAddr p k i + 8))
    (m.read32 (descAddr p k i + 12))

/-- Write the whole descriptor `i`, DES0 with OWN last (R82, R104). -/
def writeDesc (p : Params) (k : RingKind) (m : Memory) (i : Nat) (d : Desc) : Memory :=
  (((m.write32 (descAddr p k i + 4) (des1 k d)).write32 (descAddr p k i + 8) d.buf).write32
    (descAddr p k i + 12) d.next).write32 (descAddr p k i) (des0 k d)

/-- The DMA engine's write-back: DES0 alone, status and OWN in one write (R261, R264). -/
def writeStatus (p : Params) (k : RingKind) (m : Memory) (i : Nat) (d : Desc) : Memory :=
  m.write32 (descAddr p k i) (des0 k d)

/-- `txd[i]`, `rxd[i]`. -/
def State.desc (s : State) (k : RingKind) (i : Nat) : Desc := readDesc s.params k s.mem i

/-- The first `n` bytes of `txb[i]`, `rxb[i]`. -/
def State.bufBytes (s : State) (k : RingKind) (i n : Nat) : List Byte := s.mem.readBytes (bufAddr s.params k i) n

/-- A slot of the TX ring is outstanding (R27). -/
def State.outstanding (s : State) (i : Nat) : Bool := (s.desc .tx i).own || (s.desc .tx i).len ≠ 0

/-! ## Named updates of the state -/

def State.setMem (s : State) (m : Memory) : State := { s with mem := m }
def State.setRegs (s : State) (r : Regs) : State := { s with regs := r }
def State.setTx (s : State) (e : Engine) : State := { s with tx := e }
def State.setRx (s : State) (e : Engine) : State := { s with rx := e }
def State.setStats (s : State) (c : Stats) : State := { s with stats := c }
def State.setLink (s : State) (l : Link) : State := { s with link := l }
def State.setRet (s : State) (r : OpResult) : State := { s with ret := r }

/-! ## Statistics: one event counts 1 (R12) -/

def Stats.countInterrupt (c : Stats) : Stats := { c with interrupts := c.interrupts + 1 }
def Stats.countTxPacket (c : Stats) : Stats := { c with txPackets := c.txPackets + 1 }
def Stats.countRxPacket (c : Stats) : Stats := { c with rxPackets := c.rxPackets + 1 }
def Stats.countRxDropped (c : Stats) : Stats := { c with rxDropped := c.rxDropped + 1 }
def Stats.countTxUnderflow (c : Stats) : Stats := { c with txUnderflow := c.txUnderflow + 1 }
def Stats.countFatal (c : Stats) : Stats := { c with fatalErrors := c.fatalErrors + 1 }
def Stats.countStall (c : Stats) : Stats := { c with stalls := c.stalls + 1 }

/-! ## The register block -/

/-- The registers of R39. -/
inductive Reg where
  | macCfg | macFilter | miiAddr | miiData | macAddrHi | macAddrLo | dmaTxPoll | dmaRxPoll | dmaRxBase | dmaTxBase
  | dmaStatus | dmaOpmode | dmaIer | dmaCurTx | dmaCurRx
deriving DecidableEq, Repr

/-- The offsets of R39; an offset not listed is no register. -/
def regAt (off : Nat) : Option Reg :=
  if off = 0x000 then some .macCfg
  else if off = 0x004 then some .macFilter
  else if off = 0x010 then some .miiAddr
  else if off = 0x014 then some .miiData
  else if off = 0x040 then some .macAddrHi
  else if off = 0x044 then some .macAddrLo
  else if off = 0x1004 then some .dmaTxPoll
  else if off = 0x1008 then some .dmaRxPoll
  else if off = 0x100C then some .dmaRxBase
  else if off = 0x1010 then some .dmaTxBase
  else if off = 0x1014 then some .dmaStatus
  else if off = 0x1018 then some .dmaOpmode
  else if off = 0x101C then some .dmaIer
  else if off = 0x1048 then some .dmaCurTx
  else if off = 0x104C then some .dmaCurRx
  else none

/-- The value a register reads as (R40 to R49, R52): reserved bits read 0, the poll registers read 0. -/
def readReg (s : State) : Reg → Word
  | .macCfg => macCfgWrite s.params.macGigabit s.regs.macCfg
  | .macFilter => s.regs.macFilter
  | .miiAddr => s.regs.miiAddr &&& miiAddrMask
  | .miiData => s.regs.miiData &&& low16Mask
  | .macAddrHi => s.regs.macAddrHi &&& low16Mask
  | .macAddrLo => s.regs.macAddrLo
  | .dmaTxPoll => 0
  | .dmaRxPoll => 0
  | .dmaRxBase => s.regs.dmaRxBase &&& baseMask
  | .dmaTxBase => s.regs.dmaTxBase &&& baseMask
  | .dmaStatus => s.regs.dmaStatus &&& statusMask
  | .dmaOpmode => s.regs.dmaOpmode &&& opmodeMask
  | .dmaIer => s.regs.dmaIer &&& statusMask
  | .dmaCurTx => (s.regs.dmaTxBase &&& baseMask) + BitVec.ofNat 32 (16 * s.tx.cur)
  | .dmaCurRx => (s.regs.dmaRxBase &&& baseMask) + BitVec.ofNat 32 (16 * s.rx.cur)

/-- A write to a register, by the write rules of its fields (R40 to R49) and with the side effects of R77: a poll demand
clears `susp`, a base write resets the engine. -/
def writeReg (s : State) (r : Reg) (v : Word) : State :=
  match r with
  | .macCfg => s.setRegs { s.regs with macCfg := macCfgWrite s.params.macGigabit v }
  | .macFilter => s.setRegs { s.regs with macFilter := v }
  | .miiAddr => s.setRegs { s.regs with miiAddr := miiAddrWrite s.regs.miiAddr v }
  | .miiData => s.setRegs { s.regs with miiData := v &&& low16Mask }
  | .macAddrHi => s.setRegs { s.regs with macAddrHi := v &&& low16Mask }
  | .macAddrLo => s.setRegs { s.regs with macAddrLo := v }
  | .dmaTxPoll => s.setTx { s.tx with susp := false }
  | .dmaRxPoll => s.setRx { s.rx with susp := false }
  | .dmaRxBase => (s.setRegs { s.regs with dmaRxBase := v &&& baseMask }).setRx Engine.reset
  | .dmaTxBase => (s.setRegs { s.regs with dmaTxBase := v &&& baseMask }).setTx Engine.reset
  | .dmaStatus => s.setRegs { s.regs with dmaStatus := w1c s.regs.dmaStatus v }
  | .dmaOpmode => s.setRegs { s.regs with dmaOpmode := v &&& opmodeMask }
  | .dmaIer => s.setRegs { s.regs with dmaIer := v &&& statusMask }
  | .dmaCurTx => s
  | .dmaCurRx => s

/-- `RegRead(off)` (R39, R40). -/
def regRead (s : State) (off : Nat) : Word :=
  match regAt off with
  | some r => readReg s r
  | none => 0

/-- `RegWrite(off, v)` (R39, R40). -/
def regWrite (s : State) (off : Nat) (v : Word) : State :=
  match regAt off with
  | some r => writeReg s r v
  | none => s

/-- The hardware sets a status bit (R47): the event named by the mask. -/
def setStatus (s : State) (flag : Word) : State := s.setRegs { s.regs with dmaStatus := s.regs.dmaStatus ||| flag }

/-! ## PHY management (R53, R54, R160, R161, R270) -/

/-- The next value the PHY agent draws: the first of the input's, or a free value (log 10). -/
def drawPhy (s : State) : Half × State :=
  match s.phyIn with
  | v :: rest => (v, { s with phyIn := rest })
  | [] => (Config.freePhyRead s.drawCtr, { s with drawCtr := s.drawCtr + 1 })

/-- BMCR bit 9, RESTART_AN, reads 0 (R54). -/
def bmcrRead (v : Half) : Half := v &&& 0xFDFF

/-- What the PHY answers to a read of a register: 0, 4 and 9 the last value written, every other number a draw (R54, R270). -/
def phyRegister (s : State) (reg : BitVec 5) : Half × State :=
  if reg = 0 then (bmcrRead s.phy.bmcr, s)
  else if reg = 4 then (s.phy.anar, s)
  else if reg = 9 then (s.phy.gtcr, s)
  else drawPhy s

/-- A write to a PHY register: 0, 4 and 9 keep the value, every other number ignores it (R161). -/
def phyStore (s : State) (reg : BitVec 5) (v : Half) : State :=
  if reg = 0 then { s with phy := { s.phy with bmcr := v } }
  else if reg = 4 then { s with phy := { s.phy with anar := v } }
  else if reg = 9 then { s with phy := { s.phy with gtcr := v } }
  else s

/-- The end of a management cycle: GB reads 0 again (R160, R272). -/
def clearBusy (s : State) : State := s.setRegs { s.regs with miiAddr := s.regs.miiAddr &&& 0x0000FFC2 }

/-- `MdioRead(reg)` (R160): the value, and the state after the cycle. -/
def mdioRead (s : State) (reg : BitVec 5) : Half × State :=
  let r := phyRegister (writeReg s .miiAddr (miiCommand s.params.phyAddr reg false)) reg
  (r.1, clearBusy (writeReg r.2 .miiData (r.1.setWidth 32)))

/-- `MdioWrite(reg, v)` (R161). -/
def mdioWrite (s : State) (reg : BitVec 5) (v : Half) : State :=
  clearBusy (phyStore (writeReg (writeReg s .miiData (v.setWidth 32)) .miiAddr (miiCommand s.params.phyAddr reg true))
    reg v)

/-! ## Instances (R7, R75, R79, R304) -/

/-- Two address ranges, each a base and a size in bytes, do not meet. -/
def disjoint (a b : Nat × Nat) : Bool := a.1 + a.2 ≤ b.1 || b.1 + b.2 ≤ a.1

/-- The range of a descriptor ring. -/
def descRange (p : Params) (k : RingKind) : Nat × Nat := ((descBase p k).toNat, 16 * ringSize p k)

/-- The range of a buffer pool, from its first byte to its last (log 14). -/
def bufRange (p : Params) (k : RingKind) : Nat × Nat :=
  ((bufBase p k).toNat, p.bufStride * (ringSize p k - 1) + p.bufSize)

/-- The range of the register block, to the end of its last register 0x104C (log 14). -/
def mmioRange (p : Params) : Nat × Nat := (p.mmioBase.toNat, 0x1050)

/-- Below 2^32. -/
def inSpace (r : Nat × Nat) : Bool := r.1 + r.2 ≤ 2 ^ 32

/-- The parameters keep R7's bounds and alignments. -/
def boundsOk (p : Params) : Bool :=
  decide (1 ≤ p.nTx ∧ p.nTx ≤ 4096 ∧ 1 ≤ p.nRx ∧ p.nRx ≤ 4096 ∧ 1 ≤ p.bufSize ∧ p.bufSize ≤ 16383
    ∧ p.bufSize ≤ p.bufStride ∧ p.bufStride % 4 = 0
    ∧ p.txDescBase.toNat % 16 = 0 ∧ p.rxDescBase.toNat % 16 = 0
    ∧ p.txBufBase.toNat % 4 = 0 ∧ p.rxBufBase.toNat % 4 = 0 ∧ p.mmioBase.toNat % 4 = 0
    ∧ 1 ≤ p.negPollMax ∧ 1 ≤ p.rxqDepth ∧ 1 ≤ p.stallTicks
    ∧ (p.macGigabit = true ∨ p.advCaps.getLsbD 5 = false ∧ p.advCaps.getLsbD 4 = false))

/-- The regions are below 2^32 and pairwise disjoint (R79). -/
def regionsOk (p : Params) : Bool :=
  decide (inSpace (descRange p .tx) = true ∧ inSpace (descRange p .rx) = true ∧ inSpace (bufRange p .tx) = true
    ∧ inSpace (bufRange p .rx) = true ∧ inSpace (mmioRange p) = true
    ∧ disjoint (descRange p .tx) (descRange p .rx) = true
    ∧ disjoint (descRange p .tx) (bufRange p .tx) = true ∧ disjoint (descRange p .tx) (bufRange p .rx) = true
    ∧ disjoint (descRange p .rx) (bufRange p .tx) = true ∧ disjoint (descRange p .rx) (bufRange p .rx) = true
    ∧ disjoint (bufRange p .tx) (bufRange p .rx) = true
    ∧ disjoint (mmioRange p) (descRange p .tx) = true ∧ disjoint (mmioRange p) (descRange p .rx) = true
    ∧ disjoint (mmioRange p) (bufRange p .tx) = true ∧ disjoint (mmioRange p) (bufRange p .rx) = true)

/-- The instance is well formed; an ill-formed one is refused (R304). -/
def paramsOk (p : Params) : Bool := boundsOk p && regionsOk p

/-! ## Answers to the host (R110, R115) -/

/-- Answer the host with a code, a value and a payload. -/
def respondWith (s : State) (code : ResultCode) (value : Nat) (payload : RespPayload) : State :=
  { s with resp := some ⟨responseWord code value, payload⟩ }

/-- Answer the host with a code alone. -/
def respond (s : State) (code : ResultCode) : State := respondWith s code 0 .none

/-- A command is taken and not yet answered (R245): the response register holds nothing (log 18). -/
def awaitAnswer (s : State) : State := { s with resp := none }

/-! ## What stands for exceptions -/

/-- Run a host command under the host duties (R245, R246): a command issued while another is unanswered, or before ATTACH,
is a fault (log 8). -/
def hostCommand (s : State) (k : State → State) : Host.Outcome State Fault Refusal :=
  if unanswered s then .fault (.hostDuty .concurrent)
  else if s.dev = .uninit then .fault (.hostDuty .notAttached)
  else .next (k s)

/-- A step that is not enabled takes no effect (R260, R303; log 6). -/
def notEnabled (s : State) : State := s.setRet .notEnabled

/-- ISR entry (R190 step 1, R313): the status snapshot, and the state with exactly the bits read cleared. -/
def statusSnapshot (s : State) : Word × State := (readReg s .dmaStatus, writeReg s .dmaStatus (readReg s .dmaStatus))

/-- A fatal bus error (R266): FBE set, both engines halted. -/
def raiseBusError (s : State) : State :=
  { setStatus s stFBE with tx := { s.tx with halted := true }, rx := { s.rx with halted := true } }

end Sys2Proof.Machine
end

