-- ==== Sys2Proof/Machine/Dma.lean ====
section
/-! DEFINITION. The DMA descriptor-chain controller and the environment (spec/45_dma_engines.md R260 to R272). Every value the
environment chooses is an operand of the step (R267, log 9). -/

namespace Sys2Proof.Machine

/-- The engine of a ring. -/
def State.engine (s : State) : RingKind → Engine
  | .tx => s.tx
  | .rx => s.rx

def State.setEngine (s : State) (k : RingKind) (e : Engine) : State :=
  match k with
  | .tx => s.setTx e
  | .rx => s.setRx e

/-- `B_E`, the base register of an engine (R46). -/
def engineBase (s : State) : RingKind → Word
  | .tx => readReg s .dmaTxBase
  | .rx => readReg s .dmaRxBase

/-- The slot a `next` pointer names in a ring based at `base` (R262); none when it names no slot. -/
def chainSlot (base next n : Nat) : Option Nat :=
  if base ≤ next ∧ (next - base) % 16 = 0 ∧ (next - base) / 16 < n then some ((next - base) / 16) else none

/-- `succ(E, i)` (R262), read from the descriptor just completed; none is a bus error. -/
def dmaSucc (s : State) (k : RingKind) (i : Nat) (d : Desc) : Option Nat :=
  match ringMode s.params k with
  | .ring => if d.wrap then some 0 else if i + 1 < ringSize s.params k then some (i + 1) else none
  | .chain => chainSlot (engineBase s k).toNat d.next.toNat (ringSize s.params k)

/-- The cursor moves to the successor, or the step ends in a fatal bus error with the cursor unchanged (R263). -/
def advance (s : State) (k : RingKind) (i : Nat) (d : Desc) : State :=
  match dmaSucc s k i d with
  | some j => s.setEngine k { s.engine k with cur := j }
  | none => raiseBusError s

/-- The engine found a SW-owned descriptor: the status bit set, the engine suspended (R261, R265). -/
def suspend (s : State) (k : RingKind) (flag : Word) : State :=
  (setStatus s flag).setEngine k { s.engine k with susp := true }

/-! ## TXDMA_STEP (R261) -/

/-- The frame goes out, DES0 is written back in one write, TXD is set, the cursor moves. -/
def txComplete (s : State) (underflow : Bool) : State :=
  let i := s.tx.cur
  let d := s.desc .tx i
  let s1 := { s with
    wireTx := s.wireTx ++ [⟨s.bufBytes .tx i d.len.toNat, underflow⟩]
    mem := writeStatus s.params .tx s.mem i { d with unf := underflow, own := false } }
  advance (setStatus s1 stTXD) .tx i d

/-- The TX engine examines its current descriptor. -/
def txdmaStep (s : State) (underflow : Bool) : State :=
  if (s.desc .tx s.tx.cur).own then txComplete s underflow else suspend s .tx stTXU

/-! ## RXDMA_FRAME (R264, R265) -/

/-- The completion of an arriving frame: at most `len` bytes of it fit (R264; an over-long frame is truncated and carries
LERR or OVF, log 11). -/
def rxComplete (s : State) (len : Nat) (bytes : List Byte) (crc lerr ovf : Bool) : State :=
  let i := s.rx.cur
  let d := s.desc .rx i
  let n := min len d.len.toNat
  let lerr' := lerr || (d.len.toNat < len && !ovf)
  let done : Desc :=
    { d with flen := BitVec.ofNat 14 n, fs := true, ls := true, crc := crc, lerr := lerr', ovf := ovf, own := false }
  let s1 := s.setMem
    (writeStatus s.params .rx (s.mem.writeBytes (bufAddr s.params .rx i) (bytes.take n)) i done)
  advance (setStatus s1 stRXD) .rx i d

/-- A frame arrives: lost while suspended, or lost with RXU on a SW-owned descriptor, or received. -/
def rxdmaFrame (s : State) (len : Nat) (bytes : List Byte) (crc lerr ovf : Bool) : State :=
  if s.rx.susp then s
  else if (s.desc .rx s.rx.cur).own then rxComplete s len bytes crc lerr ovf else suspend s .rx stRXU

/-! ## The meanings -/

/-- R261, enabled as R260 says. -/
def execTxdmaStep (underflow : Bool) (s : State) : Host.Outcome State Fault Refusal :=
  if txEnabled s then .next ((txdmaStep s underflow).setRet .none) else .next (notEnabled s)

/-- R264, enabled as R260 says. -/
def execRxdmaFrame (len : Half) (bytes : List Byte) (crc lerr ovf : Bool) (s : State) :
    Host.Outcome State Fault Refusal :=
  if rxEnabled s then .next ((rxdmaFrame s len.toNat bytes crc lerr ovf).setRet .none) else .next (notEnabled s)

/-- R266, enabled as R260 says. -/
def execBusError (s : State) : Host.Outcome State Fault Refusal :=
  if busErrorEnabled s then .next ((raiseBusError s).setRet .none) else .next (notEnabled s)

/-- R271, enabled after ATTACH (R260). -/
def execPhyLinkEvent (s : State) : Host.Outcome State Fault Refusal :=
  if s.dev = .uninit then .next (notEnabled s) else .next ((setStatus s stLSC).setRet .none)

end Sys2Proof.Machine
end

