-- ==== Sys2Proof/Machine/Ring.lean ====
section
/-! DEFINITION. The descriptor ring manager (spec/40_ring_manager.md R130 to R138): INIT_RING, ENQUEUE_TX, RECLAIM_TX,
RECLAIM_RX. Invoked by the host commands, the ISR and the recovery steps inside their own step; the exec meanings run one
alone, as the traces of spec/95_test_vectors.md do (log 5). -/

namespace Sys2Proof.Machine

/-! ## INIT_RING (R130) -/

/-- The descriptor INIT_RING writes into slot `i`. -/
def freshDesc (p : Params) (k : RingKind) (i : Nat) : Desc :=
  { Desc.zero with
    buf := BitVec.ofNat 32 (bufAddr p k i)
    wrap := ringMode p k = .ring && i = ringSize p k - 1
    chain := ringMode p k = .chain
    next := if ringMode p k = .chain then BitVec.ofNat 32 (descAddr p k (nextIndex (ringSize p k) i)) else 0
    len := if k = .rx then BitVec.ofNat 14 p.bufSize else 0
    own := k = .rx }

/-- Slots `0 .. n-1` freshly written. -/
def initDescs (p : Params) (k : RingKind) : Nat → Memory → Memory
  | 0, m => m
  | n + 1, m => writeDesc p k (initDescs p k n m) n (freshDesc p k n)

/-- `init_ring(kind)`. -/
def initRing (s : State) : RingKind → State
  | .tx => { s with mem := initDescs s.params .tx s.params.nTx s.mem, txHead := 0, txTail := 0, wdCur := 0, wdCount := 0 }
  | .rx => { s with mem := initDescs s.params .rx s.params.nRx s.mem, rxHead := 0, rxq := [] }

/-! ## ENQUEUE_TX (R131) -/

/-- The descriptor of slot `i` published with `length` bytes: wrap, chain, buf, next unchanged. -/
def publishedDesc (d : Desc) (length : Nat) : Desc :=
  { d with len := BitVec.ofNat 14 length, fs := true, ls := true, unf := false, own := true }

/-- The publication of a frame in the slot at the head, then the poll demand. -/
def publishTx (s : State) (length : Nat) (bytes : List Byte) : State :=
  writeReg
    { s with
      mem := writeDesc s.params .tx (s.mem.writeBytes (bufAddr s.params .tx s.txHead) bytes) s.txHead
        (publishedDesc (s.desc .tx s.txHead) length)
      txHead := nextIndex s.params.nTx s.txHead }
    .dmaTxPoll 0

/-- `enqueue_tx(bytes, length)`: the result code, the bytes accepted, and the state. -/
def enqueueTx (s : State) (length : Nat) (bytes : List Byte) : ResultCode × Nat × State :=
  if (s.desc .tx s.txHead).own then (.ringFull, 0, s) else (.ok, length, publishTx s length bytes)

/-! ## RECLAIM_TX (R132) -/

/-- The walk stops at a HW-owned or a free slot. -/
def reclaimStops (s : State) : Bool := (s.desc .tx s.txTail).own || (s.desc .tx s.txTail).len = 0

/-- The descriptor of a reclaimed slot. R132's pseudocode clears `len` and `unf`; its example, R105 and the vectors of
spec/95_test_vectors.md give DES1 = 0 (only WRAP left), so the segment flags are cleared too (DEDUCED, log 16). -/
def freedDesc (d : Desc) : Desc := { d with len := 0, unf := false, fs := false, ls := false }

/-- One completed descriptor at the tail counted and freed. -/
def reclaimTxOne (s : State) : State :=
  { s with
    stats := if (s.desc .tx s.txTail).unf then s.stats.countTxUnderflow else s.stats.countTxPacket
    mem := writeDesc s.params .tx s.mem s.txTail (freedDesc (s.desc .tx s.txTail))
    txTail := nextIndex s.params.nTx s.txTail }

/-- At most `n` iterations of the walk: how many descriptors, and the state. -/
def reclaimTxLoop : Nat → State → Nat × State
  | 0, s => (0, s)
  | n + 1, s =>
    if reclaimStops s then (0, s)
    else ((reclaimTxLoop n (reclaimTxOne s)).1 + 1, (reclaimTxLoop n (reclaimTxOne s)).2)

/-- `reclaim_tx()`, bounded by the capacity (R137). -/
def reclaimTx (s : State) : Nat × State := reclaimTxLoop s.params.nTx s

/-! ## RECLAIM_RX (R133 to R136) -/

/-- The counters of `classify` (R134): each set flag counts once, independently. -/
def classifyCounts (d : Desc) (c : Stats) : Stats :=
  { c with
    rxDropped := c.rxDropped + (if d.flen = 0 then 1 else 0)
    rxCrcErrors := c.rxCrcErrors + (if d.crc then 1 else 0)
    rxLengthErrors := c.rxLengthErrors + (if d.lerr then 1 else 0)
    rxOverflow := c.rxOverflow + (if d.ovf then 1 else 0) }

/-- What `classify` returns (R134). -/
def classifyEntry (d : Desc) (bytes : List Byte) : RxEntry :=
  if d.flen = 0 || d.crc || d.lerr || d.ovf then .err else .data bytes

/-- `handoff(e)` (R136). -/
def handoff (s : State) (e : RxEntry) : State :=
  match e with
  | .data b =>
    if s.rxq.length < s.params.rxqDepth then { s with rxq := s.rxq ++ [.data b], stats := s.stats.countRxPacket }
    else s.setStats s.stats.countRxDropped
  | .err => if s.rxq.length < s.params.rxqDepth then { s with rxq := s.rxq ++ [.err] } else s

/-- The descriptor `rearm` leaves (R135): buf, wrap, chain, next unchanged. -/
def rearmedDesc (p : Params) (d : Desc) : Desc :=
  { d with
    flen := 0, crc := false, lerr := false, ovf := false, fs := false, ls := false
    len := BitVec.ofNat 14 p.bufSize, own := true }

/-- `rearm(i)` (R135). -/
def rearm (s : State) (i : Nat) : State :=
  s.setMem (writeDesc s.params .rx s.mem i (rearmedDesc s.params (s.desc .rx i)))

/-- One completed descriptor at the head consumed: counted, handed off, re-armed. -/
def reclaimRxOne (s : State) : State :=
  let d := s.desc .rx s.rxHead
  let s1 := handoff (s.setStats (classifyCounts d s.stats))
    (classifyEntry d (s.bufBytes .rx s.rxHead d.flen.toNat))
  { rearm s1 s.rxHead with rxHead := nextIndex s.params.nRx s.rxHead }

/-- At most `n` iterations of the walk. -/
def reclaimRxLoop : Nat → State → Nat × State
  | 0, s => (0, s)
  | n + 1, s =>
    if (s.desc .rx s.rxHead).own then (0, s)
    else ((reclaimRxLoop n (reclaimRxOne s)).1 + 1, (reclaimRxLoop n (reclaimRxOne s)).2)

/-- `reclaim_rx(max_count)`, bounded by `max_count` and by the capacity; a poll demand when something was re-armed. -/
def reclaimRx (s : State) (maxCount : Nat) : Nat × State :=
  let r := reclaimRxLoop (min maxCount s.params.nRx) s
  (r.1, if r.1 > 0 then writeReg r.2 .dmaRxPoll 0 else r.2)

/-! ## The meanings -/

/-- R130. -/
def execInitRing (kind : RingKind) (s : State) : Host.Outcome State Fault Refusal :=
  .next ((initRing s kind).setRet .none)

/-- The lengths `enqueue_tx` and `send` are defined for (R117, R131). -/
def lengthOk (p : Params) (len : Half) (bytes : List Byte) : Bool :=
  len.toNat ≠ 0 && len.toNat ≤ p.bufSize && bytes.length = len.toNat

/-- R131; a length its caller must have checked is the caller's duty violation (log 12). -/
def execEnqueueTx (len : Half) (bytes : List Byte) (s : State) : Host.Outcome State Fault Refusal :=
  if lengthOk s.params len bytes then
    .next ((enqueueTx s len.toNat bytes).2.2.setRet
      (.enqueue (enqueueTx s len.toNat bytes).1 (enqueueTx s len.toNat bytes).2.1))
  else .fault (.hostDuty .sendLength)

/-- R132. -/
def execReclaimTx (s : State) : Host.Outcome State Fault Refusal :=
  .next ((reclaimTx s).2.setRet (.count (reclaimTx s).1))

/-- R133. -/
def execReclaimRx (maxCount : Half) (s : State) : Host.Outcome State Fault Refusal :=
  .next ((reclaimRx s maxCount.toNat).2.setRet (.count (reclaimRx s maxCount.toNat).1))

end Sys2Proof.Machine
end

