-- ==== Sys2Proof/Machine/Link.lean ====
section
/-! DEFINITION. The PHY link-negotiation sequencer (spec/41_link_sequencer.md R160 to R172): management cycles, the
negotiation state machine, mode resolution, MAC reconfiguration. -/

namespace Sys2Proof.Machine

/-! ## Negotiation -/

/-- `start_negotiation(adv)` (R163): advertise, restart, begin the bounded wait. -/
def startNegotiation (s : State) (adv : BitVec 6) : State :=
  let s1 := mdioWrite s 4 (anarWord adv)
  let s2 := if s.params.macGigabit then mdioWrite s1 9 (gtcrWord adv) else s1
  { mdioWrite s2 0 bmcrRestart with neg := .negotiating, negPolls := 0 }

/-- The link in a mode found by negotiation, with the carrier BMSR reports (R164, R166). -/
def autoLink (m : LinkMode) (bmsr : Half) : Link := ⟨m.speed, m.duplex, carrierOf bmsr, .auto⟩

/-- The five reads of the capability registers (R166): the common modes, and the state after the cycles. -/
def readCommon (s : State) : BitVec 6 × State :=
  let la := mdioRead s 4
  let lp := mdioRead la.2 5
  if s.params.macGigabit then
    let es := mdioRead lp.2 15
    let gc := mdioRead es.2 9
    let gs := mdioRead gc.2 10
    (commonModes true la.1 lp.1 es.1 gc.1 gs.1, gs.2)
  else (commonModes false la.1 lp.1 0 0 0, lp.2)

/-- The link, the known-good mask and the result for a set of common modes and a BMSR value (R166). -/
def applyResolution (s : State) (common : BitVec 6) (bmsr : Half) : NegResult × State :=
  if common ≠ 0 then
    (.ok, { s with
      link := autoLink (highestMode common) bmsr
      knownGood := if bmsr.getLsbD 2 then s.knownGood ||| modeBit (highestMode common) else s.knownGood })
  else (.negotiationTimeout, s.setLink (autoLink (fallbackMode s.knownGood) bmsr))

/-- `resolve_link_mode()` (R166). -/
def resolveLinkMode (s : State) : NegResult × State :=
  let c := readCommon s
  let b := mdioRead c.2 1
  applyResolution b.2 c.1 b.1

/-- A poll that found the negotiation not complete (R164): count it, and on the last one fall back. -/
def pollIncomplete (s : State) (bmsr : Half) : State :=
  if s.negPolls + 1 = s.params.negPollMax then
    { s with
      negPolls := s.negPolls + 1
      link := autoLink (fallbackMode s.knownGood) bmsr
      neg := .resolved
      negResult := .negotiationTimeout }
  else { s with negPolls := s.negPolls + 1 }

/-- One poll of the negotiation-complete bit (R164). -/
def negPoll (s : State) : State :=
  let b := mdioRead s 1
  if anComplete b.1 then
    { (resolveLinkMode b.2).2 with neg := .resolved, negResult := (resolveLinkMode b.2).1 }
  else pollIncomplete b.2 b.1

/-- The forced path (R168), one step. -/
def forceLink (s : State) (m : LinkMode) : State :=
  let b := mdioRead (mdioWrite s 0 (bmcrForced m.speed m.duplex)) 1
  { b.2 with
    link := ⟨m.speed, m.duplex, carrierOf b.1, .forced⟩
    knownGood := if b.1.getLsbD 2 then b.2.knownGood ||| modeBit m else b.2.knownGood
    neg := .resolved
    negResult := .ok }

/-! ## MAC programming -/

/-- Both rings initialised, TX then RX. -/
def initRings (s : State) : State := initRing (initRing s .tx) .rx

/-- Both base registers programmed with the instance's bases, which resets both engines (R46). -/
def programBases (s : State) : State :=
  writeReg (writeReg s .dmaTxBase s.params.txDescBase) .dmaRxBase s.params.rxDescBase

/-- MAC_CFG written for the link mode in force, with both enables as given. -/
def writeMacCfg (s : State) (en : Bool) : State := writeReg s .macCfg (macCfgWord s.link.speed s.link.duplex en)

/-- `reconfigure_mac(speed, duplex)` (R170). -/
def reconfigureMac (s : State) (m : LinkMode) : State :=
  let s1 := writeMacCfg (writeReg s .dmaOpmode 0) false
  let s2 := writeReg (programBases (initRings s1)) .macFilter s.cfg.filter
  let s3 := writeReg s2 .macCfg (macCfgWord m.speed m.duplex true)
  writeReg (writeReg s3 .dmaOpmode opmodeRun) .dmaRxPoll 0

/-! ## The meanings -/

/-- R160. -/
def execMdioRead (reg : BitVec 5) (s : State) : Host.Outcome State Fault Refusal :=
  .next ((mdioRead s reg).2.setRet (.phyWord (mdioRead s reg).1))

/-- R161. -/
def execMdioWrite (reg : BitVec 5) (value : Half) (s : State) : Host.Outcome State Fault Refusal :=
  .next ((mdioWrite s reg value).setRet .none)

/-- R163. -/
def execStartNegotiation (adv : BitVec 6) (s : State) : Host.Outcome State Fault Refusal :=
  .next ((startNegotiation s adv).setRet .none)

/-- R164: enabled only while NEGOTIATING. -/
def execNegPoll (s : State) : Host.Outcome State Fault Refusal :=
  if s.neg = .negotiating then .next ((negPoll s).setRet .none) else .next (notEnabled s)

/-- R168. -/
def execForceLink (speed : Speed) (duplex : Duplex) (s : State) : Host.Outcome State Fault Refusal :=
  .next ((forceLink s ⟨speed, duplex⟩).setRet .none)

/-- R166. -/
def execResolveLinkMode (s : State) : Host.Outcome State Fault Refusal :=
  .next ((resolveLinkMode s).2.setRet (.link (resolveLinkMode s).1))

/-- R170. -/
def execReconfigureMac (speed : Speed) (duplex : Duplex) (s : State) : Host.Outcome State Fault Refusal :=
  .next ((reconfigureMac s ⟨speed, duplex⟩).setRet .none)

end Sys2Proof.Machine
end

