-- ==== Sys2Proof/Machine/Recovery.lean ====
section
/-! DEFINITION. The fault and recovery controller (spec/43_recovery.md R210 to R219): the full recovery in four steps of the
REC agent, and the two narrow recoveries. -/

namespace Sys2Proof.Machine

/-- `handle_fatal_error()` (R210): a no-op unless RUNNING. -/
def handleFatalError (s : State) : State :=
  if s.dev = .running then { s with dev := .fault, stats := s.stats.countFatal, recPh := .stopping } else s

/-- REC_STEP STOPPING (R211). -/
def recStopping (s : State) : State := { writeMacCfg (writeReg s .dmaOpmode 0) false with recPh := .reinit }

/-- REC_STEP REINIT (R212). -/
def recReinit (s : State) : State := { programBases (initRings s) with recPh := .reapply }

/-- The MAC address registers and the filter written from the configuration (R213, R232). -/
def writeMacAddr (s : State) : State :=
  writeReg (writeReg s .macAddrHi (macHi s.cfg.mac)) .macAddrLo (macLo s.cfg.mac)

/-- REC_STEP REAPPLY (R213). -/
def recReapply (s : State) : State :=
  { writeMacCfg (writeReg (writeMacAddr s) .macFilter s.cfg.filter) false with recPh := .restart }

/-- Interrupts enabled, MAC_CFG enabled for the link mode, both engines started, the RX engine woken (R214, R233). -/
def startEngines (s : State) : State :=
  writeReg (writeReg (writeMacCfg (writeReg s .dmaIer ieAll) true) .dmaOpmode opmodeRun) .dmaRxPoll 0

/-- REC_STEP RESTART (R214): `dev` passes through IDLE inside the step. -/
def recRestart (s : State) : State :=
  { startEngines { writeReg s .dmaStatus 0x1F with dev := .idle } with dev := .running, recPh := .none }

/-- `handle_rx_stopped()` (R216): a no-op unless RUNNING. -/
def handleRxStopped (s : State) : State :=
  if s.dev = .running then
    let s1 := s.setStats s.stats.countStall
    let s2 := writeReg s1 .dmaOpmode (readReg s1 .dmaOpmode &&& ~~~flagSR)
    let s3 := writeReg s2 .macCfg (readReg s2 .macCfg &&& ~~~flagRE)
    let s4 := writeReg (initRing s3 .rx) .dmaRxBase s.params.rxDescBase
    let s5 := writeReg s4 .macCfg (readReg s4 .macCfg ||| flagRE)
    writeReg (writeReg s5 .dmaOpmode (readReg s5 .dmaOpmode ||| flagSR)) .dmaRxPoll 0
  else s

/-- `handle_tx_stopped()` (R217): a no-op unless RUNNING. -/
def handleTxStopped (s : State) : State :=
  if s.dev = .running then
    let s1 := s.setStats s.stats.countStall
    let s2 := writeReg s1 .dmaOpmode (readReg s1 .dmaOpmode &&& ~~~flagST)
    let s3 := writeReg s2 .macCfg (readReg s2 .macCfg &&& ~~~flagTE)
    let s4 := writeReg (initRing s3 .tx) .dmaTxBase s.params.txDescBase
    let s5 := writeReg s4 .macCfg (readReg s4 .macCfg ||| flagTE)
    writeReg s5 .dmaOpmode (readReg s5 .dmaOpmode ||| flagST)
  else s

/-! ## The meanings -/

/-- R210. -/
def execHandleFatalError (s : State) : Host.Outcome State Fault Refusal :=
  .next ((handleFatalError s).setRet .none)

/-- R211. -/
def execRecStepStopping (s : State) : Host.Outcome State Fault Refusal :=
  if s.recPh = .stopping then .next ((recStopping s).setRet .none) else .next (notEnabled s)

/-- R212. -/
def execRecStepReinit (s : State) : Host.Outcome State Fault Refusal :=
  if s.recPh = .reinit then .next ((recReinit s).setRet .none) else .next (notEnabled s)

/-- R213. -/
def execRecStepReapply (s : State) : Host.Outcome State Fault Refusal :=
  if s.recPh = .reapply then .next ((recReapply s).setRet .none) else .next (notEnabled s)

/-- R214. -/
def execRecStepRestart (s : State) : Host.Outcome State Fault Refusal :=
  if s.recPh = .restart then .next ((recRestart s).setRet .none) else .next (notEnabled s)

/-- R216. -/
def execHandleRxStopped (s : State) : Host.Outcome State Fault Refusal :=
  .next ((handleRxStopped s).setRet .none)

/-- R217. -/
def execHandleTxStopped (s : State) : Host.Outcome State Fault Refusal :=
  .next ((handleTxStopped s).setRet .none)

end Sys2Proof.Machine
end

