-- ==== Sys2Proof/Machine/Interrupt.lean ====
section
/-! DEFINITION. The interrupt-status multiplexer (spec/42_interrupt_engine.md R190 to R199): the ISR, the link-change
service, the watchdog tick. -/

namespace Sys2Proof.Machine

/-! ## LINK_CHANGE_SERVICE (R196) -/

/-- R171: a resolution that changed the mode reconfigures the MAC. -/
def reconfigureIfChanged (old : LinkMode) (s : State) : State :=
  if (⟨s.link.speed, s.link.duplex⟩ : LinkMode) ≠ old then reconfigureMac s ⟨s.link.speed, s.link.duplex⟩ else s

/-- The carrier changed, the mode kept. -/
def setCarrier (s : State) (c : Carrier) : State := s.setLink { s.link with carrier := c }

/-- The link-change service of a RUNNING device. -/
def serviceLink (s : State) : State :=
  let old : LinkMode := ⟨s.link.speed, s.link.duplex⟩
  let b := mdioRead s 1
  if b.1.getLsbD 2 = false then setCarrier b.2 .down
  else if s.link.negmode = .auto then
    if anComplete b.1 = false then setCarrier b.2 .up
    else reconfigureIfChanged old (resolveLinkMode b.2).2
  else reconfigureIfChanged old (setCarrier b.2 .up)

/-- `link_change_service()` (R196): nothing unless RUNNING. -/
def linkChangeService (s : State) : State := if s.dev = .running then serviceLink s else s

/-! ## ISR (R190) -/

/-- Step 5, the data path: RX reclaim, TX reclaim, the RXU recovery, and the enables back. -/
def isrDataPath (s : State) (snapshot : Word) : State :=
  let s1 := (reclaimTx (reclaimRx s s.params.nRx).2).2
  let s2 := if hasFlag snapshot stRXU then handleRxStopped s1 else s1
  writeReg s2 .dmaIer ieAll

/-- Steps 2 to 5 for a snapshot that is not 0. -/
def isrService (s : State) (snapshot : Word) : State :=
  let s1 := s.setStats s.stats.countInterrupt
  if hasFlag snapshot stLSC then linkChangeService s1
  else if hasFlag snapshot stFBE then handleFatalError (writeReg s1 .dmaIer 0)
  else if s.dev = .running then isrDataPath (writeReg s1 .dmaIer 0) snapshot
  else writeReg s1 .dmaIer 0

/-- One invocation: step 1, and a zero snapshot returns at once. -/
def isr (s : State) : State :=
  let e := statusSnapshot s
  if e.1 = 0 then e.2 else isrService e.2 e.1

/-! ## WATCHDOG (R197) -/

/-- The TX DMA cursor as the tick reads it. -/
def watchdogCursor (s : State) : Nat := (readReg s .dmaCurTx - s.params.txDescBase).toNat / 16

/-- The tick of a RUNNING device. -/
def watchdogTick (s : State) : State :=
  let c := watchdogCursor s
  if (s.desc .tx c).own = false || c ≠ s.wdCur then { s with wdCur := c, wdCount := 0 }
  else if s.wdCount + 1 = s.params.stallTicks then
    { handleTxStopped { s with wdCount := s.wdCount + 1 } with wdCount := 0 }
  else { s with wdCount := s.wdCount + 1 }

/-- The tick by device state; nothing while UNINIT (R246). -/
def watchdog (s : State) : State :=
  match s.dev with
  | .uninit => s
  | .running => watchdogTick s
  | .idle => { s with wdCount := 0 }
  | .fault => { s with wdCount := 0 }

/-! ## The meanings -/

/-- R190, enabled as R199 says. -/
def execIsr (s : State) : Host.Outcome State Fault Refusal :=
  if isrEnabled s then .next ((isr s).setRet .none) else .next (notEnabled s)

/-- R196. -/
def execLinkChangeService (s : State) : Host.Outcome State Fault Refusal :=
  .next ((linkChangeService s).setRet .none)

/-- R197: OK, answered to the tick source (log 17). -/
def execWatchdog (s : State) : Host.Outcome State Fault Refusal :=
  .next { watchdog s with tickResp := some (responseWord .ok 0) }

end Sys2Proof.Machine
end

