-- ==== Sys2Proof/Machine/Facade.lean ====
section
/-! DEFINITION. The host command interface (spec/44_facade.md R230 to R246). -/

namespace Sys2Proof.Machine

/-- ATTACH (R230, the ATTACH column of R330): everything at its reset value but the PHY, buffer bytes, `wire_tx` and the
model's own fields; both rings initialised; IDLE. -/
def attach (s : State) : State :=
  { initRings
      { s with
        link := Link.reset, knownGood := 0, cfg := Cfg.reset, stats := Stats.zero
        startPh := .none, stopPh := .none, recPh := .none
        neg := .idle, negPolls := 0, negResult := .ok
        regs := Regs.reset s.params, tx := Engine.reset, rx := Engine.reset } with
    dev := .idle }

/-- The path `start()` takes by the configured mode (R232). -/
def beginLink (s : State) : State :=
  match s.cfg.mode with
  | .auto => startNegotiation { s with neg := .idle } s.params.advCaps
  | .forced m => forceLink { s with neg := .idle } m

/-- START_BEGIN (R232). Its init_ring(RX) empties `rxq` (R34, R130); R332 names `rxq` among what survives START (DEDUCED,
log 20). -/
def startBegin (s : State) : State :=
  let s1 := writeReg (writeReg { s with startPh := .neg } .dmaOpmode 0) .dmaIer 0
  let s2 := programBases (initRings (writeMacCfg s1 false))
  beginLink (writeReg (writeMacAddr s2) .macFilter s.cfg.filter)

/-- START by device state (R231). In FAULT it is held until the recovery ends (R303, log 7). -/
def start (s : State) : State :=
  match s.dev with
  | .uninit => s
  | .running => respond s .ok
  | .fault => if s.recPh = .none then respond s .ok else { awaitAnswer s with startHeld := true }
  | .idle => startBegin (awaitAnswer s)

/-- START_FIN (R233). -/
def startFin (s : State) : State :=
  let s1 := startEngines (writeReg s .dmaStatus 0x3F)
  respond { s1 with dev := .running, startPh := .none } (negCode s.negResult)

/-- STOP on an attached device (R235). -/
def stop (s : State) : State := { writeReg (awaitAnswer s) .dmaIer 0 with stopPh := .drain }

/-- STOP_END (R236). -/
def stopEnd (s : State) : State :=
  let s1 := writeMacCfg (writeReg (writeReg s .dmaIer 0) .dmaOpmode 0) false
  respond { s1 with dev := if s.dev = .running then .idle else s.dev, stopPh := .none } .ok

/-- SEND of a checked length (R238). -/
def send (s : State) (length : Nat) (bytes : List Byte) : State :=
  if s.dev = .running then
    let r := enqueueTx s length bytes
    respondWith r.2.2 r.1 r.2.1 .none
  else respond s .deviceNotRunning

/-- RECEIVE (R240). -/
def receive (s : State) (cap : Nat) : State :=
  match s.rxq with
  | [] => respondWith s .ok 0 (.bytes [])
  | .err :: rest => respondWith { s with rxq := rest } .ok 0 (.bytes [])
  | .data b :: rest => respondWith { s with rxq := rest } .ok (min b.length cap) (.bytes (b.take cap))

/-- SET_MAC_ADDRESS (R241). -/
def setMacAddress (s : State) (mac : MacAddr) : State :=
  respond (writeMacAddr { s with cfg := { s.cfg with mac := mac } }) .ok

/-- SET_MODE (R242): it takes effect at the next START. -/
def setMode (s : State) (mode : CfgMode) : State := respond { s with cfg := { s.cfg with mode := mode } } .ok

/-- R116: a forced mode the MAC does not have. -/
def modeIllegal (p : Params) (speed : Speed) : Bool := speed = .s1000 && !p.macGigabit

/-- An illegal command word (R116): answered, and nothing else changes. -/
def answerIllegal (s : State) : State := respond s .illegalCommand

/-- The host port on an illegal word; while a command is unanswered it is a concurrent command (R245, log 8). -/
def illegalCommand (s : State) : Host.Outcome State Fault Refusal :=
  if unanswered s then .fault (.hostDuty .concurrent) else .next (answerIllegal s)

/-- A turn of the HOST agent: a START whose hold is lifted answers OK (R231, R303, log 7). -/
def hostTurn (s : State) : State :=
  if s.startHeld && s.recPh = .none then respond { s with startHeld := false } .ok else notEnabled s

/-! ## The meanings -/

/-- R230. -/
def execAttach (s : State) : Host.Outcome State Fault Refusal :=
  if unanswered s then .fault (.hostDuty .concurrent)
  else if s.dev = .uninit then .next (respond (attach s) .ok) else .fault (.hostDuty .reattach)

/-- R231. -/
def execStart (s : State) : Host.Outcome State Fault Refusal := hostCommand s start

/-- R233: enabled when `start_ph = NEG` and `neg = RESOLVED`. -/
def execStartFin (s : State) : Host.Outcome State Fault Refusal :=
  if s.startPh = .neg ∧ s.neg = .resolved then .next ((startFin s).setRet .none) else .next (notEnabled s)

/-- R235: always succeeds, also before ATTACH. -/
def execStop (s : State) : Host.Outcome State Fault Refusal :=
  if unanswered s then .fault (.hostDuty .concurrent)
  else if s.dev = .uninit then .next (respond s .ok) else .next (stop s)

/-- R236: enabled when `stop_ph = DRAIN` and `rec_ph = NONE`. -/
def execStopEnd (s : State) : Host.Outcome State Fault Refusal :=
  if s.stopPh = .drain ∧ s.recPh = .none then .next ((stopEnd s).setRet .none) else .next (notEnabled s)

/-- R238, R117. -/
def execSend (len : Half) (bytes : List Byte) (s : State) : Host.Outcome State Fault Refusal :=
  match hostCommand s id with
  | .next s1 => if lengthOk s.params len bytes then .next (send s1 len.toNat bytes) else .fault (.hostDuty .sendLength)
  | .fault f => .fault f
  | .refused r => .refused r

/-- R240. -/
def execReceive (cap : Half) (s : State) : Host.Outcome State Fault Refusal :=
  hostCommand s fun s1 => receive s1 cap.toNat

/-- R241. -/
def execSetMacAddress (mac : MacAddr) (s : State) : Host.Outcome State Fault Refusal :=
  hostCommand s fun s1 => setMacAddress s1 mac

/-- R242, AUTO. -/
def execSetModeAuto (s : State) : Host.Outcome State Fault Refusal := hostCommand s fun s1 => setMode s1 .auto

/-- R242, FORCED; R116 for 1000 on a MAC without gigabit. -/
def execSetModeForced (speed : Speed) (duplex : Duplex) (s : State) : Host.Outcome State Fault Refusal :=
  if modeIllegal s.params speed then illegalCommand s
  else hostCommand s fun s1 => setMode s1 (.forced ⟨speed, duplex⟩)

/-- R243. -/
def execGetLinkState (s : State) : Host.Outcome State Fault Refusal :=
  hostCommand s fun s1 => respondWith s1 .ok 0 (.linkWord (linkWord s1.link))

/-- R244. -/
def execGetStats (s : State) : Host.Outcome State Fault Refusal :=
  hostCommand s fun s1 => respondWith s1 .ok 0 (.counters (countersOf s1.stats))

end Sys2Proof.Machine
end

