-- ==== Sys2Proof/Machine/Dispatch.lean ====
section
/-! DEFINITION. One arm per operation of the opcode table (spec/30_encoding.md R113): what executing it does. -/

namespace Sys2Proof.Machine

def exec (i : Instr) (s : State) : Host.Outcome State Fault Refusal :=
  match i with
  | .attach => Sys2Proof.Machine.execAttach s
  | .start => Sys2Proof.Machine.execStart s
  | .stop => Sys2Proof.Machine.execStop s
  | .send len bytes => Sys2Proof.Machine.execSend len bytes s
  | .receive cap => Sys2Proof.Machine.execReceive cap s
  | .getLinkState => Sys2Proof.Machine.execGetLinkState s
  | .getStats => Sys2Proof.Machine.execGetStats s
  | .setMacAddress mac => Sys2Proof.Machine.execSetMacAddress mac s
  | .setModeAuto => Sys2Proof.Machine.execSetModeAuto s
  | .setModeForced speed duplex => Sys2Proof.Machine.execSetModeForced speed duplex s
  | .watchdog => Sys2Proof.Machine.execWatchdog s
  | .initRing kind => Sys2Proof.Machine.execInitRing kind s
  | .enqueueTx len bytes => Sys2Proof.Machine.execEnqueueTx len bytes s
  | .reclaimTx => Sys2Proof.Machine.execReclaimTx s
  | .reclaimRx maxCount => Sys2Proof.Machine.execReclaimRx maxCount s
  | .mdioRead reg => Sys2Proof.Machine.execMdioRead reg s
  | .mdioWrite reg value => Sys2Proof.Machine.execMdioWrite reg value s
  | .startNegotiation adv => Sys2Proof.Machine.execStartNegotiation adv s
  | .negPoll => Sys2Proof.Machine.execNegPoll s
  | .forceLink speed duplex => Sys2Proof.Machine.execForceLink speed duplex s
  | .resolveLinkMode => Sys2Proof.Machine.execResolveLinkMode s
  | .reconfigureMac speed duplex => Sys2Proof.Machine.execReconfigureMac speed duplex s
  | .isr => Sys2Proof.Machine.execIsr s
  | .linkChangeService => Sys2Proof.Machine.execLinkChangeService s
  | .handleFatalError => Sys2Proof.Machine.execHandleFatalError s
  | .recStepStopping => Sys2Proof.Machine.execRecStepStopping s
  | .recStepReinit => Sys2Proof.Machine.execRecStepReinit s
  | .recStepReapply => Sys2Proof.Machine.execRecStepReapply s
  | .recStepRestart => Sys2Proof.Machine.execRecStepRestart s
  | .handleRxStopped => Sys2Proof.Machine.execHandleRxStopped s
  | .handleTxStopped => Sys2Proof.Machine.execHandleTxStopped s
  | .startFin => Sys2Proof.Machine.execStartFin s
  | .stopEnd => Sys2Proof.Machine.execStopEnd s
  | .txdmaStep underflow => Sys2Proof.Machine.execTxdmaStep underflow s
  | .rxdmaFrame len bytes crc lerr ovf => Sys2Proof.Machine.execRxdmaFrame len bytes crc lerr ovf s
  | .busError => Sys2Proof.Machine.execBusError s
  | .phyLinkEvent => Sys2Proof.Machine.execPhyLinkEvent s

end Sys2Proof.Machine
end

