-- ==== Sys2Proof/Machine/Fetch.lean ====
section
/-! DEFINITION. How the block takes its next piece of input (log 4): which port a word of the opcode table arrives at, and
the input placed in front. -/

namespace Sys2Proof.Machine

/-- The port a word arrives at: host command words at the host port, the operations of R112 in the schedule (log 5). -/
def portOf (nbits w : Nat) : Port := if hostOp (opField (BitVec.ofNat 32 (w % 2 ^ nbits))) then .host else .agent

/-- The input with the packet of a table word in front. -/
def inputWith (nbits w : Nat) (script : List Item) : List Item :=
  .packet (portOf nbits w) (tablePacket nbits w) :: script

/-- The state after the first item of the input is taken. -/
def takeItem (s : State) (rest : List Item) : State := { s with script := rest }

/-- The word of a packet is SET_MODE FORCED at speed 1000 (R114), whatever bytes follow it. -/
def forcesGigabit : List Byte → Bool
  | b0 :: b1 :: b2 :: b3 :: _ =>
    bytesWord b0 b1 b2 b3 = instrWord (.setModeForced .s1000 .half)
      || bytesWord b0 b1 b2 b3 = instrWord (.setModeForced .s1000 .full)
  | _ => false

/-- What a packet on the host port is (R116): a command to run, an illegal word, or no packet. A word that is illegal only
on a MAC without gigabit is so whatever bytes follow it, as every other illegal word (DEDUCED, log 30). -/
def hostPacket (gigabit : Bool) (bytes : List Byte) : HostWord :=
  match decodeHost bytes with
  | .command i => .command i
  | .illegal => .illegal
  | .malformed => if !gigabit && forcesGigabit bytes then .illegal else .malformed

end Sys2Proof.Machine
end

