-- ==== Sys2Proof/Machine/Step.lean ====
section
/-! DEFINITION. One step of the machine: the next item of the input is taken and run as one atomic step (R14, R81). With
nothing pending the block idles (R331, log 4). An ill-formed instance has no step (R75, R304). -/

namespace Sys2Proof.Machine

/-- A packet from the host (R116; bytes that are no packet: log 25). -/
def stepHost (bytes : List Byte) (s : State) : Host.Outcome State Fault Refusal :=
  match hostPacket s.params.macGigabit bytes with
  | .command i => exec i s
  | .illegal => illegalCommand s
  | .malformed => .refused .malformedPacket

/-- A scheduled step of an agent or of the environment. -/
def stepAgent (bytes : List Byte) (s : State) : Host.Outcome State Fault Refusal :=
  match decode bytes with
  | .ok i => exec i s
  | .error _ => .refused .undecodableItem

/-- One item of the input. -/
def stepItem (item : Item) (s : State) : Host.Outcome State Fault Refusal :=
  match item with
  | .packet .host bytes => stepHost bytes s
  | .packet .agent bytes => stepAgent bytes s
  | .hostTurn => .next (hostTurn s)

def step (s : State) : Host.Outcome State Fault Refusal :=
  if paramsOk s.params then
    match s.script with
    | [] => .next s
    | item :: rest => stepItem item (takeItem s rest)
  else .refused .illFormedInstance

/-- The state with the word of an opcode-table row (and a payload of zeros) as its next input. -/
def State.withFetchWord (s : State) (nbits w : Nat) : State := { s with script := inputWith nbits w s.script }

end Sys2Proof.Machine
end

