-- ==== Sys2Proof/Safety.lean ====
section
/-! DEFINITION. The terms the statements use: when an operation stops (spec/60_exceptions.md R302), which operations are
steps of an agent (spec/00_scope.md R19), what the PHY answers, and the invariants of the block. -/

namespace Sys2Proof.Safety

open Sys2Proof.Machine

/-! ## Outcomes -/

/-- The host duty a host command breaks before its own check: a command is unanswered (R245), or there is no device (R246). -/
def commandDuty (s : State) : Option HostDuty :=
  if s.startPh ≠ .none ∨ s.stopPh ≠ .none ∨ s.startHeld = true then some .concurrent
  else if s.dev = .uninit then some .notAttached else none

/-- The length of a SEND is one the host may give (R117): 1 to BUF_SIZE, and the payload has that length. -/
abbrev GoodLength (p : Params) (len : Half) (bytes : List Byte) : Prop :=
  1 ≤ len.toNat ∧ len.toNat ≤ p.bufSize ∧ bytes.length = len.toNat

/-- A state of a well-formed instance whose memory is in canonical form: what the memory statements start from. Both are
parts of the invariant `Inv`. -/
abbrev Sound (s : State) : Prop := paramsOk s.params = true ∧ s.mem.wf = true

/-- No command is unanswered (R245). -/
abbrev Answered (s : State) : Prop := s.startPh = .none ∧ s.stopPh = .none ∧ s.startHeld = false

/-- The steps of the agents of R19: host commands, the tick, ISR, REC, SEQ, START_FIN, STOP_END, the engines and the
environment. The other internal operations run inside one of these (R112). -/
def agentStep : Instr → Bool
  | .attach | .start | .stop | .send _ _ | .receive _ | .getLinkState | .getStats | .setMacAddress _ | .setModeAuto
  | .setModeForced _ _ | .watchdog | .negPoll | .isr | .recStepStopping | .recStepReinit | .recStepReapply
  | .recStepRestart | .startFin | .stopEnd | .txdmaStep _ | .rxdmaFrame _ _ _ _ _ | .busError | .phyLinkEvent => true
  | .initRing _ | .enqueueTx _ _ | .reclaimTx | .reclaimRx _ | .mdioRead _ | .mdioWrite _ _ | .startNegotiation _
  | .forceLink _ _ | .resolveLinkMode | .reconfigureMac _ _ | .linkChangeService | .handleFatalError
  | .handleRxStopped | .handleTxStopped => false

/-- The host command steps of spec/44_facade.md: the only ones that answer the host (R301). -/
def answersHost : Instr → Bool
  | .attach | .start | .stop | .send _ _ | .receive _ | .getLinkState | .getStats | .setMacAddress _ | .setModeAuto
  | .setModeForced _ _ | .startFin | .stopEnd => true
  | .watchdog | .negPoll | .isr | .recStepStopping | .recStepReinit | .recStepReapply | .recStepRestart
  | .txdmaStep _ | .rxdmaFrame _ _ _ _ _ | .busError | .phyLinkEvent
  | .initRing _ | .enqueueTx _ _ | .reclaimTx | .reclaimRx _ | .mdioRead _ | .mdioWrite _ _ | .startNegotiation _
  | .forceLink _ _ | .resolveLinkMode | .reconfigureMac _ _ | .linkChangeService | .handleFatalError
  | .handleRxStopped | .handleTxStopped => false

/-- The host duty an operation breaks (R302). STOP needs no device (R235), the forced mode the MAC does not have is answered
before the attachment is looked at (R116, log 8), ENQUEUE_TX's length is its caller's duty (R131, log 12). -/
def stopDuty (i : Instr) (s : State) : Option HostDuty :=
  let waiting : Option HostDuty :=
    if s.startPh ≠ .none ∨ s.stopPh ≠ .none ∨ s.startHeld = true then some .concurrent else none
  match i with
  | .attach => if s.dev = .uninit then waiting else some (waiting.getD .reattach)
  | .stop => waiting
  | .send len bytes =>
    match commandDuty s with
    | some d => some d
    | none => if GoodLength s.params len bytes then none else some .sendLength
  | .setModeForced speed _ => if speed = .s1000 ∧ s.params.macGigabit = false then waiting else commandDuty s
  | .start | .receive _ | .getLinkState | .getStats | .setMacAddress _ | .setModeAuto => commandDuty s
  | .enqueueTx len bytes =>
    if GoodLength s.params len bytes then none else some .sendLength
  | .watchdog | .negPoll | .isr | .recStepStopping | .recStepReinit | .recStepReapply | .recStepRestart | .startFin
  | .stopEnd | .txdmaStep _ | .rxdmaFrame _ _ _ _ _ | .busError | .phyLinkEvent
  | .initRing _ | .reclaimTx | .reclaimRx _ | .mdioRead _ | .mdioWrite _ _ | .startNegotiation _
  | .forceLink _ _ | .resolveLinkMode | .reconfigureMac _ _ | .linkChangeService | .handleFatalError
  | .handleRxStopped | .handleTxStopped => none

/-! ## Registers -/

/-- MAC_CFG as the register holds it after `mac_cfg(speed, duplex, en)` is written (R169): RE 4 and TE 8, DM 2048, FES 16384,
PS 32768, and PS is 1 on a MAC without gigabit (R41). -/
def macCfgFor (p : Params) (speed : Speed) (duplex : Duplex) (en : Bool) : Word :=
  BitVec.ofNat 32 ((if en then 12 else 0) + (if duplex = .full then 2048 else 0) + (if speed = .s100 then 16384 else 0)
    + (if speed ≠ .s1000 ∨ p.macGigabit = false then 32768 else 0))

/-- The registers after a management read cycle (R160): MII_ADDR = PHY_ADDR << 11 | reg << 6, MII_DATA the value. -/
def readCycle (s : State) (reg : Nat) (v : Half) : Regs :=
  { s.regs with
    miiAddr := BitVec.ofNat 32 (s.params.phyAddr.toNat * 2048 + reg * 64), miiData := BitVec.ofNat 32 v.toNat }

/-- The registers after a management write cycle (R161): GW is 1. -/
def writeCycle (s : State) (reg : Nat) (v : Half) : Regs :=
  { s.regs with
    miiAddr := BitVec.ofNat 32 (s.params.phyAddr.toNat * 2048 + reg * 64 + 2), miiData := BitVec.ofNat 32 v.toNat }

/-- The carrier a BMSR value reports (R53). -/
def carrierBit (bmsr : Half) : Carrier := if bmsr.getLsbD 2 = true then .up else .down

/-- The response word of a code and a value (R115, R300), as a number. -/
def reply (code value : Nat) : Word := BitVec.ofNat 32 (value % 65536 * 65536 + code)

/-! ## The PHY's answers -/

/-- The n-th value the PHY agent will draw (R270): from the input, then free values (log 10). -/
def answer (s : State) (n : Nat) : Half :=
  match s.phyIn[n]? with
  | some v => v
  | none => Config.freePhyRead (s.drawCtr + (n - s.phyIn.length))

/-- The state after the PHY agent has drawn `n` values, nothing else changed. -/
def afterDraws (s : State) (n : Nat) : State :=
  { s with phyIn := s.phyIn.drop n, drawCtr := s.drawCtr + (n - s.phyIn.length) }

/-! ## Input -/

/-- The item that schedules an operation of the block's agents or environment. -/
def scheduled (i : Instr) : Item := .packet .agent (encode i)

/-- The item by which the host issues a command. -/
def issued (i : Instr) : Item := .packet .host (encode i)

/-! ## Illegal host words (R116), bit by bit -/

/-- The encoding part of R116, on the number the word is: OP not 0x01 to 0x0A, a reserved bit 15:12, SUB or IMM not 0 where
R113 says 0, SET_MODE with SUB above 1, with speed code 3, or with a bit of IMM[15:3]. -/
abbrev illegalWord (w : Word) : Prop :=
  let op := w.toNat % 256
  let sub := w.toNat / 256 % 16
  let reserved := w.toNat / 4096 % 16
  let imm := w.toNat / 65536
  ¬ (1 ≤ op ∧ op ≤ 10) ∨ reserved ≠ 0 ∨ (op ≠ 9 ∧ sub ≠ 0) ∨ (op ≠ 4 ∧ op ≠ 5 ∧ op ≠ 9 ∧ imm ≠ 0) ∨
    (op = 9 ∧ sub > 1) ∨ (op = 9 ∧ sub = 0 ∧ imm ≠ 0) ∨ (op = 9 ∧ sub = 1 ∧ (imm % 4 = 3 ∨ imm / 8 ≠ 0))

/-! ## Modes -/

/-- The preference order of R16: speed first, then full duplex over half. -/
def modeRank (m : LinkMode) : Nat :=
  (match m.speed with | .s10 => 0 | .s100 => 2 | .s1000 => 4) + (match m.duplex with | .half => 0 | .full => 1)

/-- A mode this device and its partner share (R53, R166): ANAR and ANLPAR for the 10 and 100 modes, ESTATUS, GTCR and GTSR
for the 1000 modes of a MAC that has gigabit. -/
def Shared (gigabit : Bool) (anar anlpar estatus gtcr gtsr : Half) (m : LinkMode) : Prop :=
  match m.speed, m.duplex with
  | .s10, .half => anar.getLsbD 5 = true ∧ anlpar.getLsbD 5 = true
  | .s10, .full => anar.getLsbD 6 = true ∧ anlpar.getLsbD 6 = true
  | .s100, .half => anar.getLsbD 7 = true ∧ anlpar.getLsbD 7 = true
  | .s100, .full => anar.getLsbD 8 = true ∧ anlpar.getLsbD 8 = true
  | .s1000, .half => gigabit = true ∧ estatus.getLsbD 12 = true ∧ gtcr.getLsbD 8 = true ∧ gtsr.getLsbD 10 = true
  | .s1000, .full => gigabit = true ∧ estatus.getLsbD 13 = true ∧ gtcr.getLsbD 9 = true ∧ gtsr.getLsbD 11 = true

/-- `m` is the preferred mode of those that satisfy `P` (R16, R167). -/
def Preferred (P : LinkMode → Prop) (m : LinkMode) : Prop := P m ∧ ∀ m', P m' → modeRank m' ≤ modeRank m

/-- The fallback of R165: the preferred mode of the known-good mask, else 10/HALF. -/
def Fallback (knownGood : BitVec 6) (m : LinkMode) : Prop :=
  (knownGood ≠ 0 → Preferred (fun m' => knownGood.getLsbD (modeRank m') = true) m) ∧
    (knownGood = 0 → m = ⟨.s10, .half⟩)

/-! ## Rings and memory -/

/-- The descriptor R130 puts into slot `i`: its buffer, WRAP on the last slot in ring mode, CHAIN and the next slot's
address in chain mode, and for the RX ring BUF_SIZE and HW ownership. -/
def freshSlot (p : Params) (k : RingKind) (i : Nat) : Desc where
  own   := match k with | .tx => false | .rx => true
  len   := match k with | .tx => 0 | .rx => BitVec.ofNat 14 p.bufSize
  flen  := 0
  fs    := false
  ls    := false
  wrap  := match ringMode p k with | .ring => decide (i + 1 = ringSize p k) | .chain => false
  chain := match ringMode p k with | .ring => false | .chain => true
  crc   := false
  lerr  := false
  ovf   := false
  unf   := false
  buf   := BitVec.ofNat 32 ((bufBase p k).toNat + p.bufStride * i)
  next  := match ringMode p k with
    | .ring => 0
    | .chain => BitVec.ofNat 32 ((descBase p k).toNat + 16 * ((i + 1) % ringSize p k))

/-- The 16 bytes of slot `i` are the four words of a descriptor, reserved bits 0 (R73, R100, R104). -/
abbrev SlotHolds (s : State) (k : RingKind) (i : Nat) (d : Desc) : Prop :=
  s.mem.readBytes ((descBase s.params k).toNat + 16 * i) 16 =
    wordBytes (des0 k d) ++ wordBytes (des1 k d) ++ wordBytes d.buf ++ wordBytes d.next

/-- Every slot of the ring is as INIT_RING leaves it (R130). -/
abbrev FreshRing (s : State) (k : RingKind) : Prop :=
  ∀ i < ringSize s.params k, SlotHolds s k i (freshSlot s.params k i)

/-- An address outside the descriptors of a ring (R73). -/
abbrev OutsideRing (p : Params) (k : RingKind) (a : Nat) : Prop :=
  a < (descBase p k).toNat ∨ (descBase p k).toNat + 16 * ringSize p k ≤ a

/-- An address outside the `n` bytes from `lo` on. -/
abbrev Outside (lo n a : Nat) : Prop := a < lo ∨ lo + n ≤ a

/-- `t` has both rings as INIT_RING leaves them, and no other byte of memory has changed since `s`. -/
abbrev RingsFresh (s t : State) : Prop :=
  FreshRing t .tx ∧ FreshRing t .rx ∧
    ∀ a, OutsideRing s.params .tx a → OutsideRing s.params .rx a → t.mem.read a = s.mem.read a

/-- The software state of both rings as INIT_RING sets it (R130), memory being `m`. -/
def ringsCleared (s : State) (m : Memory) : State :=
  { s with mem := m, txHead := 0, txTail := 0, rxHead := 0, rxq := [], wdCur := 0, wdCount := 0 }

/-- Both bases hold the instance's, both engines are back at descriptor 0, neither suspended nor halted (R46). -/
def basesWritten (s : State) : State :=
  { s with
    regs := { s.regs with dmaTxBase := s.params.txDescBase, dmaRxBase := s.params.rxDescBase }
    tx := ⟨0, false, false⟩, rx := ⟨0, false, false⟩ }

/-- What consuming one received frame does to the FIFO and the counters (R134, R136), from its descriptor and its bytes. -/
def consumeFrame (depth : Nat) (d : Desc) (bytes : List Byte) (q : List RxEntry) (c : Stats) : List RxEntry × Stats :=
  let bad : Bool := d.flen = 0 || d.crc || d.lerr || d.ovf
  let room : Bool := q.length < depth
  (if room then q ++ [if bad then .err else .data bytes] else q,
    { c with
      rxPackets := c.rxPackets + (if !bad && room then 1 else 0)
      rxDropped := c.rxDropped + (if d.flen = 0 then 1 else 0) + (if !bad && !room then 1 else 0)
      rxCrcErrors := c.rxCrcErrors + (if d.crc then 1 else 0)
      rxLengthErrors := c.rxLengthErrors + (if d.lerr then 1 else 0)
      rxOverflow := c.rxOverflow + (if d.ovf then 1 else 0) })

/-- The FIFO and the counters after consuming the `n` slots from `rx_head` on, in order. -/
def consumeSlots (s : State) : Nat → List RxEntry × Stats
  | 0 => (s.rxq, s.stats)
  | n + 1 =>
    let i := (s.rxHead + n) % s.params.nRx
    consumeFrame s.params.rxqDepth (s.desc .rx i) (s.bufBytes .rx i (s.desc .rx i).flen.toNat)
      (consumeSlots s n).1 (consumeSlots s n).2

/-- How many of the `n` TX slots from `tx_tail` on have the underflow flag as given (R132). -/
def countUnf (s : State) (u : Bool) : Nat → Nat
  | 0 => 0
  | n + 1 => countUnf s u n + (if (s.desc .tx ((s.txTail + n) % s.params.nTx)).unf = u then 1 else 0)

/-! ## Invariants -/

/-- Indices and counts are in their ranges (R22, R24, R35, R37, R50). -/
abbrev IndicesOk (s : State) : Prop :=
  s.txHead < s.params.nTx ∧ s.txTail < s.params.nTx ∧ s.rxHead < s.params.nRx ∧ s.tx.cur < s.params.nTx ∧
    s.rx.cur < s.params.nRx ∧ s.wdCur < s.params.nTx ∧ s.wdCount < s.params.stallTicks ∧
    s.negPolls ≤ s.params.negPollMax ∧ (s.neg = .negotiating → s.negPolls < s.params.negPollMax)

/-- Reserved register bits are 0 (R40), PS is 1 on a MAC without gigabit (R41), no management cycle is left busy (R272). -/
abbrev RegsOk (s : State) : Prop :=
  s.regs.macCfg &&& ~~~(0x0000C80C : Word) = 0 ∧ (s.params.macGigabit = false → s.regs.macCfg.getLsbD 15 = true) ∧
    s.regs.miiAddr &&& ~~~(0x0000FFC2 : Word) = 0 ∧ s.regs.miiData &&& ~~~(0x0000FFFF : Word) = 0 ∧
    s.regs.macAddrHi &&& ~~~(0x0000FFFF : Word) = 0 ∧ s.regs.dmaRxBase &&& 0x0000000F = 0 ∧
    s.regs.dmaTxBase &&& 0x0000000F = 0 ∧ s.regs.dmaStatus &&& ~~~(0x0000003F : Word) = 0 ∧
    s.regs.dmaOpmode &&& ~~~(0x00002002 : Word) = 0 ∧ s.regs.dmaIer &&& ~~~(0x0000003F : Word) = 0

/-- The phase registers agree with the device state (R20, R35): FAULT exactly while a recovery is under way, NEG only while
IDLE, at most one command unanswered and none before ATTACH, and `neg` rests in one of three states (R162). -/
abbrev PhasesOk (s : State) : Prop :=
  (s.dev = .fault ↔ s.recPh ≠ .none) ∧ (s.startPh = .neg → s.dev = .idle) ∧
    (s.startPh = .neg → s.stopPh = .none ∧ s.startHeld = false) ∧ (s.stopPh = .drain → s.startHeld = false) ∧
    (s.dev = .uninit → s.startPh = .none ∧ s.stopPh = .none ∧ s.startHeld = false) ∧
    (s.neg = .idle ∨ s.neg = .negotiating ∨ s.neg = .resolved)

/-- While the device runs, is being started, or recovery has reinitialised it, and while an engine's start bit is set, the
base registers hold the instance's bases (R52). -/
abbrev BasesOk (s : State) : Prop :=
  ((s.startPh = .neg ∨ s.dev = .running ∨ s.recPh = .reapply ∨ s.recPh = .restart) →
    s.regs.dmaTxBase = s.params.txDescBase ∧ s.regs.dmaRxBase = s.params.rxDescBase) ∧
  (s.regs.dmaOpmode.getLsbD 13 = true → s.regs.dmaTxBase = s.params.txDescBase) ∧
  (s.regs.dmaOpmode.getLsbD 1 = true → s.regs.dmaRxBase = s.params.rxDescBase)

/-- What never changes in slot `i` of a ring once INIT_RING has run (R21, R25, R26, R102): its buffer, its WRAP and CHAIN
flags and its link, which in ring mode wraps at the last slot and in chain mode points at the next one. -/
abbrev SlotLinked (s : State) (k : RingKind) (i : Nat) : Prop :=
  (s.desc k i).buf = BitVec.ofNat 32 (bufAddr s.params k i) ∧
    (s.desc k i).wrap = (decide (ringMode s.params k = .ring) && decide (i = ringSize s.params k - 1)) ∧
    (s.desc k i).chain = decide (ringMode s.params k = .chain) ∧
    (s.desc k i).next =
      if ringMode s.params k = .chain then BitVec.ofNat 32 (descAddr s.params k ((i + 1) % ringSize s.params k)) else 0

/-- Every slot of both rings is linked, every RX slot offers BUF_SIZE bytes and holds a frame of at most that (R25, R264),
every HW-owned TX slot holds 1 to BUF_SIZE bytes to send (R131). -/
abbrev RingsOk (s : State) : Prop :=
  (∀ i < s.params.nTx, SlotLinked s .tx i ∧ (s.desc .tx i).len.toNat ≤ s.params.bufSize ∧
    ((s.desc .tx i).own = true → 1 ≤ (s.desc .tx i).len.toNat)) ∧
  (∀ i < s.params.nRx, SlotLinked s .rx i ∧ (s.desc .rx i).len.toNat = s.params.bufSize ∧
    (s.desc .rx i).flen.toNat ≤ s.params.bufSize)

/-- The RX hand-off FIFO holds at most RXQ_DEPTH entries, each ERR or a frame of 1 to BUF_SIZE bytes (R34). -/
abbrev QueueOk (s : State) : Prop :=
  s.rxq.length ≤ s.params.rxqDepth ∧
    ∀ e ∈ s.rxq, match e with
      | .data b => 1 ≤ b.length ∧ b.length ≤ s.params.bufSize
      | .err => True

/-- The invariant of the block: what every step keeps, whatever is scheduled. The rings and the queue are described from
ATTACH on. -/
structure Inv (s : State) : Prop where
  params  : paramsOk s.params = true
  mem     : s.mem.wf = true
  regs    : RegsOk s
  phases  : PhasesOk s
  bases   : BasesOk s
  indices : IndicesOk s
  rings   : s.dev ≠ .uninit → RingsOk s
  queue   : s.dev ≠ .uninit → QueueOk s

/-- The TX engine and the software agree on the ring: from the engine's cursor on, `n` slots are HW-owned and no other, and
`tx_head` is the slot after them (R18, R22, R50). -/
abbrev TxWindow (s : State) : Prop :=
  ∃ n, n < s.params.nTx + 1 ∧ (s.tx.cur + n) % s.params.nTx = s.txHead ∧
    ∀ j < s.params.nTx, ((s.desc .tx ((s.tx.cur + j) % s.params.nTx)).own = true ↔ j < n)

/-- The same of the RX ring: from `rx_head` on, `n` slots are SW-owned (received and not yet consumed) and no other, and the
engine's cursor is the slot after them (R24, R50). -/
abbrev RxWindow (s : State) : Prop :=
  ∃ n, n < s.params.nRx + 1 ∧ (s.rxHead + n) % s.params.nRx = s.rx.cur ∧
    ∀ j < s.params.nRx, ((s.desc .rx ((s.rxHead + j) % s.params.nRx)).own = false ↔ j < n)

end Sys2Proof.Safety
end

