-- ==== Sys2Proof/Certificates/Slice0/Obligations.lean ====
section
/-! DEFINITION. The statements for the provers, rule by rule of spec/. A frame is written as an equation: the state after is
the state before with the named fields replaced, so every other field (every other register, flag, counter, queue, and all
of memory where `mem` is not named) is unchanged. -/

open Sys2Proof Sys2Proof.Machine Sys2Proof.Safety

/-! ## Encodings (spec/30_encoding.md) -/

/-- R111, R113, R114, R118: the decoder reads back every well-formed operation with every operand. The layout of draws in
the payload is the model's (log 9). -/
def Obligations.DecodeOfEncodeIsTheInstruction : Prop :=
  ∀ i : Instr, i.wellFormed = true → decode (encode i) = .ok i

/-- R120: the words of the encoded command examples, and the host port reads those words, and a one-byte SEND (R118), as
those commands. R120 gives words only: that a packet is the word's four bytes, least significant byte first, and then the
payload is the model's choice (log 29). -/
def Obligations.CommandWordExamples : Prop :=
  instrWord .attach = 0x00000001 ∧ instrWord .start = 0x00000002 ∧ instrWord .stop = 0x00000003 ∧
    (∀ bytes, instrWord (.send 64 bytes) = 0x00400004) ∧ instrWord (.receive 1536) = 0x06000005 ∧
    instrWord .getStats = 0x00000007 ∧ instrWord .setModeAuto = 0x00000009 ∧
    instrWord (.setModeForced .s100 .full) = 0x00050109 ∧ instrWord .watchdog = 0x0000000A ∧
    decodeHost [0x01, 0, 0, 0] = .command .attach ∧ decodeHost [0x02, 0, 0, 0] = .command .start ∧
    decodeHost [0x03, 0, 0, 0] = .command .stop ∧ decodeHost [0x05, 0x00, 0x00, 0x06] = .command (.receive 1536) ∧
    decodeHost [0x07, 0, 0, 0] = .command .getStats ∧ decodeHost [0x09, 0, 0, 0] = .command .setModeAuto ∧
    decodeHost [0x09, 0x01, 0x05, 0x00] = .command (.setModeForced .s100 .full) ∧
    decodeHost [0x0A, 0, 0, 0] = .command .watchdog ∧
    decodeHost [0x04, 0x00, 0x01, 0x00, 0xAA] = .command (.send 1 [0xAA])

/-- R113: one word of every family of the opcode table, written from its encoding, decodes to the operation it names; a
reserved OP, a SUB and a speed code without meaning decode to none. -/
def Obligations.OpcodeTableWords : Prop :=
  decodeTableWord 32 0x00000120 = some (.initRing .rx) ∧ decodeTableWord 32 0x00080023 = some (.reclaimRx 8) ∧
    decodeTableWord 32 0x00010024 = some (.mdioRead 1) ∧ decodeTableWord 32 0x000F0026 = some (.startNegotiation 15) ∧
    decodeTableWord 32 0x00060028 = some (.forceLink .s1000 .full) ∧ decodeTableWord 32 0x0000002B = some .isr ∧
    decodeTableWord 32 0x0000042E = some .recStepRestart ∧ decodeTableWord 32 0x00000031 = some .startFin ∧
    decodeTableWord 32 0x00000042 = some .busError ∧ decodeTableWord 32 0x0000000B = none ∧
    decodeTableWord 32 0x0000052E = none ∧ decodeTableWord 32 0x00030028 = none

/-- R116, the encoding part: the host port calls a word illegal exactly when the rule does. That this holds whatever bytes
follow the word is the model's: an illegal word is judged before the bytes after it (log 30), and a legal word with bytes
R118 does not give it is refused and not called illegal (log 25). The word's bytes come in the order of log 29. -/
def Obligations.HostPortIllegalExactly : Prop :=
  ∀ (w : Word) (payload : List Byte), decodeHost (wordBytes w ++ payload) = .illegal ↔ illegalWord w

/-- R116: a step that takes an illegal word, from a host with no command unanswered, answers ILLEGAL_COMMAND (0x7F) and
changes nothing else. The speed code 2 is illegal on a MAC without gigabit, whatever bytes follow (log 30). That an illegal
word is answered before ATTACH too, and not while a command is unanswered, is the model's order of checks (log 8). The
word's bytes come in the order of log 29. -/
def Obligations.IllegalCommandAnswered : Prop :=
  ∀ (s : State) (w : Word) (payload : List Byte) (rest : List Item), paramsOk s.params = true → Answered s →
    (illegalWord w ∨ (s.params.macGigabit = false ∧ (w = 0x00020109 ∨ w = 0x00060109))) →
    s.script = .packet .host (wordBytes w ++ payload) :: rest →
    step s = .next { s with script := rest, resp := some ⟨0x0000007F, .none⟩ }

/-- R115, R300: the response word holds the value in bits 31:16, 0 in bits 15:8 and the code in bits 7:0, and the codes are
those of the table. -/
def Obligations.ResponseWordLayout : Prop :=
  (∀ (code : ResultCode) (v : Nat),
    (responseWord code v).toNat = (v % 65536) * 65536 + (resultByte code).toNat) ∧
  resultByte .ok = 0x00 ∧ resultByte .ringFull = 0x01 ∧ resultByte .deviceNotRunning = 0x02 ∧
    resultByte .negTimeout = 0x03 ∧ resultByte .illegalCommand = 0x7F

/-- R101, R102, R104: the two status and control words of a descriptor as numbers, the record read back from the four words,
and reserved bits ignored by a reader. -/
def Obligations.DescriptorWordsAndFields : Prop :=
  (∀ d : Desc, (des0 .tx d).toNat = d.own.toNat * 2147483648 + d.unf.toNat) ∧
  (∀ d : Desc, (des0 .rx d).toNat = d.own.toNat * 2147483648 + d.flen.toNat * 65536 + d.fs.toNat * 512 + d.ls.toNat * 256
    + d.ovf.toNat * 4 + d.lerr.toNat * 2 + d.crc.toNat) ∧
  (∀ d : Desc, (des1 .tx d).toNat = d.fs.toNat * 1073741824 + d.ls.toNat * 536870912 + d.wrap.toNat * 33554432
    + d.chain.toNat * 16777216 + d.len.toNat) ∧
  (∀ d : Desc, (des1 .rx d).toNat = d.wrap.toNat * 33554432 + d.chain.toNat * 16777216 + d.len.toNat) ∧
  (∀ (k : RingKind) (d : Desc), d.fits k → descOfWords k (des0 k d) (des1 k d) d.buf d.next = d) ∧
  (∀ w0 w1 w2 w3 : Word,
    descOfWords .tx w0 w1 w2 w3 = descOfWords .tx (w0 &&& 0x80000001) (w1 &&& 0x63003FFF) w2 w3 ∧
    descOfWords .rx w0 w1 w2 w3 = descOfWords .rx (w0 &&& 0xBFFF0307) (w1 &&& 0x03003FFF) w2 w3)

/-- R105: the encoded descriptor examples, for BUF_SIZE 1536 and N = 8 in ring mode. -/
def Obligations.DescriptorWordExamples : Prop :=
  let fresh := freshSlot Params.standard
  let queued (i : Nat) : Desc := { fresh .tx i with len := 64, fs := true, ls := true, own := true }
  let sent (i : Nat) : Desc := { queued i with own := false }
  let received : Desc := { fresh .rx 0 with own := false, flen := 64, fs := true, ls := true }
  des0 .tx (queued 0) = 0x80000000 ∧ des1 .tx (queued 0) = 0x60000040 ∧ des1 .tx (queued 7) = 0x62000040 ∧
    des0 .tx (sent 0) = 0x00000000 ∧ des1 .tx (sent 0) = 0x60000040 ∧
    des1 .tx (freedDesc (sent 0)) = 0x00000000 ∧ des1 .tx (freedDesc (sent 7)) = 0x02000000 ∧
    des0 .rx (fresh .rx 0) = 0x80000000 ∧ des1 .rx (fresh .rx 0) = 0x00000600 ∧
    des0 .rx received = 0x00400300 ∧ des0 .rx { received with crc := true } = 0x00400301

/-! ## Steps and stops (spec/60_exceptions.md) -/

/-- R14, R110, R304: the next item of the input decides the step: an operation that decodes is executed as `exec` says, a
turn of the host answers a held START whose hold is lifted (log 7), no input leaves the block idle (log 4), and an ill-formed
instance has no step. -/
def Obligations.StepRunsTheNextItem : Prop :=
  ∀ (s : State) (bytes : List Byte) (rest : List Item) (i : Instr),
    (paramsOk s.params = false → step s = .refused .illFormedInstance) ∧
    (paramsOk s.params = true →
      (s.script = [] → step s = .next s) ∧
      (s.script = .packet .agent bytes :: rest → decode bytes = .ok i → step s = exec i { s with script := rest }) ∧
      (s.script = .packet .host bytes :: rest → decode bytes = .ok i → i.isHostCommand = true →
        step s = exec i { s with script := rest }) ∧
      (s.script = .hostTurn :: rest → s.startHeld = true → s.recPh = .none →
        step s = .next { s with script := rest, startHeld := false, resp := some ⟨reply 0 0, .none⟩ }) ∧
      (s.script = .hostTurn :: rest → ¬ (s.startHeld = true ∧ s.recPh = .none) →
        step s = .next { s with script := rest, ret := .notEnabled }))

/-- R302: an operation stops exactly when it breaks a host duty, with that duty; otherwise it takes a next state. No
operation is refused. The order of the checks is the model's (logs 8, 12). -/
def Obligations.ExecStopsExactlyOnHostDuties : Prop :=
  ∀ (i : Instr) (s : State),
    match stopDuty i s with
    | some d => exec i s = .fault (.hostDuty d)
    | none => ∃ t, exec i s = .next t

/-- R199, R260, R303, R310: a step that is not enabled changes nothing but the model's own record of it (log 6). The ISR is
enabled by a status bit that is set and enabled, or by a shared line. R331: at reset no agent has an enabled step that does
anything (the ISR of a shared line finds a zero status). -/
def Obligations.DisabledStepsChangeNothing : Prop :=
  (∀ (p : Params) (i : Instr),
    i ∈ [Instr.negPoll, .isr, .recStepStopping, .recStepReinit, .recStepReapply, .recStepRestart, .startFin, .stopEnd,
      .txdmaStep false, .txdmaStep true, .busError] →
    ∃ r, exec i (State.resetOf p) = .next { State.resetOf p with ret := r }) ∧
  ∀ s : State,
    let off : Host.Outcome State Fault Refusal := .next { s with ret := .notEnabled }
    (∀ u, (s.regs.dmaOpmode.getLsbD 13 = false ∨ s.regs.macCfg.getLsbD 3 = false ∨ s.tx.halted = true ∨ s.tx.susp = true) →
      exec (.txdmaStep u) s = off) ∧
    (∀ len bytes crc lerr ovf,
      (s.regs.dmaOpmode.getLsbD 1 = false ∨ s.regs.macCfg.getLsbD 2 = false ∨ s.rx.halted = true) →
      exec (.rxdmaFrame len bytes crc lerr ovf) s = off) ∧
    ((s.regs.dmaOpmode.getLsbD 13 = false ∨ s.tx.halted = true) →
      (s.regs.dmaOpmode.getLsbD 1 = false ∨ s.rx.halted = true) → exec .busError s = off) ∧
    (s.dev = .uninit → exec .phyLinkEvent s = off) ∧
    (s.params.sharedLine = false → (∀ j < 6, ¬ (s.regs.dmaStatus.getLsbD j = true ∧ s.regs.dmaIer.getLsbD j = true)) →
      exec .isr s = off) ∧
    (s.neg ≠ .negotiating → exec .negPoll s = off) ∧
    (s.recPh ≠ .stopping → exec .recStepStopping s = off) ∧ (s.recPh ≠ .reinit → exec .recStepReinit s = off) ∧
    (s.recPh ≠ .reapply → exec .recStepReapply s = off) ∧ (s.recPh ≠ .restart → exec .recStepRestart s = off) ∧
    ((s.startPh = .none ∨ s.neg ≠ .resolved) → exec .startFin s = off) ∧
    ((s.stopPh = .none ∨ s.recPh ≠ .none) → exec .stopEnd s = off)

/-! ## Memory and registers (spec/20_memory.md, spec/10_state.md) -/

/-- R71, R72: little-endian 4-byte reads, and byte and 4-byte writes that change only those bytes. -/
def Obligations.MemoryReadsAndWrites : Prop :=
  ∀ (m : Memory) (a x : Nat) (b : Byte) (v : Word), m.wf = true →
    (m.read32 a).toNat = (m.read a).toNat + 256 * (m.read (a + 1)).toNat + 65536 * (m.read (a + 2)).toNat
      + 16777216 * (m.read (a + 3)).toNat ∧
    (m.write a b).read x = (if x = a then b else m.read x) ∧
    ((m.write32 a v).read x).toNat =
      (if a ≤ x ∧ x < a + 4 then v.toNat / 256 ^ (x - a) % 256 else (m.read x).toNat) ∧
    (m.write a b).wf = true ∧ (m.write32 a v).wf = true

/-- R39: the map. Each register at its offset, its access and its reset value, with the fields of R40 to R49 and the cursors of
R52; an offset not listed reads 0 and ignores writes. That MAC_ADDR_HI bits 31:16 are reserved is the model's (log 26). -/
def Obligations.RegisterMap : Prop :=
  ∀ (s : State) (p : Params) (v : Word) (off : Nat),
    -- offsets not listed
    (off ∉ [0x000, 0x004, 0x010, 0x014, 0x040, 0x044, 0x1004, 0x1008, 0x100C, 0x1010, 0x1014, 0x1018, 0x101C, 0x1048,
      0x104C] → regRead s off = 0 ∧ regWrite s off v = s) ∧
    -- RW: the implemented bits read back, reserved bits read 0; PS reads 1 on a MAC without gigabit
    regRead (regWrite s 0x000 v) 0x000 =
      (if s.params.macGigabit = true then v &&& 0x0000C80C else (v &&& 0x0000480C) ||| 0x00008000) ∧
    regRead (regWrite s 0x004 v) 0x004 = v ∧
    regRead (regWrite s 0x010 v) 0x010 = ((v &&& 0x0000FFC2) ||| ((regRead s 0x010 ||| v) &&& 1)) ∧
    regRead (regWrite s 0x014 v) 0x014 = v &&& 0x0000FFFF ∧ regRead (regWrite s 0x040 v) 0x040 = v &&& 0x0000FFFF ∧
    regRead (regWrite s 0x044 v) 0x044 = v ∧
    regRead (regWrite s 0x100C v) 0x100C = v &&& 0xFFFFFFF0 ∧ regRead (regWrite s 0x1010 v) 0x1010 = v &&& 0xFFFFFFF0 ∧
    regRead (regWrite s 0x1018 v) 0x1018 = v &&& 0x00002002 ∧ regRead (regWrite s 0x101C v) 0x101C = v &&& 0x0000003F ∧
    -- W1C
    regRead (regWrite s 0x1014 v) 0x1014 = regRead s 0x1014 &&& ~~~v ∧
    -- WO, reads 0
    regRead s 0x1004 = 0 ∧ regRead s 0x1008 = 0 ∧
    -- RO, and what the cursors read (R52)
    regWrite s 0x1048 v = s ∧ regWrite s 0x104C v = s ∧
    regRead s 0x1048 = regRead s 0x1010 + BitVec.ofNat 32 (16 * s.tx.cur) ∧
    regRead s 0x104C = regRead s 0x100C + BitVec.ofNat 32 (16 * s.rx.cur) ∧
    -- reset
    regRead (State.resetOf p) off = (if off = 0 ∧ p.macGigabit = false then 0x00008000 else 0)

/-- R45: a write of any value to a poll register clears that engine's `susp` and does nothing else. R46: a write of a base
puts that engine's cursor at 0 and clears `susp` and `halted`. -/
def Obligations.PollDemandsAndBaseWrites : Prop :=
  ∀ (s : State) (v : Word),
    regWrite s 0x1004 v = { s with tx := { s.tx with susp := false } } ∧
    regWrite s 0x1008 v = { s with rx := { s.rx with susp := false } } ∧ regRead s 0x1004 = 0 ∧ regRead s 0x1008 = 0 ∧
    regWrite s 0x1010 v = { s with regs := { s.regs with dmaTxBase := v &&& 0xFFFFFFF0 }, tx := ⟨0, false, false⟩ } ∧
    regWrite s 0x100C v = { s with regs := { s.regs with dmaRxBase := v &&& 0xFFFFFFF0 }, rx := ⟨0, false, false⟩ }

/-- R169: the MAC_CFG word of every mode, as a number. -/
def Obligations.MacCfgWordValue : Prop :=
  (∀ (speed : Speed) (duplex : Duplex) (en : Bool), (macCfgWord speed duplex en).toNat =
    en.toNat * 4 + en.toNat * 8 + (if duplex = .full then 2048 else 0) + (if speed = .s100 then 16384 else 0)
      + (if speed = .s1000 then 0 else 32768)) ∧
  macCfgWord .s100 .full true = 0x0000C80C ∧ macCfgWord .s1000 .full true = 0x0000080C ∧
    macCfgWord .s10 .half false = 0x00008000

/-! ## Descriptor ring manager (spec/40_ring_manager.md) -/

/-- R130: every descriptor freshly written, the software state of that ring reset, no other byte of memory changed. -/
def Obligations.InitRing : Prop :=
  ∀ s : State, Sound s →
    (∃ t, exec (.initRing .tx) s = .next t ∧ FreshRing t .tx ∧
      (∀ a, OutsideRing s.params .tx a → t.mem.read a = s.mem.read a) ∧
      t = { s with mem := t.mem, txHead := 0, txTail := 0, wdCur := 0, wdCount := 0, ret := .none }) ∧
    (∃ t, exec (.initRing .rx) s = .next t ∧ FreshRing t .rx ∧
      (∀ a, OutsideRing s.params .rx a → t.mem.read a = s.mem.read a) ∧
      t = { s with mem := t.mem, rxHead := 0, rxq := [], ret := .none })

/-- R131: RingFull on a HW-owned head with nothing changed; otherwise the frame is in the buffer, the descriptor published,
the head advanced, the TX engine woken, and no other byte of memory changed. -/
def Obligations.EnqueueTx : Prop :=
  ∀ (s : State) (len : Half) (bytes : List Byte), Sound s → s.txHead < s.params.nTx → GoodLength s.params len bytes →
    let i := s.txHead
    let d := s.desc .tx i
    (d.own = true → exec (.enqueueTx len bytes) s = .next { s with ret := .enqueue .ringFull 0 }) ∧
    (d.own = false → ∃ t, exec (.enqueueTx len bytes) s = .next t ∧
      t = { s with
        mem := t.mem, txHead := (i + 1) % s.params.nTx, tx := { s.tx with susp := false }
        ret := .enqueue .ok len.toNat } ∧
      SlotHolds t .tx i
        { d with len := BitVec.ofNat 14 len.toNat, fs := true, ls := true, unf := false, own := true } ∧
      t.mem.readBytes (s.params.txBufBase.toNat + s.params.bufStride * i) len.toNat = bytes ∧
      ∀ a, Outside (s.params.txDescBase.toNat + 16 * i) 16 a →
        Outside (s.params.txBufBase.toNat + s.params.bufStride * i) len.toNat a → t.mem.read a = s.mem.read a)

/-- R132: the walk frees the completed slots from the tail on, up to the first HW-owned or free one or the capacity, counts
each as sent or as underflow, and changes nothing else. That a freed slot's FS and LS are cleared too is the model's reading
of the rule's example (log 16). -/
def Obligations.ReclaimTx : Prop :=
  ∀ s : State, Sound s → s.txTail < s.params.nTx →
    let N := s.params.nTx
    let slot (j : Nat) : Nat := (s.txTail + j) % N
    ∃ n t, exec .reclaimTx s = .next t ∧ n ≤ N ∧
      (∀ j < n, (s.desc .tx (slot j)).own = false ∧ (s.desc .tx (slot j)).len ≠ 0) ∧
      (n = N ∨ (s.desc .tx (slot n)).own = true ∨ (s.desc .tx (slot n)).len = 0) ∧
      t = { s with
        mem := t.mem, txTail := slot n, ret := .count n
        stats := { s.stats with
          txPackets := s.stats.txPackets + countUnf s false n
          txUnderflow := s.stats.txUnderflow + countUnf s true n } } ∧
      (∀ j < n, SlotHolds t .tx (slot j) { s.desc .tx (slot j) with len := 0, unf := false, fs := false, ls := false }) ∧
      ∀ a, (∀ j < n, Outside (s.params.txDescBase.toNat + 16 * slot j) 16 a) → t.mem.read a = s.mem.read a

/-- R133 to R136: the walk consumes the completed slots from the head on, up to the first HW-owned one, `max_count` or the
capacity; each is counted and handed off in order, and re-armed; a poll demand follows when something was consumed. The
premise on the received lengths is part of the invariant (R264). -/
def Obligations.ReclaimRx : Prop :=
  ∀ (s : State) (maxCount : Half), Sound s → s.rxHead < s.params.nRx →
    (∀ i < s.params.nRx, (s.desc .rx i).flen.toNat ≤ s.params.bufSize) →
    let N := s.params.nRx
    let slot (j : Nat) : Nat := (s.rxHead + j) % N
    ∃ n t, exec (.reclaimRx maxCount) s = .next t ∧ n ≤ min maxCount.toNat N ∧
      (∀ j < n, (s.desc .rx (slot j)).own = false) ∧
      (n = min maxCount.toNat N ∨ (s.desc .rx (slot n)).own = true) ∧
      t = { s with
        mem := t.mem, rxHead := slot n, rxq := (consumeSlots s n).1, stats := (consumeSlots s n).2
        rx := { s.rx with susp := if n = 0 then s.rx.susp else false }, ret := .count n } ∧
      (∀ j < n, SlotHolds t .rx (slot j)
        { s.desc .rx (slot j) with
          flen := 0, crc := false, lerr := false, ovf := false, fs := false, ls := false
          len := BitVec.ofNat 14 s.params.bufSize, own := true }) ∧
      ∀ a, (∀ j < n, Outside (s.params.rxDescBase.toNat + 16 * slot j) 16 a) → t.mem.read a = s.mem.read a

/-- R137: a walk makes at most its bound of iterations, and exactly that many when every slot is complete. -/
def Obligations.ReclaimExactlyCapacity : Prop :=
  ∀ (s : State) (maxCount : Half), Sound s → s.txTail < s.params.nTx → s.rxHead < s.params.nRx →
    (∃ n t, exec .reclaimTx s = .next t ∧ t.ret = .count n ∧ n ≤ s.params.nTx ∧
      ((∀ i < s.params.nTx, (s.desc .tx i).own = false ∧ (s.desc .tx i).len ≠ 0) → n = s.params.nTx)) ∧
    (∃ n t, exec (.reclaimRx maxCount) s = .next t ∧ t.ret = .count n ∧ n ≤ min maxCount.toNat s.params.nRx ∧
      ((∀ i < s.params.nRx, (s.desc .rx i).own = false) → n = min maxCount.toNat s.params.nRx))

/-! ## Link sequencer (spec/41_link_sequencer.md) -/

/-- R160, R54, R270: a read cycle returns the last value written to PHY register 0 (bit 9 as 0), 4 or 9 and a draw for every
other number; the command is in MII_ADDR with GB 0 again, the value in MII_DATA. -/
def Obligations.MdioReadCycle : Prop :=
  ∀ (s : State) (reg : BitVec 5),
    let kept : Option Half :=
      if reg = 0 then some (s.phy.bmcr &&& 0xFDFF) else if reg = 4 then some s.phy.anar
      else if reg = 9 then some s.phy.gtcr else none
    match kept with
    | some v => exec (.mdioRead reg) s = .next { s with regs := readCycle s reg.toNat v, ret := .phyWord v }
    | none => exec (.mdioRead reg) s =
        .next { afterDraws s 1 with regs := readCycle s reg.toNat (answer s 0), ret := .phyWord (answer s 0) }

/-- R161: a write cycle stores the value in PHY register 0, 4 or 9 and in no other. -/
def Obligations.MdioWriteCycle : Prop :=
  ∀ (s : State) (reg : BitVec 5) (v : Half),
    exec (.mdioWrite reg v) s = .next { s with
      regs := writeCycle s reg.toNat v, ret := .none
      phy := {
        bmcr := if reg = 0 then v else s.phy.bmcr
        anar := if reg = 4 then v else s.phy.anar
        gtcr := if reg = 9 then v else s.phy.gtcr } }

/-- R163: the advertised modes in ANAR (and GTCR on a MAC with gigabit), the restart in BMCR, the bounded wait begun. -/
def Obligations.StartNegotiation : Prop :=
  ∀ (s : State) (adv : BitVec 6),
    exec (.startNegotiation adv) s = .next { s with
      neg := .negotiating, negPolls := 0, regs := writeCycle s 0 0x1200, ret := .none
      phy := {
        bmcr := 0x1200
        anar := BitVec.ofNat 16 (32 * (adv.toNat % 16) + 1)
        gtcr := if s.params.macGigabit = true then BitVec.ofNat 16 (256 * (adv.toNat / 16)) else s.phy.gtcr } }

/-- R165, R166, R167: the preferred mode the two sides share, else the fallback; the carrier from BMSR; a shared mode with the
link up becomes known good; NegotiationTimeout when no mode is shared. The partner's registers are draws. -/
def Obligations.ResolveLinkMode : Prop :=
  ∀ s : State,
    let giga := s.params.macGigabit
    let n := if giga = true then 4 else 2
    let bmsr := answer s (n - 1)
    let shared := Shared giga s.phy.anar (answer s 0) (answer s 1) s.phy.gtcr (answer s 2)
    ∃ (m : LinkMode) (r : NegResult),
      (r = .ok ↔ ∃ m', shared m') ∧ (r = .ok → Preferred shared m) ∧ (r ≠ .ok → Fallback s.knownGood m) ∧
      exec .resolveLinkMode s = .next { afterDraws s n with
        link := ⟨m.speed, m.duplex, carrierBit bmsr, .auto⟩
        knownGood := if r = .ok ∧ bmsr.getLsbD 2 = true then s.knownGood ||| (1 <<< modeRank m) else s.knownGood
        regs := readCycle s 1 bmsr
        ret := .link r }

/-- R164: one poll while NEGOTIATING. Complete: the mode is resolved. Not complete: counted, and on the last one the
fallback with NegotiationTimeout. -/
def Obligations.NegPoll : Prop :=
  ∀ s : State, s.neg = .negotiating →
    let bmsr := answer s 0
    let polled := { afterDraws s 1 with regs := readCycle s 1 bmsr, ret := .none }
    (bmsr.getLsbD 5 = true → ∃ t r, exec .resolveLinkMode polled = .next t ∧ t.ret = .link r ∧
      exec .negPoll s = .next { t with neg := .resolved, negResult := r, ret := .none }) ∧
    (bmsr.getLsbD 5 = false → s.negPolls + 1 ≠ s.params.negPollMax →
      exec .negPoll s = .next { polled with negPolls := s.negPolls + 1 }) ∧
    (bmsr.getLsbD 5 = false → s.negPolls + 1 = s.params.negPollMax → ∃ m, Fallback s.knownGood m ∧
      exec .negPoll s = .next { polled with
        negPolls := s.negPolls + 1, link := ⟨m.speed, m.duplex, carrierBit bmsr, .auto⟩
        neg := .resolved, negResult := .negotiationTimeout })

/-- R168: BMCR for the forced mode, the link in it with the carrier from BMSR, known good when the link is up. -/
def Obligations.ForceLink : Prop :=
  ∀ (s : State) (speed : Speed) (duplex : Duplex),
    let bmsr := answer s 0
    exec (.forceLink speed duplex) s = .next { afterDraws s 1 with
      link := ⟨speed, duplex, carrierBit bmsr, .forced⟩
      knownGood := if bmsr.getLsbD 2 = true then s.knownGood ||| (1 <<< modeRank ⟨speed, duplex⟩) else s.knownGood
      neg := .resolved, negResult := .ok, regs := readCycle s 1 bmsr, ret := .none
      phy := { s.phy with
        bmcr := BitVec.ofNat 16 ((if speed = .s100 then 8192 else 0) + (if duplex = .full then 256 else 0)
          + (if speed = .s1000 then 64 else 0)) } }

/-- R170: both rings fresh, both engines reset at the instance's bases, filter and MAC_CFG for the new mode, both directions
running; DMA_IER, link, counters and the rest unchanged. -/
def Obligations.ReconfigureMac : Prop :=
  ∀ (s : State) (speed : Speed) (duplex : Duplex), Sound s →
    ∃ t, exec (.reconfigureMac speed duplex) s = .next t ∧ RingsFresh s t ∧
      t = { basesWritten (ringsCleared s t.mem) with
        ret := .none
        regs := { (basesWritten s).regs with
          macFilter := s.cfg.filter, macCfg := macCfgFor s.params speed duplex true, dmaOpmode := 0x00002002 } }

/-- R172: only ATTACH, the resolution, the forced path, a poll and the link-change service (inside START and the ISR too)
write `link` or the known-good mask. -/
def Obligations.LinkSingleWriter : Prop :=
  ∀ (i : Instr) (s t : State), exec i s = .next t → (t.link ≠ s.link ∨ t.knownGood ≠ s.knownGood) →
    (i = .attach ∧ s.dev = .uninit) ∨ i = .negPoll ∨ i = .resolveLinkMode ∨ (∃ sp d, i = .forceLink sp d) ∨
      ((i = .linkChangeService ∨ (i = .isr ∧ s.regs.dmaStatus.getLsbD 5 = true)) ∧ s.dev = .running) ∨
      (i = .start ∧ s.dev = .idle ∧ ∃ m, s.cfg.mode = .forced m)

/-! ## Interrupt engine (spec/42_interrupt_engine.md) -/

/-- R190, R192, R194, R195: one invocation. The snapshot is read and cleared; zero returns; a link change runs the link-change
service alone; a fatal error runs the fatal-error entry with interrupts disabled; otherwise, while RUNNING, RX reclaim, TX
reclaim, the RXU recovery, and the enables back. -/
def Obligations.IsrSteps : Prop :=
  ∀ s : State, Sound s →
    (s.params.sharedLine = true ∨ ∃ j < 6, s.regs.dmaStatus.getLsbD j = true ∧ s.regs.dmaIer.getLsbD j = true) →
    let snapshot := s.regs.dmaStatus &&& 0x3F
    let cleared := { s with regs := { s.regs with dmaStatus := 0 }, ret := .none }
    let counted := { cleared with stats := { s.stats with interrupts := s.stats.interrupts + 1 } }
    let masked := { counted with regs := { counted.regs with dmaIer := 0 } }
    (snapshot = 0 → exec .isr s = .next cleared) ∧
    (snapshot.getLsbD 5 = true → exec .isr s = exec .linkChangeService counted) ∧
    (snapshot.getLsbD 5 = false → snapshot.getLsbD 4 = true → exec .isr s = exec .handleFatalError masked) ∧
    (snapshot ≠ 0 → snapshot.getLsbD 5 = false → snapshot.getLsbD 4 = false → s.dev ≠ .running →
      exec .isr s = .next masked) ∧
    (snapshot ≠ 0 → snapshot.getLsbD 5 = false → snapshot.getLsbD 4 = false → s.dev = .running →
      ∃ t1 t2 t3, exec (.reclaimRx (BitVec.ofNat 16 s.params.nRx)) masked = .next t1 ∧ exec .reclaimTx t1 = .next t2 ∧
        (if snapshot.getLsbD 3 = true then exec .handleRxStopped t2 = .next t3 else t3 = t2) ∧
        exec .isr s = .next { t3 with regs := { t3.regs with dmaIer := 0x3F }, ret := .none })

/-- R314: how each path of an invocation leaves DMA_IER. -/
def Obligations.IsrLeavesEnables : Prop :=
  ∀ s : State,
    (s.params.sharedLine = true ∨ ∃ j < 6, s.regs.dmaStatus.getLsbD j = true ∧ s.regs.dmaIer.getLsbD j = true) →
    let snapshot := s.regs.dmaStatus &&& 0x3F
    ∃ t, exec .isr s = .next t ∧
      t.regs.dmaIer = if snapshot = 0 ∨ snapshot.getLsbD 5 = true then s.regs.dmaIer
        else if snapshot.getLsbD 4 = true ∨ s.dev ≠ .running then 0 else 0x3F

/-- R198: an invocation counts exactly when its status snapshot is not zero; no other operation counts interrupts, and only
ATTACH resets the count. -/
def Obligations.InterruptsCounted : Prop :=
  ∀ (i : Instr) (s t : State), exec i s = .next t → i ≠ .attach →
    t.stats.interrupts = s.stats.interrupts +
      (if i = .isr ∧ (s.params.sharedLine = true ∨ s.regs.dmaStatus &&& s.regs.dmaIer &&& 0x3F ≠ 0) ∧
        s.regs.dmaStatus &&& 0x3F ≠ 0 then 1 else 0)

/-- R196, R171: nothing unless RUNNING; a lost link only loses the carrier; in AUTO an unfinished negotiation only gives the
carrier and a finished one is resolved; a changed mode reconfigures the MAC. -/
def Obligations.LinkChangeService : Prop :=
  ∀ s : State,
    let bmsr := answer s 0
    let polled := { afterDraws s 1 with regs := readCycle s 1 bmsr, ret := .none }
    let carrier (c : Carrier) : State := { polled with link := { s.link with carrier := c } }
    (s.dev ≠ .running → exec .linkChangeService s = .next { s with ret := .none }) ∧
    (s.dev = .running →
      (bmsr.getLsbD 2 = false → exec .linkChangeService s = .next (carrier .down)) ∧
      (bmsr.getLsbD 2 = true → (s.link.negmode = .forced ∨ bmsr.getLsbD 5 = false) →
        exec .linkChangeService s = .next (carrier .up)) ∧
      (bmsr.getLsbD 2 = true → s.link.negmode = .auto → bmsr.getLsbD 5 = true →
        ∃ t, exec .resolveLinkMode polled = .next t ∧
          exec .linkChangeService s =
            if t.link.speed = s.link.speed ∧ t.link.duplex = s.link.duplex then .next { t with ret := .none }
            else exec (.reconfigureMac t.link.speed t.link.duplex) t))

/-- R197, R246: a tick. Answered OK to the tick source (log 17). The base premise holds in every running state (R52). -/
def Obligations.WatchdogTick : Prop :=
  ∀ s : State, paramsOk s.params = true → s.tx.cur < s.params.nTx →
    let ticked := { s with tickResp := some (reply 0 0) }
    (s.dev = .uninit → exec .watchdog s = .next ticked) ∧
    ((s.dev = .idle ∨ s.dev = .fault) → exec .watchdog s = .next { ticked with wdCount := 0 }) ∧
    (s.dev = .running → s.regs.dmaTxBase = s.params.txDescBase →
      (((s.desc .tx s.tx.cur).own = false ∨ s.tx.cur ≠ s.wdCur) →
        exec .watchdog s = .next { ticked with wdCur := s.tx.cur, wdCount := 0 }) ∧
      ((s.desc .tx s.tx.cur).own = true → s.tx.cur = s.wdCur → s.wdCount + 1 ≠ s.params.stallTicks →
        exec .watchdog s = .next { ticked with wdCount := s.wdCount + 1 }) ∧
      ((s.desc .tx s.tx.cur).own = true → s.tx.cur = s.wdCur → s.wdCount + 1 = s.params.stallTicks →
        ∃ t, exec .handleTxStopped { ticked with wdCount := s.wdCount + 1 } = .next t ∧
          exec .watchdog s = .next { t with wdCount := 0, ret := s.ret }))

/-! ## Recovery (spec/43_recovery.md) -/

/-- R210, R215: a fatal error of a RUNNING device enters FAULT, is counted, and hands over to the REC agent; otherwise, and a
second time, nothing happens. The narrow recoveries too do nothing unless RUNNING. -/
def Obligations.FatalErrorEntered : Prop :=
  ∀ s : State,
    (s.dev = .running → ∃ t, exec .handleFatalError s = .next t ∧
      t = { s with
        dev := .fault, recPh := .stopping, ret := .none
        stats := { s.stats with fatalErrors := s.stats.fatalErrors + 1 } } ∧
      exec .handleFatalError t = .next t) ∧
    (s.dev ≠ .running → exec .handleFatalError s = .next { s with ret := .none } ∧
      exec .handleRxStopped s = .next { s with ret := .none } ∧ exec .handleTxStopped s = .next { s with ret := .none })

/-- R211, R212, R213, R214: the four steps of the full recovery, each in its phase. -/
def Obligations.RecoverySteps : Prop :=
  ∀ s : State, Sound s →
    let mac := s.cfg.mac
    (s.recPh = .stopping → exec .recStepStopping s = .next { s with
      recPh := .reinit, ret := .none
      regs := { s.regs with dmaOpmode := 0, macCfg := macCfgFor s.params s.link.speed s.link.duplex false } }) ∧
    (s.recPh = .reinit → ∃ t, exec .recStepReinit s = .next t ∧ RingsFresh s t ∧
      t = { basesWritten (ringsCleared s t.mem) with recPh := .reapply, ret := .none }) ∧
    (s.recPh = .reapply → exec .recStepReapply s = .next { s with
      recPh := .restart, ret := .none
      regs := { s.regs with
        macAddrHi := BitVec.ofNat 32 (mac.b5.toNat * 256 + mac.b4.toNat)
        macAddrLo := BitVec.ofNat 32
          (mac.b3.toNat * 16777216 + mac.b2.toNat * 65536 + mac.b1.toNat * 256 + mac.b0.toNat)
        macFilter := s.cfg.filter, macCfg := macCfgFor s.params s.link.speed s.link.duplex false } }) ∧
    (s.recPh = .restart → exec .recStepRestart s = .next { s with
      dev := .running, recPh := .none, rx := { s.rx with susp := false }, ret := .none
      regs := { s.regs with
        dmaStatus := s.regs.dmaStatus &&& 0x20, dmaIer := 0x3F, dmaOpmode := 0x00002002
        macCfg := macCfgFor s.params s.link.speed s.link.duplex true } })

/-- R216, R217: each narrow recovery does nothing unless RUNNING; else it counts a stall, makes its ring fresh, resets its
engine and restarts its direction, the other direction untouched. The premise on the registers is part of the invariant. -/
def Obligations.NarrowRecoveries : Prop :=
  ∀ s : State,
    (s.dev ≠ .running →
      exec .handleRxStopped s = .next { s with ret := .none } ∧ exec .handleTxStopped s = .next { s with ret := .none }) ∧
    (Sound s → RegsOk s → s.dev = .running →
      let stats := { s.stats with stalls := s.stats.stalls + 1 }
      (∃ t, exec .handleRxStopped s = .next t ∧ FreshRing t .rx ∧
        (∀ a, OutsideRing s.params .rx a → t.mem.read a = s.mem.read a) ∧
        t = { s with
          mem := t.mem, stats := stats, rxHead := 0, rxq := [], rx := ⟨0, false, false⟩, ret := .none
          regs := { s.regs with
            dmaRxBase := s.params.rxDescBase
            macCfg := s.regs.macCfg ||| 0x00000004, dmaOpmode := s.regs.dmaOpmode ||| 0x00000002 } }) ∧
      (∃ t, exec .handleTxStopped s = .next t ∧ FreshRing t .tx ∧
        (∀ a, OutsideRing s.params .tx a → t.mem.read a = s.mem.read a) ∧
        t = { s with
          mem := t.mem, stats := stats, txHead := 0, txTail := 0, wdCur := 0, wdCount := 0
          tx := ⟨0, false, false⟩, ret := .none
          regs := { s.regs with
            dmaTxBase := s.params.txDescBase
            macCfg := s.regs.macCfg ||| 0x00000008, dmaOpmode := s.regs.dmaOpmode ||| 0x00002000 } }))

/-- R219: four REC steps bring a device in FAULT back to RUNNING with fresh rings and engines that can step, whatever state
the rings were in; counters, configuration and link kept. -/
def Obligations.FullRecoveryInFourSteps : Prop :=
  ∀ (s : State) (rest : List Item), Sound s → s.dev = .fault → s.recPh = .stopping →
    s.script = scheduled .recStepStopping :: scheduled .recStepReinit :: scheduled .recStepReapply ::
      scheduled .recStepRestart :: rest →
    ∃ t, Host.Core.run Sys2Proof.core 4 s = .next t ∧ t.dev = .running ∧ t.recPh = .none ∧ t.script = rest ∧
      FreshRing t .tx ∧ FreshRing t .rx ∧ t.txHead = 0 ∧ t.txTail = 0 ∧ t.rxHead = 0 ∧ t.rxq = [] ∧
      t.tx = ⟨0, false, false⟩ ∧ t.rx = ⟨0, false, false⟩ ∧ t.regs.dmaOpmode = 0x00002002 ∧ t.regs.dmaIer = 0x3F ∧
      t.regs.dmaTxBase = s.params.txDescBase ∧ t.regs.dmaRxBase = s.params.rxDescBase ∧
      t.stats = s.stats ∧ t.link = s.link ∧ t.cfg = s.cfg ∧ t.knownGood = s.knownGood

/-! ## Host commands (spec/44_facade.md) -/

/-- R330, R230: the reset column, and what ATTACH leaves in the ATTACH column. The values R330 leaves unspecified at reset
(memory, PHY registers) are not stated. -/
def Obligations.ResetAndAttach : Prop :=
  (∀ p : Params, let r := State.resetOf p
    r.dev = .uninit ∧ r.txHead = 0 ∧ r.txTail = 0 ∧ r.rxHead = 0 ∧ r.link = ⟨.s10, .half, .down, .auto⟩ ∧
      r.knownGood = 0 ∧ r.cfg = ⟨⟨0, 0, 0, 0, 0, 0⟩, .auto, 0⟩ ∧ r.stats = ⟨0, 0, 0, 0, 0, 0, 0, 0, 0, 0⟩ ∧ r.rxq = [] ∧
      r.startPh = .none ∧ r.neg = .idle ∧ r.negPolls = 0 ∧ r.negResult = .ok ∧ r.recPh = .none ∧ r.stopPh = .none ∧
      r.wdCur = 0 ∧ r.wdCount = 0 ∧ r.tx = ⟨0, false, false⟩ ∧ r.rx = ⟨0, false, false⟩ ∧ r.wireTx = [] ∧
      (∀ off, regRead r off = if off = 0 ∧ p.macGigabit = false then 0x00008000 else 0) ∧ lineAsserted r.regs = false) ∧
  (∀ s : State, Sound s → s.dev = .uninit → Answered s →
    ∃ t, exec .attach s = .next t ∧ RingsFresh s t ∧
      t = { ringsCleared s t.mem with
        dev := .idle, link := ⟨.s10, .half, .down, .auto⟩, knownGood := 0, cfg := ⟨⟨0, 0, 0, 0, 0, 0⟩, .auto, 0⟩
        stats := ⟨0, 0, 0, 0, 0, 0, 0, 0, 0, 0⟩, startPh := .none, stopPh := .none, recPh := .none
        neg := .idle, negPolls := 0, negResult := .ok, tx := ⟨0, false, false⟩, rx := ⟨0, false, false⟩
        regs := ⟨if s.params.macGigabit = true then 0 else 0x00008000, 0, 0, 0, 0, 0, 0, 0, 0, 0, 0⟩
        resp := some ⟨reply 0 0, .none⟩ }) ∧
  (∀ s : State, s.dev ≠ .uninit → Answered s → exec .attach s = .fault (.hostDuty .reattach))

/-- R231: START by the device state; in IDLE it is START_BEGIN (R232): everything rebuilt, then the negotiation started with
the advertised capabilities, or the link forced. That a START in FAULT is held in `startHeld`, with no answer yet, is the model's form of the hold (log 7);
that START_BEGIN empties `rxq` follows R34, R130 and R232, and not R332 (log 20). -/
def Obligations.StartDispatch : Prop :=
  ∀ s : State, Sound s → Answered s →
    let mac := s.cfg.mac
    (s.dev = .uninit → exec .start s = .fault (.hostDuty .notAttached)) ∧
    (s.dev = .running → exec .start s = .next { s with resp := some ⟨reply 0 0, .none⟩ }) ∧
    (s.dev = .fault → s.recPh ≠ .none → exec .start s = .next { s with resp := none, startHeld := true }) ∧
    (s.dev = .idle → ∃ u t, RingsFresh s u ∧
      u = { basesWritten (ringsCleared s u.mem) with
        resp := none, startPh := .neg, neg := .idle
        regs := { (basesWritten s).regs with
          dmaOpmode := 0, dmaIer := 0, macCfg := macCfgFor s.params s.link.speed s.link.duplex false
          macAddrHi := BitVec.ofNat 32 (mac.b5.toNat * 256 + mac.b4.toNat)
          macAddrLo := BitVec.ofNat 32
            (mac.b3.toNat * 16777216 + mac.b2.toNat * 65536 + mac.b1.toNat * 256 + mac.b0.toNat)
          macFilter := s.cfg.filter } } ∧
      (match s.cfg.mode with
        | .auto => exec (.startNegotiation s.params.advCaps) u = .next t
        | .forced m => exec (.forceLink m.speed m.duplex) u = .next t) ∧
      exec .start s = .next { t with ret := s.ret })

/-- R233, R234: the last step of START: stale status discarded, the MAC enabled in the resolved mode, interrupts and both
engines on, RUNNING, and the answer OK or NEG_TIMEOUT. -/
def Obligations.StartFin : Prop :=
  ∀ s : State, s.startPh = .neg → s.neg = .resolved →
    exec .startFin s = .next { s with
      dev := .running, startPh := .none, rx := { s.rx with susp := false }, ret := .none
      resp := some ⟨reply (if s.negResult = .ok then 0 else 3) 0, .none⟩
      regs := { s.regs with
        dmaStatus := 0, dmaIer := 0x3F, dmaOpmode := 0x00002002
        macCfg := macCfgFor s.params s.link.speed s.link.duplex true } }

/-- R235, R236: STOP turns the interrupts off and drains; its last step, once no recovery is under way, halts the DMA, leaves
RUNNING for IDLE and answers OK. Before ATTACH it answers OK at once. -/
def Obligations.StopAndStopEnd : Prop :=
  ∀ s : State,
    (Answered s → s.dev = .uninit → exec .stop s = .next { s with resp := some ⟨reply 0 0, .none⟩ }) ∧
    (Answered s → s.dev ≠ .uninit →
      exec .stop s = .next { s with resp := none, stopPh := .drain, regs := { s.regs with dmaIer := 0 } }) ∧
    (s.stopPh = .drain → s.recPh = .none → exec .stopEnd s = .next { s with
      dev := if s.dev = .running then .idle else s.dev
      stopPh := .none, ret := .none, resp := some ⟨reply 0 0, .none⟩
      regs := { s.regs with
        dmaIer := 0, dmaOpmode := 0, macCfg := macCfgFor s.params s.link.speed s.link.duplex false } })

/-- R238, R239, R117: SEND of a bad length is the host's fault; on a device that is not RUNNING it answers
DEVICE_NOT_RUNNING and changes nothing else; on a RUNNING one it answers as ENQUEUE_TX does. -/
def Obligations.SendCommand : Prop :=
  ∀ (s : State) (len : Half) (bytes : List Byte), Answered s → s.dev ≠ .uninit →
    (¬ GoodLength s.params len bytes → exec (.send len bytes) s = .fault (.hostDuty .sendLength)) ∧
    (GoodLength s.params len bytes → s.dev ≠ .running →
      exec (.send len bytes) s = .next { s with resp := some ⟨reply 2 0, .none⟩ }) ∧
    (GoodLength s.params len bytes → s.dev = .running → ∃ t, exec (.enqueueTx len bytes) s = .next t ∧
      ((t.ret = .enqueue .ok len.toNat ∧
          exec (.send len bytes) s = .next { t with resp := some ⟨reply 0 len.toNat, .none⟩, ret := s.ret }) ∨
        (t.ret = .enqueue .ringFull 0 ∧
          exec (.send len bytes) s = .next { s with resp := some ⟨reply 1 0, .none⟩ })))

/-- R240: RECEIVE pops one entry; it answers 0 bytes for none or an errored one, and at most `cap` bytes of a frame. -/
def Obligations.ReceiveCommand : Prop :=
  ∀ (s : State) (cap : Half), Answered s → s.dev ≠ .uninit →
    (s.rxq = [] → exec (.receive cap) s = .next { s with resp := some ⟨reply 0 0, .bytes []⟩ }) ∧
    (∀ rest, s.rxq = .err :: rest →
      exec (.receive cap) s = .next { s with rxq := rest, resp := some ⟨reply 0 0, .bytes []⟩ }) ∧
    (∀ b rest, s.rxq = .data b :: rest → exec (.receive cap) s = .next { s with
      rxq := rest, resp := some ⟨reply 0 (min b.length cap.toNat), .bytes (b.take cap.toNat)⟩ })

/-- R241: the address in the configuration and at once in the two MAC address registers. -/
def Obligations.SetMacAddress : Prop :=
  ∀ (s : State) (mac : MacAddr), Answered s → s.dev ≠ .uninit →
    exec (.setMacAddress mac) s = .next { s with
      cfg := { s.cfg with mac := mac }, resp := some ⟨reply 0 0, .none⟩
      regs := { s.regs with
        macAddrHi := BitVec.ofNat 32 (mac.b5.toNat * 256 + mac.b4.toNat)
        macAddrLo := BitVec.ofNat 32
          (mac.b3.toNat * 16777216 + mac.b2.toNat * 65536 + mac.b1.toNat * 256 + mac.b0.toNat) } }

/-- R242, R116: the configured mode, nothing else; FORCED 1000 is an illegal command on a MAC without gigabit. -/
def Obligations.SetModeCommand : Prop :=
  ∀ s : State, Answered s → s.dev ≠ .uninit →
    exec .setModeAuto s = .next { s with cfg := { s.cfg with mode := .auto }, resp := some ⟨reply 0 0, .none⟩ } ∧
    ∀ (speed : Speed) (duplex : Duplex),
      exec (.setModeForced speed duplex) s = .next
        (if speed = .s1000 ∧ s.params.macGigabit = false then { s with resp := some ⟨reply 0x7F 0, .none⟩ }
        else { s with cfg := { s.cfg with mode := .forced ⟨speed, duplex⟩ }, resp := some ⟨reply 0 0, .none⟩ })

/-- R243, R244: the link word and the ten counters in the order of R33, reads only. -/
def Obligations.GetLinkStateAndStats : Prop :=
  ∀ s : State, Answered s → s.dev ≠ .uninit →
    exec .getLinkState s = .next { s with resp := some ⟨reply 0 0, .linkWord (BitVec.ofNat 32
      ((match s.link.speed with | .s10 => 0 | .s100 => 1 | .s1000 => 2)
        + (match s.link.duplex with | .half => 0 | .full => 4)
        + (match s.link.carrier with | .down => 0 | .up => 8)
        + (match s.link.negmode with | .auto => 0 | .forced => 16)))⟩ } ∧
    exec .getStats s = .next { s with resp := some ⟨reply 0 0, .counters
      [s.stats.interrupts, s.stats.txPackets, s.stats.rxPackets, s.stats.rxCrcErrors, s.stats.rxLengthErrors,
        s.stats.rxOverflow, s.stats.rxDropped, s.stats.txUnderflow, s.stats.fatalErrors, s.stats.stalls]⟩ }

/-! ## DMA engines and PHY (spec/45_dma_engines.md) -/

/-- R262: the successor read from the completed descriptor in both modes, none where the rule says bus error; a slot linked as
INIT_RING links it always has the next slot as its successor. -/
def Obligations.DmaSuccessor : Prop :=
  ∀ (s : State) (k : RingKind) (i : Nat) (d : Desc),
    let N := ringSize s.params k
    let B := (match k with | .tx => regRead s 0x1010 | .rx => regRead s 0x100C).toNat
    let p := d.next.toNat
    (ringMode s.params k = .ring → d.wrap = true → dmaSucc s k i d = some 0) ∧
    (ringMode s.params k = .ring → d.wrap = false → i + 1 < N → dmaSucc s k i d = some (i + 1)) ∧
    (ringMode s.params k = .ring → d.wrap = false → N ≤ i + 1 → dmaSucc s k i d = none) ∧
    (ringMode s.params k = .chain → B ≤ p → (p - B) % 16 = 0 → (p - B) / 16 < N →
      dmaSucc s k i d = some ((p - B) / 16)) ∧
    (ringMode s.params k = .chain → ¬ (B ≤ p ∧ (p - B) % 16 = 0 ∧ (p - B) / 16 < N) → dmaSucc s k i d = none) ∧
    (paramsOk s.params = true → i < N → B = (descBase s.params k).toNat → SlotLinked s k i →
      dmaSucc s k i (s.desc k i) = some ((i + 1) % N))

/-- R261, R263: the TX engine's step. A SW-owned descriptor raises TXU and suspends it; a HW-owned one puts its frame on the
wire, gets its status and OWN back in DES0, raises TXD and moves the cursor, or takes a bus error on a bad successor. -/
def Obligations.TxdmaStep : Prop :=
  ∀ (s : State) (u : Bool), Sound s → s.tx.cur < s.params.nTx → s.regs.dmaOpmode.getLsbD 13 = true →
    s.regs.macCfg.getLsbD 3 = true → s.tx.halted = false → s.tx.susp = false →
    let i := s.tx.cur
    let d := s.desc .tx i
    let frame : WireFrame :=
      ⟨s.mem.readBytes (s.params.txBufBase.toNat + s.params.bufStride * i) d.len.toNat, u⟩
    (d.own = false → exec (.txdmaStep u) s = .next { s with
      regs := { s.regs with dmaStatus := s.regs.dmaStatus ||| 0x02 }, tx := { s.tx with susp := true }, ret := .none }) ∧
    (d.own = true → ∃ m : Memory,
      m.read32 (s.params.txDescBase.toNat + 16 * i) = des0 .tx { d with unf := u, own := false } ∧
      (∀ a, Outside (s.params.txDescBase.toNat + 16 * i) 4 a → m.read a = s.mem.read a) ∧
      (∀ j, dmaSucc s .tx i d = some j → exec (.txdmaStep u) s = .next { s with
        mem := m, wireTx := s.wireTx ++ [frame], tx := { s.tx with cur := j }, ret := .none
        regs := { s.regs with dmaStatus := s.regs.dmaStatus ||| 0x01 } }) ∧
      (dmaSucc s .tx i d = none → exec (.txdmaStep u) s = .next { s with
        mem := m, wireTx := s.wireTx ++ [frame], ret := .none
        tx := { s.tx with halted := true }, rx := { s.rx with halted := true }
        regs := { s.regs with dmaStatus := s.regs.dmaStatus ||| 0x11 } }))

/-- R264, R265, R263: a frame of at most the offered size arrives. Lost while suspended; on a SW-owned descriptor lost with
RXU; otherwise in the buffer, the status in DES0, RXD raised, the cursor moved (or a bus error). -/
def Obligations.RxdmaFrame : Prop :=
  ∀ (s : State) (len : Half) (bytes : List Byte) (crc lerr ovf : Bool), Sound s → s.rx.cur < s.params.nRx →
    bytes.length = len.toNat → s.regs.dmaOpmode.getLsbD 1 = true → s.regs.macCfg.getLsbD 2 = true → s.rx.halted = false →
    let i := s.rx.cur
    let d := s.desc .rx i
    let step := exec (.rxdmaFrame len bytes crc lerr ovf) s
    let done := { d with
      flen := BitVec.ofNat 14 len.toNat, fs := true, ls := true, crc := crc, lerr := lerr, ovf := ovf, own := false }
    (s.rx.susp = true → step = .next { s with ret := .none }) ∧
    (s.rx.susp = false → d.own = false → step = .next { s with
      regs := { s.regs with dmaStatus := s.regs.dmaStatus ||| 0x08 }, rx := { s.rx with susp := true }, ret := .none }) ∧
    (s.rx.susp = false → d.own = true → len.toNat ≤ d.len.toNat → d.len.toNat ≤ s.params.bufSize → ∃ m : Memory,
      m.read32 (s.params.rxDescBase.toNat + 16 * i) = des0 .rx done ∧
      m.readBytes (s.params.rxBufBase.toNat + s.params.bufStride * i) len.toNat = bytes ∧
      (∀ a, Outside (s.params.rxDescBase.toNat + 16 * i) 4 a →
        Outside (s.params.rxBufBase.toNat + s.params.bufStride * i) len.toNat a → m.read a = s.mem.read a) ∧
      (∀ j, dmaSucc s .rx i d = some j → step = .next { s with
        mem := m, rx := { s.rx with cur := j }, ret := .none
        regs := { s.regs with dmaStatus := s.regs.dmaStatus ||| 0x04 } }) ∧
      (dmaSucc s .rx i d = none → step = .next { s with
        mem := m, rx := { s.rx with halted := true }, tx := { s.tx with halted := true }, ret := .none
        regs := { s.regs with dmaStatus := s.regs.dmaStatus ||| 0x14 } }))

/-- Log 11, from R264's corner case: a frame longer than the offered buffer is received as its first `d.len` bytes, with a
length error unless an overflow is drawn. -/
def Obligations.OverlongFrameTruncated : Prop :=
  ∀ (s : State) (len : Half) (bytes : List Byte) (crc lerr ovf : Bool), bytes.length = len.toNat →
    let d := s.desc .rx s.rx.cur
    d.len.toNat < len.toNat →
    exec (.rxdmaFrame len bytes crc lerr ovf) s =
      exec (.rxdmaFrame (d.len.setWidth 16) (bytes.take d.len.toNat) crc (lerr || !ovf) ovf) s

/-- R266, R271: a bus error raises FBE and halts both engines; a link event raises LSC. Nothing else changes. -/
def Obligations.BusErrorAndLinkEvent : Prop :=
  ∀ s : State,
    (((s.regs.dmaOpmode.getLsbD 13 = true ∧ s.tx.halted = false) ∨
        (s.regs.dmaOpmode.getLsbD 1 = true ∧ s.rx.halted = false)) →
      exec .busError s = .next { s with
        regs := { s.regs with dmaStatus := s.regs.dmaStatus ||| 0x10 }
        tx := { s.tx with halted := true }, rx := { s.rx with halted := true }, ret := .none }) ∧
    (s.dev ≠ .uninit → exec .phyLinkEvent s = .next { s with
      regs := { s.regs with dmaStatus := s.regs.dmaStatus ||| 0x20 }, ret := .none })

/-! ## The whole machine -/

/-- R268: a DMA engine changes no byte of a SW-owned descriptor and never sets OWN; the TX engine changes no buffer byte, the
RX engine none of a slot that is SW-owned. The premise on the offered sizes is part of the invariant. -/
def Obligations.EnginesRespectOwnership : Prop :=
  ∀ (i : Instr) (s t : State), Sound s → s.tx.cur < s.params.nTx → s.rx.cur < s.params.nRx →
    (∀ j < s.params.nRx, (s.desc .rx j).len.toNat ≤ s.params.bufSize) →
    ((∃ u, i = .txdmaStep u) ∨ ∃ len bytes crc lerr ovf, i = .rxdmaFrame len bytes crc lerr ovf) →
    exec i s = .next t →
    ∀ k, ∀ j < ringSize s.params k,
      ((s.desc k j).own = false →
        t.mem.readBytes (descAddr s.params k j) 16 = s.mem.readBytes (descAddr s.params k j) 16) ∧
      ((t.desc k j).own = true → (s.desc k j).own = true) ∧
      ((k = .tx ∨ (s.desc k j).own = false) →
        t.bufBytes k j s.params.bufSize = s.bufBytes k j s.params.bufSize)

/-- R138, the writing half, over every operation but the RX engine's: no byte of an RX buffer changes, and no byte of the
buffer of a HW-owned TX slot. -/
def Obligations.BuffersRespectOwnership : Prop :=
  ∀ (i : Instr) (s t : State), paramsOk s.params = true → s.txHead < s.params.nTx →
    (∀ len bytes crc lerr ovf, i ≠ .rxdmaFrame len bytes crc lerr ovf) → exec i s = .next t →
    s.txTail < s.params.nTx → s.rxHead < s.params.nRx → s.tx.cur < s.params.nTx →
    (∀ j < s.params.nRx, t.bufBytes .rx j s.params.bufSize = s.bufBytes .rx j s.params.bufSize) ∧
    (∀ j < s.params.nTx, (s.desc .tx j).own = true →
      t.bufBytes .tx j s.params.bufSize = s.bufBytes .tx j s.params.bufSize)

/-- R20: the device state changes only as the rule says, and by the step it names. The premise on the phases is part of the
invariant. -/
def Obligations.DeviceTransitions : Prop :=
  (∀ p, (State.resetOf p).dev = .uninit) ∧
  ∀ (i : Instr) (s t : State), PhasesOk s → exec i s = .next t → t.dev ≠ s.dev →
    (s.dev = .uninit ∧ t.dev = .idle ∧ i = .attach) ∨ (s.dev = .idle ∧ t.dev = .running ∧ i = .startFin) ∨
      (s.dev = .running ∧ t.dev = .idle ∧ i = .stopEnd) ∨
      (s.dev = .running ∧ t.dev = .fault ∧ (i = .handleFatalError ∨ i = .isr)) ∨
      (s.dev = .fault ∧ t.dev = .running ∧ i = .recStepRestart)

/-- R12, R33: no operation but ATTACH lowers a counter. -/
def Obligations.CountersOnlyGrow : Prop :=
  ∀ (i : Instr) (s t : State), exec i s = .next t → i ≠ .attach →
    s.stats.interrupts ≤ t.stats.interrupts ∧ s.stats.txPackets ≤ t.stats.txPackets ∧
      s.stats.rxPackets ≤ t.stats.rxPackets ∧ s.stats.rxCrcErrors ≤ t.stats.rxCrcErrors ∧
      s.stats.rxLengthErrors ≤ t.stats.rxLengthErrors ∧ s.stats.rxOverflow ≤ t.stats.rxOverflow ∧
      s.stats.rxDropped ≤ t.stats.rxDropped ∧ s.stats.txUnderflow ≤ t.stats.txUnderflow ∧
      s.stats.fatalErrors ≤ t.stats.fatalErrors ∧ s.stats.stalls ≤ t.stats.stalls

/-- R301, R57, R8: only host command steps answer the host; only the TX engine puts frames on the wire, at the end and one at
a time; no operation changes the parameters or the input still to come. -/
def Obligations.OnlyHostStepsAnswer : Prop :=
  ∀ (i : Instr) (s t : State), exec i s = .next t →
    (answersHost i = false → t.resp = s.resp) ∧
    ((∀ u, i ≠ .txdmaStep u) → t.wireTx = s.wireTx) ∧ (t.wireTx = s.wireTx ∨ ∃ f, t.wireTx = s.wireTx ++ [f]) ∧
    t.params = s.params ∧ t.script = s.script

/-- The reset state of every well-formed instance meets the invariant. -/
def Obligations.InvAtReset : Prop := ∀ p : Params, paramsOk p = true → Inv (State.resetOf p)

/-- Every step keeps the invariant `Inv`: reserved register bits 0, phases that agree with the device state (R20, R35),
programmed bases (R52), indices in range, linked rings (R21, R25, R26), a bounded queue (R34), memory in canonical form. -/
def Obligations.StepKeepsInv : Prop :=
  ∀ s t : State, Inv s → step s = .next t → Inv t

/-- R18, R22, R24, R50: the steps of the agents keep the two ring windows: the HW-owned TX slots are exactly those from the
engine's cursor to `tx_head`, the SW-owned RX slots exactly those from `rx_head` to the engine's cursor. -/
def Obligations.RingWindowsKept : Prop :=
  ∀ (i : Instr) (s t : State), Inv s → agentStep i = true → exec i s = .next t →
    (s.dev ≠ .uninit → TxWindow s ∧ RxWindow s) → (t.dev ≠ .uninit → TxWindow t ∧ RxWindow t)

/-- R351, R234: START issued in IDLE, at most NEG_POLL_MAX polls and START_FIN bring the device to RUNNING with an answer OK
or NEG_TIMEOUT, whatever the PHY answers. The run is of one script, the model's form of a schedule (log 4); a poll scheduled
after the negotiation is resolved, or in forced mode, changes nothing (log 6). -/
def Obligations.StartIsBounded : Prop :=
  ∀ (s : State) (rest : List Item), Inv s → s.dev = .idle → Answered s →
    s.script = issued .start :: (List.replicate s.params.negPollMax (scheduled .negPoll) ++ scheduled .startFin :: rest) →
    ∃ t, Host.Core.run Sys2Proof.core (s.params.negPollMax + 2) s = .next t ∧ t.dev = .running ∧ t.script = rest ∧
      ((t.negResult = .ok ∧ t.resp = some ⟨reply 0 0, .none⟩) ∨
        (t.negResult = .negotiationTimeout ∧ t.resp = some ⟨reply 3 0, .none⟩))
end

