-- ==== Sys2Proof/Laws/Memory.lean ====
section
/-! SUPPORT. The laws of DMA memory (spec/20_memory.md R71, R72): a read after a write, what a write leaves alone, and that
every memory operation keeps the canonical form. -/

namespace Sys2Proof.Machine

/-! ## One byte -/

theorem Memory.read_consCell (a x : Nat) (b : Byte) (m : Memory) :
    (Memory.consCell a b m).read x = if a = x ∧ b ≠ unlistedByte then b else m.read x := by
  unfold Memory.consCell
  split
  · simp_all
  · simp_all [Memory.read]

/-- A canonical list whose addresses are above `lo` reads as unlisted at `lo` and below. -/
theorem Memory.read_below (m : Memory) (lo a : Nat) (h : Memory.wfFrom (some lo) m = true) (ha : a ≤ lo) :
    m.read a = unlistedByte := by
  induction m generalizing lo with
  | nil => rfl
  | cons c rest ih =>
    obtain ⟨k, b⟩ := c
    simp only [Memory.wfFrom, Memory.above, Bool.and_eq_true, decide_eq_true_eq] at h
    have : k ≠ a := by omega
    simp [Memory.read, this, ih k h.2 (by omega)]

theorem Memory.wfFrom_weaken (m : Memory) (lo : Option Nat) (k : Nat) (hk : Memory.above lo k = true)
    (h : Memory.wfFrom (some k) m = true) : Memory.wfFrom lo m = true := by
  cases m with
  | nil => rfl
  | cons c rest =>
    obtain ⟨j, b⟩ := c
    simp only [Memory.wfFrom, Memory.above, Bool.and_eq_true, decide_eq_true_eq] at h ⊢
    refine ⟨⟨?_, h.1.2⟩, h.2⟩
    cases lo with
    | none => rfl
    | some l => simp only [Memory.above, decide_eq_true_eq] at hk ⊢; omega

theorem Memory.wfFrom_consCell (lo : Option Nat) (a : Nat) (b : Byte) (m : Memory) (ha : Memory.above lo a = true)
    (h : Memory.wfFrom (some a) m = true) : Memory.wfFrom lo (Memory.consCell a b m) = true := by
  unfold Memory.consCell
  split
  · exact Memory.wfFrom_weaken m lo a ha h
  · next hb => simp only [Memory.wfFrom, Bool.and_eq_true, decide_eq_true_eq]; exact ⟨⟨ha, hb⟩, h⟩

theorem Memory.wfFrom_write (m : Memory) (lo : Option Nat) (a : Nat) (b : Byte) (ha : Memory.above lo a = true)
    (h : Memory.wfFrom lo m = true) : Memory.wfFrom lo (m.write a b) = true := by
  induction m generalizing lo with
  | nil => exact Memory.wfFrom_consCell lo a b [] ha rfl
  | cons c rest ih =>
    obtain ⟨k, x⟩ := c
    have h0 := h
    simp only [Memory.wfFrom, Bool.and_eq_true, decide_eq_true_eq] at h
    unfold Memory.write
    split
    · next hk =>
      refine Memory.wfFrom_consCell lo a b _ ha ?_
      simp only [Memory.wfFrom, Memory.above, Bool.and_eq_true, decide_eq_true_eq]
      exact ⟨⟨hk, h.1.2⟩, h.2⟩
    · split
      · next hk => subst hk; exact Memory.wfFrom_consCell lo a b rest ha h.2
      · next h1 h2 =>
        simp only [Memory.wfFrom, Bool.and_eq_true, decide_eq_true_eq]
        exact ⟨h.1, ih (some k) (by simp only [Memory.above, decide_eq_true_eq]; omega) h.2⟩

/-- Storing a byte keeps the canonical form. -/
theorem Memory.wf_write (m : Memory) (a : Nat) (b : Byte) (h : m.wf = true) : (m.write a b).wf = true :=
  Memory.wfFrom_write m none a b rfl h

theorem Memory.read_write_other (m : Memory) (a x : Nat) (b : Byte) (hx : x ≠ a) : (m.write a b).read x = m.read x := by
  induction m with
  | nil => simp [Memory.write, Memory.read_consCell, Ne.symm hx]
  | cons c rest ih =>
    obtain ⟨k, y⟩ := c
    unfold Memory.write
    split
    · simp [Memory.read_consCell, Ne.symm hx]
    · split
      · next hk => subst hk; simp [Memory.read_consCell, Memory.read, Ne.symm hx]
      · simp only [Memory.read, ih]

theorem Memory.read_write_same_from (m : Memory) (lo : Option Nat) (a : Nat) (b : Byte)
    (h : Memory.wfFrom lo m = true) : (m.write a b).read a = b := by
  induction m generalizing lo with
  | nil =>
    simp only [Memory.write, Memory.read_consCell, Memory.read]
    split <;> simp_all
  | cons c rest ih =>
    obtain ⟨k, x⟩ := c
    simp only [Memory.wfFrom, Bool.and_eq_true, decide_eq_true_eq] at h
    unfold Memory.write
    split
    · next hk =>
      rw [Memory.read_consCell]
      have hr : Memory.read ((k, x) :: rest) a = unlistedByte := by
        have : k ≠ a := by omega
        simp only [Memory.read, this, if_false]
        exact Memory.read_below rest k a h.2 (by omega)
      split <;> simp_all
    · split
      · next hk =>
        subst hk
        rw [Memory.read_consCell, Memory.read_below rest a a h.2 (Nat.le_refl a)]
        split <;> simp_all
      · next h1 h2 =>
        simp only [Memory.read, Ne.symm h2, if_false]
        exact ih (some k) h.2

/-- A read after a write to the same address gives the byte written. -/
theorem Memory.read_write_same (m : Memory) (a : Nat) (b : Byte) (h : m.wf = true) : (m.write a b).read a = b :=
  Memory.read_write_same_from m none a b h

/-! ## Byte strings -/

/-- Storing bytes keeps the canonical form. -/
theorem Memory.wf_writeBytes (bs : List Byte) (m : Memory) (a : Nat) (h : m.wf = true) :
    (m.writeBytes a bs).wf = true := by
  induction bs generalizing m a with
  | nil => exact h
  | cons b rest ih => exact ih (m.write a b) (a + 1) (Memory.wf_write m a b h)

/-- Every byte outside the stored ones reads as before. -/
theorem Memory.read_writeBytes_outside (bs : List Byte) (m : Memory) (a x : Nat) (hx : x < a ∨ a + bs.length ≤ x) :
    (m.writeBytes a bs).read x = m.read x := by
  induction bs generalizing m a with
  | nil => rfl
  | cons b rest ih =>
    simp only [List.length_cons] at hx
    rw [Memory.writeBytes, ih (m.write a b) (a + 1) (by omega), Memory.read_write_other m a x b (by omega)]

/-- Every stored byte reads as stored. -/
theorem Memory.read_writeBytes_inside (bs : List Byte) (m : Memory) (a k : Nat) (hm : m.wf = true)
    (hk : k < bs.length) : (m.writeBytes a bs).read (a + k) = bs[k] := by
  induction bs generalizing m a k with
  | nil => simp at hk
  | cons b rest ih =>
    rw [Memory.writeBytes]
    cases k with
    | zero =>
      rw [Memory.read_writeBytes_outside rest _ _ _ (by omega)]
      exact Memory.read_write_same m a b hm
    | succ j =>
      have := ih (m.write a b) (a + 1) j (Memory.wf_write m a b hm) (by simpa using hk)
      simpa [Nat.add_assoc, Nat.add_comm 1 j] using this

@[simp] theorem Memory.length_readBytes (m : Memory) (a n : Nat) : (m.readBytes a n).length = n := by
  induction n generalizing a with
  | zero => rfl
  | succ n ih => simp [Memory.readBytes, ih]

/-- Two memories that agree on a range read the same bytes there. -/
theorem Memory.readBytes_congr (m m' : Memory) (a n : Nat) (h : ∀ x, a ≤ x → x < a + n → m.read x = m'.read x) :
    m.readBytes a n = m'.readBytes a n := by
  induction n generalizing a with
  | zero => rfl
  | succ n ih =>
    simp only [Memory.readBytes]
    rw [h a (by omega) (by omega), ih (a + 1) (fun x h1 h2 => h x (by omega) (by omega))]

/-- The bytes just stored are read back. -/
theorem Memory.readBytes_writeBytes (bs : List Byte) (m : Memory) (a : Nat) (hm : m.wf = true) :
    (m.writeBytes a bs).readBytes a bs.length = bs := by
  induction bs generalizing m a with
  | nil => rfl
  | cons b rest ih =>
    simp only [Memory.writeBytes, List.length_cons, Memory.readBytes]
    rw [Memory.read_writeBytes_outside rest _ _ _ (by omega), Memory.read_write_same m a b hm,
      ih (m.write a b) (a + 1) (Memory.wf_write m a b hm)]

/-! ## Words -/

@[simp] theorem length_wordBytes (w : Word) : (wordBytes w).length = 4 := rfl

/-- The four bytes of a word, put together, are the word. -/
theorem bytesWord_wordBytes (w : Word) :
    bytesWord (w.extractLsb' 0 8) (w.extractLsb' 8 8) (w.extractLsb' 16 8) (w.extractLsb' 24 8) = w := by
  unfold bytesWord
  apply BitVec.eq_of_getLsbD_eq
  intro i hi
  simp only [BitVec.getLsbD_append, BitVec.getLsbD_extractLsb']
  split
  · next h => simp [h]
  · split
    · next h1 h2 => simp [h2, show 8 + (i - 8) = i by omega]
    · split
      · next h1 h2 h3 => simp [h3, show 16 + (i - 8 - 8) = i by omega]
      · next h1 h2 h3 => simp [show i - 8 - 8 - 8 < 8 by omega, show 24 + (i - 8 - 8 - 8) = i by omega]

/-- Storing a word keeps the canonical form. -/
theorem Memory.wf_write32 (m : Memory) (a : Nat) (v : Word) (h : m.wf = true) : (m.write32 a v).wf = true :=
  Memory.wf_writeBytes (wordBytes v) m a h

/-- A word store leaves every byte outside its four alone. -/
theorem Memory.read_write32_outside (m : Memory) (a x : Nat) (v : Word) (hx : x < a ∨ a + 4 ≤ x) :
    (m.write32 a v).read x = m.read x :=
  Memory.read_writeBytes_outside (wordBytes v) m a x hx

/-- A word read after a word store to the same address. -/
theorem Memory.read32_write32_same (m : Memory) (a : Nat) (v : Word) (h : m.wf = true) :
    (m.write32 a v).read32 a = v := by
  have g : ∀ k (hk : k < 4), (m.write32 a v).read (a + k) = (wordBytes v)[k] :=
    fun k hk => Memory.read_writeBytes_inside (wordBytes v) m a k h hk
  have g0 := g 0 (by omega)
  have g1 := g 1 (by omega)
  have g2 := g 2 (by omega)
  have g3 := g 3 (by omega)
  simp only [Nat.add_zero] at g0
  rw [Memory.read32, g0, g1, g2, g3]
  exact bytesWord_wordBytes v

/-- A word read that does not meet a byte string just stored. -/
theorem Memory.read32_writeBytes_outside (bs : List Byte) (m : Memory) (a x : Nat)
    (hx : x + 4 ≤ a ∨ a + bs.length ≤ x) : (m.writeBytes a bs).read32 x = m.read32 x := by
  unfold Memory.read32
  rw [Memory.read_writeBytes_outside bs m a x (by omega), Memory.read_writeBytes_outside bs m a (x + 1) (by omega),
    Memory.read_writeBytes_outside bs m a (x + 2) (by omega), Memory.read_writeBytes_outside bs m a (x + 3) (by omega)]

/-- A word read that does not meet a word just stored. -/
theorem Memory.read32_write32_other (m : Memory) (a x : Nat) (v : Word) (hx : x + 4 ≤ a ∨ a + 4 ≤ x) :
    (m.write32 a v).read32 x = m.read32 x :=
  Memory.read32_writeBytes_outside (wordBytes v) m a x hx

/-- Two memories that agree on a word's four bytes read the same word. -/
theorem Memory.read32_congr (m m' : Memory) (a : Nat) (h : ∀ x, a ≤ x → x < a + 4 → m.read x = m'.read x) :
    m.read32 a = m'.read32 a := by
  unfold Memory.read32
  rw [h a (by omega) (by omega), h (a + 1) (by omega) (by omega), h (a + 2) (by omega) (by omega),
    h (a + 3) (by omega) (by omega)]

/-! ## Reset -/

/-- The memory of a reset state is in canonical form: nothing is listed (R330, log 2). -/
theorem wf_reset (p : Params) : (State.resetOf p).mem.wf = true := rfl

end Sys2Proof.Machine
end

