-- ==== Sys2Proof/Laws/Operands.lean ====
section
/-! SUPPORT. The encodings read back: the fields of a command word (spec/30_encoding.md R111), the descriptor words (R104),
the modes (spec/00_scope.md R16). -/

namespace Sys2Proof.Machine

/-! ## Command words (R111) -/

/-- Which field a bit of a command word belongs to. -/
theorem commandWord_bit (op : BitVec 8) (sub : BitVec 4) (imm : Half) (i : Nat) :
    (commandWord op sub imm).getLsbD i = if i < 8 then op.getLsbD i else if i < 12 then sub.getLsbD (i - 8)
      else if i < 16 then false else imm.getLsbD (i - 16) := by
  have h : (commandWord op sub imm).getLsbD i
      = BitVec.getLsbD (w := 16 + 4 + 4 + 8) (imm ++ (0 : BitVec 4) ++ sub ++ op) i := rfl
  rw [h]
  simp only [BitVec.getLsbD_append]
  by_cases h1 : i < 8 
  · simp [h1]
  by_cases h2 : i < 12
  · simp [h1, h2, show i - 8 < 4 by omega]
  by_cases h3 : i < 16
  · simp [h1, h2, h3, show ¬ i - 8 < 4 by omega, show i - 8 - 4 < 4 by omega]
  · simp [h1, h2, h3, show ¬ i - 8 < 4 by omega, show ¬ i - 8 - 4 < 4 by omega, show i - 8 - 4 - 4 = i - 16 by omega]

@[simp] theorem opField_commandWord (op : BitVec 8) (sub : BitVec 4) (imm : Half) :
    opField (commandWord op sub imm) = op := by
  apply BitVec.eq_of_getLsbD_eq
  intro i hi
  simp [opField, commandWord_bit, hi]

@[simp] theorem subField_commandWord (op : BitVec 8) (sub : BitVec 4) (imm : Half) :
    subField (commandWord op sub imm) = sub := by
  apply BitVec.eq_of_getLsbD_eq
  intro i hi
  simp [subField, commandWord_bit, hi, show 8 + i < 12 by omega]

@[simp] theorem reservedField_commandWord (op : BitVec 8) (sub : BitVec 4) (imm : Half) :
    reservedField (commandWord op sub imm) = 0 := by
  apply BitVec.eq_of_getLsbD_eq
  intro i hi
  simp [reservedField, commandWord_bit, hi, show ¬ 12 + i < 8 by omega, show 12 + i < 16 by omega]

@[simp] theorem immField_commandWord (op : BitVec 8) (sub : BitVec 4) (imm : Half) :
    immField (commandWord op sub imm) = imm := by
  apply BitVec.eq_of_getLsbD_eq
  intro i hi
  simp [immField, commandWord_bit, hi, show ¬ 16 + i < 8 by omega, show ¬ 16 + i < 12 by omega]

/-- A word is put together from its four bytes (R71, R72). -/
theorem bytesWord_bytes (w : Word) :
    bytesWord (w.extractLsb' 0 8) (w.extractLsb' 8 8) (w.extractLsb' 16 8) (w.extractLsb' 24 8) = w := by
  unfold bytesWord
  apply BitVec.eq_of_getLsbD_eq
  intro i hi
  simp only [BitVec.getLsbD_append, BitVec.getLsbD_extractLsb']
  by_cases h : i < 8
  · simp [h]
  · by_cases h2 : i < 16
    · simp [h, show i - 8 < 8 by omega, show 8 + (i - 8) = i by omega]
    · by_cases h3 : i < 24
      · simp [h, show ¬ i - 8 < 8 by omega, show i - 8 - 8 < 8 by omega, show 16 + (i - 8 - 8) = i by omega]
      · simp [h, show ¬ i - 8 < 8 by omega, show ¬ i - 8 - 8 < 8 by omega, show i - 8 - 8 - 8 < 8 by omega,
          show 24 + (i - 8 - 8 - 8) = i by omega]

/-- The decoder on a packet given as its word and its payload. -/
theorem decode_wordBytes (w : Word) (p : List Byte) : decode (wordBytes w ++ p) = decodeWord w p := by
  unfold wordBytes decode
  simp only [List.cons_append, List.nil_append, bytesWord_bytes]

/-- The host port on a packet given as its word and its payload (R116). -/
theorem decodeHost_wordBytes (w : Word) (p : List Byte) :
    decodeHost (wordBytes w ++ p) = if hostOp (opField w) then hostWordOf (decodeWord w p) else .illegal := by
  unfold wordBytes decodeHost
  simp only [List.cons_append, List.nil_append, bytesWord_bytes]

/-- The fields of a word as numbers (R111). -/
theorem fields_toNat (w : Word) : (opField w).toNat = w.toNat % 256 ∧ (subField w).toNat = w.toNat / 256 % 16 ∧
    (reservedField w).toNat = w.toNat / 4096 % 16 ∧ (immField w).toNat = w.toNat / 65536 := by
  have := w.isLt
  simp only [opField, subField, reservedField, immField, BitVec.extractLsb'_toNat, Nat.shiftRight_eq_div_pow]
  refine ⟨?_, ?_, ?_, ?_⟩ <;> norm_num
  omega

/-! ## Descriptor words (R104) -/

/-- Decoding the four words of a descriptor that fits its ring gives it back (R104). -/
theorem descOfWords_des (k : RingKind) (d : Desc) (h : d.fits k) :
    descOfWords k (des0 k d) (des1 k d) d.buf d.next = d := by
  cases k with
  | tx =>
    have w0 : ∀ i, (des0 .tx d).getLsbD i
        = BitVec.getLsbD (w := 1 + 30 + 1) (bit1 d.own ++ (0 : BitVec 30) ++ bit1 d.unf) i := fun _ => rfl
    have w1 : ∀ i, (des1 .tx d).getLsbD i = BitVec.getLsbD (w := 1 + 1 + 1 + 3 + 1 + 1 + 10 + 14)
        ((0 : BitVec 1) ++ bit1 d.fs ++ bit1 d.ls ++ (0 : BitVec 3) ++ bit1 d.wrap ++ bit1 d.chain
      ++ (0 : BitVec 10) ++ d.len) i := fun _ => rfl
    have hlen : (des1 .tx d).extractLsb' 0 14 = d.len := by
      apply BitVec.eq_of_getLsbD_eq
      intro i hi
      simp only [BitVec.getLsbD_extractLsb', w1, BitVec.getLsbD_append]
      simp [hi]
    obtain ⟨own, len, flen, fs, ls, wrap, chain, crc, lerr, ovf, unf, buf, next⟩ := d
    obtain ⟨h1, h2, h3, h4⟩ := h
    simp only at h1 h2 h3 h4
    subst h1 h2 h3 h4
    simp only [descOfWords, hlen, w0, w1, BitVec.getLsbD_append]
    simp
  | rx =>
    have w0 : ∀ i, (des0 .rx d).getLsbD i
        = BitVec.getLsbD (w := 1 + 1 + 14 + 6 + 1 + 1 + 5 + 1 + 1 + 1)
        (bit1 d.own ++ (0 : BitVec 1) ++ d.flen ++ (0 : BitVec 6) ++ bit1 d.fs ++ bit1 d.ls ++ (0 : BitVec 5)
      ++ bit1 d.ovf ++ bit1 d.lerr ++ bit1 d.crc) i := fun _ => rfl
    have w1 : ∀ i, (des1 .rx d).getLsbD i = BitVec.getLsbD (w := 6 + 1 + 1 + 10 + 14)
        ((0 : BitVec 6) ++ bit1 d.wrap ++ bit1 d.chain ++ (0 : BitVec 10) ++ d.len) i := fun _ => rfl
    have hlen : (des1 .rx d).extractLsb' 0 14 = d.len := by
      apply BitVec.eq_of_getLsbD_eq
      intro i hi
      simp only [BitVec.getLsbD_extractLsb', w1, BitVec.getLsbD_append]
      simp [hi]
    have hflen : (des0 .rx d).extractLsb' 16 14 = d.flen := by
      apply BitVec.eq_of_getLsbD_eq
      intro i hi
      simp only [BitVec.getLsbD_extractLsb', w0, BitVec.getLsbD_append]
      rw [if_neg (by omega), if_neg (by omega), if_neg (by omega), if_neg (by omega), if_neg (by omega),
        if_neg (by omega), if_neg (by omega)]
      simp only [hi, decide_true, Bool.true_and]
      rw [if_pos (by omega), show 16 + i - 1 - 1 - 1 - 5 - 1 - 1 - 6 = i by omega]
    obtain ⟨own, len, flen, fs, ls, wrap, chain, crc, lerr, ovf, unf, buf, next⟩ := d
    simp only [Desc.fits] at h
    subst h
    simp only [descOfWords, hlen, hflen, w0, w1, BitVec.getLsbD_append]
    simp

/-- What four words hold fits their ring. -/
theorem descOfWords_fits (k : RingKind) (w0 w1 w2 w3 : Word) : (descOfWords k w0 w1 w2 w3).fits k := by
  cases k
  · exact ⟨rfl, rfl, rfl, rfl⟩
  · rfl

/-! ## Modes (R16) -/

/-- `bit(m)` has the bit of `m` and no other. -/
theorem modeBit_getLsbD (m : LinkMode) (i : Nat) : (modeBit m).getLsbD i = decide (i = modeIndex m) := by
  have h : modeIndex m < 6 := by
    obtain ⟨s, d⟩ := m
    cases s <;> cases d <;> decide
  simp only [modeBit, BitVec.getLsbD_shiftLeft]
  by_cases hi : i = modeIndex m
  · simp [hi, h]
  · simp only [hi, decide_false]
    by_cases h6 : i < modeIndex m
    · simp [h6]
    · simp [show i - modeIndex m ≠ 0 by omega]

/-- The mode `highest(mask)` names is in the mask (R167). -/
theorem highestMode_mem (mask : BitVec 6) (h : mask ≠ 0) : mask.getLsbD (modeIndex (highestMode mask)) = true := by
  revert mask; decide

/-! ## Indices (R11) -/

theorem nextIndex_lt (n i : Nat) (h : 0 < n) : nextIndex n i < n := Nat.mod_lt _ h

end Sys2Proof.Machine
end

