-- ==== Sys2Proof/Laws/State.lean ====
section
/-! SUPPORT. One lemma per field per named update of State, so that no later proof unfolds a record update. -/

namespace Sys2Proof.Machine

section
variable (s : State) (m : Memory)

@[simp] theorem State.setMem_params : (s.setMem m).params = s.params := rfl
@[simp] theorem State.setMem_dev : (s.setMem m).dev = s.dev := rfl
@[simp] theorem State.setMem_link : (s.setMem m).link = s.link := rfl
@[simp] theorem State.setMem_knownGood : (s.setMem m).knownGood = s.knownGood := rfl
@[simp] theorem State.setMem_cfg : (s.setMem m).cfg = s.cfg := rfl
@[simp] theorem State.setMem_stats : (s.setMem m).stats = s.stats := rfl
@[simp] theorem State.setMem_txHead : (s.setMem m).txHead = s.txHead := rfl
@[simp] theorem State.setMem_txTail : (s.setMem m).txTail = s.txTail := rfl
@[simp] theorem State.setMem_rxHead : (s.setMem m).rxHead = s.rxHead := rfl
@[simp] theorem State.setMem_rxq : (s.setMem m).rxq = s.rxq := rfl
@[simp] theorem State.setMem_startPh : (s.setMem m).startPh = s.startPh := rfl
@[simp] theorem State.setMem_stopPh : (s.setMem m).stopPh = s.stopPh := rfl
@[simp] theorem State.setMem_recPh : (s.setMem m).recPh = s.recPh := rfl
@[simp] theorem State.setMem_neg : (s.setMem m).neg = s.neg := rfl
@[simp] theorem State.setMem_negPolls : (s.setMem m).negPolls = s.negPolls := rfl
@[simp] theorem State.setMem_negResult : (s.setMem m).negResult = s.negResult := rfl
@[simp] theorem State.setMem_wdCur : (s.setMem m).wdCur = s.wdCur := rfl
@[simp] theorem State.setMem_wdCount : (s.setMem m).wdCount = s.wdCount := rfl
@[simp] theorem State.setMem_regs : (s.setMem m).regs = s.regs := rfl
@[simp] theorem State.setMem_tx : (s.setMem m).tx = s.tx := rfl
@[simp] theorem State.setMem_rx : (s.setMem m).rx = s.rx := rfl
@[simp] theorem State.setMem_phy : (s.setMem m).phy = s.phy := rfl
@[simp] theorem State.setMem_mem : (s.setMem m).mem = m := rfl
@[simp] theorem State.setMem_wireTx : (s.setMem m).wireTx = s.wireTx := rfl
@[simp] theorem State.setMem_resp : (s.setMem m).resp = s.resp := rfl
@[simp] theorem State.setMem_tickResp : (s.setMem m).tickResp = s.tickResp := rfl
@[simp] theorem State.setMem_startHeld : (s.setMem m).startHeld = s.startHeld := rfl
@[simp] theorem State.setMem_ret : (s.setMem m).ret = s.ret := rfl
@[simp] theorem State.setMem_script : (s.setMem m).script = s.script := rfl
@[simp] theorem State.setMem_phyIn : (s.setMem m).phyIn = s.phyIn := rfl
@[simp] theorem State.setMem_drawCtr : (s.setMem m).drawCtr = s.drawCtr := rfl

end

section
variable (s : State) (r : Regs)

@[simp] theorem State.setRegs_params : (s.setRegs r).params = s.params := rfl
@[simp] theorem State.setRegs_dev : (s.setRegs r).dev = s.dev := rfl
@[simp] theorem State.setRegs_link : (s.setRegs r).link = s.link := rfl
@[simp] theorem State.setRegs_knownGood : (s.setRegs r).knownGood = s.knownGood := rfl
@[simp] theorem State.setRegs_cfg : (s.setRegs r).cfg = s.cfg := rfl
@[simp] theorem State.setRegs_stats : (s.setRegs r).stats = s.stats := rfl
@[simp] theorem State.setRegs_txHead : (s.setRegs r).txHead = s.txHead := rfl
@[simp] theorem State.setRegs_txTail : (s.setRegs r).txTail = s.txTail := rfl
@[simp] theorem State.setRegs_rxHead : (s.setRegs r).rxHead = s.rxHead := rfl
@[simp] theorem State.setRegs_rxq : (s.setRegs r).rxq = s.rxq := rfl
@[simp] theorem State.setRegs_startPh : (s.setRegs r).startPh = s.startPh := rfl
@[simp] theorem State.setRegs_stopPh : (s.setRegs r).stopPh = s.stopPh := rfl
@[simp] theorem State.setRegs_recPh : (s.setRegs r).recPh = s.recPh := rfl
@[simp] theorem State.setRegs_neg : (s.setRegs r).neg = s.neg := rfl
@[simp] theorem State.setRegs_negPolls : (s.setRegs r).negPolls = s.negPolls := rfl
@[simp] theorem State.setRegs_negResult : (s.setRegs r).negResult = s.negResult := rfl
@[simp] theorem State.setRegs_wdCur : (s.setRegs r).wdCur = s.wdCur := rfl
@[simp] theorem State.setRegs_wdCount : (s.setRegs r).wdCount = s.wdCount := rfl
@[simp] theorem State.setRegs_regs : (s.setRegs r).regs = r := rfl
@[simp] theorem State.setRegs_tx : (s.setRegs r).tx = s.tx := rfl
@[simp] theorem State.setRegs_rx : (s.setRegs r).rx = s.rx := rfl
@[simp] theorem State.setRegs_phy : (s.setRegs r).phy = s.phy := rfl
@[simp] theorem State.setRegs_mem : (s.setRegs r).mem = s.mem := rfl
@[simp] theorem State.setRegs_wireTx : (s.setRegs r).wireTx = s.wireTx := rfl
@[simp] theorem State.setRegs_resp : (s.setRegs r).resp = s.resp := rfl
@[simp] theorem State.setRegs_tickResp : (s.setRegs r).tickResp = s.tickResp := rfl
@[simp] theorem State.setRegs_startHeld : (s.setRegs r).startHeld = s.startHeld := rfl
@[simp] theorem State.setRegs_ret : (s.setRegs r).ret = s.ret := rfl
@[simp] theorem State.setRegs_script : (s.setRegs r).script = s.script := rfl
@[simp] theorem State.setRegs_phyIn : (s.setRegs r).phyIn = s.phyIn := rfl
@[simp] theorem State.setRegs_drawCtr : (s.setRegs r).drawCtr = s.drawCtr := rfl

end

section
variable (s : State) (e : Engine)

@[simp] theorem State.setTx_params : (s.setTx e).params = s.params := rfl
@[simp] theorem State.setTx_dev : (s.setTx e).dev = s.dev := rfl
@[simp] theorem State.setTx_link : (s.setTx e).link = s.link := rfl
@[simp] theorem State.setTx_knownGood : (s.setTx e).knownGood = s.knownGood := rfl
@[simp] theorem State.setTx_cfg : (s.setTx e).cfg = s.cfg := rfl
@[simp] theorem State.setTx_stats : (s.setTx e).stats = s.stats := rfl
@[simp] theorem State.setTx_txHead : (s.setTx e).txHead = s.txHead := rfl
@[simp] theorem State.setTx_txTail : (s.setTx e).txTail = s.txTail := rfl
@[simp] theorem State.setTx_rxHead : (s.setTx e).rxHead = s.rxHead := rfl
@[simp] theorem State.setTx_rxq : (s.setTx e).rxq = s.rxq := rfl
@[simp] theorem State.setTx_startPh : (s.setTx e).startPh = s.startPh := rfl
@[simp] theorem State.setTx_stopPh : (s.setTx e).stopPh = s.stopPh := rfl
@[simp] theorem State.setTx_recPh : (s.setTx e).recPh = s.recPh := rfl
@[simp] theorem State.setTx_neg : (s.setTx e).neg = s.neg := rfl
@[simp] theorem State.setTx_negPolls : (s.setTx e).negPolls = s.negPolls := rfl
@[simp] theorem State.setTx_negResult : (s.setTx e).negResult = s.negResult := rfl
@[simp] theorem State.setTx_wdCur : (s.setTx e).wdCur = s.wdCur := rfl
@[simp] theorem State.setTx_wdCount : (s.setTx e).wdCount = s.wdCount := rfl
@[simp] theorem State.setTx_regs : (s.setTx e).regs = s.regs := rfl
@[simp] theorem State.setTx_tx : (s.setTx e).tx = e := rfl
@[simp] theorem State.setTx_rx : (s.setTx e).rx = s.rx := rfl
@[simp] theorem State.setTx_phy : (s.setTx e).phy = s.phy := rfl
@[simp] theorem State.setTx_mem : (s.setTx e).mem = s.mem := rfl
@[simp] theorem State.setTx_wireTx : (s.setTx e).wireTx = s.wireTx := rfl
@[simp] theorem State.setTx_resp : (s.setTx e).resp = s.resp := rfl
@[simp] theorem State.setTx_tickResp : (s.setTx e).tickResp = s.tickResp := rfl
@[simp] theorem State.setTx_startHeld : (s.setTx e).startHeld = s.startHeld := rfl
@[simp] theorem State.setTx_ret : (s.setTx e).ret = s.ret := rfl
@[simp] theorem State.setTx_script : (s.setTx e).script = s.script := rfl
@[simp] theorem State.setTx_phyIn : (s.setTx e).phyIn = s.phyIn := rfl
@[simp] theorem State.setTx_drawCtr : (s.setTx e).drawCtr = s.drawCtr := rfl

end

section
variable (s : State) (e : Engine)

@[simp] theorem State.setRx_params : (s.setRx e).params = s.params := rfl
@[simp] theorem State.setRx_dev : (s.setRx e).dev = s.dev := rfl
@[simp] theorem State.setRx_link : (s.setRx e).link = s.link := rfl
@[simp] theorem State.setRx_knownGood : (s.setRx e).knownGood = s.knownGood := rfl
@[simp] theorem State.setRx_cfg : (s.setRx e).cfg = s.cfg := rfl
@[simp] theorem State.setRx_stats : (s.setRx e).stats = s.stats := rfl
@[simp] theorem State.setRx_txHead : (s.setRx e).txHead = s.txHead := rfl
@[simp] theorem State.setRx_txTail : (s.setRx e).txTail = s.txTail := rfl
@[simp] theorem State.setRx_rxHead : (s.setRx e).rxHead = s.rxHead := rfl
@[simp] theorem State.setRx_rxq : (s.setRx e).rxq = s.rxq := rfl
@[simp] theorem State.setRx_startPh : (s.setRx e).startPh = s.startPh := rfl
@[simp] theorem State.setRx_stopPh : (s.setRx e).stopPh = s.stopPh := rfl
@[simp] theorem State.setRx_recPh : (s.setRx e).recPh = s.recPh := rfl
@[simp] theorem State.setRx_neg : (s.setRx e).neg = s.neg := rfl
@[simp] theorem State.setRx_negPolls : (s.setRx e).negPolls = s.negPolls := rfl
@[simp] theorem State.setRx_negResult : (s.setRx e).negResult = s.negResult := rfl
@[simp] theorem State.setRx_wdCur : (s.setRx e).wdCur = s.wdCur := rfl
@[simp] theorem State.setRx_wdCount : (s.setRx e).wdCount = s.wdCount := rfl
@[simp] theorem State.setRx_regs : (s.setRx e).regs = s.regs := rfl
@[simp] theorem State.setRx_tx : (s.setRx e).tx = s.tx := rfl
@[simp] theorem State.setRx_rx : (s.setRx e).rx = e := rfl
@[simp] theorem State.setRx_phy : (s.setRx e).phy = s.phy := rfl
@[simp] theorem State.setRx_mem : (s.setRx e).mem = s.mem := rfl
@[simp] theorem State.setRx_wireTx : (s.setRx e).wireTx = s.wireTx := rfl
@[simp] theorem State.setRx_resp : (s.setRx e).resp = s.resp := rfl
@[simp] theorem State.setRx_tickResp : (s.setRx e).tickResp = s.tickResp := rfl
@[simp] theorem State.setRx_startHeld : (s.setRx e).startHeld = s.startHeld := rfl
@[simp] theorem State.setRx_ret : (s.setRx e).ret = s.ret := rfl
@[simp] theorem State.setRx_script : (s.setRx e).script = s.script := rfl
@[simp] theorem State.setRx_phyIn : (s.setRx e).phyIn = s.phyIn := rfl
@[simp] theorem State.setRx_drawCtr : (s.setRx e).drawCtr = s.drawCtr := rfl

end

section
variable (s : State) (c : Stats)

@[simp] theorem State.setStats_params : (s.setStats c).params = s.params := rfl
@[simp] theorem State.setStats_dev : (s.setStats c).dev = s.dev := rfl
@[simp] theorem State.setStats_link : (s.setStats c).link = s.link := rfl
@[simp] theorem State.setStats_knownGood : (s.setStats c).knownGood = s.knownGood := rfl
@[simp] theorem State.setStats_cfg : (s.setStats c).cfg = s.cfg := rfl
@[simp] theorem State.setStats_stats : (s.setStats c).stats = c := rfl
@[simp] theorem State.setStats_txHead : (s.setStats c).txHead = s.txHead := rfl
@[simp] theorem State.setStats_txTail : (s.setStats c).txTail = s.txTail := rfl
@[simp] theorem State.setStats_rxHead : (s.setStats c).rxHead = s.rxHead := rfl
@[simp] theorem State.setStats_rxq : (s.setStats c).rxq = s.rxq := rfl
@[simp] theorem State.setStats_startPh : (s.setStats c).startPh = s.startPh := rfl
@[simp] theorem State.setStats_stopPh : (s.setStats c).stopPh = s.stopPh := rfl
@[simp] theorem State.setStats_recPh : (s.setStats c).recPh = s.recPh := rfl
@[simp] theorem State.setStats_neg : (s.setStats c).neg = s.neg := rfl
@[simp] theorem State.setStats_negPolls : (s.setStats c).negPolls = s.negPolls := rfl
@[simp] theorem State.setStats_negResult : (s.setStats c).negResult = s.negResult := rfl
@[simp] theorem State.setStats_wdCur : (s.setStats c).wdCur = s.wdCur := rfl
@[simp] theorem State.setStats_wdCount : (s.setStats c).wdCount = s.wdCount := rfl
@[simp] theorem State.setStats_regs : (s.setStats c).regs = s.regs := rfl
@[simp] theorem State.setStats_tx : (s.setStats c).tx = s.tx := rfl
@[simp] theorem State.setStats_rx : (s.setStats c).rx = s.rx := rfl
@[simp] theorem State.setStats_phy : (s.setStats c).phy = s.phy := rfl
@[simp] theorem State.setStats_mem : (s.setStats c).mem = s.mem := rfl
@[simp] theorem State.setStats_wireTx : (s.setStats c).wireTx = s.wireTx := rfl
@[simp] theorem State.setStats_resp : (s.setStats c).resp = s.resp := rfl
@[simp] theorem State.setStats_tickResp : (s.setStats c).tickResp = s.tickResp := rfl
@[simp] theorem State.setStats_startHeld : (s.setStats c).startHeld = s.startHeld := rfl
@[simp] theorem State.setStats_ret : (s.setStats c).ret = s.ret := rfl
@[simp] theorem State.setStats_script : (s.setStats c).script = s.script := rfl
@[simp] theorem State.setStats_phyIn : (s.setStats c).phyIn = s.phyIn := rfl
@[simp] theorem State.setStats_drawCtr : (s.setStats c).drawCtr = s.drawCtr := rfl

end

section
variable (s : State) (l : Link)

@[simp] theorem State.setLink_params : (s.setLink l).params = s.params := rfl
@[simp] theorem State.setLink_dev : (s.setLink l).dev = s.dev := rfl
@[simp] theorem State.setLink_link : (s.setLink l).link = l := rfl
@[simp] theorem State.setLink_knownGood : (s.setLink l).knownGood = s.knownGood := rfl
@[simp] theorem State.setLink_cfg : (s.setLink l).cfg = s.cfg := rfl
@[simp] theorem State.setLink_stats : (s.setLink l).stats = s.stats := rfl
@[simp] theorem State.setLink_txHead : (s.setLink l).txHead = s.txHead := rfl
@[simp] theorem State.setLink_txTail : (s.setLink l).txTail = s.txTail := rfl
@[simp] theorem State.setLink_rxHead : (s.setLink l).rxHead = s.rxHead := rfl
@[simp] theorem State.setLink_rxq : (s.setLink l).rxq = s.rxq := rfl
@[simp] theorem State.setLink_startPh : (s.setLink l).startPh = s.startPh := rfl
@[simp] theorem State.setLink_stopPh : (s.setLink l).stopPh = s.stopPh := rfl
@[simp] theorem State.setLink_recPh : (s.setLink l).recPh = s.recPh := rfl
@[simp] theorem State.setLink_neg : (s.setLink l).neg = s.neg := rfl
@[simp] theorem State.setLink_negPolls : (s.setLink l).negPolls = s.negPolls := rfl
@[simp] theorem State.setLink_negResult : (s.setLink l).negResult = s.negResult := rfl
@[simp] theorem State.setLink_wdCur : (s.setLink l).wdCur = s.wdCur := rfl
@[simp] theorem State.setLink_wdCount : (s.setLink l).wdCount = s.wdCount := rfl
@[simp] theorem State.setLink_regs : (s.setLink l).regs = s.regs := rfl
@[simp] theorem State.setLink_tx : (s.setLink l).tx = s.tx := rfl
@[simp] theorem State.setLink_rx : (s.setLink l).rx = s.rx := rfl
@[simp] theorem State.setLink_phy : (s.setLink l).phy = s.phy := rfl
@[simp] theorem State.setLink_mem : (s.setLink l).mem = s.mem := rfl
@[simp] theorem State.setLink_wireTx : (s.setLink l).wireTx = s.wireTx := rfl
@[simp] theorem State.setLink_resp : (s.setLink l).resp = s.resp := rfl
@[simp] theorem State.setLink_tickResp : (s.setLink l).tickResp = s.tickResp := rfl
@[simp] theorem State.setLink_startHeld : (s.setLink l).startHeld = s.startHeld := rfl
@[simp] theorem State.setLink_ret : (s.setLink l).ret = s.ret := rfl
@[simp] theorem State.setLink_script : (s.setLink l).script = s.script := rfl
@[simp] theorem State.setLink_phyIn : (s.setLink l).phyIn = s.phyIn := rfl
@[simp] theorem State.setLink_drawCtr : (s.setLink l).drawCtr = s.drawCtr := rfl

end

section
variable (s : State) (r : OpResult)

@[simp] theorem State.setRet_params : (s.setRet r).params = s.params := rfl
@[simp] theorem State.setRet_dev : (s.setRet r).dev = s.dev := rfl
@[simp] theorem State.setRet_link : (s.setRet r).link = s.link := rfl
@[simp] theorem State.setRet_knownGood : (s.setRet r).knownGood = s.knownGood := rfl
@[simp] theorem State.setRet_cfg : (s.setRet r).cfg = s.cfg := rfl
@[simp] theorem State.setRet_stats : (s.setRet r).stats = s.stats := rfl
@[simp] theorem State.setRet_txHead : (s.setRet r).txHead = s.txHead := rfl
@[simp] theorem State.setRet_txTail : (s.setRet r).txTail = s.txTail := rfl
@[simp] theorem State.setRet_rxHead : (s.setRet r).rxHead = s.rxHead := rfl
@[simp] theorem State.setRet_rxq : (s.setRet r).rxq = s.rxq := rfl
@[simp] theorem State.setRet_startPh : (s.setRet r).startPh = s.startPh := rfl
@[simp] theorem State.setRet_stopPh : (s.setRet r).stopPh = s.stopPh := rfl
@[simp] theorem State.setRet_recPh : (s.setRet r).recPh = s.recPh := rfl
@[simp] theorem State.setRet_neg : (s.setRet r).neg = s.neg := rfl
@[simp] theorem State.setRet_negPolls : (s.setRet r).negPolls = s.negPolls := rfl
@[simp] theorem State.setRet_negResult : (s.setRet r).negResult = s.negResult := rfl
@[simp] theorem State.setRet_wdCur : (s.setRet r).wdCur = s.wdCur := rfl
@[simp] theorem State.setRet_wdCount : (s.setRet r).wdCount = s.wdCount := rfl
@[simp] theorem State.setRet_regs : (s.setRet r).regs = s.regs := rfl
@[simp] theorem State.setRet_tx : (s.setRet r).tx = s.tx := rfl
@[simp] theorem State.setRet_rx : (s.setRet r).rx = s.rx := rfl
@[simp] theorem State.setRet_phy : (s.setRet r).phy = s.phy := rfl
@[simp] theorem State.setRet_mem : (s.setRet r).mem = s.mem := rfl
@[simp] theorem State.setRet_wireTx : (s.setRet r).wireTx = s.wireTx := rfl
@[simp] theorem State.setRet_resp : (s.setRet r).resp = s.resp := rfl
@[simp] theorem State.setRet_tickResp : (s.setRet r).tickResp = s.tickResp := rfl
@[simp] theorem State.setRet_startHeld : (s.setRet r).startHeld = s.startHeld := rfl
@[simp] theorem State.setRet_ret : (s.setRet r).ret = r := rfl
@[simp] theorem State.setRet_script : (s.setRet r).script = s.script := rfl
@[simp] theorem State.setRet_phyIn : (s.setRet r).phyIn = s.phyIn := rfl
@[simp] theorem State.setRet_drawCtr : (s.setRet r).drawCtr = s.drawCtr := rfl

end

end Sys2Proof.Machine
end

