-- ==== Sys2Proof/Laws/Ops.lean ====
section
/-! SUPPORT. The laws of the shared operations: where the regions of a well-formed instance lie (spec/20_memory.md R79),
descriptors in memory (R73, R82), what a register write and a management cycle can change (R77, R160, R161), the register
fields that stay 0 (R40), and the outcome of a host command (R245, R246). -/

namespace Sys2Proof.Machine

/-! ## A register write changes the registers and the two engines, nothing else -/

section
variable (s : State) (r : Reg) (v : Word)

@[simp] theorem writeReg_params : (writeReg s r v).params = s.params := by cases r <;> rfl
@[simp] theorem writeReg_dev : (writeReg s r v).dev = s.dev := by cases r <;> rfl
@[simp] theorem writeReg_link : (writeReg s r v).link = s.link := by cases r <;> rfl
@[simp] theorem writeReg_knownGood : (writeReg s r v).knownGood = s.knownGood := by cases r <;> rfl
@[simp] theorem writeReg_cfg : (writeReg s r v).cfg = s.cfg := by cases r <;> rfl
@[simp] theorem writeReg_stats : (writeReg s r v).stats = s.stats := by cases r <;> rfl
@[simp] theorem writeReg_txHead : (writeReg s r v).txHead = s.txHead := by cases r <;> rfl
@[simp] theorem writeReg_txTail : (writeReg s r v).txTail = s.txTail := by cases r <;> rfl
@[simp] theorem writeReg_rxHead : (writeReg s r v).rxHead = s.rxHead := by cases r <;> rfl
@[simp] theorem writeReg_rxq : (writeReg s r v).rxq = s.rxq := by cases r <;> rfl
@[simp] theorem writeReg_startPh : (writeReg s r v).startPh = s.startPh := by cases r <;> rfl
@[simp] theorem writeReg_stopPh : (writeReg s r v).stopPh = s.stopPh := by cases r <;> rfl
@[simp] theorem writeReg_recPh : (writeReg s r v).recPh = s.recPh := by cases r <;> rfl
@[simp] theorem writeReg_neg : (writeReg s r v).neg = s.neg := by cases r <;> rfl
@[simp] theorem writeReg_negPolls : (writeReg s r v).negPolls = s.negPolls := by cases r <;> rfl
@[simp] theorem writeReg_negResult : (writeReg s r v).negResult = s.negResult := by cases r <;> rfl
@[simp] theorem writeReg_wdCur : (writeReg s r v).wdCur = s.wdCur := by cases r <;> rfl
@[simp] theorem writeReg_wdCount : (writeReg s r v).wdCount = s.wdCount := by cases r <;> rfl
@[simp] theorem writeReg_phy : (writeReg s r v).phy = s.phy := by cases r <;> rfl
@[simp] theorem writeReg_mem : (writeReg s r v).mem = s.mem := by cases r <;> rfl
@[simp] theorem writeReg_wireTx : (writeReg s r v).wireTx = s.wireTx := by cases r <;> rfl
@[simp] theorem writeReg_resp : (writeReg s r v).resp = s.resp := by cases r <;> rfl
@[simp] theorem writeReg_tickResp : (writeReg s r v).tickResp = s.tickResp := by cases r <;> rfl
@[simp] theorem writeReg_startHeld : (writeReg s r v).startHeld = s.startHeld := by cases r <;> rfl
@[simp] theorem writeReg_ret : (writeReg s r v).ret = s.ret := by cases r <;> rfl
@[simp] theorem writeReg_script : (writeReg s r v).script = s.script := by cases r <;> rfl
@[simp] theorem writeReg_phyIn : (writeReg s r v).phyIn = s.phyIn := by cases r <;> rfl
@[simp] theorem writeReg_drawCtr : (writeReg s r v).drawCtr = s.drawCtr := by cases r <;> rfl

end

/-- Every effect of a register write, by register (R41 to R52, R77). -/
theorem writeReg_cases (s : State) (r : Reg) (v : Word) :
    writeReg s r v = ((s.setRegs (writeReg s r v).regs).setTx (writeReg s r v).tx).setRx (writeReg s r v).rx := by
  cases r <;> rfl

/-! ## Management cycles -/

/-- A PHY read takes at most a draw: the input shrinks or the counter of free values grows (R270, log 10). -/
theorem drawPhy_cases (s : State) :
    (∃ v rest, s.phyIn = v :: rest ∧ drawPhy s = (v, { s with phyIn := rest })) ∨
    (s.phyIn = [] ∧ drawPhy s = (Config.freePhyRead s.drawCtr, { s with drawCtr := s.drawCtr + 1 })) := by
  unfold drawPhy
  split
  · next v rest h => exact .inl ⟨v, rest, h, rfl⟩
  · next h => exact .inr ⟨h, rfl⟩

/-- What a PHY register answers (R54, R270). -/
theorem phyRegister_cases (s : State) (reg : BitVec 5) :
    (reg = 0 ∧ phyRegister s reg = (bmcrRead s.phy.bmcr, s)) ∨ (reg = 4 ∧ phyRegister s reg = (s.phy.anar, s)) ∨
    (reg = 9 ∧ phyRegister s reg = (s.phy.gtcr, s)) ∨
    (reg ≠ 0 ∧ reg ≠ 4 ∧ reg ≠ 9 ∧ phyRegister s reg = drawPhy s) := by
  unfold phyRegister
  by_cases h0 : reg = 0
  · simp [h0]
  by_cases h4 : reg = 4
  · simp [h4]
  by_cases h9 : reg = 9
  · simp [h9]
  · exact .inr (.inr (.inr ⟨h0, h4, h9, by rw [if_neg h0, if_neg h4, if_neg h9]⟩))

/-- A management read changes MII_ADDR, MII_DATA, the PHY input and the free-value counter, nothing else (R160). -/
theorem mdioRead_frame (s : State) (reg : BitVec 5) : ∃ a d q n, (mdioRead s reg).2 =
    { s with regs := { s.regs with miiAddr := a, miiData := d }, phyIn := q, drawCtr := n } := by
  unfold mdioRead
  obtain ⟨-, h⟩ | ⟨-, h⟩ | ⟨-, h⟩ | ⟨-, -, -, h⟩ :=
    phyRegister_cases (writeReg s .miiAddr (miiCommand s.params.phyAddr reg false)) reg
  · rw [h]; exact ⟨_, _, _, _, rfl⟩
  · rw [h]; exact ⟨_, _, _, _, rfl⟩
  · rw [h]; exact ⟨_, _, _, _, rfl⟩
  · rw [h]
    obtain ⟨v, rest, -, g⟩ | ⟨-, g⟩ := drawPhy_cases (writeReg s .miiAddr (miiCommand s.params.phyAddr reg false))
    · rw [g]; exact ⟨_, _, _, _, rfl⟩
    · rw [g]; exact ⟨_, _, _, _, rfl⟩

/-- A management write changes MII_ADDR, MII_DATA and the PHY's registers, nothing else (R161). -/
theorem mdioWrite_frame (s : State) (reg : BitVec 5) (v : Half) : ∃ a d y, mdioWrite s reg v =
    { s with regs := { s.regs with miiAddr := a, miiData := d }, phy := y } := by
  unfold mdioWrite phyStore
  split
  · exact ⟨_, _, _, rfl⟩
  split
  · exact ⟨_, _, _, rfl⟩
  split
  · exact ⟨_, _, _, rfl⟩
  · exact ⟨_, _, _, rfl⟩

/-- After a management cycle GB reads 0 and the reserved bits of MII_ADDR are 0 (R160, R272). -/
theorem clearBusy_miiAddr (s : State) : (clearBusy s).regs.miiAddr &&& ~~~(0x0000FFC2 : Word) = 0 := by
  simp [clearBusy, BitVec.and_assoc]

/-! ## Reserved bits (R40) -/

/-- A mask applied to a word leaves nothing outside the mask. -/
theorem and_mask_reserved (v m : Word) : (v &&& m) &&& ~~~m = 0 := by simp [BitVec.and_assoc]

/-- Write 1 to clear clears exactly the bits written (R47, R191). -/
theorem w1c_self (v : Word) : w1c v (v &&& statusMask) = 0 := by
  apply BitVec.eq_of_getLsbD_eq
  intro i hi
  simp only [w1c, BitVec.getLsbD_and, BitVec.getLsbD_not]
  cases v.getLsbD i <;> cases statusMask.getLsbD i <;> simp

/-! ## Host commands (R245, R246) -/

/-- The three outcomes of a host command. -/
theorem hostCommand_cases (s : State) (k : State → State) :
    (unanswered s = true ∧ hostCommand s k = .fault (.hostDuty .concurrent)) ∨
    (unanswered s = false ∧ s.dev = .uninit ∧ hostCommand s k = .fault (.hostDuty .notAttached)) ∨
    (unanswered s = false ∧ s.dev ≠ .uninit ∧ hostCommand s k = .next (k s)) := by
  unfold hostCommand
  cases hu : unanswered s
  · by_cases hd : s.dev = .uninit
    · exact .inr (.inl ⟨rfl, hd, by simp [hd]⟩)
    · exact .inr (.inr ⟨rfl, hd, by simp [hd]⟩)
  · exact .inl ⟨rfl, by simp⟩

/-! ## The regions of a well-formed instance (R79) -/

/-- R7's bounds on the sizes. -/
theorem paramsOk_sizes (p : Params) (h : paramsOk p = true) :
    1 ≤ p.nTx ∧ p.nTx ≤ 4096 ∧ 1 ≤ p.nRx ∧ p.nRx ≤ 4096 ∧ 1 ≤ p.bufSize ∧ p.bufSize ≤ 16383 ∧
      p.bufSize ≤ p.bufStride ∧ 1 ≤ p.negPollMax ∧ 1 ≤ p.rxqDepth ∧ 1 ≤ p.stallTicks := by
  simp only [paramsOk, boundsOk, Bool.and_eq_true, decide_eq_true_eq] at h
  omega

theorem paramsOk_ringSize (p : Params) (k : RingKind) (h : paramsOk p = true) : 1 ≤ ringSize p k := by
  have := paramsOk_sizes p h
  cases k
  · exact this.1
  · exact this.2.2.1

/-- Descriptor bases are 16-byte aligned (R75). -/
theorem paramsOk_descAligned (p : Params) (k : RingKind) (h : paramsOk p = true) : (descBase p k).toNat % 16 = 0 := by
  simp only [paramsOk, boundsOk, Bool.and_eq_true, decide_eq_true_eq] at h
  cases k <;> simp only [descBase] <;> omega

theorem paramsOk_regions (p : Params) (h : paramsOk p = true) :
    (∀ k, inSpace (descRange p k) = true) ∧ (∀ k, inSpace (bufRange p k) = true) ∧
    (∀ k k', k ≠ k' → disjoint (descRange p k) (descRange p k') = true) ∧
    (∀ k k', k ≠ k' → disjoint (bufRange p k) (bufRange p k') = true) ∧
    (∀ k k', disjoint (descRange p k) (bufRange p k') = true) := by
  simp only [paramsOk, regionsOk, Bool.and_eq_true, decide_eq_true_eq] at h
  obtain ⟨-, i1, i2, i3, i4, -, d1, d2, d3, d4, d5, d6, -, -, -, -⟩ := h
  have flip : ∀ a b, disjoint a b = true → disjoint b a = true := by
    intro a b hd
    simp only [disjoint, Bool.or_eq_true, decide_eq_true_eq] at hd ⊢
    omega
  refine ⟨?_, ?_, ?_, ?_, ?_⟩
  · intro k; cases k <;> assumption
  · intro k; cases k <;> assumption
  · intro k k' hk
    cases k <;> cases k' <;> first | exact absurd rfl hk | assumption | exact flip _ _ d1
  · intro k k' hk
    cases k <;> cases k' <;> first | exact absurd rfl hk | assumption | exact flip _ _ d6
  · intro k k'; cases k <;> cases k' <;> assumption

/-- A descriptor lies in its ring's range. -/
theorem descAddr_bounds (p : Params) (k : RingKind) (i : Nat) (hi : i < ringSize p k) :
    (descRange p k).1 ≤ descAddr p k i ∧ descAddr p k i + 16 ≤ (descRange p k).1 + (descRange p k).2 := by
  simp only [descRange, descAddr]
  omega

/-- A buffer lies in its pool's range. -/
theorem bufAddr_bounds (p : Params) (k : RingKind) (i : Nat) (hi : i < ringSize p k) :
    (bufRange p k).1 ≤ bufAddr p k i ∧ bufAddr p k i + p.bufSize ≤ (bufRange p k).1 + (bufRange p k).2 := by
  have : p.bufStride * i ≤ p.bufStride * (ringSize p k - 1) := Nat.mul_le_mul_left _ (by omega)
  simp only [bufRange, bufAddr]
  omega

/-- Two slots of one ring, or of different rings, do not meet. -/
theorem desc_desc_disjoint (p : Params) (k k' : RingKind) (i j : Nat) (h : paramsOk p = true)
    (hi : i < ringSize p k) (hj : j < ringSize p k') (hne : k ≠ k' ∨ i ≠ j) :
    descAddr p k i + 16 ≤ descAddr p k' j ∨ descAddr p k' j + 16 ≤ descAddr p k i := by
  by_cases hk : k = k'
  · subst hk
    have : i ≠ j := by simpa using hne
    simp only [descAddr]
    omega
  · have hd := (paramsOk_regions p h).2.2.1 k k' hk
    have b1 := descAddr_bounds p k i hi
    have b2 := descAddr_bounds p k' j hj
    simp only [disjoint, Bool.or_eq_true, decide_eq_true_eq] at hd
    omega

/-- A descriptor and a buffer do not meet. -/
theorem desc_buf_disjoint (p : Params) (k k' : RingKind) (i j : Nat) (h : paramsOk p = true)
    (hi : i < ringSize p k) (hj : j < ringSize p k') :
    descAddr p k i + 16 ≤ bufAddr p k' j ∨ bufAddr p k' j + p.bufSize ≤ descAddr p k i := by
  have hd := (paramsOk_regions p h).2.2.2.2 k k'
  have b1 := descAddr_bounds p k i hi
  have b2 := bufAddr_bounds p k' j hj
  simp only [disjoint, Bool.or_eq_true, decide_eq_true_eq] at hd
  omega

/-- Two buffers do not meet. -/
theorem buf_buf_disjoint (p : Params) (k k' : RingKind) (i j : Nat) (h : paramsOk p = true)
    (hi : i < ringSize p k) (hj : j < ringSize p k') (hne : k ≠ k' ∨ i ≠ j) :
    bufAddr p k i + p.bufSize ≤ bufAddr p k' j ∨ bufAddr p k' j + p.bufSize ≤ bufAddr p k i := by
  by_cases hk : k = k'
  · subst hk
    have hs := (paramsOk_sizes p h).2.2.2.2.2.2.1
    have : i < j ∨ j < i := by have : i ≠ j := by simpa using hne
                               omega
    simp only [bufAddr]
    obtain hlt | hlt := this
    · have := Nat.mul_le_mul_left p.bufStride (show i + 1 ≤ j by omega)
      rw [Nat.mul_add, Nat.mul_one] at this
      omega
    · have := Nat.mul_le_mul_left p.bufStride (show j + 1 ≤ i by omega)
      rw [Nat.mul_add, Nat.mul_one] at this
      omega
  · have hd := (paramsOk_regions p h).2.2.2.1 k k' hk
    have b1 := bufAddr_bounds p k i hi
    have b2 := bufAddr_bounds p k' j hj
    simp only [disjoint, Bool.or_eq_true, decide_eq_true_eq] at hd
    omega

/-! ## Descriptors in memory -/

/-- A descriptor read depends on its 16 bytes only. -/
theorem readDesc_congr (p : Params) (k : RingKind) (m m' : Memory) (i : Nat)
    (h : ∀ x, descAddr p k i ≤ x → x < descAddr p k i + 16 → m.read x = m'.read x) :
    readDesc p k m i = readDesc p k m' i := by
  unfold readDesc
  rw [Memory.read32_congr m m' _ (fun x h1 h2 => h x (by omega) (by omega)),
    Memory.read32_congr m m' (descAddr p k i + 4) (fun x h1 h2 => h x (by omega) (by omega)),
    Memory.read32_congr m m' (descAddr p k i + 8) (fun x h1 h2 => h x (by omega) (by omega)),
    Memory.read32_congr m m' (descAddr p k i + 12) (fun x h1 h2 => h x (by omega) (by omega))]

theorem wf_writeDesc (p : Params) (k : RingKind) (m : Memory) (i : Nat) (d : Desc) (h : m.wf = true) :
    (writeDesc p k m i d).wf = true :=
  Memory.wf_write32 _ _ _ (Memory.wf_write32 _ _ _ (Memory.wf_write32 _ _ _ (Memory.wf_write32 _ _ _ h)))

theorem wf_writeStatus (p : Params) (k : RingKind) (m : Memory) (i : Nat) (d : Desc) (h : m.wf = true) :
    (writeStatus p k m i d).wf = true := Memory.wf_write32 _ _ _ h

/-- A descriptor write leaves every byte outside the 16 alone. -/
theorem read_writeDesc_outside (p : Params) (k : RingKind) (m : Memory) (i x : Nat) (d : Desc)
    (hx : x < descAddr p k i ∨ descAddr p k i + 16 ≤ x) : (writeDesc p k m i d).read x = m.read x := by
  unfold writeDesc
  rw [Memory.read_write32_outside _ _ _ _ (by omega), Memory.read_write32_outside _ _ _ _ (by omega),
    Memory.read_write32_outside _ _ _ _ (by omega), Memory.read_write32_outside _ _ _ _ (by omega)]

/-- The DMA write-back leaves every byte outside DES0 alone. -/
theorem read_writeStatus_outside (p : Params) (k : RingKind) (m : Memory) (i x : Nat) (d : Desc)
    (hx : x < descAddr p k i ∨ descAddr p k i + 4 ≤ x) : (writeStatus p k m i d).read x = m.read x :=
  Memory.read_write32_outside _ _ _ _ hx

/-- A descriptor just written is read back. -/
theorem readDesc_writeDesc_same (p : Params) (k : RingKind) (m : Memory) (i : Nat) (d : Desc) (h : m.wf = true)
    (hd : d.fits k) : readDesc p k (writeDesc p k m i d) i = d := by
  have w1 := Memory.wf_write32 m (descAddr p k i + 4) (des1 k d) h
  have w2 := Memory.wf_write32 _ (descAddr p k i + 8) d.buf w1
  have w3 := Memory.wf_write32 _ (descAddr p k i + 12) d.next w2
  unfold readDesc writeDesc
  rw [Memory.read32_write32_same _ _ _ w3, Memory.read32_write32_other _ _ _ _ (by omega),
    Memory.read32_write32_other _ _ _ _ (by omega), Memory.read32_write32_other _ _ _ _ (by omega),
    Memory.read32_write32_same _ _ _ h, Memory.read32_write32_other _ _ _ _ (by omega),
    Memory.read32_write32_other _ _ _ _ (by omega), Memory.read32_write32_same _ _ _ w1,
    Memory.read32_write32_other _ _ _ _ (by omega), Memory.read32_write32_same _ _ _ w2]
  exact descOfWords_des k d hd

/-- Another slot's descriptor is not changed by a descriptor write. -/
theorem readDesc_writeDesc_other (p : Params) (k k' : RingKind) (m : Memory) (i j : Nat) (d : Desc)
    (hne : descAddr p k i + 16 ≤ descAddr p k' j ∨ descAddr p k' j + 16 ≤ descAddr p k i) :
    readDesc p k' (writeDesc p k m i d) j = readDesc p k' m j :=
  readDesc_congr p k' _ _ j fun x _ _ => read_writeDesc_outside p k m i x d (by omega)

/-- A write-back to another slot does not change a descriptor. -/
theorem readDesc_writeStatus_other (p : Params) (k k' : RingKind) (m : Memory) (i j : Nat) (d : Desc)
    (hne : descAddr p k i + 16 ≤ descAddr p k' j ∨ descAddr p k' j + 16 ≤ descAddr p k i) :
    readDesc p k' (writeStatus p k m i d) j = readDesc p k' m j :=
  readDesc_congr p k' _ _ j fun x _ _ => read_writeStatus_outside p k m i x d (by omega)

/-- Bytes stored outside a descriptor do not change it. -/
theorem readDesc_writeBytes_other (p : Params) (k : RingKind) (m : Memory) (a i : Nat) (bs : List Byte)
    (hne : descAddr p k i + 16 ≤ a ∨ a + bs.length ≤ descAddr p k i) :
    readDesc p k (m.writeBytes a bs) i = readDesc p k m i :=
  readDesc_congr p k _ _ i fun x _ _ => Memory.read_writeBytes_outside bs m a x (by omega)

theorem readDesc_fits (p : Params) (k : RingKind) (m : Memory) (i : Nat) : (readDesc p k m i).fits k :=
  descOfWords_fits k _ _ _ _

/-- The write-back keeps what DES1, DES2 and DES3 hold and replaces what DES0 holds: a descriptor that differs from the
stored one in DES0's fields only is read back (R261, R264). -/
theorem readDesc_writeStatus_same (p : Params) (k : RingKind) (m : Memory) (i : Nat) (d : Desc) (h : m.wf = true)
    (hd : d.fits k) (h1 : d.len = (readDesc p k m i).len) (h2 : d.wrap = (readDesc p k m i).wrap)
    (h3 : d.chain = (readDesc p k m i).chain) (h4 : d.buf = (readDesc p k m i).buf)
    (h5 : d.next = (readDesc p k m i).next)
    (h6 : k = .tx → d.fs = (readDesc p k m i).fs ∧ d.ls = (readDesc p k m i).ls) :
    readDesc p k (writeStatus p k m i d) i = d := by
  have hw : readDesc p k (writeStatus p k m i d) i = descOfWords k (des0 k d) (m.read32 (descAddr p k i + 4))
      (m.read32 (descAddr p k i + 8)) (m.read32 (descAddr p k i + 12)) := by
    unfold readDesc writeStatus
    rw [Memory.read32_write32_same _ _ _ h, Memory.read32_write32_other _ _ _ _ (by omega),
      Memory.read32_write32_other _ _ _ _ (by omega), Memory.read32_write32_other _ _ _ _ (by omega)]
  have hself := descOfWords_des k d hd
  rw [hw]
  generalize hold : readDesc p k m i = old at h1 h2 h3 h4 h5 h6
  unfold readDesc at hold
  generalize m.read32 (descAddr p k i + 4) = w1 at hold ⊢
  generalize m.read32 (descAddr p k i + 8) = w2 at hold ⊢
  generalize m.read32 (descAddr p k i + 12) = w3 at hold ⊢
  generalize m.read32 (descAddr p k i) = w0 at hold
  subst hold
  cases k with
  | tx =>
    have hs : descOfWords .tx (des0 .tx d) w1 w2 w3 =
        { descOfWords .tx (des0 .tx d) (des1 .tx d) d.buf d.next with
          fs := (descOfWords .tx w0 w1 w2 w3).fs, ls := (descOfWords .tx w0 w1 w2 w3).ls
          wrap := (descOfWords .tx w0 w1 w2 w3).wrap, chain := (descOfWords .tx w0 w1 w2 w3).chain
          len := (descOfWords .tx w0 w1 w2 w3).len, buf := (descOfWords .tx w0 w1 w2 w3).buf
          next := (descOfWords .tx w0 w1 w2 w3).next } := rfl
    rw [hs, hself, ← h1, ← h2, ← h3, ← h4, ← h5, ← (h6 rfl).1, ← (h6 rfl).2]
  | rx =>
    have hs : descOfWords .rx (des0 .rx d) w1 w2 w3 =
        { descOfWords .rx (des0 .rx d) (des1 .rx d) d.buf d.next with
          wrap := (descOfWords .rx w0 w1 w2 w3).wrap, chain := (descOfWords .rx w0 w1 w2 w3).chain
          len := (descOfWords .rx w0 w1 w2 w3).len, buf := (descOfWords .rx w0 w1 w2 w3).buf
          next := (descOfWords .rx w0 w1 w2 w3).next } := rfl
    rw [hs, hself, ← h1, ← h2, ← h3, ← h4, ← h5]

end Sys2Proof.Machine
end

