-- ==== Sys2Proof/Laws/Ring.lean ====
section
/-! SUPPORT. The laws of the ring manager (spec/40_ring_manager.md): what INIT_RING leaves in memory (R130), what one
iteration of each reclaim walk does, and that all of them keep the canonical form of memory and touch no other byte. -/

namespace Sys2Proof.Machine

open Sys2Proof.Safety

/-! ## The bytes of a slot -/

theorem Memory.readBytes_add (m : Memory) (a x y : Nat) :
    m.readBytes a (x + y) = m.readBytes a x ++ m.readBytes (a + x) y := by
  induction x generalizing a with
  | zero => simp [Memory.readBytes]
  | succ x ih =>
    rw [show x + 1 + y = (x + y) + 1 by omega, show a + (x + 1) = a + 1 + x by omega]
    simp only [Memory.readBytes, List.cons_append, ih (a + 1)]

/-- The four words just written are the 16 bytes of the slot (R73, R104). -/
theorem readBytes_writeDesc (p : Params) (k : RingKind) (m : Memory) (i : Nat) (d : Desc) (h : m.wf = true) :
    (writeDesc p k m i d).readBytes (descAddr p k i) 16 =
      wordBytes (des0 k d) ++ wordBytes (des1 k d) ++ wordBytes d.buf ++ wordBytes d.next := by
  have w1 := Memory.wf_write32 m (descAddr p k i + 4) (des1 k d) h
  have w2 := Memory.wf_write32 _ (descAddr p k i + 8) d.buf w1
  have w3 := Memory.wf_write32 _ (descAddr p k i + 12) d.next w2
  have same : ∀ (m : Memory) (a : Nat) (v : Word), m.wf = true → (m.write32 a v).readBytes a 4 = wordBytes v := by
    intro m a v hm
    exact Memory.readBytes_writeBytes (wordBytes v) m a hm
  have other : ∀ (m : Memory) (a b : Nat) (v : Word), b + 4 ≤ a ∨ a + 4 ≤ b →
      (m.write32 a v).readBytes b 4 = m.readBytes b 4 := fun m a b v hb =>
    Memory.readBytes_congr _ _ _ _ fun x h1 h2 => Memory.read_write32_outside m a x v (by omega)
  rw [show (16 : Nat) = 4 + 4 + 4 + 4 from rfl, Memory.readBytes_add, Memory.readBytes_add, Memory.readBytes_add]
  unfold writeDesc
  simp only [Nat.reduceAdd]
  rw [same _ _ _ w3, other _ _ _ _ (by omega), other _ _ _ _ (by omega), other _ _ _ _ (by omega), same _ _ _ h,
    other _ _ _ _ (by omega), other _ _ _ _ (by omega), same _ _ _ w1, other _ _ _ _ (by omega), same _ _ _ w2]

/-- The bytes of another slot do not change. -/
theorem readBytes_writeDesc_other (p : Params) (k : RingKind) (m : Memory) (i a n : Nat) (d : Desc)
    (hne : a + n ≤ descAddr p k i ∨ descAddr p k i + 16 ≤ a) :
    (writeDesc p k m i d).readBytes a n = m.readBytes a n :=
  Memory.readBytes_congr _ _ _ _ fun x _ _ => read_writeDesc_outside p k m i x d (by omega)

/-- A slot whose bytes are a descriptor's words reads as that descriptor. -/
theorem desc_of_slotHolds (s : State) (k : RingKind) (i : Nat) (d : Desc) (hd : d.fits k) (h : SlotHolds s k i d) :
    s.desc k i = d := by
  have read4 : ∀ (a : Nat) (w : Word), s.mem.readBytes a 4 = wordBytes w → s.mem.read32 a = w := by
    intro a w hw
    simp only [Memory.readBytes, wordBytes, List.cons.injEq, and_true] at hw
    unfold Memory.read32
    rw [hw.1, hw.2.1, show a + 2 = a + 1 + 1 from rfl, hw.2.2.1, show a + 3 = a + 1 + 1 + 1 from rfl, hw.2.2.2]
    exact bytesWord_wordBytes w
  unfold SlotHolds at h
  rw [show (16 : Nat) = 4 + 4 + 4 + 4 from rfl, Memory.readBytes_add, Memory.readBytes_add, Memory.readBytes_add] at h
  have h3 := List.append_inj h (by simp)
  have h2 := List.append_inj h3.1 (by simp)
  have h1 := List.append_inj h2.1 (by simp)
  unfold State.desc readDesc descAddr
  rw [read4 _ _ h1.1, read4 _ _ h1.2, read4 _ _ h2.2, read4 _ _ h3.2]
  exact descOfWords_des k d hd

/-! ## INIT_RING (R130) -/

theorem freshDesc_eq (p : Params) (k : RingKind) (i : Nat) (hi : i < ringSize p k) :
    freshDesc p k i = freshSlot p k i := by
  unfold freshDesc freshSlot Desc.zero bufAddr descAddr nextIndex
  have : decide (i = ringSize p k - 1) = decide (i + 1 = ringSize p k) := by rw [decide_eq_decide]; omega
  rw [this]
  cases k <;> cases hm : ringMode p _ <;> simp

theorem freshSlot_fits (p : Params) (k : RingKind) (i : Nat) : (freshSlot p k i).fits k := by
  cases k <;> simp [Desc.fits, freshSlot]

theorem wf_initDescs (p : Params) (k : RingKind) (n : Nat) (m : Memory) (h : m.wf = true) :
    (initDescs p k n m).wf = true := by
  induction n with
  | zero => exact h
  | succ n ih => exact wf_writeDesc p k _ n _ ih

/-- Slots from `n` on and every other byte are left alone. -/
theorem read_initDescs_outside (p : Params) (k : RingKind) (n : Nat) (m : Memory) (a : Nat)
    (ha : a < descAddr p k 0 ∨ descAddr p k n ≤ a) : (initDescs p k n m).read a = m.read a := by
  induction n with
  | zero => rfl
  | succ n ih =>
    simp only [initDescs]
    simp only [descAddr] at ha ih
    rw [read_writeDesc_outside p k _ n a _ (by simp only [descAddr]; omega), ih (by omega)]

/-- Every slot below `n` holds its fresh descriptor. -/
theorem readBytes_initDescs (p : Params) (k : RingKind) (n : Nat) (m : Memory) (h : m.wf = true) (i : Nat) (hi : i < n) :
    (initDescs p k n m).readBytes (descAddr p k i) 16 = wordBytes (des0 k (freshDesc p k i)) ++
      wordBytes (des1 k (freshDesc p k i)) ++ wordBytes (freshDesc p k i).buf ++ wordBytes (freshDesc p k i).next := by
  induction n with
  | zero => omega
  | succ n ih =>
    simp only [initDescs]
    by_cases hn : i = n
    · subst hn
      exact readBytes_writeDesc p k _ i _ (wf_initDescs p k i m h)
    · rw [readBytes_writeDesc_other p k _ n _ 16 _ (by simp only [descAddr]; omega)]
      exact ih (by omega)

/-- The ring INIT_RING leaves, whatever else the state holds. -/
theorem freshRing_initDescs (s t : State) (k : RingKind) (m : Memory) (h : m.wf = true) (hp : t.params = s.params)
    (hm : ∀ a, ¬ OutsideRing s.params k a → t.mem.read a = (initDescs s.params k (ringSize s.params k) m).read a) :
    FreshRing t k := by
  intro i hi
  rw [hp] at hi
  unfold SlotHolds
  rw [hp, ← freshDesc_eq _ _ _ hi, ← readBytes_initDescs s.params k (ringSize s.params k) m h i hi]
  refine Memory.readBytes_congr _ _ _ _ fun x h1 h2 => hm x ?_
  unfold OutsideRing
  omega

theorem initRing_tx (s : State) : initRing s .tx = { s with
    mem := initDescs s.params .tx s.params.nTx s.mem, txHead := 0, txTail := 0, wdCur := 0, wdCount := 0 } := rfl

theorem initRing_rx (s : State) : initRing s .rx =
    { s with mem := initDescs s.params .rx s.params.nRx s.mem, rxHead := 0, rxq := [] } := rfl

theorem wf_initRing (s : State) (k : RingKind) (h : s.mem.wf = true) : (initRing s k).mem.wf = true := by
  cases k <;> exact wf_initDescs _ _ _ _ h

/-- Both rings (R170, R212, R230, R232): the software state is reset, both rings are fresh, nothing else changes. -/
theorem initRings_spec (s : State) (hp : paramsOk s.params = true) (h : s.mem.wf = true) :
    ∃ m : Memory, m.wf = true ∧ initRing (initRing s .tx) .rx = ringsCleared s m ∧ RingsFresh s (ringsCleared s m) := by
  have hw := wf_initDescs s.params .tx s.params.nTx s.mem h
  refine ⟨_, wf_initDescs s.params .rx s.params.nRx _ hw, rfl, ?_, ?_, ?_⟩
  · refine freshRing_initDescs s _ .tx s.mem h rfl fun a ha => read_initDescs_outside _ _ _ _ _ ?_
    have hd := (paramsOk_regions s.params hp).2.2.1 .tx .rx (by simp)
    simp only [disjoint, Bool.or_eq_true, decide_eq_true_eq] at hd
    simp only [descRange, ringSize] at hd
    simp only [OutsideRing, descAddr, ringSize] at ha ⊢
    omega
  · exact freshRing_initDescs s _ .rx _ hw rfl fun a _ => rfl
  · intro a h1 h2
    show (initDescs _ _ _ _).read a = _
    rw [read_initDescs_outside _ _ _ _ _ (by simp only [OutsideRing, ringSize] at h2; simp only [descAddr]; omega),
      read_initDescs_outside _ _ _ _ _ (by simp only [OutsideRing, ringSize] at h1; simp only [descAddr]; omega)]

/-- A fresh ring does not depend on fields other than the parameters and memory. -/
theorem freshRing_congr (s t : State) (k : RingKind) (h1 : t.params = s.params) (h2 : t.mem = s.mem)
    (h : FreshRing s k) : FreshRing t k := by
  intro i hi
  have := h i (h1 ▸ hi)
  unfold SlotHolds at this ⊢
  rw [h1, h2]
  exact this

theorem ringsFresh_congr (s s' t t' : State) (h1 : t'.params = t.params) (h2 : t'.mem = t.mem) (h3 : s'.params = s.params)
    (h4 : s'.mem = s.mem) (h : RingsFresh s t) : RingsFresh s' t' :=
  ⟨freshRing_congr t t' .tx h1 h2 h.1, freshRing_congr t t' .rx h1 h2 h.2.1, by rw [h2, h3, h4]; exact h.2.2⟩

/-! ## Reading descriptors and buffers of a changed memory -/

theorem desc_congr (s t : State) (k : RingKind) (i : Nat) (h1 : t.params = s.params)
    (h : ∀ x, descAddr s.params k i ≤ x → x < descAddr s.params k i + 16 → t.mem.read x = s.mem.read x) :
    t.desc k i = s.desc k i := by
  unfold State.desc
  rw [h1]
  exact readDesc_congr _ _ _ _ _ h

/-! ## ENQUEUE_TX (R131) -/

/-- What publishing a frame does, besides memory: the head moves and the TX engine is woken. -/
theorem publishTx_frame (s : State) (length : Nat) (bytes : List Byte) : publishTx s length bytes = { s with
    mem := writeDesc s.params .tx (s.mem.writeBytes (bufAddr s.params .tx s.txHead) bytes) s.txHead
      (publishedDesc (s.desc .tx s.txHead) length)
    txHead := (s.txHead + 1) % s.params.nTx
    tx := { s.tx with susp := false } } := by
  unfold publishTx
  simp only [writeReg, nextIndex]
  rfl

theorem wf_publishTx (s : State) (length : Nat) (bytes : List Byte) (h : s.mem.wf = true) :
    (publishTx s length bytes).mem.wf = true := by
  have h' := wf_writeDesc s.params .tx _ s.txHead (publishedDesc (s.desc .tx s.txHead) length)
    (Memory.wf_writeBytes bytes s.mem (bufAddr s.params .tx s.txHead) h)
  rw [publishTx_frame]
  simpa only using h'

/-! ## RECLAIM_TX (R132) -/

theorem reclaimTxOne_frame (s : State) : reclaimTxOne s = { s with
    stats := { s.stats with
      txPackets := s.stats.txPackets + (if (s.desc .tx s.txTail).unf = false then 1 else 0)
      txUnderflow := s.stats.txUnderflow + (if (s.desc .tx s.txTail).unf = true then 1 else 0) }
    mem := writeDesc s.params .tx s.mem s.txTail (freedDesc (s.desc .tx s.txTail))
    txTail := (s.txTail + 1) % s.params.nTx } := by
  unfold reclaimTxOne Stats.countTxUnderflow Stats.countTxPacket nextIndex
  cases (s.desc .tx s.txTail).unf <;> simp

theorem reclaimTxOne_params (s : State) : (reclaimTxOne s).params = s.params := rfl
theorem reclaimTxOne_txTail (s : State) : (reclaimTxOne s).txTail = (s.txTail + 1) % s.params.nTx := rfl
theorem reclaimTxOne_mem (s : State) : (reclaimTxOne s).mem =
    writeDesc s.params .tx s.mem s.txTail (freedDesc (s.desc .tx s.txTail)) := rfl

/-- What `n` bounded iterations of the walk do, all at once. -/
structure TxReclaimed (s t : State) (n : Nat) : Prop where
  wf    : t.mem.wf = true
  slots : ∀ j < n, (s.desc .tx ((s.txTail + j) % s.params.nTx)).own = false ∧
    (s.desc .tx ((s.txTail + j) % s.params.nTx)).len ≠ 0
  state : t = { s with
    mem := t.mem, txTail := (s.txTail + n) % s.params.nTx
    stats := { s.stats with
      txPackets := s.stats.txPackets + countUnf s false n, txUnderflow := s.stats.txUnderflow + countUnf s true n } }
  freed : ∀ j < n, SlotHolds t .tx ((s.txTail + j) % s.params.nTx) (freedDesc (s.desc .tx ((s.txTail + j) % s.params.nTx)))
  other : ∀ a, (∀ j < n, Outside (descAddr s.params .tx ((s.txTail + j) % s.params.nTx)) 16 a) →
    t.mem.read a = s.mem.read a

/-- Slots of the walk at different steps below the capacity differ. -/
theorem slot_ne (N h a b : Nat) (ha : a < N) (hb : b < N) (hne : a ≠ b) : (h + a) % N ≠ (h + b) % N := by
  intro heq
  have h1 := Nat.sub_mod_eq_zero_of_mod_eq heq
  have h2 := Nat.sub_mod_eq_zero_of_mod_eq heq.symm
  rw [Nat.add_sub_add_left] at h1 h2
  rw [Nat.mod_eq_of_lt (by omega)] at h1 h2
  omega

theorem slot_shift (N h j : Nat) : ((h + 1) % N + j) % N = (h + (j + 1)) % N := by
  rw [Nat.mod_add_mod]
  congr 1
  omega

theorem countUnf_shift (s s1 : State) (u : Bool) (n : Nat) (hN : s1.params = s.params)
    (ht : s1.txTail = (s.txTail + 1) % s.params.nTx)
    (hd : ∀ j < n, s1.desc .tx ((s.txTail + (j + 1)) % s.params.nTx) = s.desc .tx ((s.txTail + (j + 1)) % s.params.nTx)) :
    countUnf s u (n + 1) =
      (if (s.desc .tx (s.txTail % s.params.nTx)).unf = u then 1 else 0) + countUnf s1 u n := by
  induction n with
  | zero => simp [countUnf]
  | succ n ih =>
    rw [countUnf, ih fun j hj => hd j (by omega), countUnf, ht, hN, slot_shift, hd n (by omega)]
    omega

theorem TxReclaimed.nil (s : State) (hw : s.mem.wf = true) (ht : s.txTail < s.params.nTx) : TxReclaimed s s 0 := by
  refine ⟨hw, fun j hj => by omega, ?_, fun j hj => by omega, fun a _ => rfl⟩
  simp only [countUnf, Nat.add_zero, Nat.mod_eq_of_lt ht]

/-- One completed slot, then `n` more. -/
theorem TxReclaimed.cons (s t : State) (n : Nat) (hp : paramsOk s.params = true) (hw : s.mem.wf = true)
    (ht : s.txTail < s.params.nTx) (hn : n + 1 ≤ s.params.nTx) (ho : (s.desc .tx s.txTail).own = false)
    (hl : (s.desc .tx s.txTail).len ≠ 0) (h : TxReclaimed (reclaimTxOne s) t n) : TxReclaimed s t (n + 1) := by
  obtain ⟨twf, tslots, tstate, tfreed, tother⟩ := h
  generalize hs1 : reclaimTxOne s = s1 at *
  rw [reclaimTxOne_frame] at hs1
  have e1 : s1.params = s.params := by rw [← hs1]
  have e2 : s1.txTail = (s.txTail + 1) % s.params.nTx := by rw [← hs1]
  have e3 : s1.mem = writeDesc s.params .tx s.mem s.txTail (freedDesc (s.desc .tx s.txTail)) := by rw [← hs1]
  have m0 : s.txTail % s.params.nTx = s.txTail := Nat.mod_eq_of_lt ht
  have hN := (paramsOk_sizes s.params hp).1
  have lt : ∀ j, (s.txTail + j) % s.params.nTx < s.params.nTx := fun j => Nat.mod_lt _ hN
  have far : ∀ j < n, descAddr s.params .tx ((s.txTail + (j + 1)) % s.params.nTx) + 16 ≤ descAddr s.params .tx s.txTail ∨
      descAddr s.params .tx s.txTail + 16 ≤ descAddr s.params .tx ((s.txTail + (j + 1)) % s.params.nTx) := by
    intro j hj
    have hne := slot_ne s.params.nTx s.txTail (j + 1) 0 (by omega) hN (by omega)
    simp only [Nat.add_zero, m0] at hne
    exact desc_desc_disjoint s.params .tx .tx _ _ hp (lt _) ht (.inr hne)
  have hd : ∀ j < n, s1.desc .tx ((s.txTail + (j + 1)) % s.params.nTx) =
      s.desc .tx ((s.txTail + (j + 1)) % s.params.nTx) := by
    intro j hj
    refine desc_congr s s1 .tx _ e1 fun x h1 h2 => ?_
    rw [e3]
    exact read_writeDesc_outside _ _ _ _ _ _ (by have := far j hj; omega)
  rw [e1, e2] at tslots tfreed tother
  simp only [slot_shift] at tslots tfreed tother
  refine ⟨twf, ?_, ?_, ?_, ?_⟩
  · intro j hj
    cases j with
    | zero => rw [Nat.add_zero, m0]; exact ⟨ho, hl⟩
    | succ j => rw [← hd j (by omega)]; exact tslots j (by omega)
  · have c := fun u => countUnf_shift s s1 u n e1 e2 hd
    rw [m0] at c
    rw [tstate, c, c, e1, e2, slot_shift, ← hs1]
    simp only [State.mk.injEq, true_and, and_true, Stats.mk.injEq]
    omega
  · intro j hj
    have tp : t.params = s.params := by rw [tstate, ← hs1]
    cases j with
    | zero =>
      rw [Nat.add_zero, m0]
      show t.mem.readBytes (_ + 16 * s.txTail) 16 = _
      rw [tp]
      rw [← readBytes_writeDesc s.params .tx s.mem s.txTail _ hw, ← e3]
      refine Memory.readBytes_congr _ _ _ _ fun x h1 h2 => tother x fun j hj => ?_
      have := far j hj
      change x < _ ∨ _ ≤ x
      simp only [descAddr] at this h1 h2 ⊢
      omega
    | succ j => rw [← hd j (by omega)]; exact tfreed j (by omega)
  · intro a ha
    rw [tother a fun j hj => ha (j + 1) (by omega), e3]
    have := ha 0 (by omega)
    rw [Nat.add_zero, m0] at this
    exact read_writeDesc_outside _ _ _ _ _ _ this

/-- The whole walk (R132, R137): how many it frees, why it stops there, and what it does. -/
theorem reclaimTxLoop_spec (n : Nat) (s : State) (hp : paramsOk s.params = true) (hw : s.mem.wf = true)
    (ht : s.txTail < s.params.nTx) (hn : n ≤ s.params.nTx) :
    TxReclaimed s (reclaimTxLoop n s).2 (reclaimTxLoop n s).1 ∧ (reclaimTxLoop n s).1 ≤ n ∧
      ((reclaimTxLoop n s).1 = n ∨
        (s.desc .tx ((s.txTail + (reclaimTxLoop n s).1) % s.params.nTx)).own = true ∨
        (s.desc .tx ((s.txTail + (reclaimTxLoop n s).1) % s.params.nTx)).len = 0) := by
  induction n generalizing s with
  | zero => exact ⟨.nil s hw ht, Nat.le_refl 0, .inl rfl⟩
  | succ n ih =>
    simp only [reclaimTxLoop]
    by_cases hs : reclaimStops s = true
    · rw [if_pos hs]
      refine ⟨.nil s hw ht, by omega, .inr ?_⟩
      simpa [reclaimStops, Nat.mod_eq_of_lt ht] using hs
    · rw [if_neg hs]
      have hs' : (s.desc .tx s.txTail).own = false ∧ (s.desc .tx s.txTail).len ≠ 0 := by
        simpa [reclaimStops] using hs
      have hN := (paramsOk_sizes s.params hp).1
      have e1 := reclaimTxOne_params s
      have e2 := reclaimTxOne_txTail s
      have e3 := reclaimTxOne_mem s
      have hframe := TxReclaimed.cons s (reclaimTxLoop n (reclaimTxOne s)).2 (reclaimTxLoop n (reclaimTxOne s)).1 hp hw ht
      generalize reclaimTxOne s = s1 at *
      have hw1 : s1.mem.wf = true := by rw [e3]; exact wf_writeDesc _ _ _ _ _ hw
      have ht1 : s1.txTail < s1.params.nTx := by rw [e1, e2]; exact Nat.mod_lt _ hN
      obtain ⟨a, b, c⟩ := ih s1 (by rw [e1]; exact hp) hw1 ht1 (by rw [e1]; omega)
      generalize reclaimTxLoop n s1 = r at *
      refine ⟨hframe (by omega) hs'.1 hs'.2 a, by omega, ?_⟩
      rw [e1, e2, slot_shift] at c
      obtain c | c := c
      · exact .inl (by omega)
      by_cases hend : r.1 + 1 = n + 1
      · exact .inl hend
      right
      have hne := slot_ne s.params.nTx s.txTail (r.1 + 1) 0 (by omega) hN (by omega)
      simp only [Nat.add_zero, Nat.mod_eq_of_lt ht] at hne
      have far := desc_desc_disjoint s.params .tx .tx ((s.txTail + (r.1 + 1)) % s.params.nTx) s.txTail hp
        (Nat.mod_lt _ hN) ht (.inr hne)
      have hd := desc_congr s s1 .tx ((s.txTail + (r.1 + 1)) % s.params.nTx) e1 fun x h1 h2 => by
        rw [e3]
        exact read_writeDesc_outside _ _ _ _ _ _ (by omega)
      rw [← hd]
      exact c

/-! ## RECLAIM_RX (R133 to R136) -/

theorem handoff_classify (s : State) (d : Desc) (b : List Byte) :
    handoff (s.setStats (classifyCounts d s.stats)) (classifyEntry d b) = { s with
      rxq := (consumeFrame s.params.rxqDepth d b s.rxq s.stats).1
      stats := (consumeFrame s.params.rxqDepth d b s.rxq s.stats).2 } := by
  unfold handoff classifyEntry consumeFrame classifyCounts State.setStats Stats.countRxPacket Stats.countRxDropped
  dsimp only
  generalize (decide (d.flen = 0) || d.crc || d.lerr || d.ovf) = bad
  cases bad <;> by_cases hq : s.rxq.length < s.params.rxqDepth <;> simp [hq]

/-- One iteration of the walk: the frame at the head counted and handed off, its descriptor re-armed. -/
theorem reclaimRxOne_frame (s : State) : reclaimRxOne s = { s with
    rxq := (consumeFrame s.params.rxqDepth (s.desc .rx s.rxHead)
      (s.bufBytes .rx s.rxHead (s.desc .rx s.rxHead).flen.toNat) s.rxq s.stats).1
    stats := (consumeFrame s.params.rxqDepth (s.desc .rx s.rxHead)
      (s.bufBytes .rx s.rxHead (s.desc .rx s.rxHead).flen.toNat) s.rxq s.stats).2
    mem := writeDesc s.params .rx s.mem s.rxHead (rearmedDesc s.params (s.desc .rx s.rxHead))
    rxHead := (s.rxHead + 1) % s.params.nRx } := by
  simp only [reclaimRxOne, handoff_classify]
  rfl

/-- What `n` iterations of the walk do, all at once. -/
structure RxConsumed (s t : State) (n : Nat) : Prop where
  wf    : t.mem.wf = true
  slots : ∀ j < n, (s.desc .rx ((s.rxHead + j) % s.params.nRx)).own = false
  state : t = { s with
    mem := t.mem, rxHead := (s.rxHead + n) % s.params.nRx, rxq := (consumeSlots s n).1, stats := (consumeSlots s n).2 }
  armed : ∀ j < n, SlotHolds t .rx ((s.rxHead + j) % s.params.nRx)
    (rearmedDesc s.params (s.desc .rx ((s.rxHead + j) % s.params.nRx)))
  other : ∀ a, (∀ j < n, Outside (descAddr s.params .rx ((s.rxHead + j) % s.params.nRx)) 16 a) →
    t.mem.read a = s.mem.read a

theorem RxConsumed.nil (s : State) (hw : s.mem.wf = true) (ht : s.rxHead < s.params.nRx) : RxConsumed s s 0 := by
  refine ⟨hw, fun j hj => by omega, ?_, fun j hj => by omega, fun a _ => rfl⟩
  simp only [consumeSlots, Nat.add_zero, Nat.mod_eq_of_lt ht]

/-- Consuming the first slot and then `n` from the next is consuming `n + 1`. -/
theorem consumeSlots_shift (s s1 : State) (n : Nat) (hN : s1.params = s.params)
    (ht : s1.rxHead = (s.rxHead + 1) % s.params.nRx)
    (h1 : (s1.rxq, s1.stats) = consumeSlots s 1)
    (hd : ∀ j < n, s1.desc .rx ((s.rxHead + (j + 1)) % s.params.nRx) = s.desc .rx ((s.rxHead + (j + 1)) % s.params.nRx))
    (hb : ∀ j < n, ∀ l ≤ s.params.bufSize, s1.bufBytes .rx ((s.rxHead + (j + 1)) % s.params.nRx) l =
      s.bufBytes .rx ((s.rxHead + (j + 1)) % s.params.nRx) l)
    (hl : ∀ i < s.params.nRx, (s.desc .rx i).flen.toNat ≤ s.params.bufSize) (hN0 : 0 < s.params.nRx) :
    consumeSlots s (n + 1) = consumeSlots s1 n := by
  induction n with
  | zero => exact h1.symm
  | succ n ih =>
    rw [consumeSlots, ih (fun j hj => hd j (by omega)) fun j hj => hb j (by omega)]
    simp only [consumeSlots, hN, ht, slot_shift, hd n (by omega)]
    rw [hb n (by omega) _ (hl _ (Nat.mod_lt _ hN0))]

/-- A buffer does not change when a descriptor is written. -/
theorem bufBytes_of_writeDesc (s s1 : State) (k k' : RingKind) (i j l : Nat) (d : Desc) (hp : paramsOk s.params = true)
    (e1 : s1.params = s.params) (e3 : s1.mem = writeDesc s.params k s.mem i d) (hi : i < ringSize s.params k)
    (hj : j < ringSize s.params k') (hl : l ≤ s.params.bufSize) : s1.bufBytes k' j l = s.bufBytes k' j l := by
  have := desc_buf_disjoint s.params k k' i j hp hi hj
  unfold State.bufBytes
  rw [e1, e3]
  exact readBytes_writeDesc_other _ _ _ _ _ _ _ (by omega)

/-- One completed slot, then `n` more. -/
theorem RxConsumed.cons (s t s1 : State) (n : Nat) (hs1 : reclaimRxOne s = s1) (hp : paramsOk s.params = true)
    (hw : s.mem.wf = true) (ht : s.rxHead < s.params.nRx) (hn : n + 1 ≤ s.params.nRx)
    (hl : ∀ i < s.params.nRx, (s.desc .rx i).flen.toNat ≤ s.params.bufSize)
    (ho : (s.desc .rx s.rxHead).own = false) (h : RxConsumed s1 t n) : RxConsumed s t (n + 1) := by
  obtain ⟨twf, tslots, tstate, tarmed, tother⟩ := h
  rw [reclaimRxOne_frame] at hs1
  have e1 : s1.params = s.params := by rw [← hs1]
  have e2 : s1.rxHead = (s.rxHead + 1) % s.params.nRx := by rw [← hs1]
  have e3 : s1.mem = writeDesc s.params .rx s.mem s.rxHead (rearmedDesc s.params (s.desc .rx s.rxHead)) := by rw [← hs1]
  have m0 : s.rxHead % s.params.nRx = s.rxHead := Nat.mod_eq_of_lt ht
  have hN := (paramsOk_sizes s.params hp).2.2.1
  have lt : ∀ j, (s.rxHead + j) % s.params.nRx < s.params.nRx := fun j => Nat.mod_lt _ hN
  have far : ∀ j < n, descAddr s.params .rx ((s.rxHead + (j + 1)) % s.params.nRx) + 16 ≤ descAddr s.params .rx s.rxHead ∨
      descAddr s.params .rx s.rxHead + 16 ≤ descAddr s.params .rx ((s.rxHead + (j + 1)) % s.params.nRx) := by
    intro j hj
    have hne := slot_ne s.params.nRx s.rxHead (j + 1) 0 (by omega) hN (by omega)
    simp only [Nat.add_zero, m0] at hne
    exact desc_desc_disjoint s.params .rx .rx _ _ hp (lt _) ht (.inr hne)
  have hd : ∀ j < n, s1.desc .rx ((s.rxHead + (j + 1)) % s.params.nRx) =
      s.desc .rx ((s.rxHead + (j + 1)) % s.params.nRx) := by
    intro j hj
    refine desc_congr s s1 .rx _ e1 fun x h1 h2 => ?_
    rw [e3]
    exact read_writeDesc_outside _ _ _ _ _ _ (by have := far j hj; omega)
  have hc : consumeSlots s (n + 1) = consumeSlots s1 n := by
    refine consumeSlots_shift s s1 n e1 e2 ?_ hd (fun j _ l hl => ?_) hl hN
    · rw [← hs1]; simp only [consumeSlots, Nat.add_zero, m0]
    · exact bufBytes_of_writeDesc s s1 .rx .rx s.rxHead _ l _ hp e1 e3 ht (lt _) hl
  rw [e1, e2] at tslots tarmed tother
  simp only [slot_shift] at tslots tarmed tother
  refine ⟨twf, ?_, ?_, ?_, ?_⟩
  · intro j hj
    cases j with
    | zero => rw [Nat.add_zero, m0]; exact ho
    | succ j => rw [← hd j (by omega)]; exact tslots j (by omega)
  · rw [hc, tstate, e1, e2, slot_shift, ← hs1]
  · intro j hj
    have tp : t.params = s.params := by rw [tstate, ← hs1]
    cases j with
    | zero =>
      rw [Nat.add_zero, m0]
      show t.mem.readBytes (_ + 16 * s.rxHead) 16 = _
      rw [tp]
      rw [← readBytes_writeDesc s.params .rx s.mem s.rxHead _ hw, ← e3]
      refine Memory.readBytes_congr _ _ _ _ fun x h1 h2 => tother x fun j hj => ?_
      have := far j hj
      change x < _ ∨ _ ≤ x
      simp only [descAddr] at this h1 h2 ⊢
      omega
    | succ j => rw [← hd j (by omega)]; exact tarmed j (by omega)
  · intro a ha
    rw [tother a fun j hj => ha (j + 1) (by omega), e3]
    have := ha 0 (by omega)
    rw [Nat.add_zero, m0] at this
    exact read_writeDesc_outside _ _ _ _ _ _ this

theorem reclaimRxOne_params (s : State) : (reclaimRxOne s).params = s.params := by rw [reclaimRxOne_frame]
theorem reclaimRxOne_rxHead (s : State) : (reclaimRxOne s).rxHead = (s.rxHead + 1) % s.params.nRx := by
  rw [reclaimRxOne_frame]
theorem reclaimRxOne_mem (s : State) : (reclaimRxOne s).mem =
    writeDesc s.params .rx s.mem s.rxHead (rearmedDesc s.params (s.desc .rx s.rxHead)) := by rw [reclaimRxOne_frame]

theorem rearmedDesc_fits (p : Params) (d : Desc) (h : d.fits .rx) : (rearmedDesc p d).fits .rx := h
theorem freedDesc_fits (d : Desc) (h : d.fits .tx) : (freedDesc d).fits .tx := h

theorem wf_reclaimTxOne (s : State) (h : s.mem.wf = true) : (reclaimTxOne s).mem.wf = true := by
  rw [reclaimTxOne_mem]; exact wf_writeDesc _ _ _ _ _ h

theorem wf_reclaimRxOne (s : State) (h : s.mem.wf = true) : (reclaimRxOne s).mem.wf = true := by
  rw [reclaimRxOne_mem]; exact wf_writeDesc _ _ _ _ _ h

/-- The whole walk (R133, R137): how many it consumes, why it stops there, and what it does. -/
theorem reclaimRxLoop_spec (n : Nat) (s : State) (hp : paramsOk s.params = true) (hw : s.mem.wf = true)
    (ht : s.rxHead < s.params.nRx) (hl : ∀ i < s.params.nRx, (s.desc .rx i).flen.toNat ≤ s.params.bufSize)
    (hn : n ≤ s.params.nRx) :
    RxConsumed s (reclaimRxLoop n s).2 (reclaimRxLoop n s).1 ∧ (reclaimRxLoop n s).1 ≤ n ∧
      ((reclaimRxLoop n s).1 = n ∨
        (s.desc .rx ((s.rxHead + (reclaimRxLoop n s).1) % s.params.nRx)).own = true) := by
  induction n generalizing s with
  | zero => exact ⟨.nil s hw ht, Nat.le_refl 0, .inl rfl⟩
  | succ n ih =>
    simp only [reclaimRxLoop]
    by_cases hs : (s.desc .rx s.rxHead).own = true
    · rw [if_pos hs]
      exact ⟨.nil s hw ht, by omega, .inr (by simpa [Nat.mod_eq_of_lt ht] using hs)⟩
    · rw [if_neg hs]
      have hN := (paramsOk_sizes s.params hp).2.2.1
      have e1 := reclaimRxOne_params s
      have e2 := reclaimRxOne_rxHead s
      have e3 := reclaimRxOne_mem s
      have hframe := RxConsumed.cons s (reclaimRxLoop n (reclaimRxOne s)).2 _ (reclaimRxLoop n (reclaimRxOne s)).1 rfl
        hp hw ht
      generalize reclaimRxOne s = s1 at *
      have hw1 : s1.mem.wf = true := by rw [e3]; exact wf_writeDesc _ _ _ _ _ hw
      have ht1 : s1.rxHead < s1.params.nRx := by rw [e1, e2]; exact Nat.mod_lt _ hN
      have hl1 : ∀ i < s1.params.nRx, (s1.desc .rx i).flen.toNat ≤ s1.params.bufSize := by
        intro i hi
        rw [e1] at hi ⊢
        by_cases h : i = s.rxHead
        · subst h
          have : s1.desc .rx s.rxHead = rearmedDesc s.params (s.desc .rx s.rxHead) := by
            unfold State.desc
            rw [e1, e3]
            exact readDesc_writeDesc_same _ _ _ _ _ hw (rearmedDesc_fits _ _ (readDesc_fits _ _ _ _))
          rw [this]
          exact Nat.zero_le _
        · have far := desc_desc_disjoint s.params .rx .rx i s.rxHead hp hi ht (.inr h)
          rw [desc_congr s s1 .rx i e1 fun x h1 h2 => by
            rw [e3]; exact read_writeDesc_outside _ _ _ _ _ _ (by omega)]
          exact hl i hi
      obtain ⟨a, b, c⟩ := ih s1 (by rw [e1]; exact hp) hw1 ht1 hl1 (by rw [e1]; omega)
      generalize reclaimRxLoop n s1 = r at *
      refine ⟨hframe (by omega) hl (by simpa using hs) a, by omega, ?_⟩
      rw [e1, e2, slot_shift] at c
      obtain c | c := c
      · exact .inl (by omega)
      by_cases hend : r.1 + 1 = n + 1
      · exact .inl hend
      right
      have hne := slot_ne s.params.nRx s.rxHead (r.1 + 1) 0 (by omega) hN (by omega)
      simp only [Nat.add_zero, Nat.mod_eq_of_lt ht] at hne
      have far := desc_desc_disjoint s.params .rx .rx ((s.rxHead + (r.1 + 1)) % s.params.nRx) s.rxHead hp
        (Nat.mod_lt _ hN) ht (.inr hne)
      have hd := desc_congr s s1 .rx ((s.rxHead + (r.1 + 1)) % s.params.nRx) e1 fun x h1 h2 => by
        rw [e3]
        exact read_writeDesc_outside _ _ _ _ _ _ (by omega)
      rw [← hd]
      exact c

end Sys2Proof.Machine
end

