-- ==== Sys2Proof/Laws/Facade.lean ====
section
/-! SUPPORT. What START does to the hand-off FIFO (spec/44_facade.md R232, log 20). -/

namespace Sys2Proof.Machine

@[simp] theorem mdioWrite_rxq (s : State) (reg : BitVec 5) (v : Half) : (mdioWrite s reg v).rxq = s.rxq := by
  obtain ⟨a, d, y, h⟩ := mdioWrite_frame s reg v
  rw [h]

@[simp] theorem mdioRead_rxq (s : State) (reg : BitVec 5) : (mdioRead s reg).2.rxq = s.rxq := by
  obtain ⟨a, d, q, n, h⟩ := mdioRead_frame s reg
  rw [h]

@[simp] theorem startNegotiation_rxq (s : State) (adv : BitVec 6) : (startNegotiation s adv).rxq = s.rxq := by
  unfold startNegotiation
  dsimp only
  split <;> simp only [mdioWrite_rxq]

@[simp] theorem forceLink_rxq (s : State) (m : LinkMode) : (forceLink s m).rxq = s.rxq := by
  simp only [forceLink, mdioRead_rxq, mdioWrite_rxq]

/-- Choosing the path of `start()` leaves the queue alone. -/
@[simp] theorem beginLink_rxq (s : State) : (beginLink s).rxq = s.rxq := by
  unfold beginLink
  split
  · exact startNegotiation_rxq _ _
  · exact forceLink_rxq _ _

/-- START_BEGIN leaves the queue as its init_ring(RX) does, empty: nothing after it puts an entry in. -/
theorem startBegin_rxq (s : State) : (startBegin s).rxq = [] := by
  simp only [startBegin, beginLink_rxq, writeMacAddr, programBases, writeReg_rxq, initRings, initRing]

end Sys2Proof.Machine
end

