-- ==== Sys2Proof/Laws/Fetch.lean ====
section
/-! SUPPORT. The laws of the host port (spec/30_encoding.md R116): what it makes of a packet given as a word and a payload. -/

namespace Sys2Proof.Machine

/-- A packet the decoder reads as a command, or whose word is illegal by its encoding, is that on every MAC. -/
theorem hostPacket_of_decodeHost (gigabit : Bool) (bytes : List Byte) (h : decodeHost bytes ≠ .malformed) :
    hostPacket gigabit bytes = decodeHost bytes := by
  unfold hostPacket
  cases hd : decodeHost bytes with
  | command i => rfl
  | illegal => rfl
  | malformed => exact absurd hd h

/-- A command decoded from a packet is the command the host port takes. -/
theorem hostPacket_of_decode (gigabit : Bool) (w : Word) (p : List Byte) (i : Instr) (hop : hostOp (opField w) = true)
    (h : decodeWord w p = .ok i) : hostPacket gigabit (wordBytes w ++ p) = .command i := by
  have hd : decodeHost (wordBytes w ++ p) = .command i := by rw [decodeHost_wordBytes, if_pos hop, h]; rfl
  rw [hostPacket_of_decodeHost gigabit _ (by rw [hd]; simp), hd]

/-- Whether a word forces the speed 1000 does not depend on the payload. -/
theorem forcesGigabit_wordBytes (w : Word) (p : List Byte) :
    forcesGigabit (wordBytes w ++ p) =
      (decide (w = instrWord (.setModeForced .s1000 .half)) || decide (w = instrWord (.setModeForced .s1000 .full))) := by
  unfold wordBytes forcesGigabit
  simp only [List.cons_append, List.nil_append, bytesWord_bytes]

/-- On a MAC without gigabit a word that forces the speed 1000, followed by bytes R118 does not give it, is illegal. -/
theorem hostPacket_gigabit_stray (w : Word) (p : List Byte) (hw : forcesGigabit (wordBytes w ++ p) = true)
    (h : decodeHost (wordBytes w ++ p) = .malformed) : hostPacket false (wordBytes w ++ p) = .illegal := by
  unfold hostPacket
  rw [h]
  simp only [hw, Bool.not_false, Bool.and_true, if_true]

end Sys2Proof.Machine
end

