-- ==== Sys2Proof/Laws/Link.lean ====
section
/-! SUPPORT. The laws of the link sequencer (spec/41_link_sequencer.md): a management cycle in closed form (R160, R161), the
draws of the PHY agent (R270), the sets of modes (R165 to R167), MAC_CFG as it is held (R169). -/

namespace Sys2Proof.Machine

open Sys2Proof.Safety

/-! ## Management cycles -/

theorem miiAddrWrite_clearBusy (old v : Word) :
    miiAddrWrite old v &&& 0x0000FFC2 = v &&& 0x0000FFC2 := by
  apply BitVec.eq_of_getLsbD_eq
  intro i hi
  have hm : (0x0000FFC2 : Word).getLsbD i = true → (1 : Word).getLsbD i = false := by revert i; decide
  simp only [miiAddrWrite, BitVec.getLsbD_and, BitVec.getLsbD_or]
  cases h : (0x0000FFC2 : Word).getLsbD i
  · simp
  · rw [hm h]; simp

theorem miiCommand_read (pa reg : BitVec 5) :
    miiCommand pa reg false &&& 0x0000FFC2 = BitVec.ofNat 32 (pa.toNat * 2048 + reg.toNat * 64) := by
  revert pa reg; decide

theorem miiCommand_write (pa reg : BitVec 5) :
    miiCommand pa reg true &&& 0x0000FFC2 = BitVec.ofNat 32 (pa.toNat * 2048 + reg.toNat * 64 + 2) := by
  revert pa reg; decide

theorem setWidth_and_low16 (v : Half) : v.setWidth 32 &&& low16Mask = BitVec.ofNat 32 v.toNat := by
  apply BitVec.eq_of_toNat_eq
  have := v.isLt
  simp only [low16Mask, BitVec.toNat_and, BitVec.toNat_setWidth, BitVec.toNat_ofNat]
  rw [show (65535 : Word).toNat = 2 ^ 16 - 1 from rfl, Nat.and_two_pow_sub_one_eq_mod]
  omega

/-- The value a draw gives, and what drawing changes (R270, log 10). -/
theorem drawPhy_eq (s : State) : drawPhy s = (answer s 0, afterDraws s 1) := by
  obtain ⟨v, rest, h, g⟩ | ⟨h, g⟩ := drawPhy_cases s
  · rw [g]; simp [answer, afterDraws, h]
  · rw [g]; simp [answer, afterDraws, h]

/-- A read cycle of a register the PHY keeps. -/
theorem mdioRead_kept (s : State) (reg : BitVec 5) (v : Half) (h : ∀ t : State, t.phy = s.phy → phyRegister t reg = (v, t)) :
    mdioRead s reg = (v, { s with regs := readCycle s reg.toNat v }) := by
  unfold mdioRead
  rw [h _ (by simp)]
  simp only [clearBusy, writeReg, State.setRegs, readCycle, miiAddrWrite_clearBusy, miiCommand_read, setWidth_and_low16]

/-- A read cycle of a register the PHY answers with a draw. -/
theorem mdioRead_drawn (s : State) (reg : BitVec 5) (h0 : reg ≠ 0) (h4 : reg ≠ 4) (h9 : reg ≠ 9) :
    mdioRead s reg = (answer s 0, { afterDraws s 1 with regs := readCycle s reg.toNat (answer s 0) }) := by
  unfold mdioRead phyRegister
  rw [if_neg h0, if_neg h4, if_neg h9, drawPhy_eq]
  simp only [answer, afterDraws, clearBusy, writeReg, State.setRegs, readCycle, miiAddrWrite_clearBusy, miiCommand_read,
    setWidth_and_low16]

theorem mdioRead_anar (s : State) : mdioRead s 4 = (s.phy.anar, { s with regs := readCycle s 4 s.phy.anar }) :=
  mdioRead_kept s 4 s.phy.anar fun t h => by simp [phyRegister, h]

theorem mdioRead_gtcr (s : State) : mdioRead s 9 = (s.phy.gtcr, { s with regs := readCycle s 9 s.phy.gtcr }) :=
  mdioRead_kept s 9 s.phy.gtcr fun t h => by simp [phyRegister, h]

/-- A write cycle (R161). -/
theorem mdioWrite_eq (s : State) (reg : BitVec 5) (v : Half) :
    mdioWrite s reg v = { phyStore s reg v with regs := writeCycle s reg.toNat v } := by
  have hs : ∀ t : State, t.phy = s.phy → (phyStore t reg v) = { t with phy := (phyStore s reg v).phy } := by
    intro t h
    unfold phyStore
    split
    · simp [h]
    split
    · simp [h]
    split
    · simp [h]
    · rw [← h]
  have hr : phyStore s reg v = { s with phy := (phyStore s reg v).phy } := hs s rfl
  unfold mdioWrite
  rw [hs _ (by simp), hr]
  simp only [clearBusy, writeReg, State.setRegs, writeCycle, miiAddrWrite_clearBusy, miiCommand_write, setWidth_and_low16]

/-- Drawing in two rounds is drawing once. -/
theorem afterDraws_afterDraws (s : State) (a b : Nat) : afterDraws (afterDraws s a) b = afterDraws s (a + b) := by
  simp only [afterDraws, List.drop_drop, List.length_drop]
  congr 1
  omega

theorem answer_afterDraws (s : State) (a n : Nat) : answer (afterDraws s a) n = answer s (a + n) := by
  simp only [answer, afterDraws, List.getElem?_drop, List.length_drop]
  cases h : s.phyIn[a + n]? with
  | some v => rfl
  | none =>
    have := List.getElem?_eq_none_iff.mp h
    simp only
    congr 1
    omega

/-- A draw depends on the input and the counter only. -/
theorem answer_congr (s t : State) (n : Nat) (h1 : t.phyIn = s.phyIn) (h2 : t.drawCtr = s.drawCtr) :
    answer t n = answer s n := by simp [answer, h1, h2]

/-! ## Modes -/

theorem modeRank_eq (m : LinkMode) : modeRank m = modeIndex m := by
  obtain ⟨s, d⟩ := m
  cases s <;> cases d <;> rfl

theorem modeBit_eq (m : LinkMode) : modeBit m = 1 <<< modeRank m := by rw [modeRank_eq]; rfl

/-- `highest` gives the preferred mode of a mask that is not 0 (R16, R167). -/
theorem highestMode_preferred (mask : BitVec 6) (h : mask ≠ 0) :
    Preferred (fun m => mask.getLsbD (modeRank m) = true) (highestMode mask) := by
  constructor
  · show mask.getLsbD (modeRank (highestMode mask)) = true
    rw [modeRank_eq]
    exact highestMode_mem mask h
  · intro m hm
    simp only [highestMode]
    obtain ⟨s, d⟩ := m
    cases s <;> cases d <;> simp only [modeRank] at hm ⊢ <;> split_ifs <;> simp_all

theorem fallbackMode_spec (knownGood : BitVec 6) : Fallback knownGood (fallbackMode knownGood) := by
  unfold fallbackMode
  constructor
  · intro h; rw [if_pos h]; exact highestMode_preferred _ h
  · intro h; rw [if_neg (by simpa using h)]

/-- A bit of the common mask is a mode both sides share (R166). -/
theorem commonModes_getLsbD (giga : Bool) (la lp es gc gs : Half) (m : LinkMode) :
    (commonModes giga la lp es gc gs).getLsbD (modeRank m) = true ↔ Shared giga la lp es gc gs m := by
  obtain ⟨s, d⟩ := m
  cases s <;> cases d <;> simp only [commonModes, modeRank, Shared, bit1, BitVec.getLsbD_append, BitVec.getLsbD_ofBool] <;>
    simp [and_assoc]

theorem commonModes_ne_zero (giga : Bool) (la lp es gc gs : Half) :
    commonModes giga la lp es gc gs ≠ 0 ↔ ∃ m, Shared giga la lp es gc gs m := by
  constructor
  · intro h
    exact ⟨_, (commonModes_getLsbD giga la lp es gc gs _).mp (highestMode_preferred _ h).1⟩
  · rintro ⟨m, hm⟩ h
    rw [← commonModes_getLsbD, h] at hm
    simp at hm

/-! ## MAC_CFG (R169, R41) -/

/-- What MAC_CFG holds after a `mac_cfg` word is written. -/
theorem macCfgWrite_macCfgWord (p : Params) (speed : Speed) (duplex : Duplex) (en : Bool) :
    macCfgWrite p.macGigabit (macCfgWord speed duplex en) = macCfgFor p speed duplex en := by
  unfold macCfgFor
  cases p.macGigabit <;> cases speed <;> cases duplex <;> cases en <;> decide

theorem writeMacCfg_eq (s : State) (en : Bool) :
    writeMacCfg s en = s.setRegs { s.regs with macCfg := macCfgFor s.params s.link.speed s.link.duplex en } := by
  simp only [writeMacCfg, writeReg, macCfgWrite_macCfgWord]

/-- A concatenation as a number. -/
theorem toNat_append_eq {n m : Nat} (a : BitVec n) (b : BitVec m) : (a ++ b).toNat = a.toNat * 2 ^ m + b.toNat := by
  rw [BitVec.toNat_append, ← Nat.shiftLeft_add_eq_or_of_lt b.isLt, Nat.shiftLeft_eq]

/-- The two MAC address words (R44). -/
theorem macHi_eq (m : MacAddr) : macHi m = BitVec.ofNat 32 (m.b5.toNat * 256 + m.b4.toNat) := by
  apply BitVec.eq_of_toNat_eq
  have := m.b4.isLt
  have := m.b5.isLt
  simp only [macHi, toNat_append_eq, BitVec.toNat_ofNat, show (0 : BitVec 16).toNat = 0 from rfl]
  omega

theorem macLo_eq (m : MacAddr) : macLo m = BitVec.ofNat 32
    (m.b3.toNat * 16777216 + m.b2.toNat * 65536 + m.b1.toNat * 256 + m.b0.toNat) := by
  apply BitVec.eq_of_toNat_eq
  have := m.b0.isLt
  have := m.b1.isLt
  have := m.b2.isLt
  have := m.b3.isLt
  simp only [macLo, toNat_append_eq, BitVec.toNat_ofNat]
  omega

end Sys2Proof.Machine
end

