-- ==== Sys2Proof/Laws/PerInstr.lean ====
section
/-! SUPPORT. Facts about every operation as syntax, one lemma per constructor: the packet of a well-formed operation has the
shape spec/30_encoding.md R111 and R118 give it. -/

namespace Sys2Proof.Laws.PacketShape

open Sys2Proof.Machine

/-- The reserved bits of the command word are 0 (R111), and a well-formed operation carries exactly the payload its word calls
for (R118; log 9 for the draws). -/
def Statement (i : Instr) : Prop :=
  reservedField (instrWord i) = 0 ∧ (i.wellFormed = true → (instrPayload i).length = payloadLength (instrWord i))

/-- A packet without payload. -/
theorem plain (i : Instr) (op : BitVec 8) (sub : BitVec 4) (imm : Half) (hw : instrWord i = commandWord op sub imm)
    (hp : instrPayload i = []) (h4 : op ≠ 0x04) (h8 : op ≠ 0x08) (h21 : op ≠ 0x21) (h25 : op ≠ 0x25) (h40 : op ≠ 0x40)
    (h41 : op ≠ 0x41) : Statement i := by
  refine ⟨by simp [hw], fun _ => ?_⟩
  unfold payloadLength
  rw [hw, hp, opField_commandWord, if_neg h4, if_neg h8, if_neg h21, if_neg h25, if_neg h40, if_neg h41]
  rfl

theorem attach : Statement .attach :=
  plain _ _ _ _ rfl rfl (by decide) (by decide) (by decide) (by decide) (by decide) (by decide)

theorem start : Statement .start :=
  plain _ _ _ _ rfl rfl (by decide) (by decide) (by decide) (by decide) (by decide) (by decide)

theorem stop : Statement .stop :=
  plain _ _ _ _ rfl rfl (by decide) (by decide) (by decide) (by decide) (by decide) (by decide)

theorem send (len : Half) (bytes : List Byte) : Statement (.send len bytes) := by
  refine ⟨by simp [instrWord], fun h => ?_⟩
  simp only [Instr.wellFormed, beq_iff_eq] at h
  simp [instrWord, instrPayload, payloadLength, h]

theorem receive (cap : Half) : Statement (.receive cap) :=
  plain _ _ _ _ rfl rfl (by decide) (by decide) (by decide) (by decide) (by decide) (by decide)

theorem getLinkState : Statement .getLinkState :=
  plain _ _ _ _ rfl rfl (by decide) (by decide) (by decide) (by decide) (by decide) (by decide)

theorem getStats : Statement .getStats :=
  plain _ _ _ _ rfl rfl (by decide) (by decide) (by decide) (by decide) (by decide) (by decide)

theorem setMacAddress (mac : MacAddr) : Statement (.setMacAddress mac) :=
  ⟨by simp [instrWord], fun _ => by simp [instrWord, instrPayload, payloadLength]⟩

theorem setModeAuto : Statement .setModeAuto :=
  plain _ _ _ _ rfl rfl (by decide) (by decide) (by decide) (by decide) (by decide) (by decide)

theorem setModeForced (speed : Speed) (duplex : Duplex) : Statement (.setModeForced speed duplex) :=
  plain _ _ _ _ rfl rfl (by decide) (by decide) (by decide) (by decide) (by decide) (by decide)

theorem watchdog : Statement .watchdog :=
  plain _ _ _ _ rfl rfl (by decide) (by decide) (by decide) (by decide) (by decide) (by decide)

theorem initRing (kind : RingKind) : Statement (.initRing kind) := by
  cases kind <;> exact plain _ _ _ _ rfl rfl (by decide) (by decide) (by decide) (by decide) (by decide) (by decide)

theorem enqueueTx (len : Half) (bytes : List Byte) : Statement (.enqueueTx len bytes) := by
  refine ⟨by simp [instrWord], fun h => ?_⟩
  simp only [Instr.wellFormed, beq_iff_eq] at h
  simp [instrWord, instrPayload, payloadLength, h]

theorem reclaimTx : Statement .reclaimTx :=
  plain _ _ _ _ rfl rfl (by decide) (by decide) (by decide) (by decide) (by decide) (by decide)

theorem reclaimRx (maxCount : Half) : Statement (.reclaimRx maxCount) :=
  plain _ _ _ _ rfl rfl (by decide) (by decide) (by decide) (by decide) (by decide) (by decide)

theorem mdioRead (reg : BitVec 5) : Statement (.mdioRead reg) :=
  plain _ _ _ _ rfl rfl (by decide) (by decide) (by decide) (by decide) (by decide) (by decide)

theorem mdioWrite (reg : BitVec 5) (value : Half) : Statement (.mdioWrite reg value) :=
  ⟨by simp [instrWord], fun _ => by simp [instrWord, instrPayload, payloadLength]⟩

theorem startNegotiation (adv : BitVec 6) : Statement (.startNegotiation adv) :=
  plain _ _ _ _ rfl rfl (by decide) (by decide) (by decide) (by decide) (by decide) (by decide)

theorem negPoll : Statement .negPoll :=
  plain _ _ _ _ rfl rfl (by decide) (by decide) (by decide) (by decide) (by decide) (by decide)

theorem forceLink (speed : Speed) (duplex : Duplex) : Statement (.forceLink speed duplex) :=
  plain _ _ _ _ rfl rfl (by decide) (by decide) (by decide) (by decide) (by decide) (by decide)

theorem resolveLinkMode : Statement .resolveLinkMode :=
  plain _ _ _ _ rfl rfl (by decide) (by decide) (by decide) (by decide) (by decide) (by decide)

theorem reconfigureMac (speed : Speed) (duplex : Duplex) : Statement (.reconfigureMac speed duplex) :=
  plain _ _ _ _ rfl rfl (by decide) (by decide) (by decide) (by decide) (by decide) (by decide)

theorem isr : Statement .isr :=
  plain _ _ _ _ rfl rfl (by decide) (by decide) (by decide) (by decide) (by decide) (by decide)

theorem linkChangeService : Statement .linkChangeService :=
  plain _ _ _ _ rfl rfl (by decide) (by decide) (by decide) (by decide) (by decide) (by decide)

theorem handleFatalError : Statement .handleFatalError :=
  plain _ _ _ _ rfl rfl (by decide) (by decide) (by decide) (by decide) (by decide) (by decide)

theorem recStepStopping : Statement .recStepStopping :=
  plain _ _ _ _ rfl rfl (by decide) (by decide) (by decide) (by decide) (by decide) (by decide)

theorem recStepReinit : Statement .recStepReinit :=
  plain _ _ _ _ rfl rfl (by decide) (by decide) (by decide) (by decide) (by decide) (by decide)

theorem recStepReapply : Statement .recStepReapply :=
  plain _ _ _ _ rfl rfl (by decide) (by decide) (by decide) (by decide) (by decide) (by decide)

theorem recStepRestart : Statement .recStepRestart :=
  plain _ _ _ _ rfl rfl (by decide) (by decide) (by decide) (by decide) (by decide) (by decide)

theorem handleRxStopped : Statement .handleRxStopped :=
  plain _ _ _ _ rfl rfl (by decide) (by decide) (by decide) (by decide) (by decide) (by decide)

theorem handleTxStopped : Statement .handleTxStopped :=
  plain _ _ _ _ rfl rfl (by decide) (by decide) (by decide) (by decide) (by decide) (by decide)

theorem startFin : Statement .startFin :=
  plain _ _ _ _ rfl rfl (by decide) (by decide) (by decide) (by decide) (by decide) (by decide)

theorem stopEnd : Statement .stopEnd :=
  plain _ _ _ _ rfl rfl (by decide) (by decide) (by decide) (by decide) (by decide) (by decide)

theorem txdmaStep (underflow : Bool) : Statement (.txdmaStep underflow) :=
  ⟨by simp [instrWord], fun _ => by simp [instrWord, instrPayload, payloadLength]⟩

theorem rxdmaFrame (len : Half) (bytes : List Byte) (crc lerr ovf : Bool) : Statement (.rxdmaFrame len bytes crc lerr ovf) := by
  refine ⟨by simp [instrWord], fun h => ?_⟩
  simp only [Instr.wellFormed, beq_iff_eq] at h
  simp [instrWord, instrPayload, payloadLength, h]

theorem busError : Statement .busError :=
  plain _ _ _ _ rfl rfl (by decide) (by decide) (by decide) (by decide) (by decide) (by decide)

theorem phyLinkEvent : Statement .phyLinkEvent :=
  plain _ _ _ _ rfl rfl (by decide) (by decide) (by decide) (by decide) (by decide) (by decide)

end Sys2Proof.Laws.PacketShape
end

