-- ==== Sys2Proof/Laws/Recovery.lean ====
section
/-! SUPPORT. The laws of the register sequences that several operations share (spec/41_link_sequencer.md R170,
spec/43_recovery.md R211 to R217, spec/44_facade.md R232, R233), and of the DMA engines' steps (spec/45_dma_engines.md). -/

namespace Sys2Proof.Machine

open Sys2Proof.Safety

/-- A 16-byte aligned base keeps all its bits in a base register (R46, R75). -/
theorem and_baseMask_of_aligned (w : Word) (h : w.toNat % 16 = 0) : w &&& baseMask = w := by
  have h0 : w.extractLsb' 0 4 = 0 := by
    apply BitVec.eq_of_toNat_eq
    simp only [BitVec.extractLsb'_toNat, Nat.shiftRight_zero]
    exact h
  apply BitVec.eq_of_getLsbD_eq
  intro i hi
  rw [BitVec.getLsbD_and]
  by_cases hlow : i < 4
  · have := congrArg (fun v : BitVec 4 => v.getLsbD i) h0
    simp only [BitVec.getLsbD_extractLsb', hlow, decide_true, Bool.true_and, Nat.zero_add] at this
    simp [this]
  · have : baseMask.getLsbD i = true := by
      have : ∀ i : Fin 32, ¬ i.val < 4 → baseMask.getLsbD i.val = true := by decide
      exact this ⟨i, hi⟩ hlow
    simp [this]

theorem txDescBase_masked (p : Params) (h : paramsOk p = true) : p.txDescBase &&& baseMask = p.txDescBase :=
  and_baseMask_of_aligned _ (paramsOk_descAligned p .tx h)

theorem rxDescBase_masked (p : Params) (h : paramsOk p = true) : p.rxDescBase &&& baseMask = p.rxDescBase :=
  and_baseMask_of_aligned _ (paramsOk_descAligned p .rx h)

/-- Both base writes (R46). -/
theorem programBases_eq (s : State) (h : paramsOk s.params = true) : programBases s = basesWritten s := by
  simp only [programBases, writeReg, State.setRegs, State.setTx, State.setRx, basesWritten, Engine.reset,
    txDescBase_masked _ h, rxDescBase_masked _ h]

/-- The last register writes of START and of the full recovery (R214, R233). -/
theorem startEngines_eq (s : State) : startEngines s = { s with
    rx := { s.rx with susp := false }
    regs := { s.regs with
      dmaIer := 0x3F, dmaOpmode := 0x00002002, macCfg := macCfgFor s.params s.link.speed s.link.duplex true } } := by
  simp only [startEngines, writeMacCfg, writeReg, State.setRegs, State.setRx, macCfgWrite_macCfgWord]
  rfl

/-- Status bits written with 1 are cleared (R47). -/
theorem w1c_all (v : Word) : w1c v 0x3F = 0 := by
  simp [w1c, statusMask, BitVec.and_assoc]

theorem writeMacAddr_eq (s : State) : writeMacAddr s = { s with regs := { s.regs with
    macAddrHi := BitVec.ofNat 32 (s.cfg.mac.b5.toNat * 256 + s.cfg.mac.b4.toNat)
    macAddrLo := BitVec.ofNat 32 (s.cfg.mac.b3.toNat * 16777216 + s.cfg.mac.b2.toNat * 65536 + s.cfg.mac.b1.toNat * 256
      + s.cfg.mac.b0.toNat) } } := by
  have hlow : macHi s.cfg.mac &&& low16Mask = macHi s.cfg.mac := by
    apply BitVec.eq_of_toNat_eq
    have h := macHi_eq s.cfg.mac
    have h4 := s.cfg.mac.b4.isLt
    have h5 := s.cfg.mac.b5.isLt
    rw [h]
    simp only [low16Mask, BitVec.toNat_and, BitVec.toNat_ofNat]
    rw [show (65535 : Word).toNat = 2 ^ 16 - 1 from rfl, Nat.and_two_pow_sub_one_eq_mod]
    omega
  simp only [writeMacAddr, writeReg, State.setRegs, hlow]
  rw [macHi_eq, macLo_eq]

/-! ## The narrow recoveries (R216, R217) -/

/-- A register whose reserved bits are 0, with a flag cleared and then set again, has the flag set and the rest kept. -/
theorem stop_then_start (m w f : Word) (h : w &&& ~~~m = 0) (hf : f &&& ~~~m = 0) :
    (((w &&& m) &&& ~~~f) &&& m &&& m ||| f) &&& m = w ||| f := by
  apply BitVec.eq_of_getLsbD_eq
  intro i hi
  have a := congrArg (fun v : Word => v.getLsbD i) h
  have b := congrArg (fun v : Word => v.getLsbD i) hf
  simp only [BitVec.getLsbD_and, BitVec.getLsbD_not, hi, decide_true, Bool.true_and,
    BitVec.getLsbD_or] at a b ⊢
  revert a b
  cases w.getLsbD i <;> cases m.getLsbD i <;> cases f.getLsbD i <;> simp

/-- What MAC_CFG reads as when the invariant holds: itself (R40, R41). -/
theorem macCfgWrite_self (g : Bool) (w : Word) (h : w &&& ~~~macCfgMask = 0) (hg : g = false → w.getLsbD 15 = true) :
    macCfgWrite g w = w := by
  apply BitVec.eq_of_getLsbD_eq
  intro i hi
  have a := congrArg (fun v : Word => v.getLsbD i) h
  simp only [BitVec.getLsbD_and, BitVec.getLsbD_not, hi, decide_true, Bool.true_and] at a
  unfold macCfgWrite
  cases g
  · have hps : ∀ j : Fin 32, (0x00008000 : Word).getLsbD j.val = true → j.val = 15 := by decide
    simp only [Bool.false_eq_true, if_false, BitVec.getLsbD_or, BitVec.getLsbD_and]
    cases hb : (0x00008000 : Word).getLsbD i
    · revert a; cases w.getLsbD i <;> cases macCfgMask.getLsbD i <;> simp
    · have : i = 15 := hps ⟨i, hi⟩ hb
      subst this
      simp [hg rfl]
  · simp only [if_true, BitVec.getLsbD_and]
    revert a; cases w.getLsbD i <;> cases macCfgMask.getLsbD i <;> simp

/-! ## The DMA engines' memory writes (R261, R264) -/

theorem advance_mem (s : State) (k : RingKind) (i : Nat) (d : Desc) : (advance s k i d).mem = s.mem := by
  unfold advance
  split
  · cases k <;> rfl
  · rfl

/-- The three outcomes of a cursor move: the TX cursor, the RX cursor, or a fatal bus error (R262, R263). -/
theorem advance_cases (s : State) (k : RingKind) (i : Nat) (d : Desc) :
    (∃ j, dmaSucc s k i d = some j ∧ advance s k i d = s.setEngine k { s.engine k with cur := j }) ∨
    (dmaSucc s k i d = none ∧ advance s k i d = raiseBusError s) := by
  unfold advance
  cases h : dmaSucc s k i d with
  | some j => exact .inl ⟨j, rfl, rfl⟩
  | none => exact .inr ⟨rfl, rfl⟩

theorem wf_txComplete (s : State) (u : Bool) (h : s.mem.wf = true) : (txComplete s u).mem.wf = true := by
  unfold txComplete
  rw [advance_mem]
  exact wf_writeStatus _ _ _ _ _ h

theorem wf_rxComplete (s : State) (len : Nat) (bytes : List Byte) (crc lerr ovf : Bool) (h : s.mem.wf = true) :
    (rxComplete s len bytes crc lerr ovf).mem.wf = true := by
  unfold rxComplete
  rw [advance_mem]
  exact wf_writeStatus _ _ _ _ _ (Memory.wf_writeBytes _ _ _ h)

end Sys2Proof.Machine
end

