-- ==== Sys2Proof/Tests/Slice0.lean ====
section
/-! SUPPORT. Tests and witnesses. Expected values come from spec/95_test_vectors.md (the vector is named at each test) or from
the example of the rule named. Each test is one step on a small state. The witnesses show that the hypotheses of each
statement, and of each of its clauses, can be met. -/

set_option maxRecDepth 100000

namespace Sys2Proof.Tests

open Sys2Proof.Machine Sys2Proof.Safety

/-! ## Helper states -/

/-- The state of a next outcome meets `p`. -/
def nextIs (o : Host.Outcome State Fault Refusal) (p : State → Bool) : Bool :=
  match o with
  | .next t => p t
  | .fault _ => false
  | .refused _ => false

def faultIs (o : Host.Outcome State Fault Refusal) (f : Fault) : Bool :=
  match o with
  | .next _ => false
  | .fault g => g = f
  | .refused _ => false

/-- Two slots a ring, 64-byte buffers, two polls, a FIFO of two, two ticks. -/
def tiny : Params :=
  { Params.standard with nTx := 2, nRx := 2, bufSize := 64, bufStride := 64, negPollMax := 2, rxqDepth := 2, stallTicks := 2 }

/-- The memory INIT_RING leaves in both rings. -/
def ringMem (p : Params) : Memory := initDescs p .rx p.nRx (initDescs p .tx p.nTx [])

/-- IDLE with fresh rings. -/
def idle (p : Params) : State := { State.resetOf p with dev := .idle, mem := ringMem p }

/-- The end of the standard start of spec/95_test_vectors.md section 0. -/
def running (p : Params) : State :=
  { idle p with
    dev := .running, link := ⟨.s100, .full, .up, .auto⟩, knownGood := 0x08, neg := .resolved
    regs := { Regs.reset p with
      macCfg := 0xC80C, dmaOpmode := 0x2002, dmaIer := 0x3F, dmaTxBase := p.txDescBase, dmaRxBase := p.rxDescBase } }

/-- Slot `i` of a ring holding `d`. -/
def withSlot (s : State) (k : RingKind) (i : Nat) (d : Desc) : State :=
  { s with mem := writeDesc s.params k s.mem i d }

def withStatus (s : State) (v : Word) : State := { s with regs := { s.regs with dmaStatus := v } }

/-- A TX descriptor holding a frame of `n` bytes, HW-owned or completed. -/
def txFrame (s : State) (i n : Nat) (own unf : Bool) : Desc :=
  { freshSlot s.params .tx i with len := BitVec.ofNat 14 n, fs := true, ls := true, own := own, unf := unf }

/-- A completed RX descriptor of `n` bytes. -/
def rxFrame (s : State) (i n : Nat) (crc lerr ovf : Bool) : Desc :=
  { freshSlot s.params .rx i with
    own := false, flen := BitVec.ofNat 14 n, fs := true, ls := true, crc := crc, lerr := lerr, ovf := ovf }

/-- Slot 0 of the TX ring queued. -/
def queued (p : Params) : State :=
  { withSlot (running p) .tx 0 (txFrame (running p) 0 64 true false) with txHead := 1 }

/-- DES0 and DES1 of a slot. -/
def words (s : State) (k : RingKind) (i : Nat) : Word × Word :=
  (s.mem.read32 (descAddr s.params k i), s.mem.read32 (descAddr s.params k i + 4))

/-! ## WellFormed: an ill-formed term for each check -/

theorem test_wf_send : (Instr.send 2 [0xAA]).wellFormed = false ∧ (Instr.send 2 [0xAA, 0xBB]).wellFormed = true := by decide
theorem test_wf_enqueueTx :
    (Instr.enqueueTx 1 []).wellFormed = false ∧ (Instr.enqueueTx 1 [0]).wellFormed = true := by decide
theorem test_wf_rxdmaFrame : (Instr.rxdmaFrame 1 [1, 2] false false false).wellFormed = false ∧
    (Instr.rxdmaFrame 2 [1, 2] true false true).wellFormed = true := by decide

/-! ## Decoding, every constructor: the words of R113 and R120 (V-EN12 to V-EN16) -/

theorem test_decode_commands :
    decodeTableWord 32 0x00000001 = some .attach ∧ decodeTableWord 32 0x00000002 = some .start ∧
    decodeTableWord 32 0x00000003 = some .stop ∧ decodeTableWord 32 0x00030004 = some (.send 3 [0, 0, 0]) ∧
    decodeTableWord 32 0x06000005 = some (.receive 1536) ∧ decodeTableWord 32 0x00000006 = some .getLinkState ∧
    decodeTableWord 32 0x00000007 = some .getStats ∧
    decodeTableWord 32 0x00000008 = some (.setMacAddress ⟨0, 0, 0, 0, 0, 0⟩) ∧
    decodeTableWord 32 0x00000009 = some .setModeAuto ∧
    decodeTableWord 32 0x00000109 = some (.setModeForced .s10 .half) ∧
    decodeTableWord 32 0x00060109 = some (.setModeForced .s1000 .full) ∧
    decodeTableWord 32 0x0000000A = some .watchdog := by decide

theorem test_decode_internal :
    decodeTableWord 32 0x00000020 = some (.initRing .tx) ∧ decodeTableWord 32 0x00000120 = some (.initRing .rx) ∧
    decodeTableWord 32 0x00020021 = some (.enqueueTx 2 [0, 0]) ∧ decodeTableWord 32 0x00000022 = some .reclaimTx ∧
    decodeTableWord 32 0x00080023 = some (.reclaimRx 8) ∧ decodeTableWord 32 0x001F0024 = some (.mdioRead 31) ∧
    decodeTableWord 32 0x00040025 = some (.mdioWrite 4 0) ∧
    decodeTableWord 32 0x003F0026 = some (.startNegotiation 0x3F) ∧ decodeTableWord 32 0x00000027 = some .negPoll ∧
    decodeTableWord 32 0x00050028 = some (.forceLink .s100 .full) ∧
    decodeTableWord 32 0x00000029 = some .resolveLinkMode ∧
    decodeTableWord 32 0x0001002A = some (.reconfigureMac .s100 .half) ∧ decodeTableWord 32 0x0000002B = some .isr ∧
    decodeTableWord 32 0x0000002C = some .linkChangeService ∧ decodeTableWord 32 0x0000002D = some .handleFatalError := by
  decide

theorem test_decode_recovery_and_environment :
    decodeTableWord 32 0x0000012E = some .recStepStopping ∧ decodeTableWord 32 0x0000022E = some .recStepReinit ∧
    decodeTableWord 32 0x0000032E = some .recStepReapply ∧ decodeTableWord 32 0x0000042E = some .recStepRestart ∧
    decodeTableWord 32 0x0000002F = some .handleRxStopped ∧ decodeTableWord 32 0x00000030 = some .handleTxStopped ∧
    decodeTableWord 32 0x00000031 = some .startFin ∧ decodeTableWord 32 0x00000032 = some .stopEnd ∧
    decodeTableWord 32 0x00000040 = some (.txdmaStep false) ∧
    decodeTableWord 32 0x00010041 = some (.rxdmaFrame 1 [0] false false false) ∧
    decodeTableWord 32 0x00000042 = some .busError ∧ decodeTableWord 32 0x00000043 = some .phyLinkEvent := by decide

/-- V-EN15, and the payloads that follow a word (R118, log 9). -/
theorem test_decode_payloads :
    decode [0x08, 0, 0, 0, 0x00, 0x11, 0x22, 0x33, 0x44, 0x55] =
      .ok (.setMacAddress ⟨0x00, 0x11, 0x22, 0x33, 0x44, 0x55⟩) ∧
    decode [0x25, 0, 0x04, 0, 0xE1, 0x01] = .ok (.mdioWrite 4 0x01E1) ∧
    decode [0x41, 0, 0x02, 0, 0x10, 0x20, 0x05] = .ok (.rxdmaFrame 2 [0x10, 0x20] true false true) ∧
    decode [0x40, 0, 0, 0, 1] = .ok (.txdmaStep true) ∧
    decode [0x2E, 0x05, 0, 0] = .error .badSub ∧ decode [0x0B, 0, 0, 0] = .error .reservedOp ∧
    decode [0x02, 0x10, 0, 0] = .error .reservedBits ∧ decode [0x02, 0, 0x01, 0] = .error .badImm ∧
    decode [0x28, 0, 0x03, 0] = .error .badSpeed ∧ decode [0x01, 0, 0] = .error .truncated ∧
    decode [0x40, 0, 0, 0] = .error .badPayload := by decide

/-- V-EN16: the illegal host words, answered 0x7F with no state change. -/
theorem test_illegal_words : ([0x0000000B, 0x00000021, 0x00001002, 0x00010002, 0x00000209, 0x00030109, 0x00080109] :
    List Word).all (fun w => decodeHost (wordBytes w) = .illegal) = true := by decide

theorem test_illegal_step :
    nextIs (step { idle tiny with script := [.packet .host [0x0B, 0, 0, 0]] })
      (fun t => t = { idle tiny with resp := some ⟨0x0000007F, .none⟩ }) = true ∧
    nextIs (step { idle tiny with script := [.packet .host [0x09, 0x01, 0x06, 0x00]] })
      (fun t => t = { idle tiny with resp := some ⟨0x0000007F, .none⟩ }) = true := by decide

/-- R116: the word alone is illegal, whatever bytes follow it (log 30). -/
theorem test_illegal_step_stray :
    nextIs (step { idle tiny with script := [.packet .host [0x09, 0x01, 0x06, 0x00, 0xFF]] })
      (fun t => t = { idle tiny with resp := some ⟨0x0000007F, .none⟩ }) = true := by decide

/-! ## Encodings of descriptors (V-EN1 to V-EN11) -/

/-- V-EN1 to V-EN5. -/
theorem test_fresh_descriptors :
    let chain := { Params.standard with modeTx := .chain, modeRx := .chain }
    let d := freshDesc Params.standard
    (d .tx 0).buf = 0x00200000 ∧ des1 .tx (d .tx 7) = 0x02000000 ∧ (d .tx 7).buf = 0x00202A00 ∧
    des0 .rx (d .rx 0) = 0x80000000 ∧ des1 .rx (d .rx 0) = 0x00000600 ∧ des1 .rx (d .rx 7) = 0x02000600 ∧
    (d .rx 7).buf = 0x00302A00 ∧ des1 .tx (freshDesc chain .tx 0) = 0x01000000 ∧
    (freshDesc chain .tx 0).next = 0x00100010 ∧ (freshDesc chain .tx 7).next = 0x00100000 ∧
    des1 .rx (freshDesc chain .rx 3) = 0x01000600 ∧ (freshDesc chain .rx 3).next = 0x00101040 := by decide

/-- V-EN6 to V-EN10. -/
theorem test_status_words :
    des0 .rx (rxFrame (idle tiny) 0 60 false false false) = 0x003C0300 ∧
    des0 .rx (rxFrame (idle tiny) 0 0 false false false) = 0x00000300 ∧
    des0 .rx (rxFrame (idle tiny) 0 1536 false false true) = 0x06000304 ∧
    des0 .rx (rxFrame (idle tiny) 0 64 true true false) = 0x00400303 ∧
    des0 .tx (txFrame (idle tiny) 0 64 false true) = 0x00000001 := by decide

/-- V-EN11. -/
theorem test_little_endian :
    let m := Memory.write32 [] 0x00100004 0x60000040
    m.read 0x00100004 = 0x40 ∧ m.read 0x00100005 = 0 ∧ m.read 0x00100006 = 0 ∧ m.read 0x00100007 = 0x60 ∧
    m = [(0x00100004, 0x40), (0x00100007, 0x60)] := by decide

/-! ## Ring manager (V-RI1 to V-RR7) -/

/-- V-RI1, V-RI3. -/
theorem test_initRing_tx :
    let one := { Params.standard with nTx := 1, modeTx := .chain }
    nextIs (exec (.initRing .tx) { idle tiny with txHead := 1, wdCount := 1 })
      (fun t => t.txHead = 0 && t.wdCount = 0 && words t .tx 0 = (0, 0) && words t .tx 1 = (0, 0x02000000)) = true ∧
    nextIs (exec (.initRing .tx) (State.resetOf one))
      (fun t => words t .tx 0 = (0, 0x01000000) && t.mem.read32 0x0010000C = 0x00100000) = true := by decide

/-- V-RI2. -/
theorem test_initRing_rx :
    nextIs (exec (.initRing .rx) { idle Params.standard with rxHead := 5, rxq := [.data [1], .err] })
      (fun t => t.rxHead = 0 && t.rxq = [] && words t .rx 0 = (0x80000000, 0x00000600) && t.stats = Stats.zero) = true := by
  decide

/-- V-EQ1, V-EQ3. -/
theorem test_enqueueTx :
    nextIs (exec (.enqueueTx 4 [1, 2, 3, 4]) { running tiny with tx := ⟨0, true, false⟩ })
      (fun t => t.ret = .enqueue .ok 4 && words t .tx 0 = (0x80000000, 0x60000004) && t.txHead = 1 && t.tx.susp = false
        && t.bufBytes .tx 0 5 = [1, 2, 3, 4, 0]) = true ∧
    nextIs (exec (.enqueueTx 1 [9]) { queued tiny with txHead := 0 })
      (fun t => t = { queued tiny with txHead := 0, ret := .enqueue .ringFull 0 }) = true := by decide

/-- V-EQ2: the wrap at the last slot keeps WRAP. -/
theorem test_enqueueTx_wraps :
    nextIs (exec (.enqueueTx 1 [9]) { running tiny with txHead := 1 })
      (fun t => words t .tx 1 = (0x80000000, 0x62000001) && t.txHead = 0) = true := by decide

/-- V-RT2, V-RT3. -/
theorem test_reclaimTx :
    nextIs (exec .reclaimTx (withSlot (running tiny) .tx 0 (txFrame (running tiny) 0 64 false false)))
      (fun t => t.ret = .count 1 && t.stats.txPackets = 1 && words t .tx 0 = (0, 0) && t.txTail = 1) = true ∧
    nextIs (exec .reclaimTx (withSlot (running tiny) .tx 0 (txFrame (running tiny) 0 64 false true)))
      (fun t => t.stats.txUnderflow = 1 && t.stats.txPackets = 0 && words t .tx 0 = (0, 0)) = true := by decide

/-- V-RT4, V-RT5. -/
theorem test_reclaimTx_bounds :
    let both := withSlot (queued tiny) .tx 1 (txFrame (running tiny) 1 64 false false)
    nextIs (exec .reclaimTx both) (fun t => t.ret = .count 0 && t.txTail = 0) = true ∧
    nextIs (exec .reclaimTx (withSlot both .tx 0 (txFrame (running tiny) 0 64 false false)))
      (fun t => t.ret = .count 2 && t.stats.txPackets = 2 && t.txTail = 0) = true := by decide

/-- V-RR3 (with a frame of 2 bytes), V-RR7. -/
theorem test_reclaimRx :
    let s := { withSlot (running tiny) .rx 0 (rxFrame (running tiny) 0 2 false false false) with rx := ⟨1, true, false⟩ }
    nextIs (exec (.reclaimRx 2) s)
      (fun t => t.ret = .count 1 && t.rxq = [.data [0, 0]] && t.stats.rxPackets = 1 && t.rxHead = 1 && t.rx.susp = false
        && words t .rx 0 = (0x80000000, 0x00000040)) = true ∧
    nextIs (exec (.reclaimRx 2) { s with rxq := [.err, .err] })
      (fun t => t.rxq = [.err, .err] && t.stats.rxDropped = 1 && t.stats.rxPackets = 0
        && words t .rx 0 = (0x80000000, 0x00000040)) = true := by decide

/-- V-RR4 in slot 0, V-RR5's second frame in slot 1. -/
theorem test_reclaimRx_errors :
    let s := withSlot (withSlot (running tiny) .rx 0 (rxFrame (running tiny) 0 0 false false false))
      .rx 1 (rxFrame (running tiny) 1 64 true true false)
    nextIs (exec (.reclaimRx 8) s)
      (fun t => t.ret = .count 2 && t.rxq = [.err, .err] && t.stats.rxDropped = 1 && t.stats.rxCrcErrors = 1
        && t.stats.rxLengthErrors = 1 && t.stats.rxOverflow = 0 && t.rxHead = 0) = true := by decide

/-! ## Link sequencer (V-MD1 to V-LS14) -/

/-- V-MD1, the word a cycle leaves in MII_ADDR (GB 0 again), and the value. -/
theorem test_mdioRead :
    nextIs (exec (.mdioRead 1) { idle tiny with phyIn := [0x002C] })
      (fun t => t.regs.miiAddr = 0x00000840 && t.regs.miiData = 0x002C && t.ret = .phyWord 0x002C && t.phyIn = []) = true ∧
    nextIs (exec (.mdioRead 4) { idle tiny with phy := ⟨0, 0x01E1, 0⟩ })
      (fun t => t.regs.miiAddr = 0x00000900 && t.ret = .phyWord 0x01E1) = true := by decide

/-- V-MD2. -/
theorem test_mdioWrite :
    nextIs (exec (.mdioWrite 9 0x0300) (idle tiny))
      (fun t => t.regs.miiAddr = 0x00000A42 && t.regs.miiData = 0x0300 && t.phy.gtcr = 0x0300) = true := by decide

/-- V-LS1, V-LS3. -/
theorem test_startNegotiation :
    nextIs (exec (.startNegotiation 0x0F) (idle tiny))
      (fun t => t.phy = ⟨0x1200, 0x01E1, 0⟩ && t.neg = .negotiating && t.negPolls = 0) = true ∧
    nextIs (exec (.startNegotiation 0x3F) (idle { tiny with macGigabit := true }))
      (fun t => t.phy = ⟨0x1200, 0x01E1, 0x0300⟩) = true := by decide

/-- V-LS4, V-LS8. -/
theorem test_resolveLinkMode :
    nextIs (exec .resolveLinkMode { idle tiny with phy := ⟨0, 0x01E1, 0⟩, phyIn := [0x41E1, 0x002C] })
      (fun t => t.link = ⟨.s100, .full, .up, .auto⟩ && t.knownGood = 0x08 && t.ret = .link .ok) = true ∧
    nextIs (exec .resolveLinkMode { idle tiny with phy := ⟨0, 0x0101, 0⟩, phyIn := [0x00A1, 0x0024] })
      (fun t => t.link = ⟨.s10, .half, .up, .auto⟩ && t.knownGood = 0 && t.ret = .link .negotiationTimeout) = true := by
  decide

/-- V-LS9, V-LS10. -/
theorem test_resolveLinkMode_gigabit :
    let s := { idle { tiny with macGigabit := true } with phy := ⟨0, 0x01E1, 0x0300⟩ }
    nextIs (exec .resolveLinkMode { s with phyIn := [0x41E1, 0x3000, 0x0C00, 0x002C] })
      (fun t => t.link = ⟨.s1000, .full, .up, .auto⟩) = true ∧
    nextIs (exec .resolveLinkMode { s with phyIn := [0x41E1, 0x3000, 0x0400, 0x002C] })
      (fun t => t.link = ⟨.s1000, .half, .up, .auto⟩) = true := by decide

/-- V-LS6 and V-LS7, the last poll of each. -/
theorem test_negPoll_timeout :
    let s := { idle tiny with neg := .negotiating, negPolls := 1, phyIn := [0x0004] }
    nextIs (exec .negPoll s) (fun t => t.link = ⟨.s10, .half, .up, .auto⟩ && t.negResult = .negotiationTimeout
      && t.neg = .resolved && t.negPolls = 2) = true ∧
    nextIs (exec .negPoll { s with knownGood := 0x09 })
      (fun t => t.link = ⟨.s100, .full, .up, .auto⟩ && t.knownGood = 0x09) = true := by decide

/-- P1, the one poll of the standard start. -/
theorem test_negPoll_complete :
    nextIs (exec .negPoll { idle tiny with
        neg := .negotiating, phy := ⟨0x1200, 0x01E1, 0⟩, phyIn := [0x002C, 0x41E1, 0x002C] })
      (fun t => t.link = ⟨.s100, .full, .up, .auto⟩ && t.knownGood = 0x08 && t.neg = .resolved && t.negResult = .ok
        && t.negPolls = 0) = true := by decide

/-- V-LS11, V-LS12. -/
theorem test_forceLink :
    nextIs (exec (.forceLink .s1000 .full) { idle tiny with phyIn := [0x0004] })
      (fun t => t.phy.bmcr = 0x0140 && t.negResult = .ok && t.knownGood = 0x20) = true ∧
    nextIs (exec (.forceLink .s100 .full) { idle tiny with phyIn := [0x0000] })
      (fun t => t.phy.bmcr = 0x2100 && t.link = ⟨.s100, .full, .down, .forced⟩ && t.knownGood = 0) = true := by decide

/-- V-LS13, V-LS14. -/
theorem test_mac_cfg_and_highest :
    macCfgWord .s10 .half false = 0x8000 ∧ macCfgWord .s10 .full true = 0x880C ∧ macCfgWord .s100 .half false = 0xC000 ∧
    macCfgWord .s100 .full true = 0xC80C ∧ macCfgWord .s1000 .half true = 0x000C ∧
    macCfgWord .s1000 .full false = 0x0800 ∧ highestMode 0b001101 = ⟨.s100, .full⟩ ∧
    highestMode 0b000001 = ⟨.s10, .half⟩ ∧ highestMode 0b110000 = ⟨.s1000, .full⟩ := by decide

/-- V-IR9's reconfiguration. -/
theorem test_reconfigureMac :
    nextIs (exec (.reconfigureMac .s10 .half) { queued tiny with rxHead := 1, tx := ⟨0, false, true⟩ })
      (fun t => t.regs.macCfg = 0x800C && t.regs.dmaOpmode = 0x2002 && t.regs.dmaIer = 0x3F && t.txHead = 0
        && t.rxHead = 0 && t.tx = ⟨0, false, false⟩ && words t .tx 0 = (0, 0)) = true := by decide

/-! ## Interrupt engine (V-IR1 to V-WD3) -/

/-- V-IR2, V-IR5. -/
theorem test_isr :
    nextIs (exec .isr (withStatus (withSlot (running tiny) .tx 0 (txFrame (running tiny) 0 64 false false)) 0x03))
      (fun t => t.stats.interrupts = 1 && t.stats.txPackets = 1 && t.regs.dmaStatus = 0 && t.regs.dmaIer = 0x3F) = true ∧
    nextIs (exec .isr (withStatus (queued tiny) 0x14))
      (fun t => t.dev = .fault && t.stats.fatalErrors = 1 && t.recPh = .stopping && t.regs.dmaIer = 0) = true := by decide

/-- V-IR6 (RXU) and V-IR9 (a lower mode). -/
theorem test_isr_rxu_and_link :
    nextIs (exec .isr (withStatus { withSlot (running tiny) .rx 0 (rxFrame (running tiny) 0 1 false false false) with
        rx := ⟨0, true, false⟩ } 0x0C))
      (fun t => t.stats.rxPackets = 1 && t.stats.stalls = 1 && t.rxq = [] && t.rx = ⟨0, false, false⟩
        && t.regs.dmaIer = 0x3F) = true ∧
    nextIs (exec .isr (withStatus { running tiny with phy := ⟨0, 0x01E1, 0⟩, phyIn := [0x0024, 0x0021, 0x0024] } 0x20))
      (fun t => t.link = ⟨.s10, .half, .up, .auto⟩ && t.regs.macCfg = 0x800C && t.knownGood = 0x09
        && t.regs.dmaIer = 0x3F) = true := by decide

/-- V-IR8, V-IR10. -/
theorem test_linkChangeService :
    nextIs (exec .linkChangeService { running tiny with phyIn := [0x0000] })
      (fun t => t.link = ⟨.s100, .full, .down, .auto⟩ && t.regs.macCfg = 0xC80C) = true ∧
    nextIs (exec .linkChangeService { running tiny with phyIn := [0x0004] })
      (fun t => t.link = ⟨.s100, .full, .up, .auto⟩) = true := by decide

/-- V-WD1, and V-WD3's last tick (STALL_TICKS = 2 here). -/
theorem test_watchdog :
    nextIs (exec .watchdog { idle tiny with wdCount := 1 })
      (fun t => t.wdCount = 0 && t.tickResp = some 0x00000000) = true ∧
    nextIs (exec .watchdog { queued tiny with wdCount := 1 })
      (fun t => t.wdCount = 0 && t.stats.stalls = 1 && words t .tx 0 = (0, 0) && t.txHead = 0) = true := by decide

/-! ## Recovery (V-RC1 to V-RC7) -/

/-- V-RC1's entry, V-RC2, V-RC3. -/
theorem test_handleFatalError :
    nextIs (exec .handleFatalError (running tiny))
      (fun t => t.dev = .fault && t.recPh = .stopping && t.stats.fatalErrors = 1) = true ∧
    nextIs (exec .handleFatalError { running tiny with dev := .fault, recPh := .reinit })
      (fun t => t = { running tiny with dev := .fault, recPh := .reinit }) = true := by decide

/-- V-RC1, step by step, and V-RC5. -/
theorem test_recovery_steps :
    let s (ph : RecPhase) := { queued tiny with dev := .fault, recPh := ph }
    nextIs (exec .recStepStopping (s .stopping))
      (fun t => t.regs.dmaOpmode = 0 && t.regs.macCfg = 0xC800 && t.recPh = .reinit) = true ∧
    nextIs (exec .recStepReinit { s .reinit with tx := ⟨1, true, true⟩ })
      (fun t => words t .tx 0 = (0, 0) && t.tx = ⟨0, false, false⟩ && t.txHead = 0 && t.recPh = .reapply) = true ∧
    nextIs (exec .recStepReapply { s .reapply with cfg := ⟨⟨2, 0, 0, 0, 0, 1⟩, .auto, 7⟩ })
      (fun t => t.regs.macAddrHi = 0x0100 && t.regs.macAddrLo = 0x02 && t.regs.macFilter = 7 && t.regs.macCfg = 0xC800) = true ∧
    nextIs (exec .recStepRestart (withStatus (s .restart) 0x31))
      (fun t => t.dev = .running && t.recPh = .none && t.regs.dmaStatus = 0x20 && t.regs.macCfg = 0xC80C
        && t.regs.dmaOpmode = 0x2002 && t.regs.dmaIer = 0x3F) = true := by decide

/-- V-RC7, V-RC6. -/
theorem test_narrow_recoveries :
    nextIs (exec .handleRxStopped { queued tiny with rx := ⟨1, true, false⟩, rxHead := 1 })
      (fun t => t.rx = ⟨0, false, false⟩ && t.rxHead = 0 && t.stats.stalls = 1 && t.regs.macCfg = 0xC80C
        && t.regs.dmaOpmode = 0x2002 && words t .tx 0 = (0x80000000, 0x60000040)) = true ∧
    nextIs (exec .handleTxStopped { queued tiny with rxHead := 1 })
      (fun t => t.rxHead = 1 && t.txHead = 0 && t.stats.stalls = 1 && t.regs.macCfg = 0xC80C
        && t.regs.dmaOpmode = 0x2002 && words t .tx 0 = (0, 0)) = true := by decide

/-! ## Facade (V-FA1 to V-FA15) -/

/-- V-FA1, V-FA4. -/
theorem test_attach :
    nextIs (exec .attach (State.resetOf tiny)) (fun t => t.dev = .idle && t.resp = some ⟨0, .none⟩
      && words t .rx 1 = (0x80000000, 0x02000040)) = true ∧
    faultIs (exec .attach (idle tiny)) (.hostDuty .reattach) = true := by decide

/-- V-FA6 and P1's START_BEGIN. -/
theorem test_start :
    nextIs (exec .start (running tiny)) (fun t => t = { running tiny with resp := some ⟨0, .none⟩ }) = true ∧
    nextIs (exec .start (idle tiny)) (fun t => t.startPh = .neg && t.phy.anar = 0x01E1 && t.phy.bmcr = 0x1200
      && t.neg = .negotiating && t.resp = none && t.regs.dmaTxBase = 0x00100000) = true := by decide

/-- P1's START_FIN; the answer of a timeout (R234). -/
theorem test_startFin :
    let s := { withStatus (idle tiny) 0x23 with startPh := .neg, neg := .resolved, link := ⟨.s100, .full, .up, .auto⟩ }
    nextIs (exec .startFin s) (fun t => t.dev = .running && t.regs.dmaStatus = 0 && t.regs.macCfg = 0xC80C
      && t.regs.dmaIer = 0x3F && t.regs.dmaOpmode = 0x2002 && t.resp = some ⟨0, .none⟩) = true ∧
    nextIs (exec .startFin { s with negResult := .negotiationTimeout })
      (fun t => t.dev = .running && t.resp = some ⟨0x00000003, .none⟩) = true := by decide

/-- V-FA3, V-FA9's first step. -/
theorem test_stop :
    nextIs (exec .stop (State.resetOf tiny)) (fun t => t = { State.resetOf tiny with resp := some ⟨0, .none⟩ }) = true ∧
    nextIs (exec .stop { running tiny with dev := .fault, recPh := .reapply })
      (fun t => t.regs.dmaIer = 0 && t.stopPh = .drain && t.resp = none && t.dev = .fault) = true := by decide

/-- V-FA7's second step; it waits for a recovery (V-FA9). -/
theorem test_stopEnd :
    nextIs (exec .stopEnd { running tiny with stopPh := .drain })
      (fun t => t.dev = .idle && t.regs.dmaOpmode = 0 && t.regs.macCfg = 0xC800 && t.regs.dmaIer = 0
        && t.resp = some ⟨0, .none⟩) = true ∧
    nextIs (exec .stopEnd { running tiny with stopPh := .drain, dev := .fault, recPh := .restart })
      (fun t => t.ret = .notEnabled && t.stopPh = .drain) = true := by decide

/-- V-FA5 and V-RC4; P2's ninth SEND, and V-EN17. -/
theorem test_send :
    nextIs (exec (.send 1 [7]) (idle tiny)) (fun t => t = { idle tiny with resp := some ⟨0x00000002, .none⟩ }) = true ∧
    nextIs (exec (.send 1 [7]) { queued tiny with txHead := 0 }) (fun t => t.resp = some ⟨0x00000001, .none⟩) = true := by
  decide

theorem test_send_length :
    faultIs (exec (.send 0 []) (running tiny)) (.hostDuty .sendLength) = true ∧
    faultIs (exec (.send 65 (List.replicate 65 0)) (running tiny)) (.hostDuty .sendLength) = true ∧
    faultIs (exec (.send 64 (List.replicate 63 0)) (running tiny)) (.hostDuty .sendLength) = true := by decide

/-- V-FA10, V-FA11 (3 bytes read of 5). -/
theorem test_receive :
    nextIs (exec (.receive 1536) (running tiny)) (fun t => t.resp = some ⟨0, .bytes []⟩) = true ∧
    nextIs (exec (.receive 3) { running tiny with rxq := [.data [1, 2, 3, 4, 5]] })
      (fun t => t.resp = some ⟨0x00030000, .bytes [1, 2, 3]⟩ && t.rxq = []) = true := by decide

/-- V-FA13. -/
theorem test_setMacAddress :
    nextIs (exec (.setMacAddress ⟨0x00, 0x11, 0x22, 0x33, 0x44, 0x55⟩) (idle tiny))
      (fun t => t.regs.macAddrHi = 0x00005544 && t.regs.macAddrLo = 0x33221100 && t.resp = some ⟨0, .none⟩) = true := by
  decide

/-- V-FA14's SET_MODE: the link is as before. -/
theorem test_setMode :
    nextIs (exec (.setModeForced .s10 .half) (running tiny))
      (fun t => t.cfg.mode = .forced ⟨.s10, .half⟩ && t.link = ⟨.s100, .full, .up, .auto⟩) = true ∧
    nextIs (exec .setModeAuto { idle tiny with cfg := ⟨⟨0, 0, 0, 0, 0, 0⟩, .forced ⟨.s10, .half⟩, 0⟩ })
      (fun t => t.cfg.mode = .auto) = true := by decide

/-- V-FA14 and V-FA15. -/
theorem test_getLinkState :
    nextIs (exec .getLinkState (running tiny)) (fun t => t.resp = some ⟨0, .linkWord 0x0000000D⟩) = true ∧
    nextIs (exec .getLinkState { running tiny with link := ⟨.s1000, .full, .up, .auto⟩ })
      (fun t => t.resp = some ⟨0, .linkWord 0x0000000E⟩) = true := by decide

/-- R33's order; V-FA2. -/
theorem test_getStats :
    nextIs (exec .getStats { idle tiny with stats := ⟨1, 2, 3, 4, 5, 6, 7, 8, 9, 10⟩ })
      (fun t => t.resp = some ⟨0, .counters [1, 2, 3, 4, 5, 6, 7, 8, 9, 10]⟩) = true ∧
    faultIs (exec .getStats (State.resetOf tiny)) (.hostDuty .notAttached) = true := by decide

/-! ## DMA engines and PHY (V-DM1 to V-DM9, P1, P4) -/

/-- P1's two steps, V-DM2. -/
theorem test_txdmaStep :
    nextIs (exec (.txdmaStep false) { queued tiny with mem := (queued tiny).mem.writeBytes 0x00200000 [0xAA] })
      (fun t => words t .tx 0 = (0, 0x60000040) && t.regs.dmaStatus = 0x01 && t.tx.cur = 1
        && t.wireTx.map (fun f => (f.bytes.take 2, f.bytes.length, f.unf)) = [([0xAA, 0], 64, false)]) = true ∧
    nextIs (exec (.txdmaStep false) (running tiny))
      (fun t => t.regs.dmaStatus = 0x02 && t.tx = ⟨0, true, false⟩ && t.wireTx = []) = true := by decide

/-- V-DM3 (wrap), V-DM5 (WRAP cleared: completion, then FBE). -/
theorem test_txdmaStep_end_of_ring :
    let s := { running tiny with tx := ⟨1, false, false⟩ }
    nextIs (exec (.txdmaStep true) (withSlot s .tx 1 (txFrame s 1 64 true false)))
      (fun t => t.tx.cur = 0 && regRead t 0x1048 = 0x00100000 && words t .tx 1 = (0x00000001, 0x62000040)) = true ∧
    nextIs (exec (.txdmaStep false) (withSlot s .tx 1 { txFrame s 1 64 true false with wrap := false }))
      (fun t => t.tx = ⟨1, false, true⟩ && t.rx.halted && t.regs.dmaStatus = 0x11) = true := by decide

/-- P4's first frame; V-DM6. -/
theorem test_rxdmaFrame :
    nextIs (exec (.rxdmaFrame 2 [0x55, 0x66] true false false) (running tiny))
      (fun t => words t .rx 0 = (0x00020301, 0x00000040) && t.regs.dmaStatus = 0x04 && t.rx.cur = 1
        && t.bufBytes .rx 0 2 = [0x55, 0x66]) = true ∧
    nextIs (exec (.rxdmaFrame 1 [1] false false false) (withSlot (running tiny) .rx 0 (rxFrame (running tiny) 0 2 false false false)))
      (fun t => t.regs.dmaStatus = 0x08 && t.rx = ⟨0, true, false⟩ && words t .rx 0 = (0x00020300, 0x00000040)) = true := by
  decide

/-- V-DM7; not enabled before START (R260). -/
theorem test_busError :
    nextIs (exec .busError (running tiny))
      (fun t => t.regs.dmaStatus = 0x10 && t.tx.halted && t.rx.halted) = true ∧
    nextIs (exec .busError (idle tiny)) (fun t => t.ret = .notEnabled && t.regs.dmaStatus = 0) = true := by decide

/-- V-DM9. -/
theorem test_phyLinkEvent :
    nextIs (exec .phyLinkEvent (running tiny)) (fun t => t.regs.dmaStatus = 0x20 && lineAsserted t.regs) = true ∧
    nextIs (exec .phyLinkEvent (State.resetOf tiny)) (fun t => t.ret = .notEnabled) = true := by decide

/-- A word placed as the next input runs as the first step after reset. -/
theorem test_withFetchWord :
    nextIs (step (State.reset.withFetchWord 32 0x00000001)) (fun t => t.dev = .idle && t.script = []) = true ∧
    nextIs (step (State.reset.withFetchWord 32 0x00050028)) (fun t => t.phy.bmcr = 0x2100) = true := by decide

/-! ## Witnesses: the hypotheses of each statement, clause by clause, on one concrete state -/

/-- DecodeOfEncodeIsTheInstruction, at the bounds of the operands. -/
theorem witness_DecodeOfEncodeIsTheInstruction :
    (Instr.send 1 [0xFF]).wellFormed = true ∧ (Instr.send 0 []).wellFormed = true ∧
    (Instr.mdioWrite 31 0xFFFF).wellFormed = true ∧ (Instr.startNegotiation 63).wellFormed = true ∧
    (Instr.rxdmaFrame 0 [] true true true).wellFormed = true ∧ (Instr.receive 0xFFFF).wellFormed = true := by decide

/-- HostPortIllegalExactly: words on both sides of the rule, at its bounds. -/
theorem witness_HostPortIllegalExactly :
    illegalWord 0x00000000 ∧ ¬ illegalWord 0x00000001 ∧ ¬ illegalWord 0x0000000A ∧ illegalWord 0x0000000B ∧
    illegalWord 0x00001001 ∧ illegalWord 0x00000101 ∧ illegalWord 0x00010001 ∧ ¬ illegalWord 0xFFFF0005 ∧
    ¬ illegalWord 0x00000109 ∧ illegalWord 0x00000209 ∧ illegalWord 0x00010009 ∧ illegalWord 0x00030109 ∧
    ¬ illegalWord 0x00060109 ∧ illegalWord 0x00080109 := by
  simp [illegalWord]

/-- IllegalCommandAnswered: an illegal word, and the speed code 2 on a MAC without gigabit. -/
theorem witness_IllegalCommandAnswered :
    paramsOk (idle tiny).params = true ∧ Answered (idle tiny) ∧ illegalWord 0x0000000B ∧
    ({ idle tiny with script := [.packet .host (wordBytes 0x0000000B ++ [])] } : State).script =
      .packet .host (wordBytes 0x0000000B ++ []) :: [] ∧ (idle tiny).params.macGigabit = false ∧
    ({ idle tiny with script := [.packet .host (wordBytes 0x00060109 ++ [0xFF])] } : State).script =
      .packet .host (wordBytes 0x00060109 ++ [0xFF]) :: [] := by
  exact ⟨by decide, by decide, by simp [illegalWord], by decide, by decide, by decide⟩

/-- DescriptorWordsAndFields: descriptors that fit their ring. -/
theorem witness_DescriptorWordsAndFields :
    (txFrame (idle tiny) 1 64 true true).fits .tx ∧ (rxFrame (idle tiny) 1 64 true true true).fits .rx :=
  ⟨⟨rfl, rfl, rfl, rfl⟩, rfl⟩

/-- StepRunsTheNextItem: an ill-formed instance; then one state for each item. -/
theorem witness_StepRunsTheNextItem :
    let s (items : List Item) : State := { running tiny with script := items }
    let held : State := { s [.hostTurn] with startHeld := true }
    paramsOk { tiny with nTx := 0 } = false ∧ paramsOk tiny = true ∧ (s []).script = [] ∧
    (s [.packet .agent (encode .isr)]).script = .packet .agent [0x2B, 0, 0, 0] :: [] ∧ decode [0x2B, 0, 0, 0] = .ok .isr ∧
    (s [.packet .host (encode .start)]).script = .packet .host [0x02, 0, 0, 0] :: [] ∧ decode [0x02, 0, 0, 0] = .ok .start ∧
    Instr.start.isHostCommand = true ∧
    held.script = .hostTurn :: [] ∧ held.startHeld = true ∧ held.recPh = .none ∧
    ¬ ((s [.hostTurn]).startHeld = true ∧ (s [.hostTurn]).recPh = .none) := by decide

/-- ExecStopsExactlyOnHostDuties: each duty, and none. -/
theorem witness_ExecStopsExactlyOnHostDuties :
    stopDuty .attach (State.resetOf tiny) = none ∧ stopDuty .attach (idle tiny) = some .reattach ∧
    stopDuty .start (State.resetOf tiny) = some .notAttached ∧
    stopDuty .stop { idle tiny with stopPh := .drain } = some .concurrent ∧
    stopDuty (.send 64 (List.replicate 64 0)) (idle tiny) = none ∧
    stopDuty (.send 65 (List.replicate 65 0)) (idle tiny) = some .sendLength ∧
    stopDuty (.enqueueTx 1 [0]) (idle tiny) = none ∧ stopDuty (.enqueueTx 0 []) (idle tiny) = some .sendLength ∧
    stopDuty (.setModeForced .s1000 .half) (State.resetOf tiny) = none := by decide

/-- DisabledStepsChangeNothing: the reset state meets every clause, the others one bit at a time. -/
theorem witness_DisabledStepsChangeNothing :
    let s := State.resetOf tiny
    s.regs.dmaOpmode.getLsbD 13 = false ∧ s.regs.dmaOpmode.getLsbD 1 = false ∧ s.regs.macCfg.getLsbD 2 = false ∧
    s.dev = .uninit ∧ s.params.sharedLine = false ∧
    (∀ j < 6, ¬ (s.regs.dmaStatus.getLsbD j = true ∧ s.regs.dmaIer.getLsbD j = true)) ∧ s.neg ≠ .negotiating ∧
    s.recPh ≠ .stopping ∧ s.recPh ≠ .reinit ∧ s.recPh ≠ .reapply ∧ s.recPh ≠ .restart ∧
    (s.startPh = .none ∨ s.neg ≠ .resolved) ∧ (s.stopPh = .none ∨ s.recPh ≠ .none) ∧
    ({ running tiny with tx := ⟨0, true, false⟩ } : State).tx.susp = true ∧
    ({ running tiny with rx := ⟨0, false, true⟩ } : State).rx.halted = true := by decide

/-- MemoryReadsAndWrites: canonical memories, the first and the last byte of a store, and the bytes beside it. -/
theorem witness_MemoryReadsAndWrites :
    Memory.wf [] = true ∧ (ringMem tiny).wf = true ∧ (Memory.write32 [] 4 0x11223344).read 4 = 0x44 ∧
    (Memory.write32 [] 4 0x11223344).read 7 = 0x11 ∧ (Memory.write32 [] 4 0x11223344).read 3 = 0 ∧
    (Memory.write32 [] 4 0x11223344).read 8 = 0 := by decide

/-- RegisterMap: offsets not listed, and both kinds of MAC. -/
theorem witness_RegisterMap :
    (∀ off ∈ [0x008, 0x048, 0x1000, 0x1020, 0x1050], off ∉ [0x000, 0x004, 0x010, 0x014, 0x040, 0x044, 0x1004, 0x1008, 0x100C,
      0x1010, 0x1014, 0x1018, 0x101C, 0x1048, 0x104C]) ∧
    (idle tiny).params.macGigabit = false ∧ (idle { tiny with macGigabit := true }).params.macGigabit = true := by decide

/-- InitRing, ReconfigureMac, RecoverySteps' premise: a sound state. -/
theorem witness_InitRing : Sound (queued tiny) ∧ Sound (State.resetOf Params.standard) := by decide

/-- EnqueueTx: both clauses, at the last slot and the longest frame. -/
theorem witness_EnqueueTx :
    let s := running tiny
    let full := { queued tiny with txHead := 0 }
    Sound s ∧ s.txHead < s.params.nTx ∧ GoodLength s.params 64 (List.replicate 64 0) ∧ (s.desc .tx s.txHead).own = false ∧
    Sound full ∧ full.txHead < full.params.nTx ∧ GoodLength full.params 1 [0] ∧ (full.desc .tx full.txHead).own = true ∧
    ({ s with txHead := 1 } : State).txHead < s.params.nTx ∧ (s.desc .tx 1).own = false := by decide

/-- ReclaimTx: a completed slot at the tail. -/
theorem witness_ReclaimTx :
    let s := { withSlot (running tiny) .tx 1 (txFrame (running tiny) 1 64 false true) with txTail := 1 }
    Sound s ∧ s.txTail < s.params.nTx ∧ (s.desc .tx s.txTail).own = false ∧ (s.desc .tx s.txTail).len ≠ 0 := by decide

/-- ReclaimRx: a received frame at the head, of the longest length. -/
theorem witness_ReclaimRx :
    let s := { withSlot (running tiny) .rx 1 (rxFrame (running tiny) 1 64 false false false) with rxHead := 1 }
    Sound s ∧ s.rxHead < s.params.nRx ∧ (∀ i < s.params.nRx, (s.desc .rx i).flen.toNat ≤ s.params.bufSize) ∧
    (s.desc .rx s.rxHead).own = false := by decide

/-- ReclaimExactlyCapacity: every slot of both rings complete. -/
theorem witness_ReclaimExactlyCapacity :
    let r := running tiny
    let s := withSlot (withSlot (withSlot (withSlot r .tx 0 (txFrame r 0 64 false false)) .tx 1 (txFrame r 1 1 false true))
      .rx 0 (rxFrame r 0 64 false false false)) .rx 1 (rxFrame r 1 0 true false false)
    Sound s ∧ s.txTail < s.params.nTx ∧ s.rxHead < s.params.nRx ∧
    (∀ i < s.params.nTx, (s.desc .tx i).own = false ∧ (s.desc .tx i).len ≠ 0) ∧
    (∀ i < s.params.nRx, (s.desc .rx i).own = false) := by decide

/-- MdioReadCycle and MdioWriteCycle: registers of both kinds (0, 4, 9 hold a value, 1 and 31 are draws). -/
theorem witness_MdioReadCycle :
    nextIs (exec (.mdioRead 0) { idle tiny with phy := ⟨0x1200, 0, 0⟩ }) (fun t => t.ret = .phyWord 0x1000) = true ∧
    nextIs (exec (.mdioRead 31) { idle tiny with phyIn := [0xBEEF] }) (fun t => t.ret = .phyWord 0xBEEF) = true := by decide

/-- ResolveLinkMode: a state in which a mode is shared, and one in which none is (V-LS4, V-LS8). -/
theorem witness_ResolveLinkMode :
    Shared false 0x01E1 0x41E1 0 0 0 ⟨.s100, .full⟩ ∧ (∀ sp d, ¬ Shared false 0x0101 0x00A1 0 0 0 ⟨sp, d⟩) ∧
    Shared true 0x01E1 0x41E1 0x3000 0x0300 0x0400 ⟨.s1000, .half⟩ := by
  refine ⟨by simp only [Shared]; decide, ?_, by simp only [Shared]; decide⟩
  intro sp d
  cases sp <;> cases d <;> simp only [Shared] <;> decide

/-- NegPoll: complete, not complete, and the last poll. -/
theorem witness_NegPoll :
    let s (bmsr : Half) (n : Nat) : State := { idle tiny with neg := .negotiating, negPolls := n, phyIn := [bmsr] }
    (s 0x0024 0).neg = .negotiating ∧ (answer (s 0x0024 0) 0).getLsbD 5 = true ∧
    (answer (s 0x0004 0) 0).getLsbD 5 = false ∧ (s 0x0004 0).negPolls + 1 ≠ (s 0x0004 0).params.negPollMax ∧
    (answer (s 0x0004 1) 0).getLsbD 5 = false ∧ (s 0x0004 1).negPolls + 1 = (s 0x0004 1).params.negPollMax := by decide

/-- LinkSingleWriter: a step that changes the link. -/
theorem witness_LinkSingleWriter :
    nextIs (exec (.forceLink .s100 .full) { idle tiny with phyIn := [0x0004] })
      (fun t => t.link ≠ (idle tiny).link && t.knownGood ≠ (idle tiny).knownGood) = true ∧
    nextIs (exec .start { idle tiny with cfg := ⟨⟨0, 0, 0, 0, 0, 0⟩, .forced ⟨.s10, .full⟩, 0⟩, phyIn := [0] })
      (fun t => t.link ≠ (idle tiny).link) = true := by decide

/-- IsrSteps and IsrLeavesEnables: a state for each path. -/
theorem witness_IsrSteps :
    let s (v : Word) : State := withStatus (running tiny) v
    let on (t : State) : Prop := ∃ j < 6, t.regs.dmaStatus.getLsbD j = true ∧ t.regs.dmaIer.getLsbD j = true
    let shared : State := withStatus (running { tiny with sharedLine := true }) 0
    Sound shared ∧ shared.params.sharedLine = true ∧ shared.regs.dmaStatus &&& 0x3F = 0 ∧
    Sound (s 0x21) ∧ on (s 0x21) ∧ ((s 0x21).regs.dmaStatus &&& 0x3F).getLsbD 5 = true ∧
    on (s 0x14) ∧ ((s 0x14).regs.dmaStatus &&& 0x3F).getLsbD 5 = false ∧
    ((s 0x14).regs.dmaStatus &&& 0x3F).getLsbD 4 = true ∧
    on (s 0x0C) ∧ ((s 0x0C).regs.dmaStatus &&& 0x3F).getLsbD 4 = false ∧ (s 0x0C).dev = .running ∧
    ((s 0x0C).regs.dmaStatus &&& 0x3F).getLsbD 3 = true ∧ ((s 0x04).regs.dmaStatus &&& 0x3F).getLsbD 3 = false ∧
    on { s 0x01 with dev := .fault, recPh := .reinit } := by decide

/-- InterruptsCounted: an invocation that counts and one with a zero snapshot. -/
theorem witness_InterruptsCounted :
    nextIs (exec .isr (withStatus (running tiny) 0x01)) (fun t => t.stats.interrupts = 1) = true ∧
    nextIs (exec .isr (running { tiny with sharedLine := true })) (fun t => t.stats.interrupts = 0) = true := by decide

/-- LinkChangeService: each clause. -/
theorem witness_LinkChangeService :
    let s (bmsr : Half) : State := { running tiny with phyIn := [bmsr] }
    (idle tiny).dev ≠ .running ∧ (s 0).dev = .running ∧ (answer (s 0x0000) 0).getLsbD 2 = false ∧
    (answer (s 0x0004) 0).getLsbD 2 = true ∧ (answer (s 0x0004) 0).getLsbD 5 = false ∧
    (answer (s 0x0024) 0).getLsbD 2 = true ∧ (s 0x0024).link.negmode = .auto ∧ (answer (s 0x0024) 0).getLsbD 5 = true ∧
    ({ s 0x0024 with link := ⟨.s10, .half, .up, .forced⟩ } : State).link.negmode = .forced := by decide

/-- WatchdogTick: each clause. -/
theorem witness_WatchdogTick :
    let s := queued tiny
    paramsOk s.params = true ∧ s.tx.cur < s.params.nTx ∧ (State.resetOf tiny).dev = .uninit ∧ (idle tiny).dev = .idle ∧
    s.dev = .running ∧ s.regs.dmaTxBase = s.params.txDescBase ∧
    ((running tiny).desc .tx (running tiny).tx.cur).own = false ∧
    (s.desc .tx s.tx.cur).own = true ∧ s.tx.cur = s.wdCur ∧ s.wdCount + 1 ≠ s.params.stallTicks ∧
    ({ s with wdCount := 1 } : State).wdCount + 1 = s.params.stallTicks := by decide

/-- FatalErrorEntered and NarrowRecoveries: a running device with the registers as the invariant says; one that is not. -/
theorem witness_NarrowRecoveries :
    Sound (queued tiny) ∧ RegsOk (queued tiny) ∧ (queued tiny).dev = .running ∧ (idle tiny).dev ≠ .running := by decide

/-- RecoverySteps: each phase. -/
theorem witness_RecoverySteps :
    let s (ph : RecPhase) : State := { queued tiny with dev := .fault, recPh := ph }
    Sound (s .stopping) ∧ (s .stopping).recPh = .stopping ∧ Sound (s .reinit) ∧ (s .reinit).recPh = .reinit ∧
    Sound (s .reapply) ∧ (s .reapply).recPh = .reapply ∧ Sound (s .restart) ∧ (s .restart).recPh = .restart := by decide

/-- FullRecoveryInFourSteps: P3 after the ISR. -/
theorem witness_FullRecoveryInFourSteps :
    let s : State := { queued tiny with
      dev := .fault, recPh := .stopping, tx := ⟨0, false, true⟩, rx := ⟨0, false, true⟩
      script := [scheduled .recStepStopping, scheduled .recStepReinit, scheduled .recStepReapply, scheduled .recStepRestart] }
    Sound s ∧ s.dev = .fault ∧ s.recPh = .stopping ∧ s.script = scheduled .recStepStopping :: scheduled .recStepReinit ::
      scheduled .recStepReapply :: scheduled .recStepRestart :: [] := by decide

/-- ResetAndAttach: ATTACH from reset, and a device already attached. -/
theorem witness_ResetAndAttach :
    Sound (State.resetOf tiny) ∧ (State.resetOf tiny).dev = .uninit ∧ Answered (State.resetOf tiny) ∧
    (idle tiny).dev ≠ .uninit ∧ Answered (idle tiny) := by decide

/-- StartDispatch: each device state. -/
theorem witness_StartDispatch :
    let f : State := { running tiny with dev := .fault, recPh := .restart }
    Sound (State.resetOf tiny) ∧ (State.resetOf tiny).dev = .uninit ∧ Sound (running tiny) ∧ (running tiny).dev = .running ∧
    Answered (running tiny) ∧ Sound (idle tiny) ∧ (idle tiny).dev = .idle ∧ Answered (idle tiny) ∧
    Sound f ∧ Answered f ∧ f.dev = .fault ∧ f.recPh ≠ .none ∧
    Sound { idle tiny with rxq := [.data [1], .err] } ∧ Answered { idle tiny with rxq := [.data [1], .err] } := by decide

/-- StartFin. -/
theorem witness_StartFin :
    let s : State := { idle tiny with startPh := .neg, neg := .resolved }
    s.startPh = .neg ∧ s.neg = .resolved := by decide

/-- StopAndStopEnd: each clause. -/
theorem witness_StopAndStopEnd :
    let s : State := { running tiny with stopPh := .drain }
    Answered (State.resetOf tiny) ∧ (State.resetOf tiny).dev = .uninit ∧ Answered (running tiny) ∧
    (running tiny).dev ≠ .uninit ∧ s.stopPh = .drain ∧ s.recPh = .none := by decide

/-- SendCommand: each clause, at the bounds of the length; SetMacAddress, SetModeCommand, GetLinkStateAndStats. -/
theorem witness_SendCommand :
    Answered (idle tiny) ∧ (idle tiny).dev ≠ .uninit ∧ ¬ GoodLength tiny 0 [] ∧
    ¬ GoodLength tiny 65 (List.replicate 65 0) ∧ GoodLength tiny 1 [0] ∧ GoodLength tiny 64 (List.replicate 64 0) ∧
    (idle tiny).dev ≠ .running ∧ Answered (running tiny) ∧ (running tiny).dev = .running := by decide

/-- ReceiveCommand: each clause. -/
theorem witness_ReceiveCommand :
    let s (q : List RxEntry) : State := { running tiny with rxq := q }
    Answered (s []) ∧ (s []).dev ≠ .uninit ∧ (s []).rxq = [] ∧ (s [.err]).rxq = .err :: [] ∧
    (s [.data [1, 2]]).rxq = .data [1, 2] :: [] := by decide

/-- DmaSuccessor: each clause, at the last slot. -/
theorem witness_DmaSuccessor :
    let s := running tiny
    let c := running { tiny with modeTx := .chain }
    let B := (regRead c 0x1010).toNat
    let p := (freshSlot c.params .tx 0).next.toNat
    ringMode s.params .tx = .ring ∧ (freshSlot tiny .tx 1).wrap = true ∧ (freshSlot tiny .tx 0).wrap = false ∧
    0 + 1 < ringSize s.params .tx ∧ ringSize s.params .tx ≤ 1 + 1 ∧ ringMode c.params .tx = .chain ∧
    B ≤ p ∧ (p - B) % 16 = 0 ∧ (p - B) / 16 < 2 ∧ ¬ (B ≤ B + 8 ∧ (B + 8 - B) % 16 = 0 ∧ (B + 8 - B) / 16 < 2) ∧
    paramsOk s.params = true ∧ (regRead s 0x1010).toNat = (descBase s.params .tx).toNat ∧ SlotLinked s .tx 1 ∧
    paramsOk c.params = true ∧ SlotLinked c .tx 1 := by decide

/-- TxdmaStep: both clauses; a successor and none. -/
theorem witness_TxdmaStep :
    let ready (s : State) : Prop := Sound s ∧ s.tx.cur < s.params.nTx ∧ s.regs.dmaOpmode.getLsbD 13 = true ∧
      s.regs.macCfg.getLsbD 3 = true ∧ s.tx.halted = false ∧ s.tx.susp = false
    let q := queued tiny
    let bad := { withSlot q .tx 1 { txFrame q 1 64 true false with wrap := false } with tx := ⟨1, false, false⟩ }
    ready (running tiny) ∧ ((running tiny).desc .tx 0).own = false ∧ ready q ∧ (q.desc .tx 0).own = true ∧
    dmaSucc q .tx 0 (q.desc .tx 0) = some 1 ∧ ready bad ∧ (bad.desc .tx 1).own = true ∧
    dmaSucc bad .tx 1 (bad.desc .tx 1) = none := by decide

/-- RxdmaFrame: each clause, with a frame as long as the buffer. -/
theorem witness_RxdmaFrame :
    let ready (s : State) : Prop := Sound s ∧ s.rx.cur < s.params.nRx ∧ s.regs.dmaOpmode.getLsbD 1 = true ∧
      s.regs.macCfg.getLsbD 2 = true ∧ s.rx.halted = false
    let s := running tiny
    let w := withSlot s .rx 0 (rxFrame s 0 1 false false false)
    ready s ∧ (List.replicate 64 (0x55 : Byte)).length = (64 : Half).toNat ∧ s.rx.susp = false ∧ (s.desc .rx 0).own = true ∧
    (64 : Half).toNat ≤ (s.desc .rx 0).len.toNat ∧ (s.desc .rx 0).len.toNat ≤ s.params.bufSize ∧
    dmaSucc s .rx 0 (s.desc .rx 0) = some 1 ∧
    ready { s with rx := ⟨0, true, false⟩ } ∧ ready w ∧ w.rx.susp = false ∧ (w.desc .rx 0).own = false := by decide

/-- OverlongFrameTruncated: 65 bytes for a buffer of 64; RXDMA_FRAME is enabled there. -/
theorem witness_OverlongFrameTruncated :
    let s := running tiny
    (List.replicate 65 (0x55 : Byte)).length = (65 : Half).toNat ∧ (s.desc .rx s.rx.cur).len.toNat < (65 : Half).toNat ∧
    rxEnabled s = true ∧ (s.desc .rx s.rx.cur).own = true := by decide

/-- BusErrorAndLinkEvent. -/
theorem witness_BusErrorAndLinkEvent :
    let s := running tiny
    s.regs.dmaOpmode.getLsbD 13 = true ∧ s.tx.halted = false ∧ s.regs.dmaOpmode.getLsbD 1 = true ∧ s.rx.halted = false ∧
    s.dev ≠ .uninit := by decide

/-- EnginesRespectOwnership: both engines take a next state, with a SW-owned slot in each ring. -/
theorem witness_EnginesRespectOwnership :
    let s := queued tiny
    let w := withSlot s .rx 1 (rxFrame s 1 1 false false false)
    Sound w ∧ w.tx.cur < w.params.nTx ∧ w.rx.cur < w.params.nRx ∧
    (∀ j < w.params.nRx, (w.desc .rx j).len.toNat ≤ w.params.bufSize) ∧
    nextIs (exec (.txdmaStep false) w) (fun t => (w.desc .tx 1).own = false && t.mem ≠ w.mem) = true ∧
    nextIs (exec (.rxdmaFrame 1 [1] false false false) w)
      (fun t => (w.desc .rx 1).own = false && t.mem ≠ w.mem) = true := by decide

/-- BuffersRespectOwnership: SEND writes the buffer of a SW-owned slot while another is HW-owned. -/
theorem witness_BuffersRespectOwnership :
    let s := queued tiny
    paramsOk s.params = true ∧ s.txHead < s.params.nTx ∧ s.txTail < s.params.nTx ∧ s.rxHead < s.params.nRx ∧
    s.tx.cur < s.params.nTx ∧ (s.desc .tx 0).own = true ∧ nextIs (exec (.send 1 [7]) s) (fun t => t.mem ≠ s.mem) = true := by
  decide

/-- DeviceTransitions: a state in its phases from which the device state changes, for each arrow. -/
theorem witness_DeviceTransitions :
    let fin : State := { idle tiny with startPh := .neg, neg := .resolved }
    let stop : State := { running tiny with stopPh := .drain }
    let recovering : State := { running tiny with dev := .fault, recPh := .restart }
    PhasesOk (State.resetOf tiny) ∧ nextIs (exec .attach (State.resetOf tiny)) (fun t => t.dev ≠ .uninit) = true ∧
    PhasesOk fin ∧ nextIs (exec .startFin fin) (fun t => t.dev ≠ .idle) = true ∧
    PhasesOk stop ∧ nextIs (exec .stopEnd stop) (fun t => t.dev ≠ .running) = true ∧
    PhasesOk (running tiny) ∧ nextIs (exec .handleFatalError (running tiny)) (fun t => t.dev ≠ .running) = true ∧
    PhasesOk recovering ∧ nextIs (exec .recStepRestart recovering) (fun t => t.dev ≠ .fault) = true := by
  refine ⟨?_, by decide, ?_, by decide, ?_, by decide, ?_, by decide, ?_, by decide⟩ <;>
    exact ⟨by decide, by decide, by decide, by decide, by decide, by decide⟩

/-- CountersOnlyGrow and OnlyHostStepsAnswer: steps with a next state that count, send and answer. -/
theorem witness_OnlyHostStepsAnswer :
    nextIs (exec (.txdmaStep false) (queued tiny)) (fun t => t.wireTx.length = 1) = true ∧
    answersHost (.txdmaStep false) = false ∧
    nextIs (exec .handleRxStopped (running tiny)) (fun t => t.stats.stalls = 1) = true := by decide

/-- InvAtReset: the standard instance is well formed. -/
theorem witness_InvAtReset : paramsOk Params.standard = true ∧ paramsOk tiny = true := by decide

/-- A running state with a frame queued, one received and two entries in the FIFO, and a TX step scheduled. -/
def busy : State := { withSlot (queued tiny) .rx 0 (rxFrame (queued tiny) 0 3 false false false) with
  rx := ⟨1, false, false⟩, rxq := [.data [1], .err], script := [scheduled (.txdmaStep false)] }

/-- StepKeepsInv: such a state meets the invariant, and takes a step. -/
theorem witness_StepKeepsInv : Inv busy ∧ nextIs (step busy) (fun t => t.tx.cur = 1) = true :=
  ⟨⟨by decide, by decide, by decide, by decide, by decide, by decide, by decide, fun _ => ⟨by decide, by simp [busy]; decide⟩⟩,
    by decide⟩

/-- RingWindowsKept: the same state has both windows, and an agent step has a next state in it. -/
theorem witness_RingWindowsKept :
    Inv busy ∧ agentStep (.txdmaStep false) = true ∧
    nextIs (exec (.txdmaStep false) busy) (fun t => t.dev ≠ .uninit) = true ∧ TxWindow busy ∧ RxWindow busy :=
  ⟨witness_StepKeepsInv.1, by decide, by decide, ⟨1, by decide, by decide, by decide⟩, ⟨1, by decide, by decide, by decide⟩⟩

/-- StartIsBounded: an IDLE device with the script the statement names. -/
theorem witness_StartIsBounded :
    let s : State := { idle tiny with
      script := issued .start :: (List.replicate 2 (scheduled .negPoll) ++ [scheduled .startFin]) }
    Inv s ∧ s.dev = .idle ∧ Answered s ∧
      s.script = issued .start :: (List.replicate s.params.negPollMax (scheduled .negPoll) ++ scheduled .startFin :: []) :=
  ⟨⟨by decide, by decide, by decide, by decide, by decide, by decide, by decide,
    fun _ => ⟨by decide, by intro e he; cases he⟩⟩, by decide, by decide, by decide⟩

end Sys2Proof.Tests
end

section
/-! PROOFS. The event counters (spec/10_state.md R33): what each shared operation does to `stats`. R12 lets an event add to
a counter; only ATTACH (R230) puts the counters back. -/

namespace Sys2Proof.Machine

/-! ## Operations that leave the counters alone -/

@[simp] theorem setStatus_stats (s : State) (flag : Word) : (setStatus s flag).stats = s.stats := rfl

@[simp] theorem setEngine_stats (s : State) (k : RingKind) (e : Engine) : (s.setEngine k e).stats = s.stats := by
  cases k <;> rfl

@[simp] theorem raiseBusError_stats (s : State) : (raiseBusError s).stats = s.stats := rfl

@[simp] theorem statusSnapshot_stats (s : State) : (statusSnapshot s).2.stats = s.stats := rfl

@[simp] theorem mdioRead_stats (s : State) (reg : BitVec 5) : (mdioRead s reg).2.stats = s.stats := by
  obtain ⟨a, d, q, n, h⟩ := mdioRead_frame s reg
  rw [h]

@[simp] theorem mdioWrite_stats (s : State) (reg : BitVec 5) (v : Half) : (mdioWrite s reg v).stats = s.stats := by
  obtain ⟨a, d, y, h⟩ := mdioWrite_frame s reg v
  rw [h]

@[simp] theorem initRing_stats (s : State) (k : RingKind) : (initRing s k).stats = s.stats := by cases k <;> rfl

@[simp] theorem initRings_stats (s : State) : (initRings s).stats = s.stats := by
  simp only [initRings, initRing_stats]

@[simp] theorem programBases_stats (s : State) : (programBases s).stats = s.stats := by
  simp only [programBases, writeReg_stats]

@[simp] theorem writeMacCfg_stats (s : State) (en : Bool) : (writeMacCfg s en).stats = s.stats :=
  writeReg_stats _ _ _

@[simp] theorem writeMacAddr_stats (s : State) : (writeMacAddr s).stats = s.stats := by
  simp only [writeMacAddr, writeReg_stats]

@[simp] theorem startEngines_stats (s : State) : (startEngines s).stats = s.stats := by
  simp only [startEngines, writeReg_stats, writeMacCfg_stats]

@[simp] theorem respondWith_stats (s : State) (code : ResultCode) (value : Nat) (payload : RespPayload) :
    (respondWith s code value payload).stats = s.stats := rfl

@[simp] theorem respond_stats (s : State) (code : ResultCode) : (respond s code).stats = s.stats := rfl

/-! ### The link sequencer -/

@[simp] theorem startNegotiation_stats (s : State) (adv : BitVec 6) : (startNegotiation s adv).stats = s.stats := by
  unfold startNegotiation
  dsimp only
  split <;> simp only [mdioWrite_stats]

@[simp] theorem readCommon_stats (s : State) : (readCommon s).2.stats = s.stats := by
  unfold readCommon
  dsimp only
  split <;> simp only [mdioRead_stats]

@[simp] theorem applyResolution_stats (s : State) (common : BitVec 6) (bmsr : Half) :
    (applyResolution s common bmsr).2.stats = s.stats := by
  unfold applyResolution
  split <;> rfl

@[simp] theorem resolveLinkMode_stats (s : State) : (resolveLinkMode s).2.stats = s.stats := by
  simp only [resolveLinkMode, applyResolution_stats, mdioRead_stats, readCommon_stats]

@[simp] theorem pollIncomplete_stats (s : State) (bmsr : Half) : (pollIncomplete s bmsr).stats = s.stats := by
  unfold pollIncomplete
  split <;> rfl

@[simp] theorem negPoll_stats (s : State) : (negPoll s).stats = s.stats := by
  unfold negPoll
  dsimp only
  split
  · simp only [resolveLinkMode_stats, mdioRead_stats]
  · simp only [pollIncomplete_stats, mdioRead_stats]

@[simp] theorem forceLink_stats (s : State) (m : LinkMode) : (forceLink s m).stats = s.stats := by
  simp only [forceLink, mdioRead_stats, mdioWrite_stats]

@[simp] theorem reconfigureMac_stats (s : State) (m : LinkMode) : (reconfigureMac s m).stats = s.stats := by
  simp only [reconfigureMac, writeReg_stats, programBases_stats, initRings_stats, writeMacCfg_stats]

@[simp] theorem reconfigureIfChanged_stats (old : LinkMode) (s : State) :
    (reconfigureIfChanged old s).stats = s.stats := by
  unfold reconfigureIfChanged
  split
  · exact reconfigureMac_stats _ _
  · rfl

@[simp] theorem setCarrier_stats (s : State) (c : Carrier) : (setCarrier s c).stats = s.stats := rfl

@[simp] theorem serviceLink_stats (s : State) : (serviceLink s).stats = s.stats := by
  unfold serviceLink
  dsimp only
  split
  · simp only [setCarrier_stats, mdioRead_stats]
  split
  · split
    · simp only [setCarrier_stats, mdioRead_stats]
    · simp only [reconfigureIfChanged_stats, resolveLinkMode_stats, mdioRead_stats]
  · simp only [reconfigureIfChanged_stats, setCarrier_stats, mdioRead_stats]

@[simp] theorem linkChangeService_stats (s : State) : (linkChangeService s).stats = s.stats := by
  unfold linkChangeService
  split
  · exact serviceLink_stats s
  · rfl

/-! ### The recovery steps -/

@[simp] theorem recStopping_stats (s : State) : (recStopping s).stats = s.stats := by
  simp only [recStopping, writeMacCfg_stats, writeReg_stats]

@[simp] theorem recReinit_stats (s : State) : (recReinit s).stats = s.stats := by
  simp only [recReinit, programBases_stats, initRings_stats]

@[simp] theorem recReapply_stats (s : State) : (recReapply s).stats = s.stats := by
  simp only [recReapply, writeMacCfg_stats, writeReg_stats, writeMacAddr_stats]

@[simp] theorem recRestart_stats (s : State) : (recRestart s).stats = s.stats := by
  simp only [recRestart, startEngines_stats, writeReg_stats]

/-! ### The engines -/

@[simp] theorem advance_stats (s : State) (k : RingKind) (i : Nat) (d : Desc) : (advance s k i d).stats = s.stats := by
  obtain ⟨j, -, h⟩ | ⟨-, h⟩ := advance_cases s k i d
  · rw [h, setEngine_stats]
  · rw [h, raiseBusError_stats]

@[simp] theorem suspend_stats (s : State) (k : RingKind) (flag : Word) : (suspend s k flag).stats = s.stats := by
  simp only [suspend, setEngine_stats, setStatus_stats]

@[simp] theorem txdmaStep_stats (s : State) (u : Bool) : (txdmaStep s u).stats = s.stats := by
  unfold txdmaStep
  split
  · simp only [txComplete, advance_stats, setStatus_stats]
  · exact suspend_stats _ _ _

@[simp] theorem rxdmaFrame_stats (s : State) (len : Nat) (bytes : List Byte) (crc lerr ovf : Bool) :
    (rxdmaFrame s len bytes crc lerr ovf).stats = s.stats := by
  unfold rxdmaFrame
  split
  · rfl
  split
  · simp only [rxComplete, advance_stats, setStatus_stats, State.setMem_stats]
  · exact suspend_stats _ _ _

/-! ### The host commands -/

@[simp] theorem publishTx_stats (s : State) (length : Nat) (bytes : List Byte) :
    (publishTx s length bytes).stats = s.stats := by rw [publishTx_frame]

@[simp] theorem enqueueTx_stats (s : State) (length : Nat) (bytes : List Byte) :
    (enqueueTx s length bytes).2.2.stats = s.stats := by
  unfold enqueueTx
  split
  · rfl
  · exact publishTx_stats _ _ _

@[simp] theorem send_stats (s : State) (length : Nat) (bytes : List Byte) : (send s length bytes).stats = s.stats := by
  unfold send
  split
  · exact enqueueTx_stats _ _ _
  · rfl

@[simp] theorem receive_stats (s : State) (cap : Nat) : (receive s cap).stats = s.stats := by
  unfold receive
  split <;> rfl

@[simp] theorem beginLink_stats (s : State) : (beginLink s).stats = s.stats := by
  unfold beginLink
  split
  · exact startNegotiation_stats _ _
  · exact forceLink_stats _ _

@[simp] theorem startBegin_stats (s : State) : (startBegin s).stats = s.stats := by
  simp only [startBegin, beginLink_stats, writeReg_stats, writeMacAddr_stats, programBases_stats, initRings_stats,
    writeMacCfg_stats]

@[simp] theorem start_stats (s : State) : (start s).stats = s.stats := by
  unfold start
  split
  · rfl
  · rfl
  · split <;> rfl
  · exact startBegin_stats _

@[simp] theorem startFin_stats (s : State) : (startFin s).stats = s.stats := by
  simp only [startFin, respond_stats, startEngines_stats, writeReg_stats]

@[simp] theorem stop_stats (s : State) : (stop s).stats = s.stats :=
  writeReg_stats _ _ _

@[simp] theorem stopEnd_stats (s : State) : (stopEnd s).stats = s.stats := by
  simp only [stopEnd, respond_stats, writeMacCfg_stats, writeReg_stats]

@[simp] theorem setMacAddress_stats (s : State) (mac : MacAddr) : (setMacAddress s mac).stats = s.stats := by
  simp only [setMacAddress, respond_stats, writeMacAddr_stats]

@[simp] theorem setMode_stats (s : State) (mode : CfgMode) : (setMode s mode).stats = s.stats := rfl

/-! ## Operations that count -/

theorem handleFatalError_stats (s : State) :
    (handleFatalError s).stats = if s.dev = .running then s.stats.countFatal else s.stats := by
  unfold handleFatalError
  split <;> rfl

theorem handleRxStopped_stats (s : State) :
    (handleRxStopped s).stats = if s.dev = .running then s.stats.countStall else s.stats := by
  unfold handleRxStopped
  split
  · simp only [writeReg_stats, initRing_stats, State.setStats_stats]
  · rfl

theorem handleTxStopped_stats (s : State) :
    (handleTxStopped s).stats = if s.dev = .running then s.stats.countStall else s.stats := by
  unfold handleTxStopped
  split
  · simp only [writeReg_stats, initRing_stats, State.setStats_stats]
  · rfl

/-- Each of the ten counters of `d` is at least what it is in `c` (R12). -/
structure CountersLe (c d : Stats) : Prop where
  interrupts     : c.interrupts ≤ d.interrupts
  txPackets      : c.txPackets ≤ d.txPackets
  rxPackets      : c.rxPackets ≤ d.rxPackets
  rxCrcErrors    : c.rxCrcErrors ≤ d.rxCrcErrors
  rxLengthErrors : c.rxLengthErrors ≤ d.rxLengthErrors
  rxOverflow     : c.rxOverflow ≤ d.rxOverflow
  rxDropped      : c.rxDropped ≤ d.rxDropped
  txUnderflow    : c.txUnderflow ≤ d.txUnderflow
  fatalErrors    : c.fatalErrors ≤ d.fatalErrors
  stalls         : c.stalls ≤ d.stalls

namespace CountersLe

theorem refl (c : Stats) : CountersLe c c := by constructor <;> exact le_rfl

theorem of_eq {c d : Stats} (h : d = c) : CountersLe c d := h ▸ refl c

theorem trans {a b c : Stats} (h : CountersLe a b) (g : CountersLe b c) : CountersLe a c where
  interrupts     := h.interrupts.trans g.interrupts
  txPackets      := h.txPackets.trans g.txPackets
  rxPackets      := h.rxPackets.trans g.rxPackets
  rxCrcErrors    := h.rxCrcErrors.trans g.rxCrcErrors
  rxLengthErrors := h.rxLengthErrors.trans g.rxLengthErrors
  rxOverflow     := h.rxOverflow.trans g.rxOverflow
  rxDropped      := h.rxDropped.trans g.rxDropped
  txUnderflow    := h.txUnderflow.trans g.txUnderflow
  fatalErrors    := h.fatalErrors.trans g.fatalErrors
  stalls         := h.stalls.trans g.stalls

theorem countInterrupt (c : Stats) : CountersLe c c.countInterrupt := by constructor <;> simp [Stats.countInterrupt]

theorem countFatal (c : Stats) : CountersLe c c.countFatal := by constructor <;> simp [Stats.countFatal]

theorem countStall (c : Stats) : CountersLe c c.countStall := by constructor <;> simp [Stats.countStall]

/-- An event counted under a condition. -/
theorem ite {p : Prop} [Decidable p] {c d : Stats} (h : CountersLe c d) : CountersLe c (if p then d else c) := by
  split
  · exact h
  · exact refl c

end CountersLe

/-! ### The reclaim walks -/

theorem reclaimTxOne_countersLe (s : State) : CountersLe s.stats (reclaimTxOne s).stats := by
  rw [reclaimTxOne_frame]
  constructor <;> simp

theorem reclaimTxLoop_countersLe (n : Nat) (s : State) : CountersLe s.stats (reclaimTxLoop n s).2.stats := by
  induction n generalizing s with
  | zero => exact .refl _
  | succ n ih =>
    unfold reclaimTxLoop
    split
    · exact .refl _
    · exact (reclaimTxOne_countersLe s).trans (ih _)

theorem reclaimTx_countersLe (s : State) : CountersLe s.stats (reclaimTx s).2.stats := reclaimTxLoop_countersLe _ s

/-- A frame taken from the RX ring only adds (R134, R136). -/
theorem consumeFrame_countersLe (depth : Nat) (d : Desc) (bytes : List Byte) (q : List RxEntry) (c : Stats) :
    CountersLe c (Safety.consumeFrame depth d bytes q c).2 := by
  constructor <;> simp [Safety.consumeFrame, Nat.add_assoc]

theorem reclaimRxOne_countersLe (s : State) : CountersLe s.stats (reclaimRxOne s).stats := by
  rw [reclaimRxOne_frame]
  dsimp only
  exact consumeFrame_countersLe _ _ _ _ _

theorem reclaimRxLoop_countersLe (n : Nat) (s : State) : CountersLe s.stats (reclaimRxLoop n s).2.stats := by
  induction n generalizing s with
  | zero => exact .refl _
  | succ n ih =>
    unfold reclaimRxLoop
    split
    · exact .refl _
    · exact (reclaimRxOne_countersLe s).trans (ih _)

/-- The poll demand after the walk (R133) leaves the counters alone. -/
theorem reclaimRx_countersLe (s : State) (maxCount : Nat) : CountersLe s.stats (reclaimRx s maxCount).2.stats := by
  have hwalk := reclaimRxLoop_countersLe (min maxCount s.params.nRx) s
  unfold reclaimRx
  dsimp only
  split
  · rwa [writeReg_stats]
  · exact hwalk

/-! ### The recoveries, the ISR and the tick -/

theorem handleFatalError_countersLe (s : State) : CountersLe s.stats (handleFatalError s).stats := by
  rw [handleFatalError_stats]
  exact .ite (.countFatal _)

theorem handleRxStopped_countersLe (s : State) : CountersLe s.stats (handleRxStopped s).stats := by
  rw [handleRxStopped_stats]
  exact .ite (.countStall _)

theorem handleTxStopped_countersLe (s : State) : CountersLe s.stats (handleTxStopped s).stats := by
  rw [handleTxStopped_stats]
  exact .ite (.countStall _)

theorem isrDataPath_countersLe (s : State) (snapshot : Word) : CountersLe s.stats (isrDataPath s snapshot).stats := by
  have hwalks : CountersLe s.stats (reclaimTx (reclaimRx s s.params.nRx).2).2.stats :=
    (reclaimRx_countersLe s _).trans (reclaimTx_countersLe _)
  unfold isrDataPath
  dsimp only
  rw [writeReg_stats]
  split
  · exact hwalks.trans (handleRxStopped_countersLe _)
  · exact hwalks

/-- The paths of an ISR invocation with a snapshot that is not 0 (R190): each counts the interrupt first. -/
theorem isrService_countersLe (s : State) (snapshot : Word) : CountersLe s.stats (isrService s snapshot).stats := by
  refine (CountersLe.countInterrupt s.stats).trans ?_
  have hfatal := handleFatalError_countersLe (writeReg (s.setStats s.stats.countInterrupt) .dmaIer 0)
  have hdata := isrDataPath_countersLe (writeReg (s.setStats s.stats.countInterrupt) .dmaIer 0) snapshot
  rw [writeReg_stats, State.setStats_stats] at hfatal hdata
  unfold isrService
  dsimp only
  split
  · exact .of_eq (linkChangeService_stats _)
  split
  · exact hfatal
  split
  · exact hdata
  · exact .of_eq (writeReg_stats _ _ _)

theorem isr_countersLe (s : State) : CountersLe s.stats (isr s).stats := by
  unfold isr
  dsimp only
  split
  · exact .of_eq (statusSnapshot_stats s)
  · rw [← statusSnapshot_stats s]
    exact isrService_countersLe _ _

theorem watchdogTick_countersLe (s : State) : CountersLe s.stats (watchdogTick s).stats := by
  unfold watchdogTick
  dsimp only
  split
  · exact .refl _
  split
  · exact handleTxStopped_countersLe { s with wdCount := s.wdCount + 1 }
  · exact .refl _

theorem watchdog_countersLe (s : State) : CountersLe s.stats (watchdog s).stats := by
  unfold watchdog
  split
  · exact .refl _
  · exact watchdogTick_countersLe s
  · exact .refl _
  · exact .refl _

/-! ## What an operation answers -/

/-- If the outcome is a next state, it has no counter below what `s` has. -/
def CountersKeptBy (s : State) (o : Host.Outcome State Fault Refusal) : Prop :=
  ∀ t, o = .next t → CountersLe s.stats t.stats

namespace CountersKeptBy

variable {s t : State}

theorem next (h : CountersLe s.stats t.stats) : CountersKeptBy s (.next t) := by
  rintro _ ⟨⟩
  exact h

theorem next_eq (h : t.stats = s.stats) : CountersKeptBy s (.next t) := .next (.of_eq h)

/-- An operation that runs and leaves its return value (log 18). -/
theorem returns (r : OpResult) (h : CountersLe s.stats t.stats) : CountersKeptBy s (.next (t.setRet r)) := .next h

theorem returns_eq (r : OpResult) (h : t.stats = s.stats) : CountersKeptBy s (.next (t.setRet r)) :=
  .returns r (.of_eq h)

theorem fault (f : Fault) : CountersKeptBy s (.fault f) := by
  rintro _ ⟨⟩

/-- A choice between two outcomes. -/
theorem ite {c : Prop} [Decidable c] {o o' : Host.Outcome State Fault Refusal} (h : CountersKeptBy s o)
    (h' : CountersKeptBy s o') : CountersKeptBy s (if c then o else o') := by
  split
  · exact h
  · exact h'

/-- A step under an enabling condition (log 6). -/
theorem enabled {c : Prop} [Decidable c] (h : CountersLe s.stats t.stats) :
    CountersKeptBy s (if c then .next (t.setRet .none) else .next (notEnabled s)) :=
  .ite (.returns _ h) (.returns_eq _ rfl)

theorem enabled_eq {c : Prop} [Decidable c] (h : t.stats = s.stats) :
    CountersKeptBy s (if c then .next (t.setRet .none) else .next (notEnabled s)) := .enabled (.of_eq h)

/-- A command under the host duties (R245, R246). -/
theorem command {k : State → State} (h : ∀ s, (k s).stats = s.stats) : CountersKeptBy s (hostCommand s k) :=
  .ite (.fault _) (.ite (.fault _) (.next_eq (h s)))

end CountersKeptBy

theorem illegalCommand_countersKept (s : State) : CountersKeptBy s (illegalCommand s) :=
  .ite (.fault _) (.next_eq (respond_stats s _))

/-- A SEND stops at a host duty, or on its length, or runs (R117, R238). -/
theorem execSend_countersKept (len : Half) (bytes : List Byte) (s : State) :
    CountersKeptBy s (execSend len bytes s) := by
  unfold execSend
  obtain ⟨-, h⟩ | ⟨-, -, h⟩ | ⟨-, -, h⟩ := hostCommand_cases s id
  · rw [h]; exact .fault _
  · rw [h]; exact .fault _
  · rw [h]; exact .ite (.next_eq (send_stats _ _ _)) (.fault _)

/-- Every operation but ATTACH keeps or raises each counter. -/
theorem exec_countersKept (i : Instr) (s : State) (hi : i ≠ .attach) : CountersKeptBy s (exec i s) := by
  cases i with
  | attach => exact absurd rfl hi
  | start => exact .command start_stats
  | stop => exact .ite (.fault _) (.ite (.next_eq (respond_stats s _)) (.next_eq (stop_stats s)))
  | send len bytes => exact execSend_countersKept len bytes s
  | receive cap => exact .command fun s => receive_stats s _
  | getLinkState => exact .command fun s => respondWith_stats s _ _ _
  | getStats => exact .command fun s => respondWith_stats s _ _ _
  | setMacAddress mac => exact .command fun s => setMacAddress_stats s mac
  | setModeAuto => exact .command fun s => setMode_stats s _
  | setModeForced speed duplex => exact .ite (illegalCommand_countersKept s) (.command fun s => setMode_stats s _)
  | watchdog => exact .next (watchdog_countersLe s)
  | initRing kind => exact .returns_eq _ (initRing_stats s kind)
  | enqueueTx len bytes => exact .ite (.returns_eq _ (enqueueTx_stats s _ bytes)) (.fault _)
  | reclaimTx => exact .returns _ (reclaimTx_countersLe s)
  | reclaimRx maxCount => exact .returns _ (reclaimRx_countersLe s _)
  | mdioRead reg => exact .returns_eq _ (mdioRead_stats s reg)
  | mdioWrite reg value => exact .returns_eq _ (mdioWrite_stats s reg value)
  | startNegotiation adv => exact .returns_eq _ (startNegotiation_stats s adv)
  | negPoll => exact .enabled_eq (negPoll_stats s)
  | forceLink speed duplex => exact .returns_eq _ (forceLink_stats s _)
  | resolveLinkMode => exact .returns_eq _ (resolveLinkMode_stats s)
  | reconfigureMac speed duplex => exact .returns_eq _ (reconfigureMac_stats s _)
  | isr => exact .enabled (isr_countersLe s)
  | linkChangeService => exact .returns_eq _ (linkChangeService_stats s)
  | handleFatalError => exact .returns _ (handleFatalError_countersLe s)
  | recStepStopping => exact .enabled_eq (recStopping_stats s)
  | recStepReinit => exact .enabled_eq (recReinit_stats s)
  | recStepReapply => exact .enabled_eq (recReapply_stats s)
  | recStepRestart => exact .enabled_eq (recRestart_stats s)
  | handleRxStopped => exact .returns _ (handleRxStopped_countersLe s)
  | handleTxStopped => exact .returns _ (handleTxStopped_countersLe s)
  | startFin => exact .enabled_eq (startFin_stats s)
  | stopEnd => exact .enabled_eq (stopEnd_stats s)
  | txdmaStep underflow => exact .enabled_eq (txdmaStep_stats s underflow)
  | rxdmaFrame len bytes crc lerr ovf => exact .enabled_eq (rxdmaFrame_stats s _ bytes crc lerr ovf)
  | busError => exact .enabled_eq (raiseBusError_stats s)
  | phyLinkEvent => exact .ite (.returns_eq _ rfl) (.returns_eq _ (setStatus_stats s _))

/-- Settles O55: by the operation; only an event of R33 changes a counter, and it adds. -/
theorem countersOnlyGrow : Obligations.CountersOnlyGrow := by
  intro i s t h hi
  obtain ⟨h1, h2, h3, h4, h5, h6, h7, h8, h9, h10⟩ := exec_countersKept i s hi t h
  exact ⟨h1, h2, h3, h4, h5, h6, h7, h8, h9, h10⟩

end Sys2Proof.Machine
end

section
/-! PROOFS. The OP of a decoded packet (spec/30_encoding.md R111, R113), and one step of the machine by the next item of its
input (spec/00_scope.md R14). -/

namespace Sys2Proof.Machine

/-! ## The decoder keeps the OP -/

/-- If the decoder's answer is an operation, `op` is the OP of that operation's row in R113. -/
def DecodesToOp (op : BitVec 8) (r : Except DecodeError Instr) : Prop :=
  ∀ i, r = .ok i → opField (instrWord i) = op

namespace DecodesToOp

variable {op : BitVec 8} {sub : BitVec 4} {imm : Half} {p : List Byte} {i : Instr}

theorem error (e : DecodeError) : DecodesToOp op (.error e) := by
  rintro _ ⟨⟩

/-- The OP of a row's operation is the one its word is composed of. -/
theorem ok (h : opField (instrWord i) = op := by exact opField_commandWord _ _ _) : DecodesToOp op (.ok i) := by
  rintro _ ⟨⟩
  exact h

theorem ite {c : Prop} [Decidable c] {a b : Except DecodeError Instr} (ha : DecodesToOp op a) (hb : DecodesToOp op b) :
    DecodesToOp op (if c then a else b) := by
  split
  · exact ha
  · exact hb

/-- A row of the opcode map. -/
theorem row {c : BitVec 8} {a b : Except DecodeError Instr} (ha : DecodesToOp c a) (hb : DecodesToOp op b) :
    DecodesToOp op (if op = c then a else b) := by
  split
  · next h => exact h ▸ ha
  · exact hb

theorem plain (h : opField (instrWord i) = op := by exact opField_commandWord _ _ _) :
    DecodesToOp op (decodePlain sub imm p i) :=
  ite (error _) (ite (error _) (ite (error _) (ok h)))

theorem immOperand (h : opField (instrWord i) = op := by exact opField_commandWord _ _ _) :
    DecodesToOp op (decodeImm sub p i) :=
  ite (error _) (ite (error _) (ok h))

theorem frame (h : opField (instrWord i) = op := by exact opField_commandWord _ _ _) :
    DecodesToOp op (decodeFrame sub i) :=
  ite (error _) (ok h)

theorem mode {f : Speed → Duplex → Instr} (h : ∀ speed duplex, opField (instrWord (f speed duplex)) = op) :
    DecodesToOp op (decodeMode imm p f) := by
  unfold decodeMode
  refine ite (error _) ?_
  split
  · exact error _
  · exact ite (error _) (ok (h _ _))

theorem phyReg {k : BitVec 5 → Except DecodeError Instr} (h : ∀ reg, DecodesToOp op (k reg)) :
    DecodesToOp op (decodePhyReg sub imm k) := ite (error _) (ite (error _) (h _))

theorem mac : DecodesToOp 0x08 (decodeMac p) := by
  unfold decodeMac
  split
  · exact ok
  · exact error _

theorem mdioWrite (reg : BitVec 5) : DecodesToOp 0x25 (decodeMdioWrite reg p) := by
  unfold decodeMdioWrite
  split
  · exact ok
  · exact error _

theorem setMode : DecodesToOp 0x09 (decodeSetMode sub imm p) :=
  ite plain (ite (mode fun _ _ => opField_commandWord _ _ _) (error _))

theorem initRing : DecodesToOp 0x20 (decodeInitRing sub imm p) := ite plain (ite plain (error _))

theorem recStep : DecodesToOp 0x2E (decodeRecStep sub imm p) :=
  ite plain (ite plain (ite plain (ite plain (error _))))

theorem txDraw : DecodesToOp 0x40 (decodeTxDraw p) := by
  unfold decodeTxDraw
  split
  · exact ite (error _) ok
  · exact error _

theorem rxDraw (len : Half) : DecodesToOp 0x41 (decodeRxDraw len p) := by
  refine ite (error _) ?_
  unfold decodeRxFlags
  split
  · exact ite (error _) ok
  · exact error _

end DecodesToOp

/-- The opcode map answers with operations of the OP it was given: one line for each row of R113, in its order. -/
theorem decodeFields_decodesToOp (op : BitVec 8) (sub : BitVec 4) (imm : Half) (p : List Byte) :
    DecodesToOp op (decodeFields op sub imm p) := by
  unfold decodeFields
  refine .row .plain ?_
  refine .row .plain ?_
  refine .row .plain ?_
  refine .row .frame ?_
  refine .row .immOperand ?_
  refine .row .plain ?_
  refine .row .plain ?_
  refine .row (.ite (.error _) (.ite (.error _) .mac)) ?_
  refine .row .setMode ?_
  refine .row .plain ?_
  refine .row .initRing ?_
  refine .row .frame ?_
  refine .row .plain ?_
  refine .row .immOperand ?_
  refine .row (.phyReg fun _ => .plain) ?_
  refine .row (.phyReg fun reg => .mdioWrite reg) ?_
  refine .row (.ite (.error _) (.ite (.error _) .plain)) ?_
  refine .row .plain ?_
  refine .row (.ite (.error _) (.mode fun _ _ => opField_commandWord _ _ _)) ?_
  refine .row .plain ?_
  refine .row (.ite (.error _) (.mode fun _ _ => opField_commandWord _ _ _)) ?_
  refine .row .plain ?_
  refine .row .plain ?_
  refine .row .plain ?_
  refine .row .recStep ?_
  refine .row .plain ?_
  refine .row .plain ?_
  refine .row .plain ?_
  refine .row .plain ?_
  refine .row (.ite (.error _) (.ite (.error _) .txDraw)) ?_
  refine .row (.ite (.error _) (.rxDraw imm)) ?_
  refine .row .plain ?_
  refine .row .plain ?_
  exact .error _

/-- The OP of a decoded operation is the OP of the word. -/
theorem opField_of_decodeWord (w : Word) (p : List Byte) (i : Instr) (h : decodeWord w p = .ok i) :
    opField (instrWord i) = opField w := by
  have hw : DecodesToOp (opField w) (decodeWord w p) := .ite (.error _) (decodeFields_decodesToOp _ _ _ p)
  exact hw i h

/-- The host command words are the operations with OP 0x01 to 0x0A (R113, R116). -/
theorem isHostCommand_eq_hostOp (i : Instr) : i.isHostCommand = hostOp (opField (instrWord i)) := by
  cases i with
  | initRing kind => cases kind <;> rfl
  | _ =>
    simp only [instrWord, opField_commandWord]
    rfl

/-- The host port takes every packet that the decoder reads as a host command (R116). -/
theorem decodeHost_of_decode (bytes : List Byte) (i : Instr) (h : decode bytes = .ok i) (hi : i.isHostCommand = true) :
    decodeHost bytes = .command i := by
  unfold decode at h
  split at h
  · next b0 b1 b2 b3 p =>
    have hop : hostOp (opField (bytesWord b0 b1 b2 b3)) = true := by
      rw [← opField_of_decodeWord _ _ _ h, ← isHostCommand_eq_hostOp, hi]
    simp only [decodeHost, hop, if_true, h, hostWordOf]
  · cases h

/-! ## One step, by the next item of the input -/

theorem step_illFormed (s : State) (h : paramsOk s.params = false) : step s = .refused .illFormedInstance := by
  simp only [step, h, Bool.false_eq_true, if_false]

theorem step_idle (s : State) (hp : paramsOk s.params = true) (hs : s.script = []) : step s = .next s := by
  simp only [step, hp, if_true, hs]

theorem step_item (s : State) (item : Item) (rest : List Item) (hp : paramsOk s.params = true)
    (hs : s.script = item :: rest) : step s = stepItem item (takeItem s rest) := by
  simp only [step, hp, if_true, hs]

theorem stepAgent_of_decode (bytes : List Byte) (i : Instr) (s : State) (h : decode bytes = .ok i) :
    stepAgent bytes s = exec i s := by
  simp only [stepAgent, h]

theorem stepHost_of_decode (bytes : List Byte) (i : Instr) (s : State) (h : decode bytes = .ok i)
    (hi : i.isHostCommand = true) : stepHost bytes s = exec i s := by
  have hd := decodeHost_of_decode bytes i h hi
  have hp := hostPacket_of_decodeHost s.params.macGigabit bytes (by simp [hd])
  simp only [stepHost, hp, hd]

theorem hostTurn_lifted (s : State) (hh : s.startHeld = true) (hr : s.recPh = .none) :
    hostTurn s = respond { s with startHeld := false } .ok := by
  simp [hostTurn, hh, hr]

theorem hostTurn_notEnabled (s : State) (h : ¬ (s.startHeld = true ∧ s.recPh = .none)) :
    hostTurn s = notEnabled s := by
  simp [hostTurn, h]

theorem responseWord_ok_zero : responseWord .ok 0 = Safety.reply 0 0 := by decide

/-- Settles O9: by the kind of the next item. -/
theorem stepRunsTheNextItem : Obligations.StepRunsTheNextItem := by
  intro s bytes rest i
  refine ⟨step_illFormed s, fun hp => ⟨step_idle s hp, ?agent, ?host, ?lifted, ?notEnabled⟩⟩
  case agent =>
    intro hs hd
    rw [step_item s _ _ hp hs]
    exact stepAgent_of_decode bytes i _ hd
  case host =>
    intro hs hd hi
    rw [step_item s _ _ hp hs]
    exact stepHost_of_decode bytes i _ hd hi
  case lifted =>
    intro hs hh hr
    have ht := hostTurn_lifted (takeItem s rest) hh hr
    rw [step_item s _ _ hp hs, stepItem, ht, respond, respondWith, responseWord_ok_zero, takeItem]
  case notEnabled =>
    intro hs hn
    have ht := hostTurn_notEnabled (takeItem s rest) hn
    rw [step_item s _ _ hp hs, stepItem, ht]
    rfl

end Sys2Proof.Machine
end

section
/-! PROOFS. The register block (spec/10_state.md R39 to R49, R52): what each offset reads after a write to it. -/

namespace Sys2Proof.Machine

/-! ## Masks -/

/-- Masking a second time with the same mask changes nothing (R40). -/
theorem and_and_mask (v m : Word) : v &&& m &&& m = v &&& m := by rw [BitVec.and_assoc, BitVec.and_self]

/-- Writing back what MAC_CFG reads as changes nothing. -/
theorem macCfgWrite_idem (g : Bool) (v : Word) : macCfgWrite g (macCfgWrite g v) = macCfgWrite g v := by
  cases g
  · have hps : (0x00008000 : Word) &&& macCfgMask = 0x00008000 := by decide
    simp only [macCfgWrite, Bool.false_eq_true, if_false, BitVec.and_or_distrib_right, and_and_mask, hps,
      BitVec.or_assoc, BitVec.or_self]
  · simp only [macCfgWrite, if_true, and_and_mask]

/-- Without gigabit bit 15, PS, is 1 whatever is written to it (R41). -/
theorem and_macCfgMask_or_ps (v : Word) :
    v &&& macCfgMask ||| 0x00008000 = v &&& 0x0000480C ||| 0x00008000 := by
  rw [show macCfgMask = (0x0000480C : Word) ||| 0x00008000 from by decide, BitVec.and_or_distrib_left]
  apply BitVec.eq_of_getLsbD_eq
  intro i hi
  simp only [BitVec.getLsbD_or, BitVec.getLsbD_and]
  cases v.getLsbD i <;> cases (0x0000480C : Word).getLsbD i <;> cases (0x00008000 : Word).getLsbD i <;> rfl

/-- The write rule of MII_ADDR leaves only implemented bits (R43). -/
theorem miiAddrWrite_masked (old v : Word) :
    miiAddrWrite old v &&& miiAddrMask = (v &&& 0x0000FFC2) ||| ((old &&& miiAddrMask ||| v) &&& 1) := by
  have h1 : (0x0000FFC2 : Word) &&& miiAddrMask = 0x0000FFC2 := by decide
  have h2 : (1 : Word) &&& miiAddrMask = 1 := by decide
  have h3 : miiAddrMask &&& (1 : Word) = 1 := by decide
  simp only [miiAddrWrite, BitVec.and_or_distrib_right, BitVec.and_assoc, h1, h2, h3]

/-- A status bit is cleared exactly where a 1 is written (R47). -/
theorem w1c_masked (old v : Word) : w1c old v &&& statusMask = old &&& statusMask &&& ~~~v := by
  rw [w1c, BitVec.and_comm _ statusMask, ← BitVec.and_assoc, ← BitVec.and_assoc, BitVec.and_comm statusMask old,
    and_and_mask]

/-! ## The map -/

/-- An offset that is not in the table of R39 is no register. -/
theorem regAt_unlisted (off : Nat) (h : off ∉ [0x000, 0x004, 0x010, 0x014, 0x040, 0x044, 0x1004, 0x1008, 0x100C, 0x1010,
    0x1014, 0x1018, 0x101C, 0x1048, 0x104C]) : regAt off = none := by
  simp only [List.mem_cons, List.not_mem_nil, or_false, not_or] at h
  simp only [regAt, h, if_false]

/-- Only MAC_CFG is at offset 0. -/
theorem regAt_eq_macCfg (off : Nat) : regAt off = some .macCfg ↔ off = 0 := by
  constructor
  · intro h
    unfold regAt at h
    obtain ⟨h0, -⟩ | ⟨-, h⟩ := ite_eq_iff.mp h
    · exact h0
    · iterate 14 obtain ⟨-, ⟨⟩⟩ | ⟨-, h⟩ := ite_eq_iff.mp h
      cases h
  · rintro rfl
    rfl

/-- The reset column of R39, by register. -/
theorem readReg_resetOf (p : Params) (r : Reg) :
    readReg (State.resetOf p) r = if r = .macCfg ∧ p.macGigabit = false then 0x00008000 else 0 := by
  cases r with
  | macCfg => cases h : p.macGigabit <;> simp [readReg, State.resetOf, Regs.reset, macCfgWrite, macCfgMask, h]
  | _ => simp [readReg, State.resetOf, Regs.reset, Engine.reset]

theorem regRead_resetOf (p : Params) (off : Nat) :
    regRead (State.resetOf p) off = if off = 0 ∧ p.macGigabit = false then 0x00008000 else 0 := by
  simp only [← regAt_eq_macCfg, regRead]
  cases regAt off with
  | none => simp
  | some r => simp only [readReg_resetOf, Option.some.injEq]

/-- Settles O13: the listed offsets by the write rule of each register, the reset column by register. -/
theorem registerMap : Obligations.RegisterMap := by
  intro s p v off
  refine ⟨fun h => ?unlisted, ?macCfg, rfl, ?miiAddr, ?miiData, ?macAddrHi, rfl, ?rxBase, ?txBase, ?opmode, ?ier, ?status,
    rfl, rfl, rfl, rfl, rfl, rfl, regRead_resetOf p off⟩
  case unlisted =>
    have hoff := regAt_unlisted off h
    simp only [regRead, regWrite, hoff, and_self]
  case macCfg =>
    rw [← and_macCfgMask_or_ps]
    exact macCfgWrite_idem s.params.macGigabit v
  case miiAddr => exact miiAddrWrite_masked _ v
  case miiData => exact and_and_mask v _
  case macAddrHi => exact and_and_mask v _
  case rxBase => exact and_and_mask v _
  case txBase => exact and_and_mask v _
  case opmode => exact and_and_mask v _
  case ier => exact and_and_mask v _
  case status => exact w1c_masked _ v

/-- Settles O14: each write is the write rule of the register at that offset. -/
theorem pollDemandsAndBaseWrites : Obligations.PollDemandsAndBaseWrites := by
  intro s v
  exact ⟨rfl, rfl, rfl, rfl, rfl, rfl⟩

end Sys2Proof.Machine
end

section
/-! PROOFS. The invariant in two parts: what every operation keeps, inside a step too (`CoreOk`), and how the phases agree with
the device state (`ControlOk`, spec/10_state.md R20, R35, R52). The parts of an operation compose as relations between the
state before and the state after: `Steady` keeps the first part and does not touch the second, `Quiet` leaves both rings
alone besides. -/

namespace Sys2Proof.Machine

open Sys2Proof.Safety

/-! ## The two parts of the invariant -/

/-- Both base registers hold the bases of the rings (R52). -/
abbrev BasesSet (s : State) : Prop := s.regs.dmaTxBase = s.params.txDescBase ∧ s.regs.dmaRxBase = s.params.rxDescBase

/-- An engine whose start bit is set has its base programmed (R52). -/
abbrev StartBitsOk (s : State) : Prop :=
  (s.regs.dmaOpmode.getLsbD 13 = true → s.regs.dmaTxBase = s.params.txDescBase) ∧
    (s.regs.dmaOpmode.getLsbD 1 = true → s.regs.dmaRxBase = s.params.rxDescBase)

/-- `neg` rests in a state of R162, and the bounded wait is not over while negotiating (R164). -/
abbrev NegOk (s : State) : Prop :=
  (s.neg = .idle ∨ s.neg = .negotiating ∨ s.neg = .resolved) ∧ s.negPolls ≤ s.params.negPollMax ∧
    (s.neg = .negotiating → s.negPolls < s.params.negPollMax)

/-- The indices of both rings, of both engines and of the watchdog are in range (R22, R24, R37, R50). -/
abbrev RingIndicesOk (s : State) : Prop :=
  s.txHead < s.params.nTx ∧ s.txTail < s.params.nTx ∧ s.rxHead < s.params.nRx ∧ s.tx.cur < s.params.nTx ∧
    s.rx.cur < s.params.nRx ∧ s.wdCur < s.params.nTx ∧ s.wdCount < s.params.stallTicks

/-- The part of the invariant that does not speak of the phases. -/
structure CoreOk (s : State) : Prop where
  params    : paramsOk s.params = true
  mem       : s.mem.wf = true
  regs      : RegsOk s
  startBits : StartBitsOk s
  neg       : NegOk s
  indices   : RingIndicesOk s
  rings     : s.dev ≠ .uninit → RingsOk s
  queue     : s.dev ≠ .uninit → QueueOk s

/-- The part of the invariant on the phases (R20, R35), and the bases programmed in the phases that rely on them (R52). -/
structure ControlOk (s : State) : Prop where
  fault      : s.dev = .fault ↔ s.recPh ≠ .none
  negIdle    : s.startPh = .neg → s.dev = .idle
  negAlone   : s.startPh = .neg → s.stopPh = .none ∧ s.startHeld = false
  drainAlone : s.stopPh = .drain → s.startHeld = false
  uninit     : s.dev = .uninit → s.startPh = .none ∧ s.stopPh = .none ∧ s.startHeld = false
  bases      : s.startPh = .neg ∨ s.dev = .running ∨ s.recPh = .reapply ∨ s.recPh = .restart → BasesSet s

theorem inv_iff (s : State) : Inv s ↔ CoreOk s ∧ ControlOk s := by
  constructor
  · rintro ⟨params, mem, regs, ⟨p1, p2, p3, p4, p5, p6⟩, ⟨b1, b2⟩, ⟨i1, i2, i3, i4, i5, i6, i7, i8, i9⟩, rings, queue⟩
    exact ⟨⟨params, mem, regs, b2, ⟨p6, i8, i9⟩, ⟨i1, i2, i3, i4, i5, i6, i7⟩, rings, queue⟩, ⟨p1, p2, p3, p4, p5, b1⟩⟩
  · rintro ⟨⟨params, mem, regs, b2, ⟨p6, i8, i9⟩, ⟨i1, i2, i3, i4, i5, i6, i7⟩, rings, queue⟩, ⟨p1, p2, p3, p4, p5, b1⟩⟩
    exact ⟨params, mem, regs, ⟨p1, p2, p3, p4, p5, p6⟩, ⟨b1, b2⟩, ⟨i1, i2, i3, i4, i5, i6, i7, i8, i9⟩, rings, queue⟩

/-! ## Steps inside an operation -/

/-- `t` has the parameters and the phases of `s`, and the rest of the invariant, if `s` has it. -/
structure Steady (s t : State) : Prop where
  params    : t.params = s.params := by rfl
  dev       : t.dev = s.dev := by rfl
  startPh   : t.startPh = s.startPh := by rfl
  stopPh    : t.stopPh = s.stopPh := by rfl
  recPh     : t.recPh = s.recPh := by rfl
  startHeld : t.startHeld = s.startHeld := by rfl
  core      : CoreOk s → CoreOk t
  bases     : CoreOk s → BasesSet s → BasesSet t

/-- `t` has also the memory, the heads and the cursors of `s`. -/
structure Quiet (s t : State) : Prop extends Steady s t where
  mem    : t.mem = s.mem := by rfl
  txHead : t.txHead = s.txHead := by rfl
  rxHead : t.rxHead = s.rxHead := by rfl
  txCur  : t.tx.cur = s.tx.cur := by rfl
  rxCur  : t.rx.cur = s.rx.cur := by rfl

namespace Steady

variable {s t u : State}

theorem refl (s : State) : Steady s s := ⟨rfl, rfl, rfl, rfl, rfl, rfl, id, fun _ => id⟩

theorem trans (h : Steady s t) (g : Steady t u) : Steady s u where
  params    := g.params.trans h.params
  dev       := g.dev.trans h.dev
  startPh   := g.startPh.trans h.startPh
  stopPh    := g.stopPh.trans h.stopPh
  recPh     := g.recPh.trans h.recPh
  startHeld := g.startHeld.trans h.startHeld
  core      := fun hc => g.core (h.core hc)
  bases     := fun hc hb => g.bases (h.core hc) (h.bases hc hb)

/-- A step that leaves the phases alone keeps the invariant on them. -/
theorem controlOk (h : Steady s t) (hc : CoreOk s) (hs : ControlOk s) : ControlOk t := by
  obtain ⟨fault, negIdle, negAlone, drainAlone, uninit, bases⟩ := hs
  constructor
  · rwa [h.dev, h.recPh]
  · rwa [h.startPh, h.dev]
  · rwa [h.startPh, h.stopPh, h.startHeld]
  · rwa [h.stopPh, h.startHeld]
  · rwa [h.dev, h.startPh, h.stopPh, h.startHeld]
  · rw [h.startPh, h.dev, h.recPh]
    exact fun hp => h.bases hc (bases hp)

theorem inv (h : Steady s t) (hs : Inv s) : Inv t := by
  obtain ⟨hc, hp⟩ := (inv_iff s).mp hs
  exact (inv_iff t).mpr ⟨h.core hc, h.controlOk hc hp⟩

end Steady

namespace Quiet

variable {s t u : State}

theorem refl (s : State) : Quiet s s := ⟨.refl s, rfl, rfl, rfl, rfl, rfl⟩

theorem trans (h : Quiet s t) (g : Quiet t u) : Quiet s u where
  toSteady := h.toSteady.trans g.toSteady
  mem      := g.mem.trans h.mem
  txHead   := g.txHead.trans h.txHead
  rxHead   := g.rxHead.trans h.rxHead
  txCur    := g.txCur.trans h.txCur
  rxCur    := g.rxCur.trans h.rxCur

/-- The fields the invariant does not mention. -/
theorem book {l : Link} {k : BitVec 6} {c : Cfg} {st : Stats} {nr : NegResult} {y : Phy} {w : List WireFrame}
    {rs : Option Response} {tr : Option Word} {rt : OpResult} {sc : List Item} {q : List Half} {n : Nat} :
    Quiet s { s with
      link := l, knownGood := k, cfg := c, stats := st, negResult := nr, phy := y, wireTx := w, resp := rs
      tickResp := tr, ret := rt, script := sc, phyIn := q, drawCtr := n } where
  core := fun h => ⟨h.params, h.mem, h.regs, h.startBits, h.neg, h.indices, h.rings, h.queue⟩
  bases := fun _ => id

/-- The negotiation state machine moves (R162). -/
theorem negotiation {n : NegState} {k : Nat} (h : CoreOk s → NegOk { s with neg := n, negPolls := k }) :
    Quiet s { s with neg := n, negPolls := k } where
  core := fun hc => ⟨hc.params, hc.mem, hc.regs, hc.startBits, h hc, hc.indices, hc.rings, hc.queue⟩
  bases := fun _ => id

/-- The watchdog's record moves (R37). -/
theorem tick {c n : Nat} (hw : CoreOk s → c < s.params.nTx ∧ n < s.params.stallTicks) :
    Quiet s { s with wdCur := c, wdCount := n } where
  core := fun hc => by
    obtain ⟨i1, i2, i3, i4, i5, -, -⟩ := hc.indices
    exact ⟨hc.params, hc.mem, hc.regs, hc.startBits, hc.neg, ⟨i1, i2, i3, i4, i5, (hw hc).1, (hw hc).2⟩, hc.rings, hc.queue⟩
  bases := fun _ => id

/-- An entry leaves the hand-off FIFO (R34). -/
theorem queue {q : List RxEntry} (hq : ∀ n, s.rxq.length ≤ n → q.length ≤ n) (hsub : q ⊆ s.rxq) :
    Quiet s { s with rxq := q } where
  core := fun hc => by
    refine ⟨hc.params, hc.mem, hc.regs, hc.startBits, hc.neg, hc.indices, hc.rings, fun hd => ?_⟩
    obtain ⟨hlen, hent⟩ := hc.queue hd
    exact ⟨hq _ hlen, fun e he => hent e (hsub he)⟩
  bases := fun _ => id

/-- Registers change, not the bases, and flags of the engines. -/
theorem registers {r : Regs} {ts th rs rh : Bool} (hr : CoreOk s → RegsOk (s.setRegs r))
    (hb : CoreOk s → StartBitsOk (s.setRegs r)) (htx : r.dmaTxBase = s.regs.dmaTxBase := by rfl)
    (hrx : r.dmaRxBase = s.regs.dmaRxBase := by rfl) :
    Quiet s { s with regs := r, tx := ⟨s.tx.cur, ts, th⟩, rx := ⟨s.rx.cur, rs, rh⟩ } where
  core := fun hc => ⟨hc.params, hc.mem, hr hc, hb hc, hc.neg, hc.indices, hc.rings, hc.queue⟩
  bases := fun _ h => ⟨htx.trans h.1, hrx.trans h.2⟩

end Quiet

/-! ## Register writes -/

theorem macCfgWrite_reserved (g : Bool) (v : Word) : macCfgWrite g v &&& ~~~(0x0000C80C : Word) = 0 := by
  have h := and_mask_reserved (macCfgWrite g v) macCfgMask
  have hmask : macCfgWrite g v &&& macCfgMask = macCfgWrite g v := by
    unfold macCfgWrite
    cases g
    · simp only [Bool.false_eq_true, if_false, BitVec.and_or_distrib_right, and_and_mask]
      rfl
    · simp only [if_true, and_and_mask]
  rwa [hmask] at h

theorem macCfgWrite_ps (g : Bool) (v : Word) (h : g = false) : (macCfgWrite g v).getLsbD 15 = true := by
  subst h
  simp [macCfgWrite]

theorem or_reserved (a b m : Word) (ha : a &&& ~~~m = 0) (hb : b &&& ~~~m = 0) : (a ||| b) &&& ~~~m = 0 := by
  rw [BitVec.and_or_distrib_right, ha, hb, BitVec.or_self]

theorem w1c_reserved (old v : Word) : w1c old v &&& ~~~(0x0000003F : Word) = 0 := by
  have h : w1c old v = old &&& ~~~v &&& statusMask := by
    rw [w1c, BitVec.and_assoc, BitVec.and_comm statusMask, ← BitVec.and_assoc]
  rw [h]
  exact and_mask_reserved _ statusMask

/-- A register write keeps the reserved bits 0 (R40); a raw write of MII_ADDR may leave GB set (log 23). -/
theorem writeReg_regsOk (s : State) (r : Reg) (v : Word) (hr : r ≠ .miiAddr) (h : RegsOk s) : RegsOk (writeReg s r v) := by
  obtain ⟨cfg, ps, addr, data, hi, rx, tx, st, op, ie⟩ := h
  cases r with
  | macCfg => exact ⟨macCfgWrite_reserved _ v, macCfgWrite_ps _ v, addr, data, hi, rx, tx, st, op, ie⟩
  | miiAddr => exact absurd rfl hr
  | miiData => exact ⟨cfg, ps, addr, and_mask_reserved v _, hi, rx, tx, st, op, ie⟩
  | macAddrHi => exact ⟨cfg, ps, addr, data, and_mask_reserved v _, rx, tx, st, op, ie⟩
  | dmaRxBase => exact ⟨cfg, ps, addr, data, hi, and_mask_reserved v baseMask, tx, st, op, ie⟩
  | dmaTxBase => exact ⟨cfg, ps, addr, data, hi, rx, and_mask_reserved v baseMask, st, op, ie⟩
  | dmaStatus => exact ⟨cfg, ps, addr, data, hi, rx, tx, w1c_reserved _ v, op, ie⟩
  | dmaOpmode => exact ⟨cfg, ps, addr, data, hi, rx, tx, st, and_mask_reserved v _, ie⟩
  | dmaIer => exact ⟨cfg, ps, addr, data, hi, rx, tx, st, op, and_mask_reserved v _⟩
  | macFilter | macAddrLo | dmaTxPoll | dmaRxPoll | dmaCurTx | dmaCurRx =>
    exact ⟨cfg, ps, addr, data, hi, rx, tx, st, op, ie⟩

/-- The registers whose write touches neither a base, nor a start bit, nor GB. -/
def Reg.plain : Reg → Bool
  | .miiAddr | .dmaRxBase | .dmaTxBase | .dmaOpmode => false
  | .macCfg | .macFilter | .miiData | .macAddrHi | .macAddrLo | .dmaTxPoll | .dmaRxPoll | .dmaStatus | .dmaIer
  | .dmaCurTx | .dmaCurRx => true

theorem writeReg_quiet (s : State) (r : Reg) (v : Word) (h : r.plain = true := by rfl) : Quiet s (writeReg s r v) := by
  have hr : CoreOk s → RegsOk (writeReg s r v) := fun hc => writeReg_regsOk s r v (by rintro rfl; cases h) hc.regs
  cases r with
  | miiAddr | dmaRxBase | dmaTxBase | dmaOpmode => cases h
  | dmaCurTx | dmaCurRx => exact .refl s
  | _ => exact .registers hr fun hc => hc.startBits

/-- A write of DMA_OPMODE starts only engines whose base is programmed. -/
theorem writeOpmode_quiet (s : State) (v : Word) (h : CoreOk s → StartBitsOk (writeReg s .dmaOpmode v)) :
    Quiet s (writeReg s .dmaOpmode v) :=
  .registers (fun hc => writeReg_regsOk s .dmaOpmode v (by simp) hc.regs) h

/-- Both engines stopped. -/
theorem writeOpmode_zero_quiet (s : State) : Quiet s (writeReg s .dmaOpmode 0) :=
  writeOpmode_quiet s 0 fun _ => by simp [writeReg, StartBitsOk]

/-- Both engines started at the bases of the rings. -/
theorem writeOpmode_run_quiet (s : State) (v : Word) (h : CoreOk s → BasesSet s) : Quiet s (writeReg s .dmaOpmode v) :=
  writeOpmode_quiet s v fun hc => ⟨fun _ => (h hc).1, fun _ => (h hc).2⟩

theorem setStatus_quiet (s : State) (flag : Word) (h : flag &&& ~~~(0x0000003F : Word) = 0 := by decide) :
    Quiet s (setStatus s flag) := by
  refine .registers (fun hc => ?_) fun hc => hc.startBits
  obtain ⟨cfg, ps, addr, data, hi, rx, tx, st, op, ie⟩ := hc.regs
  exact ⟨cfg, ps, addr, data, hi, rx, tx, or_reserved _ _ _ st h, op, ie⟩

theorem raiseBusError_quiet (s : State) : Quiet s (raiseBusError s) :=
  (setStatus_quiet s stFBE).trans (.registers (fun hc => hc.regs) fun hc => hc.startBits)

theorem suspend_quiet (s : State) (k : RingKind) (flag : Word) (h : flag &&& ~~~(0x0000003F : Word) = 0 := by decide) :
    Quiet s (suspend s k flag) := by
  refine (setStatus_quiet s flag h).trans ?_
  cases k <;> exact .registers (fun hc => hc.regs) fun hc => hc.startBits

theorem statusSnapshot_quiet (s : State) : Quiet s (statusSnapshot s).2 := writeReg_quiet s .dmaStatus _

theorem writeMacCfg_quiet (s : State) (en : Bool) : Quiet s (writeMacCfg s en) := writeReg_quiet s .macCfg _

/-- Both engines stopped and the MAC disabled (R170, R211, R236). -/
theorem stopEngines_quiet (s : State) : Quiet s (writeMacCfg (writeReg s .dmaOpmode 0) false) :=
  (writeOpmode_zero_quiet s).trans (writeMacCfg_quiet _ false)

theorem writeMacAddr_quiet (s : State) : Quiet s (writeMacAddr s) :=
  (writeReg_quiet s .macAddrHi _).trans (writeReg_quiet _ .macAddrLo _)

/-- The engines are started at the bases of the rings (R214, R233). -/
theorem startEngines_quiet (s : State) (h : BasesSet s) : Quiet s (startEngines s) :=
  (writeReg_quiet s .dmaIer _).trans <| (writeMacCfg_quiet _ true).trans <|
    (writeOpmode_run_quiet (writeMacCfg (writeReg s .dmaIer _) true) _ fun _ => h).trans (writeReg_quiet _ .dmaRxPoll 0)

theorem setRet_quiet (s : State) (r : OpResult) : Quiet s (s.setRet r) := .book

theorem setStats_quiet (s : State) (c : Stats) : Quiet s (s.setStats c) := .book

theorem respond_quiet (s : State) (code : ResultCode) : Quiet s (respond s code) := .book

/-! ## Management cycles and the link sequencer -/

/-- The registers a management cycle leaves (R160, R161). -/
theorem cycle_quiet (s : State) (a d : Word) (ha : a &&& ~~~(0x0000FFC2 : Word) = 0)
    (hd : d &&& ~~~(0x0000FFFF : Word) = 0) : Quiet s (s.setRegs { s.regs with miiAddr := a, miiData := d }) := by
  refine .registers (fun hc => ?_) fun hc => hc.startBits
  obtain ⟨cfg, ps, -, -, hi, rx, tx, st, op, ie⟩ := hc.regs
  exact ⟨cfg, ps, ha, hd, hi, rx, tx, st, op, ie⟩

theorem mdioRead_quiet (s : State) (reg : BitVec 5) : Quiet s (mdioRead s reg).2 := by
  have ha : (mdioRead s reg).2.regs.miiAddr &&& ~~~(0x0000FFC2 : Word) = 0 := clearBusy_miiAddr _
  have hd : (mdioRead s reg).2.regs.miiData &&& ~~~(0x0000FFFF : Word) = 0 := and_mask_reserved _ low16Mask
  obtain ⟨a, d, q, n, h⟩ := mdioRead_frame s reg
  rw [h] at ha hd ⊢
  exact (cycle_quiet s a d ha hd).trans .book

theorem mdioWrite_miiData (s : State) (reg : BitVec 5) (v : Half) :
    (mdioWrite s reg v).regs.miiData = v.setWidth 32 &&& low16Mask := by
  unfold mdioWrite phyStore
  split_ifs <;> rfl

theorem mdioWrite_quiet (s : State) (reg : BitVec 5) (v : Half) : Quiet s (mdioWrite s reg v) := by
  have ha : (mdioWrite s reg v).regs.miiAddr &&& ~~~(0x0000FFC2 : Word) = 0 := clearBusy_miiAddr _
  have hd : (mdioWrite s reg v).regs.miiData &&& ~~~(0x0000FFFF : Word) = 0 := by
    rw [mdioWrite_miiData]
    exact and_mask_reserved _ low16Mask
  obtain ⟨a, d, y, h⟩ := mdioWrite_frame s reg v
  rw [h] at ha hd ⊢
  exact (cycle_quiet s a d ha hd).trans .book

/-- `neg` leaves NEGOTIATING, or it never was there (R162). -/
theorem neg_quiet (s : State) (n : NegState) (hn : n = .idle ∨ n = .resolved) : Quiet s { s with neg := n } :=
  .negotiation fun hc => ⟨hn.imp_right .inr, hc.neg.2.1, by rintro rfl; simp at hn⟩

theorem startNegotiation_quiet (s : State) (adv : BitVec 6) : Quiet s (startNegotiation s adv) := by
  have hanar := mdioWrite_quiet s 4 (anarWord adv)
  have hwait : ∀ t : State, Quiet t { t with neg := .negotiating, negPolls := 0 } := fun t =>
    .negotiation fun hc => by
      obtain ⟨-, -, -, -, -, -, -, hmax, -, -⟩ := paramsOk_sizes t.params hc.params
      exact ⟨.inr (.inl rfl), Nat.zero_le _, fun _ => hmax⟩
  unfold startNegotiation
  dsimp only
  split
  · exact hanar.trans <| (mdioWrite_quiet _ 9 _).trans <| (mdioWrite_quiet _ 0 _).trans (hwait _)
  · exact hanar.trans <| (mdioWrite_quiet _ 0 _).trans (hwait _)

theorem readCommon_quiet (s : State) : Quiet s (readCommon s).2 := by
  have hbase := (mdioRead_quiet s 4).trans (mdioRead_quiet _ 5)
  unfold readCommon
  dsimp only
  split
  · exact hbase.trans <| (mdioRead_quiet _ 15).trans <| (mdioRead_quiet _ 9).trans (mdioRead_quiet _ 10)
  · exact hbase

theorem applyResolution_quiet (s : State) (common : BitVec 6) (bmsr : Half) :
    Quiet s (applyResolution s common bmsr).2 := by
  unfold applyResolution
  split <;> exact .book

theorem resolveLinkMode_quiet (s : State) : Quiet s (resolveLinkMode s).2 :=
  (readCommon_quiet s).trans <| (mdioRead_quiet _ 1).trans (applyResolution_quiet _ _ _)

/-- A poll that found the negotiation not complete stays below the bound, or ends the negotiation (R164). -/
theorem pollIncomplete_quiet (s : State) (bmsr : Half) (hs : s.neg = .negotiating) : Quiet s (pollIncomplete s bmsr) := by
  unfold pollIncomplete
  split
  · next hlast =>
    have hneg : Quiet s { s with neg := .resolved, negPolls := s.negPolls + 1 } :=
      .negotiation fun _ => ⟨.inr (.inr rfl), hlast.le, by rintro ⟨⟩⟩
    exact hneg.trans .book
  · next hnot =>
    refine .negotiation fun hc => ⟨hc.neg.1, ?_, fun _ => ?_⟩ <;>
    · have := hc.neg.2.2 hs
      dsimp only
      omega

@[simp] theorem mdioRead_neg (s : State) (reg : BitVec 5) : (mdioRead s reg).2.neg = s.neg := by
  obtain ⟨a, d, q, n, h⟩ := mdioRead_frame s reg
  rw [h]

theorem negPoll_quiet (s : State) (hs : s.neg = .negotiating) : Quiet s (negPoll s) := by
  have hread := mdioRead_quiet s 1
  unfold negPoll
  dsimp only
  split
  · exact hread.trans <| (resolveLinkMode_quiet _).trans <| (neg_quiet _ .resolved (.inr rfl)).trans .book
  · exact hread.trans (pollIncomplete_quiet _ _ (by rw [mdioRead_neg, hs]))

theorem forceLink_quiet (s : State) (m : LinkMode) : Quiet s (forceLink s m) :=
  (mdioWrite_quiet s 0 _).trans <| (mdioRead_quiet _ 1).trans <| (neg_quiet _ .resolved (.inr rfl)).trans .book

theorem beginLink_quiet (s : State) : Quiet s (beginLink s) := by
  have hidle := neg_quiet s .idle (.inl rfl)
  unfold beginLink
  split
  · exact hidle.trans (startNegotiation_quiet _ _)
  · exact hidle.trans (forceLink_quiet _ _)

theorem setCarrier_quiet (s : State) (c : Carrier) : Quiet s (setCarrier s c) := .book

end Sys2Proof.Machine
end

section
/-! PROOFS. The slots of the two rings (spec/10_state.md R21 to R26): what one slot holds after each write to it, what the
other slots hold then, and the successor of a slot (R262). -/

namespace Sys2Proof.Machine

open Sys2Proof.Safety

/-! ## One slot -/

/-- What the invariant asks of the descriptor in slot `i` (R21, R25, R26, R131, R264). -/
structure SlotOk (p : Params) (k : RingKind) (i : Nat) (d : Desc) : Prop where
  buf   : d.buf = BitVec.ofNat 32 (bufAddr p k i)
  wrap  : d.wrap = (decide (ringMode p k = .ring) && decide (i = ringSize p k - 1))
  chain : d.chain = decide (ringMode p k = .chain)
  next  : d.next = if ringMode p k = .chain then BitVec.ofNat 32 (descAddr p k ((i + 1) % ringSize p k)) else 0
  sizes : match k with
    | .tx => d.len.toNat ≤ p.bufSize ∧ (d.own = true → 1 ≤ d.len.toNat)
    | .rx => d.len.toNat = p.bufSize ∧ d.flen.toNat ≤ p.bufSize

theorem ringsOk_iff (s : State) : RingsOk s ↔ ∀ k, ∀ i < ringSize s.params k, SlotOk s.params k i (s.desc k i) := by
  constructor
  · rintro ⟨tx, rx⟩ (_ | _) i hi
    · obtain ⟨⟨h1, h2, h3, h4⟩, h5⟩ := tx i hi
      exact ⟨h1, h2, h3, h4, h5⟩
    · obtain ⟨⟨h1, h2, h3, h4⟩, h5⟩ := rx i hi
      exact ⟨h1, h2, h3, h4, h5⟩
  · intro h
    constructor
    · intro i hi
      obtain ⟨h1, h2, h3, h4, h5⟩ := h .tx i hi
      exact ⟨⟨h1, h2, h3, h4⟩, h5⟩
    · intro i hi
      obtain ⟨h1, h2, h3, h4, h5⟩ := h .rx i hi
      exact ⟨⟨h1, h2, h3, h4⟩, h5⟩

/-- A length of at most BUF_SIZE fits the length fields of a descriptor (R7, R101, R102). -/
theorem toNat_ofNat_size (p : Params) (n : Nat) (hp : paramsOk p = true) (hn : n ≤ p.bufSize) :
    (BitVec.ofNat 14 n).toNat = n := by
  obtain ⟨-, -, -, -, -, hmax, -⟩ := paramsOk_sizes p hp
  rw [BitVec.toNat_ofNat, Nat.mod_eq_of_lt (by omega)]

namespace SlotOk

variable {p : Params} {i : Nat} {d : Desc}

theorem fresh (k : RingKind) (hp : paramsOk p = true) (hi : i < ringSize p k) : SlotOk p k i (freshSlot p k i) := by
  have hlast : decide (i + 1 = ringSize p k) = decide (i = ringSize p k - 1) := by rw [decide_eq_decide]; omega
  refine ⟨rfl, ?_, ?_, ?_, ?_⟩
  · cases hm : ringMode p k <;> simp [freshSlot, hm, hlast]
  · cases hm : ringMode p k <;> simp [freshSlot, hm]
  · cases hm : ringMode p k <;> simp [freshSlot, hm, descAddr]
  · cases k with
    | tx => exact ⟨Nat.zero_le _, by rintro ⟨⟩⟩
    | rx => exact ⟨toNat_ofNat_size p _ hp le_rfl, Nat.zero_le _⟩

theorem published (h : SlotOk p .tx i d) (hp : paramsOk p = true) (n : Nat) (h1 : 1 ≤ n) (hn : n ≤ p.bufSize) :
    SlotOk p .tx i (publishedDesc d n) := by
  have hlen : (publishedDesc d n).len.toNat = n := toNat_ofNat_size p n hp hn
  exact ⟨h.buf, h.wrap, h.chain, h.next, hlen.trans_le hn, fun _ => h1.trans_eq hlen.symm⟩

theorem freed (h : SlotOk p .tx i d) (ho : d.own = false) : SlotOk p .tx i (freedDesc d) :=
  ⟨h.buf, h.wrap, h.chain, h.next, Nat.zero_le _, fun ht => absurd (ho.symm.trans ht) (by simp)⟩

theorem sent (h : SlotOk p .tx i d) (u : Bool) : SlotOk p .tx i { d with unf := u, own := false } :=
  ⟨h.buf, h.wrap, h.chain, h.next, h.sizes.1, by rintro ⟨⟩⟩

theorem rearmed (h : SlotOk p .rx i d) (hp : paramsOk p = true) : SlotOk p .rx i (rearmedDesc p d) :=
  ⟨h.buf, h.wrap, h.chain, h.next, toNat_ofNat_size p _ hp le_rfl, Nat.zero_le _⟩

theorem received (h : SlotOk p .rx i d) (hp : paramsOk p = true) (n : Nat) (hn : n ≤ d.len.toNat) (crc lerr ovf : Bool) :
    SlotOk p .rx i { d with
      flen := BitVec.ofNat 14 n, fs := true, ls := true, crc := crc, lerr := lerr, ovf := ovf, own := false } := by
  obtain ⟨hlen, -⟩ := h.sizes
  have hsize : n ≤ p.bufSize := hlen ▸ hn
  exact ⟨h.buf, h.wrap, h.chain, h.next, hlen, (toNat_ofNat_size p n hp hsize).trans_le hsize⟩

end SlotOk

/-! ## One slot of memory written -/

/-- `m'` is a canonical memory in which slot `i` of ring `k` holds `d`, and every other slot of both rings holds what it
holds in `m`. -/
structure SlotWritten (p : Params) (m m' : Memory) (k : RingKind) (i : Nat) (d : Desc) : Prop where
  wf    : m'.wf = true
  same  : readDesc p k m' i = d
  other : ∀ k' j, j < ringSize p k' → (k ≠ k' ∨ i ≠ j) → readDesc p k' m' j = readDesc p k' m j

namespace SlotWritten

variable {p : Params} {m m' : Memory} {k : RingKind} {i : Nat} {d : Desc}

/-- A whole descriptor stored (R82). -/
theorem desc (hp : paramsOk p = true) (hm : m.wf = true) (hi : i < ringSize p k) (hd : d.fits k) :
    SlotWritten p m (writeDesc p k m i d) k i d where
  wf    := wf_writeDesc p k m i d hm
  same  := readDesc_writeDesc_same p k m i d hm hd
  other := fun k' j hj hne => readDesc_writeDesc_other p k k' m i j d (desc_desc_disjoint p k k' i j hp hi hj hne)

/-- The write-back of DES0 alone (R261, R264). -/
theorem status (hp : paramsOk p = true) (hm : m.wf = true) (hi : i < ringSize p k) (hd : d.fits k)
    (hlen : d.len = (readDesc p k m i).len) (hwrap : d.wrap = (readDesc p k m i).wrap)
    (hchain : d.chain = (readDesc p k m i).chain) (hbuf : d.buf = (readDesc p k m i).buf)
    (hnext : d.next = (readDesc p k m i).next)
    (htx : k = .tx → d.fs = (readDesc p k m i).fs ∧ d.ls = (readDesc p k m i).ls) :
    SlotWritten p m (writeStatus p k m i d) k i d where
  wf    := wf_writeStatus p k m i d hm
  same  := readDesc_writeStatus_same p k m i d hm hd hlen hwrap hchain hbuf hnext htx
  other := fun k' j hj hne => readDesc_writeStatus_other p k k' m i j d (desc_desc_disjoint p k k' i j hp hi hj hne)

end SlotWritten

/-- A frame stored in a buffer changes no descriptor (R79). -/
theorem readDesc_writeBuffer (p : Params) (k k' : RingKind) (m : Memory) (i j : Nat) (bytes : List Byte)
    (hp : paramsOk p = true) (hi : i < ringSize p k) (hj : j < ringSize p k') (hb : bytes.length ≤ p.bufSize) :
    readDesc p k' (m.writeBytes (bufAddr p k i) bytes) j = readDesc p k' m j :=
  readDesc_writeBytes_other p k' m _ j bytes (by have := desc_buf_disjoint p k' k j i hp hj hi; omega)

/-- A frame stored in the buffer of a slot, then the slot written. -/
theorem SlotWritten.after_writeBuffer {p : Params} {k k' : RingKind} {m m' : Memory} {i j : Nat} {d : Desc}
    {bytes : List Byte} (hp : paramsOk p = true) (hj : j < ringSize p k') (hb : bytes.length ≤ p.bufSize)
    (h : SlotWritten p (m.writeBytes (bufAddr p k' j) bytes) m' k i d) : SlotWritten p m m' k i d :=
  ⟨h.wf, h.same, fun l n hn hne =>
    (h.other l n hn hne).trans (readDesc_writeBuffer p k' l m j n bytes hp hj hn hb)⟩

/-! ## What the operations write into a slot -/

theorem publishTx_slotWritten (s : State) (length : Nat) (bytes : List Byte) (hc : CoreOk s)
    (hb : bytes.length ≤ s.params.bufSize) :
    SlotWritten s.params s.mem (publishTx s length bytes).mem .tx s.txHead
      (publishedDesc (s.desc .tx s.txHead) length) := by
  obtain ⟨hi, -⟩ := hc.indices
  rw [publishTx_frame]
  dsimp only
  exact .after_writeBuffer hc.params hi hb <|
    .desc hc.params (Memory.wf_writeBytes _ _ _ hc.mem) hi (readDesc_fits s.params .tx s.mem s.txHead)

theorem reclaimTxOne_slotWritten (s : State) (hc : CoreOk s) :
    SlotWritten s.params s.mem (reclaimTxOne s).mem .tx s.txTail (freedDesc (s.desc .tx s.txTail)) := by
  obtain ⟨-, hi, -⟩ := hc.indices
  rw [reclaimTxOne_mem]
  exact .desc hc.params hc.mem hi (freedDesc_fits _ (readDesc_fits _ _ _ _))

theorem reclaimRxOne_slotWritten (s : State) (hc : CoreOk s) :
    SlotWritten s.params s.mem (reclaimRxOne s).mem .rx s.rxHead (rearmedDesc s.params (s.desc .rx s.rxHead)) := by
  obtain ⟨-, -, hi, -⟩ := hc.indices
  rw [reclaimRxOne_mem]
  exact .desc hc.params hc.mem hi (rearmedDesc_fits _ _ (readDesc_fits _ _ _ _))

/-- The slot of the TX engine after a frame went out (R261). -/
theorem txComplete_slotWritten (s : State) (u : Bool) (hc : CoreOk s) :
    SlotWritten s.params s.mem (txComplete s u).mem .tx s.tx.cur
      { s.desc .tx s.tx.cur with unf := u, own := false } := by
  obtain ⟨-, -, -, hi, -⟩ := hc.indices
  obtain ⟨f1, f2, f3, -⟩ := readDesc_fits s.params .tx s.mem s.tx.cur
  unfold txComplete
  rw [advance_mem]
  exact .status hc.params hc.mem hi ⟨f1, f2, f3, by assumption⟩ rfl rfl rfl rfl rfl fun _ => ⟨rfl, rfl⟩

/-- The descriptor RXDMA_FRAME writes back for a frame of `len` bytes (R264, log 11). -/
def receivedDesc (d : Desc) (len : Nat) (crc lerr ovf : Bool) : Desc :=
  { d with
    flen := BitVec.ofNat 14 (min len d.len.toNat), fs := true, ls := true, crc := crc
    lerr := lerr || (d.len.toNat < len && !ovf), ovf := ovf, own := false }

/-- The slot of the RX engine after a frame arrived (R264). -/
theorem rxComplete_slotWritten (s : State) (len : Nat) (bytes : List Byte) (crc lerr ovf : Bool) (hc : CoreOk s)
    (hlen : (s.desc .rx s.rx.cur).len.toNat ≤ s.params.bufSize) :
    SlotWritten s.params s.mem (rxComplete s len bytes crc lerr ovf).mem .rx s.rx.cur
      (receivedDesc (s.desc .rx s.rx.cur) len crc lerr ovf) := by
  obtain ⟨-, -, -, -, hi, -⟩ := hc.indices
  have hb : (bytes.take (min len (s.desc .rx s.rx.cur).len.toNat)).length ≤ s.params.bufSize := by
    rw [List.length_take]
    omega
  have hkept := readDesc_writeBuffer s.params .rx .rx s.mem s.rx.cur s.rx.cur _ hc.params hi hi hb
  have hfits := readDesc_fits s.params .rx s.mem s.rx.cur
  unfold rxComplete
  rw [advance_mem]
  refine .after_writeBuffer hc.params hi hb
    (.status hc.params (Memory.wf_writeBytes _ _ _ hc.mem) hi hfits ?_ ?_ ?_ ?_ ?_ (nomatch ·))
  all_goals
    rw [hkept]
    rfl

/-! ## A ring written whole (R130) -/

theorem initRing_params (s : State) (k : RingKind) : (initRing s k).params = s.params := by cases k <;> rfl

theorem initRing_mem (s : State) (k : RingKind) :
    (initRing s k).mem = initDescs s.params k (ringSize s.params k) s.mem := by cases k <;> rfl

theorem initRing_desc_same (s : State) (k : RingKind) (i : Nat) (hm : s.mem.wf = true) (hi : i < ringSize s.params k) :
    (initRing s k).desc k i = freshSlot s.params k i := by
  have hfresh : FreshRing (initRing s k) k :=
    freshRing_initDescs s _ k s.mem hm (initRing_params s k) fun a _ => by rw [initRing_mem]
  have hslot := hfresh i (by rwa [initRing_params])
  rw [initRing_params] at hslot
  exact desc_of_slotHolds _ k i _ (freshSlot_fits _ _ _) hslot

theorem initRing_desc_other (s : State) (k k' : RingKind) (j : Nat) (hp : paramsOk s.params = true) (hne : k ≠ k')
    (hj : j < ringSize s.params k') : (initRing s k).desc k' j = s.desc k' j := by
  refine desc_congr s _ k' j (initRing_params s k) fun x h1 h2 => ?_
  rw [initRing_mem]
  refine read_initDescs_outside _ _ _ _ _ ?_
  obtain ⟨-, -, hdisjoint, -⟩ := paramsOk_regions s.params hp
  have hd := hdisjoint k k' hne
  have hb := descAddr_bounds s.params k' j hj
  simp only [disjoint, Bool.or_eq_true, decide_eq_true_eq] at hd
  simp only [descRange, descAddr] at hd hb h1 h2 ⊢
  omega

/-- Both rings as `initRings` leaves them. -/
theorem initRings_desc (s : State) (k : RingKind) (i : Nat) (hc : CoreOk s) (hi : i < ringSize s.params k) :
    (initRings s).desc k i = freshSlot s.params k i := by
  cases k with
  | tx =>
    exact (initRing_desc_other (initRing s .tx) .rx .tx i hc.params (by simp) hi).trans
      (initRing_desc_same s .tx i hc.mem hi)
  | rx => exact initRing_desc_same (initRing s .tx) .rx i (wf_initRing s .tx hc.mem) hi

/-! ## The successor of a linked slot (R262) -/

/-- A descriptor address fits the next pointer. -/
theorem toNat_ofNat_descAddr (p : Params) (k : RingKind) (i : Nat) (hp : paramsOk p = true) (hi : i < ringSize p k) :
    (BitVec.ofNat 32 (descAddr p k i)).toNat = descAddr p k i := by
  obtain ⟨hspace, -⟩ := paramsOk_regions p hp
  have hs := hspace k
  have hb := descAddr_bounds p k i hi
  simp only [inSpace, decide_eq_true_eq] at hs
  rw [BitVec.toNat_ofNat, Nat.mod_eq_of_lt (by omega)]

theorem chainSlot_descAddr (p : Params) (k : RingKind) (j n : Nat) (hj : j < n) :
    chainSlot (descBase p k).toNat (descAddr p k j) n = some j := by
  have hdiff : descAddr p k j - (descBase p k).toNat = 16 * j := by simp only [descAddr]; omega
  unfold chainSlot
  rw [hdiff, Nat.mul_mod_right, Nat.mul_div_cancel_left _ (by omega), if_pos ⟨by simp only [descAddr]; omega, rfl, hj⟩]

/-- A slot linked as INIT_RING links it has the next slot as its successor, in both modes. -/
theorem dmaSucc_linked (s : State) (k : RingKind) (i : Nat) (d : Desc) (hp : paramsOk s.params = true)
    (hi : i < ringSize s.params k) (hbase : engineBase s k = descBase s.params k) (hd : SlotOk s.params k i d) :
    dmaSucc s k i d = some ((i + 1) % ringSize s.params k) := by
  unfold dmaSucc
  cases hm : ringMode s.params k with
  | ring =>
    simp only [hd.wrap, hm, decide_true, Bool.true_and, decide_eq_true_eq]
    split_ifs with hlast hnext
    · rw [show i + 1 = ringSize s.params k by omega, Nat.mod_self]
    · rw [Nat.mod_eq_of_lt hnext]
    · omega
  | chain =>
    have hj : (i + 1) % ringSize s.params k < ringSize s.params k := Nat.mod_lt _ (by omega)
    simp only [hd.next, hm, if_true, hbase]
    rw [toNat_ofNat_descAddr _ _ _ hp hj, chainSlot_descAddr _ _ _ _ hj]

/-- A successor is a slot of the ring. -/
theorem dmaSucc_lt (s : State) (k : RingKind) (i j : Nat) (d : Desc) (hp : paramsOk s.params = true)
    (h : dmaSucc s k i d = some j) : j < ringSize s.params k := by
  have hpos := paramsOk_ringSize s.params k hp
  unfold dmaSucc at h
  split at h
  · split_ifs at h with hw hn
    · obtain rfl := Option.some.inj h
      exact hpos
    · obtain rfl := Option.some.inj h
      exact hn
  · unfold chainSlot at h
    split_ifs at h with hc
    obtain rfl := Option.some.inj h
    exact hc.2.2

end Sys2Proof.Machine
end

section
/-! PROOFS. What the operations on the rings, the engines and the narrow recoveries keep (spec/40_ring_manager.md R130 to R137,
R170, R216, R217, R261 to R264). -/

namespace Sys2Proof.Machine

open Sys2Proof.Safety

/-! ## Steps that touch the rings -/

/-- A slot written with a descriptor the invariant allows keeps the rings as it asks. -/
theorem SlotWritten.ringsOk {s : State} {m : Memory} {k : RingKind} {i : Nat} {d : Desc}
    (hw : SlotWritten s.params s.mem m k i d) (hold : RingsOk s) (hd : SlotOk s.params k i d) : RingsOk (s.setMem m) := by
  refine (ringsOk_iff _).mpr fun k' j hj => ?_
  change SlotOk s.params k' j (readDesc s.params k' m j)
  by_cases heq : k = k' ∧ i = j
  · obtain ⟨rfl, rfl⟩ := heq
    rwa [hw.same]
  · rw [hw.other k' j hj (not_and_or.mp heq)]
    exact (ringsOk_iff s).mp hold k' j hj

namespace Steady

variable {s : State}

/-- Memory changes and every slot of an attached device stays as the invariant asks. -/
theorem memory {m : Memory} (hwf : CoreOk s → m.wf = true) (hr : CoreOk s → s.dev ≠ .uninit → RingsOk (s.setMem m)) :
    Steady s (s.setMem m) where
  core := fun hc => ⟨hc.params, hwf hc, hc.regs, hc.startBits, hc.neg, hc.indices, hr hc, hc.queue⟩
  bases := fun _ => id

/-- One slot is written. -/
theorem slot {m : Memory} {k : RingKind} {i : Nat} {d : Desc} (hw : CoreOk s → SlotWritten s.params s.mem m k i d)
    (hd : CoreOk s → SlotOk s.params k i (s.desc k i) → SlotOk s.params k i d) (hi : CoreOk s → i < ringSize s.params k) :
    Steady s (s.setMem m) :=
  .memory (fun hc => (hw hc).wf) fun hc ha =>
    have hold := hc.rings ha
    (hw hc).ringsOk hold (hd hc ((ringsOk_iff s).mp hold k i (hi hc)))

/-- The software's indices move. -/
theorem indices {a b c d n : Nat}
    (h : CoreOk s → RingIndicesOk { s with txHead := a, txTail := b, rxHead := c, wdCur := d, wdCount := n }) :
    Steady s { s with txHead := a, txTail := b, rxHead := c, wdCur := d, wdCount := n } where
  core := fun hc => ⟨hc.params, hc.mem, hc.regs, hc.startBits, hc.neg, h hc, hc.rings, hc.queue⟩
  bases := fun _ => id

/-- The hand-off FIFO changes as well. -/
theorem queue {t : State} (h : Steady s t) {q : List RxEntry}
    (hq : CoreOk s → s.dev ≠ .uninit → QueueOk { t with rxq := q }) : Steady s { t with rxq := q } where
  params    := h.params
  dev       := h.dev
  startPh   := h.startPh
  stopPh    := h.stopPh
  recPh     := h.recPh
  startHeld := h.startHeld
  core      := fun hc => by
    obtain ⟨p, m, r, b, n, i, rings, -⟩ := h.core hc
    exact ⟨p, m, r, b, n, i, rings, fun ha => hq hc (h.dev ▸ ha)⟩
  bases     := h.bases

end Steady

/-! ### The ring manager -/

theorem queueOk_nil (s : State) : QueueOk { s with rxq := [] } := ⟨Nat.zero_le _, by rintro e ⟨⟩⟩

theorem initRing_ringsOk (s : State) (k : RingKind) (hc : CoreOk s)
    (hother : ∀ k' ≠ k, ∀ i < ringSize s.params k', SlotOk s.params k' i (s.desc k' i)) : RingsOk (initRing s k) := by
  refine (ringsOk_iff _).mpr fun k' i hi => ?_
  rw [initRing_params] at hi ⊢
  by_cases hk : k' = k
  · subst hk
    rw [initRing_desc_same s k' i hc.mem hi]
    exact .fresh k' hc.params hi
  · rw [initRing_desc_other s k k' i hc.params (Ne.symm hk) hi]
    exact hother k' hk i hi

theorem initRing_steady (s : State) (k : RingKind) : Steady s (initRing s k) := by
  have hmem : Steady s (s.setMem (initDescs s.params k (ringSize s.params k) s.mem)) :=
    .memory (fun hc => wf_initDescs _ _ _ _ hc.mem) fun hc ha => by
      have h := initRing_ringsOk s k hc fun k' _ => (ringsOk_iff s).mp (hc.rings ha) k'
      cases k <;> exact h
  refine hmem.trans ?_
  cases k with
  | tx =>
    refine .indices fun hc => ?_
    obtain ⟨-, -, i3, i4, i5, -, -⟩ := hc.indices
    obtain ⟨hN, -, -, -, -, -, -, -, -, hstall⟩ := paramsOk_sizes _ hc.params
    exact ⟨hN, hN, i3, i4, i5, hN, hstall⟩
  | rx =>
    refine Steady.queue (.indices (c := 0) fun hc => ?_) fun _ _ => queueOk_nil _
    obtain ⟨i1, i2, -, i4, i5, i6, i7⟩ := hc.indices
    obtain ⟨-, -, hN, -⟩ := paramsOk_sizes _ hc.params
    exact ⟨i1, i2, hN, i4, i5, i6, i7⟩

theorem initRings_steady (s : State) : Steady s (initRings s) := (initRing_steady s .tx).trans (initRing_steady _ .rx)

/-- A frame of 1 to BUF_SIZE bytes is published (R131). -/
theorem publishTx_steady (s : State) (length : Nat) (bytes : List Byte) (h1 : 1 ≤ length)
    (hmax : length ≤ s.params.bufSize) (hb : bytes.length = length) : Steady s (publishTx s length bytes) := by
  have hw := publishTx_slotWritten s length bytes
  obtain ⟨m, hm⟩ : ∃ m, publishTx s length bytes = { s with
      mem := m, txHead := (s.txHead + 1) % s.params.nTx, tx := { s.tx with susp := false } } :=
    ⟨_, publishTx_frame s length bytes⟩
  rw [hm] at hw ⊢
  have hslot : Steady s (s.setMem m) :=
    .slot (fun hc => hw hc (hb ▸ hmax)) (fun hc h => h.published hc.params _ h1 hmax) fun hc => hc.indices.1
  refine hslot.trans (Steady.trans (.indices fun hc => ?_) (writeReg_quiet _ .dmaTxPoll 0).toSteady)
  obtain ⟨-, i2, i3, i4, i5, i6, i7⟩ := hc.indices
  exact ⟨nextIndex_lt _ _ (paramsOk_ringSize _ .tx hc.params), i2, i3, i4, i5, i6, i7⟩

theorem enqueueTx_steady (s : State) (length : Nat) (bytes : List Byte) (h1 : 1 ≤ length)
    (hmax : length ≤ s.params.bufSize) (hb : bytes.length = length) : Steady s (enqueueTx s length bytes).2.2 := by
  unfold enqueueTx
  split
  · exact .refl s
  · exact publishTx_steady s length bytes h1 hmax hb

theorem reclaimTxOne_steady (s : State) (ho : (s.desc .tx s.txTail).own = false) : Steady s (reclaimTxOne s) := by
  have hw := reclaimTxOne_slotWritten s
  obtain ⟨m, c, hm⟩ : ∃ m c, reclaimTxOne s = { s with
      stats := c, mem := m, txTail := (s.txTail + 1) % s.params.nTx } := ⟨_, _, rfl⟩
  rw [hm] at hw ⊢
  have hslot : Steady s (s.setMem m) := .slot hw (fun _ h => h.freed ho) fun hc => hc.indices.2.1
  refine hslot.trans (Steady.trans (.indices fun hc => ?_) Quiet.book.toSteady)
  obtain ⟨i1, i2, i3, i4, i5, i6, i7⟩ := hc.indices
  exact ⟨i1, nextIndex_lt _ _ (paramsOk_ringSize _ .tx hc.params), i3, i4, i5, i6, i7⟩

/-- A frame taken from the RX ring keeps the bounds of the hand-off FIFO (R34, R136). -/
theorem consumeFrame_queueOk (s : State) (d : Desc) (bytes : List Byte) (hlen : bytes.length = d.flen.toNat)
    (hmax : d.flen.toNat ≤ s.params.bufSize) (hq : QueueOk s) :
    QueueOk { s with rxq := (consumeFrame s.params.rxqDepth d bytes s.rxq s.stats).1 } := by
  obtain ⟨hroom, hent⟩ := hq
  unfold consumeFrame
  dsimp only
  split
  · next hlt =>
    refine ⟨by simpa using hlt, fun e he => ?_⟩
    obtain he | he := List.mem_append.mp he
    · exact hent e he
    · obtain rfl := List.mem_singleton.mp he
      split
      · next b hb =>
        split_ifs at hb with hbad
        obtain rfl := RxEntry.data.inj hb
        have hpos : d.flen ≠ 0 := by
          rintro h0
          simp [h0] at hbad
        have : d.flen.toNat ≠ 0 := fun h0 => hpos (BitVec.eq_of_toNat_eq h0)
        exact ⟨by omega, hlen.trans_le hmax⟩
      · trivial
  · exact ⟨hroom, hent⟩

theorem reclaimRxOne_steady (s : State) : Steady s (reclaimRxOne s) := by
  have hw := reclaimRxOne_slotWritten s
  obtain ⟨m, hm⟩ : ∃ m, reclaimRxOne s = { s with
      rxq := (consumeFrame s.params.rxqDepth (s.desc .rx s.rxHead)
        (s.bufBytes .rx s.rxHead (s.desc .rx s.rxHead).flen.toNat) s.rxq s.stats).1
      stats := (consumeFrame s.params.rxqDepth (s.desc .rx s.rxHead)
        (s.bufBytes .rx s.rxHead (s.desc .rx s.rxHead).flen.toNat) s.rxq s.stats).2
      mem := m, rxHead := (s.rxHead + 1) % s.params.nRx } := ⟨_, reclaimRxOne_frame s⟩
  rw [hm] at hw ⊢
  have hslot : Steady s (s.setMem m) := .slot hw (fun hc h => h.rearmed hc.params) fun hc => hc.indices.2.2.1
  refine .queue (hslot.trans (Steady.trans (.indices fun hc => ?_) Quiet.book.toSteady)) fun hc ha => ?_
  · obtain ⟨i1, i2, -, i4, i5, i6, i7⟩ := hc.indices
    exact ⟨i1, i2, nextIndex_lt _ _ (paramsOk_ringSize _ .rx hc.params), i4, i5, i6, i7⟩
  · have hflen := ((hc.rings ha).2 _ hc.indices.2.2.1).2.2
    exact consumeFrame_queueOk s _ _ (Memory.length_readBytes _ _ _) hflen (hc.queue ha)

/-- What one iteration of the TX walk keeps, the walk keeps. -/
theorem reclaimTxLoop_induction {P : State → Prop} (h : ∀ s, (s.desc .tx s.txTail).own = false → P s → P (reclaimTxOne s))
    (n : Nat) (s : State) (hs : P s) : P (reclaimTxLoop n s).2 := by
  induction n generalizing s with
  | zero => exact hs
  | succ n ih =>
    unfold reclaimTxLoop
    split
    · exact hs
    · next hgo =>
      have ho : (s.desc .tx s.txTail).own = false := by
        simp only [reclaimStops, Bool.or_eq_true, not_or, Bool.not_eq_true] at hgo
        exact hgo.1
      exact ih _ (h s ho hs)

/-- What one iteration of the RX walk keeps, the walk keeps. -/
theorem reclaimRxLoop_induction {P : State → Prop} (h : ∀ s, (s.desc .rx s.rxHead).own = false → P s → P (reclaimRxOne s))
    (n : Nat) (s : State) (hs : P s) : P (reclaimRxLoop n s).2 := by
  induction n generalizing s with
  | zero => exact hs
  | succ n ih =>
    unfold reclaimRxLoop
    split
    · exact hs
    · next ho => exact ih _ (h s (Bool.not_eq_true _ ▸ ho) hs)

theorem reclaimTx_steady (s : State) : Steady s (reclaimTx s).2 :=
  reclaimTxLoop_induction (fun t ho h => h.trans (reclaimTxOne_steady t ho)) _ s (.refl s)

theorem reclaimRx_steady (s : State) (maxCount : Nat) : Steady s (reclaimRx s maxCount).2 := by
  have hwalk : Steady s (reclaimRxLoop (min maxCount s.params.nRx) s).2 :=
    reclaimRxLoop_induction (fun t _ h => h.trans (reclaimRxOne_steady t)) _ s (.refl s)
  unfold reclaimRx
  dsimp only
  split
  · exact hwalk.trans (writeReg_quiet _ .dmaRxPoll 0).toSteady
  · exact hwalk

/-! ### The bases -/

theorem writeTxBase_steady (s : State) : Steady s (writeReg s .dmaTxBase s.params.txDescBase) where
  core := fun hc => by
    obtain ⟨i1, i2, i3, i4, i5, i6, i7⟩ := hc.indices
    exact ⟨hc.params, hc.mem, writeReg_regsOk s .dmaTxBase _ (by simp) hc.regs,
      ⟨fun _ => txDescBase_masked _ hc.params, hc.startBits.2⟩, hc.neg, ⟨i1, i2, i3, by exact Nat.zero_lt_of_lt i4, i5, i6, i7⟩,
      hc.rings, hc.queue⟩
  bases := fun hc hb => ⟨txDescBase_masked _ hc.params, hb.2⟩

theorem writeRxBase_steady (s : State) : Steady s (writeReg s .dmaRxBase s.params.rxDescBase) where
  core := fun hc => by
    obtain ⟨i1, i2, i3, i4, i5, i6, i7⟩ := hc.indices
    exact ⟨hc.params, hc.mem, writeReg_regsOk s .dmaRxBase _ (by simp) hc.regs,
      ⟨hc.startBits.1, fun _ => rxDescBase_masked _ hc.params⟩, hc.neg, ⟨i1, i2, i3, i4, by exact Nat.zero_lt_of_lt i5, i6, i7⟩,
      hc.rings, hc.queue⟩
  bases := fun hc hb => ⟨hb.1, rxDescBase_masked _ hc.params⟩

theorem programBases_steady (s : State) : Steady s (programBases s) :=
  (writeTxBase_steady s).trans (writeRxBase_steady _)

theorem programBases_params (s : State) : (programBases s).params = s.params := rfl

theorem programBases_basesSet (s : State) (hp : paramsOk s.params = true) : BasesSet (programBases s) := by
  rw [programBases_eq s hp]
  exact ⟨rfl, rfl⟩

/-- Both rings fresh and both engines at their bases (R170, R212, R232). -/
theorem rebuild_steady (s : State) : Steady s (programBases (initRings s)) :=
  (initRings_steady s).trans (programBases_steady _)

/-- From `s` to `t` both rings are initialised and both bases programmed; the rest leaves the rings alone. -/
def Rebuilt (s t : State) : Prop := ∃ u, Quiet s u ∧ Quiet (programBases (initRings u)) t

namespace Rebuilt

variable {s t u : State}

theorem of_quiet (h : Quiet s t) (g : Rebuilt t u) : Rebuilt s u := by
  obtain ⟨v, hv, hu⟩ := g
  exact ⟨v, h.trans hv, hu⟩

theorem steady (h : Rebuilt s t) : Steady s t := by
  obtain ⟨u, hu, ht⟩ := h
  exact hu.toSteady.trans ((rebuild_steady u).trans ht.toSteady)

theorem basesSet (h : Rebuilt s t) (hc : CoreOk s) : BasesSet t := by
  obtain ⟨u, hu, ht⟩ := h
  have hcu := hu.core hc
  exact ht.bases ((rebuild_steady u).core hcu) (programBases_basesSet _ ((initRings_steady u).core hcu).params)

end Rebuilt

/-- The end of a reconfiguration: the MAC enabled and both engines started at the bases of the rings (R170). -/
theorem restartMac_quiet (s : State) (filter cfg : Word) (hb : paramsOk s.params = true → BasesSet s) :
    Quiet s (writeReg (writeReg (writeReg (writeReg s .macFilter filter) .macCfg cfg) .dmaOpmode opmodeRun)
      .dmaRxPoll 0) := by
  have hcfg := (writeReg_quiet s .macFilter filter).trans (writeReg_quiet _ .macCfg cfg)
  have hrun := hcfg.trans (writeOpmode_run_quiet _ opmodeRun fun hc => hb hc.params)
  exact hrun.trans (writeReg_quiet _ .dmaRxPoll 0)

theorem reconfigureMac_rebuilt (s : State) (m : LinkMode) : Rebuilt s (reconfigureMac s m) := by
  refine ⟨_, stopEngines_quiet s, restartMac_quiet _ _ _ fun hp => ?_⟩
  rw [programBases_params] at hp
  exact programBases_basesSet _ hp

/-! ### The engines (R261 to R266) -/

theorem cursor_steady (s : State) (k : RingKind) (j : Nat) (h : CoreOk s → j < ringSize s.params k) :
    Steady s (s.setEngine k { s.engine k with cur := j }) := by
  have hi : ∀ hc : CoreOk s, RingIndicesOk (s.setEngine k { s.engine k with cur := j }) := fun hc => by
    obtain ⟨i1, i2, i3, i4, i5, i6, i7⟩ := hc.indices
    cases k
    · exact ⟨i1, i2, i3, h hc, i5, i6, i7⟩
    · exact ⟨i1, i2, i3, i4, h hc, i6, i7⟩
  cases k <;>
  exact ⟨rfl, rfl, rfl, rfl, rfl, rfl,
    fun hc => ⟨hc.params, hc.mem, hc.regs, hc.startBits, hc.neg, hi hc, hc.rings, hc.queue⟩, fun _ => id⟩

theorem advance_steady (s : State) (k : RingKind) (i : Nat) (d : Desc) : Steady s (advance s k i d) := by
  obtain ⟨j, hj, h⟩ | ⟨-, h⟩ := advance_cases s k i d
  · rw [h]
    exact cursor_steady s k j fun hc => dmaSucc_lt s k i j d hc.params hj
  · rw [h]
    exact (raiseBusError_quiet s).toSteady

theorem txComplete_mem (s : State) (u : Bool) : (txComplete s u).mem =
    writeStatus s.params .tx s.mem s.tx.cur { s.desc .tx s.tx.cur with unf := u, own := false } := by
  unfold txComplete
  rw [advance_mem]
  rfl

theorem rxComplete_mem (s : State) (len : Nat) (bytes : List Byte) (crc lerr ovf : Bool) :
    (rxComplete s len bytes crc lerr ovf).mem = writeStatus s.params .rx
      (s.mem.writeBytes (bufAddr s.params .rx s.rx.cur) (bytes.take (min len (s.desc .rx s.rx.cur).len.toNat))) s.rx.cur
      (receivedDesc (s.desc .rx s.rx.cur) len crc lerr ovf) := by
  unfold rxComplete
  rw [advance_mem]
  rfl

theorem txComplete_steady (s : State) (u : Bool) : Steady s (txComplete s u) := by
  have hw := txComplete_slotWritten s u
  rw [txComplete_mem] at hw
  unfold txComplete
  dsimp only
  generalize writeStatus s.params .tx s.mem s.tx.cur _ = m at hw ⊢
  have hslot : Steady s (s.setMem m) := .slot hw (fun _ h => h.sent u) fun hc => hc.indices.2.2.2.1
  exact hslot.trans (Steady.trans (Quiet.toSteady (.trans .book (setStatus_quiet _ stTXD))) (advance_steady _ _ _ _))

theorem rxComplete_steady (s : State) (len : Nat) (bytes : List Byte) (crc lerr ovf : Bool) :
    Steady s (rxComplete s len bytes crc lerr ovf) := by
  have hwf := wf_rxComplete s len bytes crc lerr ovf
  have hw := rxComplete_slotWritten s len bytes crc lerr ovf
  rw [rxComplete_mem] at hwf hw
  unfold rxComplete
  dsimp only
  change Steady s (advance (setStatus (s.setMem (writeStatus s.params .rx _ s.rx.cur (receivedDesc _ len crc lerr ovf))) _)
    _ _ _)
  generalize writeStatus s.params .rx _ s.rx.cur _ = m at hwf hw ⊢
  have hmem : Steady s (s.setMem m) := .memory (fun hc => hwf hc.mem) fun hc ha => by
    have hok := (ringsOk_iff s).mp (hc.rings ha) .rx s.rx.cur hc.indices.2.2.2.2.1
    exact (hw hc hok.sizes.1.le).ringsOk (hc.rings ha) (hok.received hc.params _ (min_le_right _ _) _ _ _)
  exact hmem.trans ((setStatus_quiet _ stRXD).toSteady.trans (advance_steady _ _ _ _))

theorem txdmaStep_steady (s : State) (u : Bool) : Steady s (txdmaStep s u) := by
  unfold txdmaStep
  split
  · exact txComplete_steady s u
  · exact (suspend_quiet s .tx stTXU).toSteady

theorem rxdmaFrame_steady (s : State) (len : Nat) (bytes : List Byte) (crc lerr ovf : Bool) :
    Steady s (rxdmaFrame s len bytes crc lerr ovf) := by
  unfold rxdmaFrame
  split
  · exact .refl s
  split
  · exact rxComplete_steady s len bytes crc lerr ovf
  · exact (suspend_quiet s .rx stRXU).toSteady

/-! ### The narrow recoveries (R216, R217) -/

/-- A start bit is cleared. -/
theorem clearStartBit_quiet (s : State) (f : Word) : Quiet s (writeReg s .dmaOpmode (readReg s .dmaOpmode &&& ~~~f)) := by
  refine writeOpmode_quiet s _ fun hc => ?_
  obtain ⟨h13, h1⟩ := hc.startBits
  simp only [StartBitsOk, writeReg, readReg, State.setRegs, BitVec.getLsbD_and, Bool.and_eq_true]
  exact ⟨fun h => h13 h.1.1.1, fun h => h1 h.1.1.1⟩

/-- A start bit is set whose engine has its base programmed. -/
theorem setStartBit_quiet (s : State) (f : Word) (htx : CoreOk s → f.getLsbD 13 = true → s.regs.dmaTxBase = s.params.txDescBase)
    (hrx : CoreOk s → f.getLsbD 1 = true → s.regs.dmaRxBase = s.params.rxDescBase) :
    Quiet s (writeReg s .dmaOpmode (readReg s .dmaOpmode ||| f)) := by
  refine writeOpmode_quiet s _ fun hc => ?_
  obtain ⟨h13, h1⟩ := hc.startBits
  simp only [StartBitsOk, writeReg, readReg, State.setRegs, BitVec.getLsbD_and, BitVec.getLsbD_or, Bool.and_eq_true,
    Bool.or_eq_true]
  exact ⟨fun h => h.1.elim (fun h => h13 h.1) (htx hc), fun h => h.1.elim (fun h => h1 h.1) (hrx hc)⟩

/-- One direction is stopped for its ring to be rebuilt: the stall counted, the start bit and the MAC enable cleared. -/
theorem haltDirection_quiet (s : State) (st en : Word) :
    let s1 := s.setStats s.stats.countStall
    let s2 := writeReg s1 .dmaOpmode (readReg s1 .dmaOpmode &&& ~~~st)
    Quiet s (writeReg s2 .macCfg (readReg s2 .macCfg &&& ~~~en)) :=
  (setStats_quiet s s.stats.countStall).trans <|
    (clearStartBit_quiet _ st).trans (writeReg_quiet _ .macCfg _)

/-- One direction is started again at its base: the MAC enable and the start bit set. -/
theorem resumeDirection_quiet (s : State) (st en : Word)
    (htx : paramsOk s.params = true → st.getLsbD 13 = true → s.regs.dmaTxBase = s.params.txDescBase)
    (hrx : paramsOk s.params = true → st.getLsbD 1 = true → s.regs.dmaRxBase = s.params.rxDescBase) :
    let s1 := writeReg s .macCfg (readReg s .macCfg ||| en)
    Quiet s (writeReg s1 .dmaOpmode (readReg s1 .dmaOpmode ||| st)) :=
  (writeReg_quiet s .macCfg _).trans (setStartBit_quiet _ st (fun hc => htx hc.params) fun hc => hrx hc.params)

/-- The RX recovery of a RUNNING device: its ring initialised and its base programmed, the rest quiet. -/
theorem handleRxStopped_cases (s : State) : Quiet s (handleRxStopped s) ∨
    ∃ u, Quiet s u ∧ Quiet (writeReg (initRing u .rx) .dmaRxBase u.params.rxDescBase) (handleRxStopped s) := by
  unfold handleRxStopped
  split
  · refine .inr ⟨_, haltDirection_quiet s flagSR flagRE, Quiet.trans
      (resumeDirection_quiet _ flagSR flagRE (fun _ h => ?_) fun hp _ => ?_) (writeReg_quiet _ .dmaRxPoll 0)⟩
    · exact absurd h (by decide)
    · exact rxDescBase_masked _ hp
  · exact .inl (.refl s)

/-- The TX recovery of a RUNNING device. -/
theorem handleTxStopped_cases (s : State) : Quiet s (handleTxStopped s) ∨
    ∃ u, Quiet s u ∧ Quiet (writeReg (initRing u .tx) .dmaTxBase u.params.txDescBase) (handleTxStopped s) := by
  unfold handleTxStopped
  split
  · refine .inr ⟨_, haltDirection_quiet s flagST flagTE, resumeDirection_quiet _ flagST flagTE (fun hp _ => ?_) fun _ h => ?_⟩
    · exact txDescBase_masked _ hp
    · exact absurd h (by decide)
  · exact .inl (.refl s)

theorem handleRxStopped_steady (s : State) : Steady s (handleRxStopped s) := by
  obtain h | ⟨u, hu, ht⟩ := handleRxStopped_cases s
  · exact h.toSteady
  · exact hu.toSteady.trans ((initRing_steady u .rx).trans ((writeRxBase_steady _).trans ht.toSteady))

theorem handleTxStopped_steady (s : State) : Steady s (handleTxStopped s) := by
  obtain h | ⟨u, hu, ht⟩ := handleTxStopped_cases s
  · exact h.toSteady
  · exact hu.toSteady.trans ((initRing_steady u .tx).trans ((writeTxBase_steady _).trans ht.toSteady))

end Sys2Proof.Machine
end

section
/-! PROOFS. The device state and the invariant (spec/10_state.md R20, R35): one inversion of `exec` says which operations move
the phases, and from it follow R20's arrows and that every step keeps the invariant. -/

namespace Sys2Proof.Machine

open Sys2Proof.Safety

/-! ## Operations that leave the phases alone -/

/-- The link-change service rebuilds both rings when the mode changed, and else leaves them alone (R171, R196). -/
theorem reconfigureIfChanged_cases (old : LinkMode) (s : State) :
    Quiet s (reconfigureIfChanged old s) ∨ Rebuilt s (reconfigureIfChanged old s) := by
  unfold reconfigureIfChanged
  split
  · exact .inr (reconfigureMac_rebuilt _ _)
  · exact .inl (.refl s)

theorem serviceLink_cases (s : State) : Quiet s (serviceLink s) ∨ Rebuilt s (serviceLink s) := by
  have hread := mdioRead_quiet s 1
  unfold serviceLink
  dsimp only
  split
  · exact .inl (hread.trans (setCarrier_quiet _ _))
  split
  · split
    · exact .inl (hread.trans (setCarrier_quiet _ _))
    · have hresolve := hread.trans (resolveLinkMode_quiet _)
      exact (reconfigureIfChanged_cases _ _).imp hresolve.trans (.of_quiet hresolve)
  · have hup := hread.trans (setCarrier_quiet _ .up)
    exact (reconfigureIfChanged_cases _ _).imp hup.trans (.of_quiet hup)

theorem linkChangeService_cases (s : State) : Quiet s (linkChangeService s) ∨ Rebuilt s (linkChangeService s) := by
  unfold linkChangeService
  split
  · exact serviceLink_cases s
  · exact .inl (.refl s)

theorem linkChangeService_steady (s : State) : Steady s (linkChangeService s) :=
  (linkChangeService_cases s).elim Quiet.toSteady Rebuilt.steady

theorem isrDataPath_steady (s : State) (snapshot : Word) : Steady s (isrDataPath s snapshot) := by
  have hwalks := (reclaimRx_steady s s.params.nRx).trans (reclaimTx_steady _)
  unfold isrDataPath
  dsimp only
  split
  · exact (hwalks.trans (handleRxStopped_steady _)).trans (writeReg_quiet _ .dmaIer _).toSteady
  · exact hwalks.trans (writeReg_quiet _ .dmaIer _).toSteady

/-- The paths of an ISR invocation (R190): after the snapshot, the count and the mask, at most one service runs. -/
theorem isr_paths (s : State) : ∃ u, Quiet s u ∧
    (isr s = u ∨ isr s = linkChangeService u ∨ isr s = handleFatalError u ∨ ∃ w, isr s = isrDataPath u w) := by
  have hsnap := statusSnapshot_quiet s
  have hcount := hsnap.trans (setStats_quiet _ (statusSnapshot s).2.stats.countInterrupt)
  have hmask := hcount.trans (writeReg_quiet _ .dmaIer 0)
  unfold isr isrService
  dsimp only
  split
  · exact ⟨_, hsnap, .inl rfl⟩
  split
  · exact ⟨_, hcount, .inr (.inl rfl)⟩
  split
  · exact ⟨_, hmask, .inr (.inr (.inl rfl))⟩
  split
  · exact ⟨_, hmask, .inr (.inr (.inr ⟨_, rfl⟩))⟩
  · exact ⟨_, hmask, .inl rfl⟩

/-! ### The watchdog -/

/-- The tick reads the engine's cursor when the base is programmed (R52, R197). -/
theorem watchdogCursor_eq (s : State) (hp : paramsOk s.params = true) (hb : s.regs.dmaTxBase = s.params.txDescBase)
    (hcur : s.tx.cur < s.params.nTx) : watchdogCursor s = s.tx.cur := by
  obtain ⟨-, hN, -⟩ := paramsOk_sizes s.params hp
  have hdiff : readReg s .dmaCurTx - s.params.txDescBase = BitVec.ofNat 32 (16 * s.tx.cur) := by
    simp only [readReg, hb, txDescBase_masked _ hp, BitVec.add_comm s.params.txDescBase, BitVec.add_sub_cancel]
  rw [watchdogCursor, hdiff, BitVec.toNat_ofNat, Nat.mod_eq_of_lt (by omega), Nat.mul_div_cancel_left _ (by omega)]

/-- The count of the tick that ends in the TX recovery is cleared whatever it was. -/
theorem handleTxStopped_wdCount (s : State) (n : Nat) :
    { handleTxStopped { s with wdCount := n } with wdCount := 0 } = { handleTxStopped s with wdCount := 0 } := by
  unfold handleTxStopped
  split <;> rfl

/-- The watchdog's count is cleared. -/
theorem clearCount_quiet (s : State) : Quiet s { s with wdCount := 0 } := .tick fun hc => by
  obtain ⟨-, -, -, -, -, -, -, -, -, hstall⟩ := paramsOk_sizes s.params hc.params
  exact ⟨hc.indices.2.2.2.2.2.1, hstall⟩

/-- A tick moves the watchdog's record, or runs the TX recovery and clears its count (R197). -/
theorem watchdogTick_cases (s : State) (hb : BasesSet s) :
    Quiet s (watchdogTick s) ∨ watchdogTick s = { handleTxStopped s with wdCount := 0 } := by
  unfold watchdogTick
  dsimp only
  split
  · refine .inl (.tick fun hc => ?_)
    obtain ⟨-, -, -, hcur, -⟩ := hc.indices
    obtain ⟨-, -, -, -, -, -, -, -, -, hstall⟩ := paramsOk_sizes s.params hc.params
    rw [watchdogCursor_eq s hc.params hb.1 hcur]
    exact ⟨hcur, hstall⟩
  split
  · exact .inr (handleTxStopped_wdCount s _)
  · next hnot =>
    refine .inl (.tick fun hc => ?_)
    obtain ⟨-, -, -, -, -, hcur, hcount⟩ := hc.indices
    exact ⟨hcur, by omega⟩

theorem watchdog_cases (s : State) (hb : s.dev = .running → BasesSet s) :
    Quiet s (watchdog s) ∨ watchdog s = { handleTxStopped s with wdCount := 0 } := by
  unfold watchdog
  split
  · exact .inl (.refl s)
  · next hd => exact watchdogTick_cases s (hb hd)
  · exact .inl (clearCount_quiet s)
  · exact .inl (clearCount_quiet s)

theorem watchdog_steady (s : State) (hb : s.dev = .running → BasesSet s) : Steady s (watchdog s) := by
  obtain h | h := watchdog_cases s hb
  · exact h.toSteady
  · rw [h]
    exact (handleTxStopped_steady s).trans (clearCount_quiet _).toSteady

theorem watchdog_dev (s : State) : (watchdog s).dev = s.dev := by
  have htx := (handleTxStopped_steady { s with wdCount := s.wdCount + 1 }).dev
  unfold watchdog watchdogTick
  dsimp only
  split
  · rfl
  · split_ifs
    · rfl
    · exact htx
    · rfl
  · rfl
  · rfl

/-! ### The host commands -/

theorem lengthOk_iff (p : Params) (len : Half) (bytes : List Byte) :
    lengthOk p len bytes = true ↔ GoodLength p len bytes := by
  simp only [lengthOk, Bool.and_eq_true, decide_eq_true_eq, and_assoc]
  exact and_congr_left fun _ => Nat.one_le_iff_ne_zero.symm

theorem send_steady (s : State) (length : Nat) (bytes : List Byte) (h1 : 1 ≤ length)
    (hmax : length ≤ s.params.bufSize) (hb : bytes.length = length) : Steady s (send s length bytes) := by
  unfold send
  split
  · exact (enqueueTx_steady s length bytes h1 hmax hb).trans Quiet.book.toSteady
  · exact (respond_quiet s _).toSteady

theorem receive_quiet (s : State) (cap : Nat) : Quiet s (receive s cap) := by
  unfold receive
  split
  · exact .book
  all_goals
    next hq =>
    refine (Quiet.queue (fun n hn => ?_) ?_).trans .book
    · rw [hq] at hn
      exact Nat.le_of_succ_le hn
    · rw [hq]
      exact List.subset_cons_self _ _

theorem setMacAddress_quiet (s : State) (mac : MacAddr) : Quiet s (setMacAddress s mac) :=
  (Quiet.book : Quiet s { s with cfg := { s.cfg with mac := mac } }).trans ((writeMacAddr_quiet _).trans .book)

theorem setMode_quiet (s : State) (mode : CfgMode) : Quiet s (setMode s mode) := .book

/-- START_BEGIN, once it has entered its phase, rebuilds both rings and takes the path by the mode (R232). -/
theorem startBegin_rebuilt (s : State) : Rebuilt { s with startPh := .neg } (startBegin s) := by
  have hstop := (writeOpmode_zero_quiet { s with startPh := .neg }).trans (writeReg_quiet _ .dmaIer 0)
  have hfilter := fun t => (writeMacAddr_quiet t).trans (writeReg_quiet _ .macFilter s.cfg.filter)
  exact ⟨_, hstop.trans (writeMacCfg_quiet _ false), (hfilter _).trans (beginLink_quiet _)⟩

/-! ## Moves of the phases -/

/-- The phases are no part of `CoreOk`, but that a ring is described from ATTACH on. -/
theorem CoreOk.control {s : State} (hc : CoreOk s) {dv : Dev} {sp : StartPhase} {tp : StopPhase} {rp : RecPhase} {sh : Bool}
    (hd : dv ≠ .uninit → s.dev ≠ .uninit) :
    CoreOk { s with dev := dv, startPh := sp, stopPh := tp, recPh := rp, startHeld := sh } :=
  ⟨hc.params, hc.mem, hc.regs, hc.startBits, hc.neg, hc.indices, fun h => hc.rings (hd h), fun h => hc.queue (hd h)⟩

theorem unanswered_eq_false (s : State) : unanswered s = false ↔ Answered s := by
  simp only [unanswered, Bool.or_eq_false_iff, decide_eq_false_iff_not, not_not, and_assoc]

namespace ControlOk

variable {s : State}

/-- START enters its phase and programs the bases (R232). -/
theorem begun {t : State} (h : ControlOk s) (hd : s.dev = .idle) (ha : Answered s) (ht : Steady { s with startPh := .neg } t)
    (hb : BasesSet t) : ControlOk t := by
  obtain ⟨-, ha2, ha3⟩ := ha
  have hidle : t.dev = .idle := ht.dev.trans hd
  have hstop : t.stopPh = .none := ht.stopPh.trans ha2
  have hheld : t.startHeld = false := ht.startHeld.trans ha3
  refine ⟨?_, fun _ => hidle, fun _ => ⟨hstop, hheld⟩, fun _ => hheld, fun h => absurd (hidle.symm.trans h) (by simp),
    fun _ => hb⟩
  rw [ht.dev, ht.recPh]
  exact h.fault

/-- START_FIN (R233). -/
theorem finish (h : ControlOk s) (hs : s.startPh = .neg) : ControlOk { s with dev := .running, startPh := .none } := by
  have hidle := h.negIdle hs
  have hrec : s.recPh = .none := by
    by_contra hr
    exact absurd (hidle.symm.trans (h.fault.mpr hr)) (by simp)
  exact ⟨iff_of_false (by simp) (by simp [hrec]), by rintro ⟨⟩, by rintro ⟨⟩, h.drainAlone, by rintro ⟨⟩,
    fun _ => h.bases (.inl hs)⟩

/-- STOP enters its phase (R235). -/
theorem drain (h : ControlOk s) (hd : s.dev ≠ .uninit) (ha : Answered s) : ControlOk { s with stopPh := .drain } := by
  obtain ⟨ha1, ha2, ha3⟩ := ha
  exact ⟨h.fault, h.negIdle, fun hs => absurd (ha1.symm.trans hs) (by simp), fun _ => ha3, fun hu => absurd hu hd, h.bases⟩

/-- STOP_END (R236). -/
theorem stopped (h : ControlOk s) (hs : s.stopPh = .drain) (hr : s.recPh = .none) :
    ControlOk { s with dev := if s.dev = .running then .idle else s.dev, stopPh := .none } := by
  have hsp : s.startPh = .none := by
    cases hp : s.startPh with
    | none => rfl
    | neg => exact absurd (hs.symm.trans (h.negAlone hp).1) (by simp)
  have hheld := h.drainAlone hs
  have hfault : s.dev ≠ .fault := fun hf => h.fault.mp hf hr
  refine ⟨?_, fun hn => absurd (hsp.symm.trans hn) (by simp), fun _ => ⟨rfl, hheld⟩, fun _ => hheld,
    fun _ => ⟨hsp, rfl, hheld⟩, ?_⟩
  · dsimp only
    split <;> simp [hr, hfault]
  · dsimp only
    split <;> simp [*]

/-- The fatal-error entry (R210). -/
theorem fatal (h : ControlOk s) (hd : s.dev = .running) : ControlOk { s with dev := .fault, recPh := .stopping } :=
  ⟨iff_of_true rfl (by simp), fun hs => absurd (hd.symm.trans (h.negIdle hs)) (by simp), h.negAlone, h.drainAlone,
    by rintro ⟨⟩, fun hp => h.bases (.inr (.inl hd))⟩

/-- The next step of the recovery: the bases are programmed before the phases that rely on them (R211 to R213). -/
theorem recovery (h : ControlOk s) (hr : s.recPh ≠ .none) {rp : RecPhase} (hrp : rp ≠ .none)
    (hb : rp = .reapply ∨ rp = .restart → BasesSet s) : ControlOk { s with recPh := rp } :=
  have hd := h.fault.mpr hr
  ⟨iff_of_true hd hrp, h.negIdle, h.negAlone, h.drainAlone, h.uninit, fun hp => by
    obtain hp | hp | hp := hp
    · exact absurd (hd.symm.trans (h.negIdle hp)) (by simp)
    · exact absurd (hd.symm.trans hp) (by simp)
    · exact hb hp⟩

/-- REC_STEP RESTART (R214). -/
theorem restarted (h : ControlOk s) (hr : s.recPh = .restart) : ControlOk { s with dev := .running, recPh := .none } :=
  have hd := h.fault.mpr (by simp [hr])
  ⟨iff_of_false (by simp) (by simp), fun hs => absurd (hd.symm.trans (h.negIdle hs)) (by simp), h.negAlone, h.drainAlone,
    by rintro ⟨⟩, fun _ => h.bases (.inr (.inr (.inr hr)))⟩

/-- A START is held, on a device in FAULT (R231). -/
theorem held (h : ControlOk s) (hd : s.dev = .fault) (ha : Answered s) : ControlOk { s with startHeld := true } := by
  obtain ⟨ha1, ha2, ha3⟩ := ha
  exact ⟨h.fault, h.negIdle, fun hs => absurd (ha1.symm.trans hs) (by simp), fun hs => absurd (ha2.symm.trans hs) (by simp),
    fun hu => absurd (hd.symm.trans hu) (by simp), h.bases⟩

/-- The hold is lifted (log 7). -/
theorem released (h : ControlOk s) : ControlOk { s with startHeld := false } :=
  ⟨h.fault, h.negIdle, fun hs => ⟨(h.negAlone hs).1, rfl⟩, fun _ => rfl,
    fun hu => ⟨(h.uninit hu).1, (h.uninit hu).2.1, rfl⟩, h.bases⟩

/-- A device just attached (R230). -/
theorem attached (hd : s.dev = .idle) (h1 : s.startPh = .none) (h2 : s.stopPh = .none) (h3 : s.recPh = .none) :
    ControlOk s := by
  constructor <;> simp [*]

end ControlOk

/-! ## ATTACH -/

theorem initRings_ringsOk (s : State) (hc : CoreOk s) : RingsOk (initRings s) := by
  refine (ringsOk_iff _).mpr fun k i hi => ?_
  rw [initRings_desc s k i hc hi]
  exact .fresh k hc.params hi

theorem regsOk_reset (s : State) : RegsOk (s.setRegs (Regs.reset s.params)) := by
  cases hg : s.params.macGigabit <;> simp [RegsOk, Regs.reset, hg]

/-- The state `attach` initialises the rings in: everything else at its value after ATTACH (R230, R330). -/
def clearedState (s : State) : State :=
  { s with
    link := Link.reset, knownGood := 0, cfg := Cfg.reset, stats := Stats.zero
    startPh := .none, stopPh := .none, recPh := .none
    neg := .idle, negPolls := 0, negResult := .ok
    regs := Regs.reset s.params, tx := Engine.reset, rx := Engine.reset }

theorem attach_eq (s : State) : attach s = { initRings (clearedState s) with dev := .idle } := rfl

theorem clearedState_coreOk (s : State) (hc : CoreOk s) (hd : s.dev = .uninit) : CoreOk (clearedState s) := by
  obtain ⟨i1, i2, i3, i4, i5, i6, i7⟩ := hc.indices
  exact ⟨hc.params, hc.mem, regsOk_reset s, by simp [StartBitsOk, clearedState, Regs.reset], ⟨.inl rfl, Nat.zero_le _, by rintro ⟨⟩⟩,
    ⟨i1, i2, i3, Nat.zero_lt_of_lt i4, Nat.zero_lt_of_lt i5, i6, i7⟩, absurd hd, absurd hd⟩

theorem attach_coreOk (s : State) (hc : CoreOk s) (hd : s.dev = .uninit) : CoreOk (attach s) := by
  have hcleared := clearedState_coreOk s hc hd
  have hrings := initRings_ringsOk _ hcleared
  obtain ⟨p, m, r, b, n, i, -, -⟩ := (initRings_steady _).core hcleared
  rw [attach_eq]
  exact ⟨p, m, r, b, n, i, fun _ => hrings, fun _ => queueOk_nil _⟩

/-! ## What an operation does to the phases -/

/-- `t` is the state operation `i` answers from `s`: either the phases stay, or it is one of the operations that move them. -/
inductive PhaseMove : Instr → State → State → Prop
  | steady {i s t} (h : Steady s t) : PhaseMove i s t
  | ticked {s r} : PhaseMove .watchdog s { watchdog s with tickResp := r }
  | attached {s} (hd : s.dev = .uninit) (ha : Answered s) : PhaseMove .attach s (respond (attach s) .ok)
  | begun {s} (hd : s.dev = .idle) (ha : Answered s) : PhaseMove .start s (startBegin (awaitAnswer s))
  | held {s} (hd : s.dev = .fault) (ha : Answered s) : PhaseMove .start s { awaitAnswer s with startHeld := true }
  | finished {s r} (hs : s.startPh = .neg) : PhaseMove .startFin s ((startFin s).setRet r)
  | draining {s} (hd : s.dev ≠ .uninit) (ha : Answered s) : PhaseMove .stop s (stop s)
  | stopped {s r} (hs : s.stopPh = .drain) (hr : s.recPh = .none) : PhaseMove .stopEnd s ((stopEnd s).setRet r)
  | fatal {i s u r} (hi : i = .handleFatalError ∨ i = .isr) (h : Steady s u) :
      PhaseMove i s ((handleFatalError u).setRet r)
  | recovery {i s u rp r} (h : Steady s u) (hr : s.recPh ≠ .none) (hrp : rp ≠ .none)
      (hb : CoreOk s → ControlOk s → rp = .reapply ∨ rp = .restart → BasesSet u) :
      PhaseMove i s (State.setRet { u with recPh := rp } r)
  | restarted {s r} (hr : s.recPh = .restart) : PhaseMove .recStepRestart s ((recRestart s).setRet r)

/-- If the outcome is a next state, that state has the property. -/
def Answers (o : Host.Outcome State Fault Refusal) (P : State → Prop) : Prop := ∀ t, o = .next t → P t

namespace Answers

variable {P : State → Prop} {s t : State}

theorem next (h : P t) : Answers (.next t) P := by
  rintro _ ⟨⟩
  exact h

theorem fault (f : Fault) : Answers (.fault f) P := by rintro _ ⟨⟩

/-- A choice between two outcomes. -/
theorem ite {c : Prop} [Decidable c] {o o' : Host.Outcome State Fault Refusal} (h : c → Answers o P)
    (h' : ¬ c → Answers o' P) : Answers (if c then o else o') P := by
  split
  · next hc => exact h hc
  · next hc => exact h' hc

/-- A command under the host duties (R245, R246). -/
theorem command {k : State → State} (h : Answered s → s.dev ≠ .uninit → P (k s)) : Answers (hostCommand s k) P := by
  obtain ⟨-, e⟩ | ⟨-, -, e⟩ | ⟨ha, hd, e⟩ := hostCommand_cases s k
  · rw [e]; exact fault _
  · rw [e]; exact fault _
  · rw [e]; exact next (h ((unanswered_eq_false s).mp ha) hd)

/-- A SEND or an ENQUEUE_TX of a length it is defined for (R117, R131). -/
theorem goodLength {len : Half} {bytes : List Byte} {f : Fault} (h : GoodLength s.params len bytes → P t) :
    Answers (if lengthOk s.params len bytes then .next t else .fault f) P :=
  ite (fun hl => next (h ((lengthOk_iff _ _ _).mp hl))) fun _ => fault _

/-! A property that every quiet step gives. -/

section

variable (hq : ∀ t, Quiet s t → P t)
include hq

/-- A step under an enabling condition (log 6). -/
theorem enabled {c : Prop} [Decidable c] (h : c → P (t.setRet .none)) :
    Answers (if c then .next (t.setRet .none) else .next (notEnabled s)) P :=
  ite (fun hc => next (h hc)) fun _ => next (hq _ (setRet_quiet s _))

theorem enabled_quiet {c : Prop} [Decidable c] (h : c → Quiet s t) :
    Answers (if c then .next (t.setRet .none) else .next (notEnabled s)) P :=
  enabled hq fun hc => hq _ ((h hc).trans (setRet_quiet t _))

theorem command_quiet {k : State → State} (h : ∀ s, Quiet s (k s)) : Answers (hostCommand s k) P :=
  command fun _ _ => hq _ (h s)

theorem illegal : Answers (illegalCommand s) P := ite (fun _ => fault _) fun _ => next (hq _ (respond_quiet s _))

end

end Answers

/-- An operation that runs and leaves its return value (log 18). -/
theorem PhaseMove.returns {i : Instr} {s t : State} (r : OpResult) (h : Steady s t) : PhaseMove i s (t.setRet r) :=
  .steady (h.trans (setRet_quiet t r).toSteady)

theorem start_moves (s : State) (ha : Answered s) (hd : s.dev ≠ .uninit) : PhaseMove .start s (start s) := by
  unfold start
  split
  · next hu => exact absurd hu hd
  · exact .steady (respond_quiet s _).toSteady
  · next hf =>
    split
    · exact .steady (respond_quiet s _).toSteady
    · exact .held hf ha
  · next hi => exact .begun hi ha

theorem execAttach_moves (s : State) : Answers (execAttach s) (PhaseMove .attach s) :=
  .ite (fun _ => .fault _) fun ha => .ite
    (fun hd => .next (.attached hd ((unanswered_eq_false s).mp (Bool.not_eq_true _ ▸ ha)))) fun _ => .fault _

theorem execStop_moves (s : State) : Answers (execStop s) (PhaseMove .stop s) :=
  .ite (fun _ => .fault _) fun ha => .ite (fun _ => .next (.steady (respond_quiet s _).toSteady))
    fun hd => .next (.draining hd ((unanswered_eq_false s).mp (Bool.not_eq_true _ ▸ ha)))

theorem execSend_moves (len : Half) (bytes : List Byte) (s : State) :
    Answers (execSend len bytes s) (PhaseMove (.send len bytes) s) := by
  unfold execSend
  obtain ⟨-, h⟩ | ⟨-, -, h⟩ | ⟨-, -, h⟩ := hostCommand_cases s id
  · rw [h]; exact .fault _
  · rw [h]; exact .fault _
  · rw [h]; exact .goodLength fun ⟨h1, hmax, hb⟩ => .steady (send_steady s _ bytes h1 hmax hb)

theorem isr_moves (s : State) (r : OpResult) : PhaseMove .isr s ((isr s).setRet r) := by
  obtain ⟨u, hu, h | h | h | ⟨w, h⟩⟩ := isr_paths s <;> rw [h]
  · exact .returns r hu.toSteady
  · exact .returns r (hu.toSteady.trans (linkChangeService_steady u))
  · exact .fatal (.inr rfl) hu.toSteady
  · exact .returns r (hu.toSteady.trans (isrDataPath_steady u w))

/-- REC_STEP STOPPING, REINIT and REAPPLY: each hands over to the next step (R211 to R213). -/
theorem recStopping_moves (s : State) (r : OpResult) (hr : s.recPh = .stopping) :
    PhaseMove .recStepStopping s ((recStopping s).setRet r) :=
  .recovery (stopEngines_quiet s).toSteady (by simp [hr]) (by simp) (by simp)

theorem recReinit_moves (s : State) (r : OpResult) (hr : s.recPh = .reinit) :
    PhaseMove .recStepReinit s ((recReinit s).setRet r) := by
  refine .recovery (rebuild_steady s) (by simp [hr]) (by simp) fun hc _ _ => ?_
  exact programBases_basesSet _ ((initRings_steady s).core hc).params

theorem recReapply_quiet (s : State) :
    Quiet s (writeMacCfg (writeReg (writeMacAddr s) .macFilter s.cfg.filter) false) :=
  ((writeMacAddr_quiet s).trans (writeReg_quiet _ .macFilter _)).trans (writeMacCfg_quiet _ false)

theorem recReapply_moves (s : State) (r : OpResult) (hr : s.recPh = .reapply) :
    PhaseMove .recStepReapply s ((recReapply s).setRet r) :=
  .recovery (recReapply_quiet s).toSteady (by simp [hr]) (by simp) fun hc h _ =>
    (recReapply_quiet s).bases hc (h.bases (.inr (.inr (.inl hr))))

/-- What every operation does to the phases, one line for each. -/
theorem exec_moves (i : Instr) (s : State) : Answers (exec i s) (PhaseMove i s) := by
  have hq : ∀ t, Quiet s t → PhaseMove i s t := fun _ h => .steady h.toSteady
  cases i with
  | attach => exact execAttach_moves s
  | start => exact .command (start_moves s)
  | stop => exact execStop_moves s
  | send len bytes => exact execSend_moves len bytes s
  | receive cap => exact .command_quiet hq fun s => receive_quiet s _
  | getLinkState => exact .command_quiet hq fun _ => .book
  | getStats => exact .command_quiet hq fun _ => .book
  | setMacAddress mac => exact .command_quiet hq fun s => setMacAddress_quiet s mac
  | setModeAuto => exact .command_quiet hq fun s => setMode_quiet s _
  | setModeForced speed duplex => exact .ite (fun _ => .illegal hq) fun _ => .command_quiet hq fun s => setMode_quiet s _
  | watchdog => exact .next .ticked
  | initRing kind => exact .next (.returns _ (initRing_steady s kind))
  | enqueueTx len bytes =>
    exact .goodLength fun ⟨h1, hmax, hb⟩ => .returns _ (enqueueTx_steady s _ bytes h1 hmax hb)
  | reclaimTx => exact .next (.returns _ (reclaimTx_steady s))
  | reclaimRx maxCount => exact .next (.returns _ (reclaimRx_steady s _))
  | mdioRead reg => exact .next (.returns _ (mdioRead_quiet s reg).toSteady)
  | mdioWrite reg value => exact .next (.returns _ (mdioWrite_quiet s reg value).toSteady)
  | startNegotiation adv => exact .next (.returns _ (startNegotiation_quiet s adv).toSteady)
  | negPoll => exact .enabled_quiet hq (negPoll_quiet s)
  | forceLink speed duplex => exact .next (.returns _ (forceLink_quiet s _).toSteady)
  | resolveLinkMode => exact .next (.returns _ (resolveLinkMode_quiet s).toSteady)
  | reconfigureMac speed duplex => exact .next (.returns _ (reconfigureMac_rebuilt s _).steady)
  | isr => exact .enabled hq fun _ => isr_moves s _
  | linkChangeService => exact .next (.returns _ (linkChangeService_steady s))
  | handleFatalError => exact .next (.fatal (.inl rfl) (.refl s))
  | recStepStopping => exact .enabled hq (recStopping_moves s _)
  | recStepReinit => exact .enabled hq (recReinit_moves s _)
  | recStepReapply => exact .enabled hq (recReapply_moves s _)
  | recStepRestart => exact .enabled hq .restarted
  | handleRxStopped => exact .next (.returns _ (handleRxStopped_steady s))
  | handleTxStopped => exact .next (.returns _ (handleTxStopped_steady s))
  | startFin => exact .enabled hq fun h => .finished h.1
  | stopEnd => exact .enabled hq fun h => .stopped h.1 h.2
  | txdmaStep underflow => exact .enabled hq fun _ => .returns _ (txdmaStep_steady s underflow)
  | rxdmaFrame len bytes crc lerr ovf => exact .enabled hq fun _ => .returns _ (rxdmaFrame_steady s _ bytes crc lerr ovf)
  | busError => exact .enabled_quiet hq fun _ => raiseBusError_quiet s
  | phyLinkEvent =>
    exact .ite (fun _ => .next (hq _ (setRet_quiet s _))) fun _ => .next (.returns _ (setStatus_quiet s stLSC).toSteady)

/-! ## The device state (R20) -/

theorem recRestart_dev (s : State) : (recRestart s).dev = .running := rfl

theorem stopEnd_dev (s : State) : (stopEnd s).dev = if s.dev = .running then .idle else s.dev := rfl

theorem handleFatalError_dev (s : State) : (handleFatalError s).dev = if s.dev = .running then .fault else s.dev := by
  unfold handleFatalError
  split <;> rfl

/-- Settles O54: of the moves of the phases, five change the device state, each along an arrow. -/
theorem deviceTransitions : Obligations.DeviceTransitions := by
  refine ⟨fun p => rfl, fun i s t ⟨hfault, hneg, _⟩ h hne => ?_⟩
  cases exec_moves i s t h with
  | steady h => exact absurd h.dev hne
  | ticked => exact absurd (watchdog_dev s) hne
  | attached hd => exact .inl ⟨hd, rfl, rfl⟩
  | begun =>
    exact absurd (startBegin_rebuilt (awaitAnswer s)).steady.dev hne
  | held | draining => exact absurd rfl hne
  | recovery hu _ _ _ => exact absurd hu.dev hne
  | finished hs => exact .inr (.inl ⟨hneg hs, rfl, rfl⟩)
  | stopped =>
    by_cases hr : s.dev = .running
    · exact .inr (.inr (.inl ⟨hr, (stopEnd_dev s).trans (if_pos hr), rfl⟩))
    · exact absurd ((stopEnd_dev s).trans (if_neg hr)) hne
  | @fatal _ _ u _ hi hu =>
    have hdev := handleFatalError_dev u
    rw [hu.dev] at hdev
    by_cases hr : s.dev = .running
    · exact .inr (.inr (.inr (.inl ⟨hr, hdev.trans (if_pos hr), hi⟩)))
    · exact absurd (hdev.trans (if_neg hr)) hne
  | restarted hr => exact .inr (.inr (.inr (.inr ⟨hfault.mpr (by simp [hr]), recRestart_dev s, rfl⟩)))

end Sys2Proof.Machine
end

section
/-! PROOFS. Every step keeps the invariant of the block, whatever item is taken. -/

namespace Sys2Proof.Machine

open Sys2Proof.Safety

theorem Quiet.inv {s t : State} (h : Quiet s t) (hs : Inv s) : Inv t := h.toSteady.inv hs

/-- A move of the phases of a state that has the rest of the invariant. -/
theorem Steady.inv_control {s u : State} (h : Steady s u) (hs : Inv s) {dv : Dev} {sp : StartPhase} {tp : StopPhase}
    {rp : RecPhase} {sh : Bool} (hd : dv ≠ .uninit → s.dev ≠ .uninit)
    (hp : ControlOk u → ControlOk { u with dev := dv, startPh := sp, stopPh := tp, recPh := rp, startHeld := sh }) :
    Inv { u with dev := dv, startPh := sp, stopPh := tp, recPh := rp, startHeld := sh } := by
  obtain ⟨hc, hctl⟩ := (inv_iff s).mp hs
  refine (inv_iff _).mpr ⟨(h.core hc).control fun hdv => ?_, hp (h.controlOk hc hctl)⟩
  rw [h.dev]
  exact hd hdv

/-- The engines start at the bases START_BEGIN, or REINIT, has programmed (R214, R233). -/
theorem startEngines_after_clear (s : State) (v : Word) (hb : CoreOk s → BasesSet s) (hc : CoreOk s) :
    Quiet s (startEngines (writeReg s .dmaStatus v)) :=
  have hclear := writeReg_quiet s .dmaStatus v
  hclear.trans (startEngines_quiet _ (hclear.bases hc (hb hc)))

theorem startFin_inv (s : State) (hs : Inv s) (hph : s.startPh = .neg) : Inv (startFin s) := by
  obtain ⟨hc, hp⟩ := (inv_iff s).mp hs
  have hrun := startEngines_after_clear s 0x3F (fun _ => hp.bases (.inl hph)) hc
  refine (respond_quiet _ _).inv (hrun.inv_control hs (fun _ => ?_) fun h => h.finish (hrun.startPh.trans hph))
  simp [hp.negIdle hph]

theorem stop_inv (s : State) (hs : Inv s) (hd : s.dev ≠ .uninit) (ha : Answered s) : Inv (stop s) := by
  have hquiet : Quiet s (writeReg (awaitAnswer s) .dmaIer 0) :=
    Quiet.trans (t := awaitAnswer s) .book (writeReg_quiet _ .dmaIer 0)
  exact hquiet.inv_control hs id fun h => h.drain hd ha

theorem stopEnd_inv (s : State) (hs : Inv s) (hph : s.stopPh = .drain) (hr : s.recPh = .none) : Inv (stopEnd s) := by
  have hquiet := (writeReg_quiet s .dmaIer 0).trans (stopEngines_quiet _)
  refine (respond_quiet _ _).inv (hquiet.inv_control hs ?_ fun h => h.stopped hph hr)
  split
  · next hd => simp [hd]
  · exact id

theorem handleFatalError_inv (s : State) (hs : Inv s) : Inv (handleFatalError s) := by
  unfold handleFatalError
  split
  · next hd =>
    have hquiet := setStats_quiet s s.stats.countFatal
    exact hquiet.inv_control hs (fun _ => by simp [hd]) fun h => h.fatal hd
  · exact hs

theorem recRestart_eq (s : State) : recRestart s =
    { startEngines (writeReg s .dmaStatus 0x1F) with dev := .running, recPh := .none } := by
  simp only [recRestart, startEngines_eq]

theorem recRestart_inv (s : State) (hs : Inv s) (hr : s.recPh = .restart) : Inv (recRestart s) := by
  obtain ⟨hc, hp⟩ := (inv_iff s).mp hs
  have hrun := startEngines_after_clear s 0x1F (fun _ => hp.bases (.inr (.inr (.inr hr)))) hc
  have hdev : s.dev = .fault := hp.fault.mpr (by simp [hr])
  rw [recRestart_eq]
  exact hrun.inv_control hs (fun _ => by simp [hdev]) fun h => h.restarted (hrun.recPh.trans hr)

theorem startBegin_inv (s : State) (hs : Inv s) (hd : s.dev = .idle) (ha : Answered s) : Inv (startBegin s) := by
  obtain ⟨hc, hp⟩ := (inv_iff s).mp hs
  have hrebuilt := startBegin_rebuilt s
  have hc' : CoreOk { s with startPh := .neg } := hc.control id
  exact (inv_iff _).mpr ⟨hrebuilt.steady.core hc', hp.begun hd ha hrebuilt.steady (hrebuilt.basesSet hc')⟩

theorem attach_inv (s : State) (hs : Inv s) (hd : s.dev = .uninit) : Inv (attach s) := by
  obtain ⟨hc, -⟩ := (inv_iff s).mp hs
  have hrings := initRings_steady (clearedState s)
  exact (inv_iff _).mpr ⟨attach_coreOk s hc hd, .attached rfl hrings.startPh hrings.stopPh hrings.recPh⟩

theorem hostTurn_inv (s : State) (hs : Inv s) : Inv (hostTurn s) := by
  unfold hostTurn
  split
  · exact (respond_quiet _ _).inv ((Steady.refl s).inv_control hs id fun h => h.released)
  · exact (setRet_quiet s _).inv hs

/-! ## Operations and steps -/

/-- Every move of an operation keeps the invariant. -/
theorem PhaseMove.inv {i : Instr} {s t : State} (h : PhaseMove i s t) (hs : Inv s) : Inv t := by
  have hawait : Inv (awaitAnswer s) := Quiet.inv (s := s) .book hs
  obtain ⟨-, hp⟩ := (inv_iff s).mp hs
  cases h with
  | steady h => exact h.inv hs
  | ticked =>
    have htick := watchdog_steady s fun hd => hp.bases (.inr (.inl hd))
    exact Quiet.inv (s := watchdog s) .book (htick.inv hs)
  | attached hd => exact (respond_quiet _ _).inv (attach_inv s hs hd)
  | begun hd ha => exact startBegin_inv _ hawait hd ha
  | held hd ha => exact (Steady.refl _).inv_control hawait id fun h => h.held hd ha
  | finished hph => exact (setRet_quiet _ _).inv (startFin_inv s hs hph)
  | draining hd ha => exact stop_inv s hs hd ha
  | stopped hph hr => exact (setRet_quiet _ _).inv (stopEnd_inv s hs hph hr)
  | fatal _ hu => exact (setRet_quiet _ _).inv (handleFatalError_inv _ (hu.inv hs))
  | recovery hu hr hrp hb =>
    obtain ⟨hc, -⟩ := (inv_iff s).mp hs
    have hru := hu.recPh
    exact (setRet_quiet _ _).inv (hu.inv_control hs (fun h => hu.dev ▸ h) fun h => h.recovery (hru ▸ hr) hrp (hb hc hp))
  | restarted hr => exact (setRet_quiet _ _).inv (recRestart_inv s hs hr)

theorem exec_inv (i : Instr) (s t : State) (hs : Inv s) (h : exec i s = .next t) : Inv t := (exec_moves i s t h).inv hs

theorem stepItem_inv (item : Item) (s t : State) (hs : Inv s) (h : stepItem item s = .next t) : Inv t := by
  unfold stepItem at h
  split at h
  · unfold stepHost at h
    split at h
    · exact exec_inv _ s t hs h
    · exact Answers.illegal (fun _ hq => hq.inv hs) t h
    · cases h
  · unfold stepAgent at h
    split at h
    · exact exec_inv _ s t hs h
    · cases h
  · cases h
    exact hostTurn_inv s hs

/-- Settles O58: an item is taken, and its operation is one of the moves of the phases or leaves them alone. -/
theorem stepKeepsInv : Obligations.StepKeepsInv := by
  intro s t hs h
  unfold step at h
  split at h
  · split at h
    · cases h
      exact hs
    · next item rest _ => exact stepItem_inv item (takeItem s rest) t (Quiet.inv (s := s) .book hs) h
  · cases h

end Sys2Proof.Machine
end

section
/-! PROOFS. The windows of the two rings (spec/10_state.md R18, R22, R24, R50): the HW-owned TX slots are those from the
engine's cursor to `tx_head`, the SW-owned RX slots those from `rx_head` to the engine's cursor. Each step of an agent adds a
slot at the end of a window, takes one from its front, empties both, or leaves them alone. -/

namespace Sys2Proof.Machine

open Sys2Proof.Safety

/-! ## Windows -/

/-- From slot `lo` on, the slots with `P` are the next `n` and no other, and `hi` is the slot after them: what R22, R24 and
R50 say of the HW-owned TX slots and of the SW-owned RX slots. -/
def Window (N lo hi : Nat) (P : Nat → Prop) : Prop :=
  ∃ n, n < N + 1 ∧ (lo + n) % N = hi ∧ ∀ j < N, (P ((lo + j) % N) ↔ j < n)

namespace Window

variable {N lo hi : Nat} {P Q : Nat → Prop}

theorem empty (hlo : lo < N) (h : ∀ i < N, ¬ P i) : Window N lo lo P :=
  ⟨0, by omega, Nat.mod_eq_of_lt hlo, fun j _ => iff_of_false (h _ (Nat.mod_lt _ (by omega))) (by omega)⟩

theorem congr (h : Window N lo hi P) (hPQ : ∀ i < N, (Q i ↔ P i)) : Window N lo hi Q := by
  obtain ⟨n, hn, hhi, hP⟩ := h
  exact ⟨n, hn, hhi, fun j hj => (hPQ _ (Nat.mod_lt _ (by omega))).trans (hP j hj)⟩

/-- The slot after the window joins it. -/
theorem push (h : Window N lo hi P) (hlo : lo < N) (hhi : ¬ P hi) (hQ : Q hi) (hPQ : ∀ i < N, i ≠ hi → (Q i ↔ P i)) :
    Window N lo ((hi + 1) % N) Q := by
  obtain ⟨n, hn, rfl, hP⟩ := h
  have hroom : n < N := by
    by_contra hfull
    obtain rfl : n = N := by omega
    rw [Nat.add_mod_right] at hhi
    exact hhi ((hP 0 (by omega)).mpr (by omega))
  refine ⟨n + 1, by omega, by rw [Nat.mod_add_mod, Nat.add_assoc], fun j hj => ?_⟩
  by_cases hjn : j = n
  · subst hjn
    exact iff_of_true hQ (by omega)
  · rw [hPQ _ (Nat.mod_lt _ (by omega)) (slot_ne N lo j n hj hroom hjn), hP j hj]
    omega

/-- The first slot of the window leaves it. -/
theorem pop (h : Window N lo hi P) (hlo : lo < N) (hP : P lo) (hQ : ¬ Q lo) (hPQ : ∀ i < N, i ≠ lo → (Q i ↔ P i)) :
    Window N ((lo + 1) % N) hi Q := by
  obtain ⟨n, hn, hhi, hw⟩ := h
  have hfirst : (lo + 0) % N = lo := Nat.mod_eq_of_lt hlo
  have hpos : 0 < n := (hw 0 (by omega)).mp (by rwa [hfirst])
  obtain ⟨n, rfl⟩ : ∃ m, n = m + 1 := ⟨n - 1, by omega⟩
  refine ⟨n, by omega, by rw [slot_shift, hhi], fun j hj => ?_⟩
  rw [slot_shift]
  by_cases hlast : j + 1 = N
  · rw [hlast, Nat.add_mod_right, Nat.mod_eq_of_lt hlo]
    exact iff_of_false hQ (by omega)
  · have hne := slot_ne N lo (j + 1) 0 (by omega) (by omega) (by omega)
    rw [hfirst] at hne
    rw [hPQ _ (Nat.mod_lt _ (by omega)) hne, hw (j + 1) (by omega)]
    omega

end Window

/-! ## The windows of the rings -/

/-- The slots of ring `k` whose OWN is `b` form the window from `lo` to `hi`. -/
def OwnWindow (s : State) (k : RingKind) (b : Bool) (lo hi : Nat) : Prop :=
  Window (ringSize s.params k) lo hi fun i => (s.desc k i).own = b

/-- Both windows. -/
def Windows (s : State) : Prop := OwnWindow s .tx true s.tx.cur s.txHead ∧ OwnWindow s .rx false s.rxHead s.rx.cur

theorem windows_iff (s : State) : Windows s ↔ TxWindow s ∧ RxWindow s := Iff.rfl

theorem windows_of_indices {t : State} {a b c d : Nat} (htx : OwnWindow t .tx true a b) (hrx : OwnWindow t .rx false c d)
    (h : t.tx.cur = a ∧ t.txHead = b ∧ t.rxHead = c ∧ t.rx.cur = d) : Windows t := by
  obtain ⟨rfl, rfl, rfl, rfl⟩ := h
  exact ⟨htx, hrx⟩

namespace OwnWindow

variable {s t : State} {k k' : RingKind} {b : Bool} {lo hi i : Nat} {d : Desc}

/-- The window depends on the OWN flags of its ring only. -/
theorem congr (h : OwnWindow s k b lo hi) (hp : t.params = s.params)
    (hd : ∀ i < ringSize s.params k, (t.desc k i).own = (s.desc k i).own) : OwnWindow t k b lo hi := by
  unfold OwnWindow
  rw [hp]
  exact Window.congr h fun i hi => by rw [hd i hi]

/-- A ring in which no slot has the flag. -/
theorem empty (hlo : lo < ringSize s.params k) (h : ∀ i < ringSize s.params k, (s.desc k i).own = !b) :
    OwnWindow s k b lo lo :=
  Window.empty hlo fun i hi => by simp [h i hi]

section

variable (hp : t.params = s.params) (hw : SlotWritten s.params s.mem t.mem k' i d)
include hp hw

theorem desc_same : t.desc k' i = d := by
  unfold State.desc
  rw [hp]
  exact hw.same

theorem desc_other (j : Nat) (hj : j < ringSize s.params k) (hne : k' ≠ k ∨ i ≠ j) : t.desc k j = s.desc k j := by
  unfold State.desc
  rw [hp]
  exact hw.other k j hj hne

/-- A slot written without a change of its OWN, or in the other ring. -/
theorem written (h : OwnWindow s k b lo hi) (ho : k' = k → d.own = (s.desc k i).own) : OwnWindow t k b lo hi := by
  refine h.congr hp fun j hj => ?_
  by_cases heq : k' = k ∧ i = j
  · obtain ⟨rfl, rfl⟩ := heq
    rw [desc_same hp hw, ho rfl]
  · rw [desc_other hp hw j hj (not_and_or.mp heq)]

end

/-- The slot after the window gets the flag. -/
theorem push (h : OwnWindow s k b lo hi) (hp : t.params = s.params) (hw : SlotWritten s.params s.mem t.mem k hi d)
    (hlo : lo < ringSize s.params k) (hold : (s.desc k hi).own = !b) (hnew : d.own = b) :
    OwnWindow t k b lo ((hi + 1) % ringSize s.params k) := by
  unfold OwnWindow
  rw [hp]
  refine Window.push h hlo (by simp [hold]) (by rw [desc_same hp hw, hnew]) fun j hj hne => ?_
  rw [desc_other hp hw j hj (.inr (Ne.symm hne))]

/-- The first slot of the window loses the flag. -/
theorem pop (h : OwnWindow s k b lo hi) (hp : t.params = s.params) (hw : SlotWritten s.params s.mem t.mem k lo d)
    (hlo : lo < ringSize s.params k) (hold : (s.desc k lo).own = b) (hnew : d.own = !b) :
    OwnWindow t k b ((lo + 1) % ringSize s.params k) hi := by
  unfold OwnWindow
  rw [hp]
  refine Window.pop h hlo hold (by simp [desc_same hp hw, hnew]) fun j hj hne => ?_
  rw [desc_other hp hw j hj (.inr (Ne.symm hne))]

end OwnWindow

theorem Quiet.windows {s t : State} (h : Quiet s t) (hw : Windows s) : Windows t := by
  have hd : ∀ k i, t.desc k i = s.desc k i := fun k i => by
    unfold State.desc
    rw [h.params, h.mem]
  obtain ⟨htx, hrx⟩ := hw
  exact windows_of_indices (htx.congr h.params fun i _ => by rw [hd]) (hrx.congr h.params fun i _ => by rw [hd])
    ⟨h.txCur, h.txHead, h.rxHead, h.rxCur⟩

/-! ### Fresh rings -/

/-- The TX ring as INIT_RING leaves it: no slot is HW-owned. -/
theorem freshTx_window (s : State) (hp : paramsOk s.params = true)
    (hd : ∀ i < ringSize s.params .tx, s.desc .tx i = freshSlot s.params .tx i) : OwnWindow s .tx true 0 0 :=
  .empty (paramsOk_ringSize _ .tx hp) fun i hi => by rw [hd i hi]; rfl

/-- The RX ring as INIT_RING leaves it: no slot is SW-owned. -/
theorem freshRx_window (s : State) (hp : paramsOk s.params = true)
    (hd : ∀ i < ringSize s.params .rx, s.desc .rx i = freshSlot s.params .rx i) : OwnWindow s .rx false 0 0 :=
  .empty (paramsOk_ringSize _ .rx hp) fun i hi => by rw [hd i hi]; rfl

theorem initRings_windows (s : State) (hc : CoreOk s) :
    OwnWindow (initRings s) .tx true 0 0 ∧ OwnWindow (initRings s) .rx false 0 0 := by
  have hp := (initRings_steady s).params
  have hd : ∀ k, ∀ i < ringSize (initRings s).params k, (initRings s).desc k i = freshSlot (initRings s).params k i := by
    rw [hp]
    exact fun k i hi => initRings_desc s k i hc hi
  have hok : paramsOk (initRings s).params = true := by
    rw [hp]
    exact hc.params
  exact ⟨freshTx_window _ hok (hd .tx), freshRx_window _ hok (hd .rx)⟩

theorem programBases_desc (s : State) (k : RingKind) (i : Nat) : (programBases s).desc k i = s.desc k i := by
  simp only [State.desc, programBases, writeReg_params, writeReg_mem]

theorem programBases_indices (s : State) : (programBases s).tx.cur = 0 ∧ (programBases s).txHead = s.txHead ∧
    (programBases s).rxHead = s.rxHead ∧ (programBases s).rx.cur = 0 := by
  simp only [programBases, writeReg_txHead, writeReg_rxHead, true_and]
  exact ⟨rfl, rfl⟩

theorem initRings_heads (s : State) : (initRings s).txHead = 0 ∧ (initRings s).rxHead = 0 := by
  simp only [initRings, initRing_tx, initRing_rx, and_self]

/-- Both rings rebuilt, whatever they held (R170, R212, R232). -/
theorem rebuild_windows (s : State) (hc : CoreOk s) : Windows (programBases (initRings s)) := by
  obtain ⟨htx, hrx⟩ := initRings_windows s hc
  have hindices := programBases_indices (initRings s)
  obtain ⟨hth, hrh⟩ := initRings_heads s
  rw [hth, hrh] at hindices
  exact windows_of_indices (htx.congr (programBases_params _) fun i _ => by rw [programBases_desc])
    (hrx.congr (programBases_params _) fun i _ => by rw [programBases_desc]) hindices

theorem Rebuilt.windows {s t : State} (h : Rebuilt s t) (hc : CoreOk s) : Windows t := by
  obtain ⟨u, hu, ht⟩ := h
  exact ht.windows (rebuild_windows u (hu.core hc))

/-! ## An attached device with both windows -/

/-- What the agents' steps keep on an attached device. -/
structure Live (s : State) : Prop where
  core     : CoreOk s
  attached : s.dev ≠ .uninit
  windows  : Windows s

theorem Steady.live {s t : State} (h : Steady s t) (hs : Live s) (hw : Windows t) : Live t :=
  ⟨h.core hs.core, h.dev ▸ hs.attached, hw⟩

theorem Quiet.live {s t : State} (h : Quiet s t) (hs : Live s) : Live t := h.toSteady.live hs (h.windows hs.windows)

theorem Live.slotOk {s : State} (hs : Live s) (k : RingKind) (i : Nat) (hi : i < ringSize s.params k) :
    SlotOk s.params k i (s.desc k i) := (ringsOk_iff s).mp (hs.core.rings hs.attached) k i hi

/-! ### The ring manager -/

theorem publishTx_indices (s : State) (length : Nat) (bytes : List Byte) :
    (publishTx s length bytes).tx.cur = s.tx.cur ∧
      (publishTx s length bytes).txHead = (s.txHead + 1) % ringSize s.params .tx ∧
      (publishTx s length bytes).rxHead = s.rxHead ∧ (publishTx s length bytes).rx.cur = s.rx.cur := by
  rw [publishTx_frame]
  exact ⟨rfl, rfl, rfl, rfl⟩

/-- A published frame extends the TX window (R131). -/
theorem publishTx_live (s : State) (length : Nat) (bytes : List Byte) (hs : Live s) (h1 : 1 ≤ length)
    (hmax : length ≤ s.params.bufSize) (hb : bytes.length = length) (ho : (s.desc .tx s.txHead).own = false) :
    Live (publishTx s length bytes) := by
  obtain ⟨htx, hrx⟩ := hs.windows
  obtain ⟨-, -, -, hcur, -⟩ := hs.core.indices
  have hsteady := publishTx_steady s length bytes h1 hmax hb
  have hw := publishTx_slotWritten s length bytes hs.core (hb ▸ hmax)
  exact hsteady.live hs (windows_of_indices (htx.push hsteady.params hw hcur ho rfl) (hrx.written hsteady.params hw (by simp))
    (publishTx_indices s length bytes))

theorem enqueueTx_live (s : State) (length : Nat) (bytes : List Byte) (hs : Live s) (h1 : 1 ≤ length)
    (hmax : length ≤ s.params.bufSize) (hb : bytes.length = length) : Live (enqueueTx s length bytes).2.2 := by
  unfold enqueueTx
  split
  · exact hs
  · next ho => exact publishTx_live s length bytes hs h1 hmax hb (Bool.not_eq_true _ ▸ ho)

/-- A reclaimed TX slot was SW-owned and stays so (R132). -/
theorem reclaimTxOne_live (s : State) (ho : (s.desc .tx s.txTail).own = false) (hs : Live s) : Live (reclaimTxOne s) := by
  obtain ⟨htx, hrx⟩ := hs.windows
  have hsteady := reclaimTxOne_steady s ho
  have hw := reclaimTxOne_slotWritten s hs.core
  exact hsteady.live hs (windows_of_indices (htx.written hsteady.params hw fun _ => rfl)
    (hrx.written hsteady.params hw (by simp)) ⟨rfl, rfl, rfl, rfl⟩)

theorem reclaimRxOne_indices (s : State) : (reclaimRxOne s).tx.cur = s.tx.cur ∧ (reclaimRxOne s).txHead = s.txHead ∧
    (reclaimRxOne s).rxHead = (s.rxHead + 1) % ringSize s.params .rx ∧ (reclaimRxOne s).rx.cur = s.rx.cur := by
  rw [reclaimRxOne_frame]
  exact ⟨rfl, rfl, rfl, rfl⟩

/-- A consumed RX slot leaves the front of the RX window (R135). -/
theorem reclaimRxOne_live (s : State) (ho : (s.desc .rx s.rxHead).own = false) (hs : Live s) : Live (reclaimRxOne s) := by
  obtain ⟨htx, hrx⟩ := hs.windows
  obtain ⟨-, -, hhead, -⟩ := hs.core.indices
  have hsteady := reclaimRxOne_steady s
  have hw := reclaimRxOne_slotWritten s hs.core
  exact hsteady.live hs (windows_of_indices (htx.written hsteady.params hw (by simp))
    (hrx.pop hsteady.params hw hhead ho rfl) (reclaimRxOne_indices s))

theorem reclaimTx_live (s : State) (hs : Live s) : Live (reclaimTx s).2 :=
  reclaimTxLoop_induction reclaimTxOne_live _ s hs

theorem reclaimRx_live (s : State) (maxCount : Nat) (hs : Live s) : Live (reclaimRx s maxCount).2 := by
  have hwalk : Live (reclaimRxLoop (min maxCount s.params.nRx) s).2 := reclaimRxLoop_induction reclaimRxOne_live _ s hs
  unfold reclaimRx
  dsimp only
  split
  · exact (writeReg_quiet _ .dmaRxPoll 0).live hwalk
  · exact hwalk

/-! ### The engines -/

theorem advance_of_succ (s : State) (k : RingKind) (i j : Nat) (d : Desc) (h : dmaSucc s k i d = some j) :
    advance s k i d = s.setEngine k { s.engine k with cur := j } := by
  unfold advance
  rw [h]

/-- The base register of an engine holds the base of its ring (R52). -/
theorem engineBase_tx (s : State) (hp : paramsOk s.params = true) (hb : s.regs.dmaTxBase = s.params.txDescBase) :
    engineBase s .tx = descBase s.params .tx := by
  simp only [engineBase, readReg, hb, txDescBase_masked _ hp, descBase]

theorem engineBase_rx (s : State) (hp : paramsOk s.params = true) (hb : s.regs.dmaRxBase = s.params.rxDescBase) :
    engineBase s .rx = descBase s.params .rx := by
  simp only [engineBase, readReg, hb, rxDescBase_masked _ hp, descBase]

/-- The TX cursor moves to the next slot, since the slot is linked (R262). -/
theorem txComplete_indices (s : State) (u : Bool) (hs : Live s) (hb : s.regs.dmaTxBase = s.params.txDescBase) :
    (txComplete s u).tx.cur = (s.tx.cur + 1) % ringSize s.params .tx ∧ (txComplete s u).txHead = s.txHead ∧
      (txComplete s u).rxHead = s.rxHead ∧ (txComplete s u).rx.cur = s.rx.cur := by
  obtain ⟨-, -, -, hcur, -⟩ := hs.core.indices
  have hslot := hs.slotOk .tx s.tx.cur hcur
  unfold txComplete
  dsimp only
  generalize writeStatus s.params .tx s.mem s.tx.cur _ = m
  rw [advance_of_succ (j := (s.tx.cur + 1) % ringSize s.params .tx)]
  · exact ⟨rfl, rfl, rfl, rfl⟩
  · exact dmaSucc_linked _ .tx _ _ hs.core.params hcur (engineBase_tx _ hs.core.params hb) hslot

theorem rxComplete_indices (s : State) (len : Nat) (bytes : List Byte) (crc lerr ovf : Bool) (hs : Live s)
    (hb : s.regs.dmaRxBase = s.params.rxDescBase) :
    (rxComplete s len bytes crc lerr ovf).tx.cur = s.tx.cur ∧ (rxComplete s len bytes crc lerr ovf).txHead = s.txHead ∧
      (rxComplete s len bytes crc lerr ovf).rxHead = s.rxHead ∧
      (rxComplete s len bytes crc lerr ovf).rx.cur = (s.rx.cur + 1) % ringSize s.params .rx := by
  obtain ⟨-, -, -, -, hcur, -⟩ := hs.core.indices
  have hslot := hs.slotOk .rx s.rx.cur hcur
  unfold rxComplete
  dsimp only
  generalize writeStatus s.params .rx _ s.rx.cur _ = m
  rw [advance_of_succ (j := (s.rx.cur + 1) % ringSize s.params .rx)]
  · exact ⟨rfl, rfl, rfl, rfl⟩
  · exact dmaSucc_linked _ .rx _ _ hs.core.params hcur (engineBase_rx _ hs.core.params hb) hslot

/-- A frame sent takes the slot at the cursor from the TX window (R261). -/
theorem txdmaStep_live (s : State) (u : Bool) (hs : Live s) (hb : s.regs.dmaTxBase = s.params.txDescBase) :
    Live (txdmaStep s u) := by
  unfold txdmaStep
  split
  · next ho =>
    obtain ⟨htx, hrx⟩ := hs.windows
    obtain ⟨-, -, -, hcur, -⟩ := hs.core.indices
    have hsteady := txComplete_steady s u
    have hw := txComplete_slotWritten s u hs.core
    exact hsteady.live hs (windows_of_indices (htx.pop hsteady.params hw hcur ho rfl)
      (hrx.written hsteady.params hw (by simp)) (txComplete_indices s u hs hb))
  · exact (suspend_quiet s .tx stTXU).live hs

/-- A frame received extends the RX window (R264). -/
theorem rxdmaFrame_live (s : State) (len : Nat) (bytes : List Byte) (crc lerr ovf : Bool) (hs : Live s)
    (hb : s.regs.dmaRxBase = s.params.rxDescBase) : Live (rxdmaFrame s len bytes crc lerr ovf) := by
  unfold rxdmaFrame
  split
  · exact hs
  split
  · next ho =>
    obtain ⟨htx, hrx⟩ := hs.windows
    obtain ⟨-, -, hhead, -, hcur, -⟩ := hs.core.indices
    have hsteady := rxComplete_steady s len bytes crc lerr ovf
    have hw := rxComplete_slotWritten s len bytes crc lerr ovf hs.core (hs.slotOk .rx _ hcur).sizes.1.le
    exact hsteady.live hs (windows_of_indices (htx.written hsteady.params hw (by simp))
      (hrx.push hsteady.params hw hhead ho rfl) (rxComplete_indices s len bytes crc lerr ovf hs hb))
  · exact (suspend_quiet s .rx stRXU).live hs

/-! ### The narrow recoveries -/

/-- One ring fresh and its engine at slot 0, the other direction untouched (R216, R217). -/
theorem rebuildRx_live (s : State) (hs : Live s) : Live (writeReg (initRing s .rx) .dmaRxBase s.params.rxDescBase) := by
  obtain ⟨htx, -⟩ := hs.windows
  have hp := initRing_params s .rx
  have hd := initRing_desc_same s .rx
  have htx' : OwnWindow (initRing s .rx) .tx true s.tx.cur s.txHead := htx.congr hp fun i hi => by
    rw [initRing_desc_other s .rx .tx i hs.core.params (by simp) hi]
  have hrx' : OwnWindow (initRing s .rx) .rx false 0 0 := by
    refine freshRx_window _ (by rw [hp]; exact hs.core.params) fun i hi => ?_
    rw [hp] at hi ⊢
    exact hd i hs.core.mem hi
  have hsteady := (initRing_steady s .rx).trans (writeRxBase_steady _)
  exact hsteady.live hs (windows_of_indices htx' hrx' ⟨rfl, rfl, rfl, rfl⟩)

theorem rebuildTx_live (s : State) (hs : Live s) : Live (writeReg (initRing s .tx) .dmaTxBase s.params.txDescBase) := by
  obtain ⟨-, hrx⟩ := hs.windows
  have hp := initRing_params s .tx
  have hd := initRing_desc_same s .tx
  have hrx' : OwnWindow (initRing s .tx) .rx false s.rxHead s.rx.cur := hrx.congr hp fun i hi => by
    rw [initRing_desc_other s .tx .rx i hs.core.params (by simp) hi]
  have htx' : OwnWindow (initRing s .tx) .tx true 0 0 := by
    refine freshTx_window _ (by rw [hp]; exact hs.core.params) fun i hi => ?_
    rw [hp] at hi ⊢
    exact hd i hs.core.mem hi
  have hsteady := (initRing_steady s .tx).trans (writeTxBase_steady _)
  exact hsteady.live hs (windows_of_indices htx' hrx' ⟨rfl, rfl, rfl, rfl⟩)

theorem handleRxStopped_live (s : State) (hs : Live s) : Live (handleRxStopped s) := by
  obtain h | h := handleRxStopped_cases s
  · exact h.live hs
  · obtain ⟨u, hu, ht⟩ := h
    exact ht.live (rebuildRx_live u (hu.live hs))

theorem handleTxStopped_live (s : State) (hs : Live s) : Live (handleTxStopped s) := by
  obtain h | h := handleTxStopped_cases s
  · exact h.live hs
  · obtain ⟨u, hu, ht⟩ := h
    exact ht.live (rebuildTx_live u (hu.live hs))

/-! ### The interrupt engine -/

theorem isrDataPath_live (s : State) (snapshot : Word) (hs : Live s) : Live (isrDataPath s snapshot) := by
  have hwalks := reclaimTx_live _ (reclaimRx_live s s.params.nRx hs)
  unfold isrDataPath
  dsimp only
  split
  · exact (writeReg_quiet _ .dmaIer _).live (handleRxStopped_live _ hwalks)
  · exact (writeReg_quiet _ .dmaIer _).live hwalks

theorem handleFatalError_windows (s : State) (hw : Windows s) : Windows (handleFatalError s) := by
  unfold handleFatalError
  split <;> exact hw

theorem isr_windows (s : State) (hs : Live s) : Windows (isr s) := by
  obtain ⟨u, hu, h | h | h | ⟨w, h⟩⟩ := isr_paths s <;> rw [h]
  · exact hu.windows hs.windows
  · obtain hl | hl := linkChangeService_cases u
    · exact hl.windows (hu.windows hs.windows)
    · exact hl.windows (hu.core hs.core)
  · exact handleFatalError_windows u (hu.windows hs.windows)
  · exact (isrDataPath_live u w (hu.live hs)).windows

theorem watchdog_windows (s : State) (hs : Live s) (hb : s.dev = .running → BasesSet s) : Windows (watchdog s) := by
  obtain h | h := watchdog_cases s hb
  · exact h.windows hs.windows
  · rw [h]
    exact (handleTxStopped_live s hs).windows

/-! ### The host commands -/

theorem send_windows (s : State) (length : Nat) (bytes : List Byte) (hs : Live s) (h1 : 1 ≤ length)
    (hmax : length ≤ s.params.bufSize) (hb : bytes.length = length) : Windows (send s length bytes) := by
  unfold send
  split
  · exact (enqueueTx_live s length bytes hs h1 hmax hb).windows
  · exact hs.windows

theorem execSend_windows (len : Half) (bytes : List Byte) (s : State) (hs : Live s) :
    Answers (execSend len bytes s) Windows := by
  unfold execSend
  obtain ⟨-, h⟩ | ⟨-, -, h⟩ | ⟨-, -, h⟩ := hostCommand_cases s id
  · rw [h]; exact .fault _
  · rw [h]; exact .fault _
  · rw [h]; exact .goodLength fun ⟨h1, hmax, hb⟩ => send_windows s _ bytes hs h1 hmax hb

theorem start_windows (s : State) (hs : Live s) : Windows (start s) := by
  unfold start
  split
  · exact hs.windows
  · exact hs.windows
  · split <;> exact hs.windows
  · have hawait : Quiet s (awaitAnswer s) := .book
    exact (startBegin_rebuilt (awaitAnswer s)).windows ((hawait.core hs.core).control id)

/-- ATTACH initialises both rings and resets both engines (R230). -/
theorem attach_windows (s : State) (hc : CoreOk s) (hd : s.dev = .uninit) : Windows (attach s) := by
  obtain ⟨htx, hrx⟩ := initRings_windows _ (clearedState_coreOk s hc hd)
  exact windows_of_indices htx hrx ⟨rfl, rfl, rfl, rfl⟩

/-! ## The steps of the agents -/

/-- The windows speak of the device state and of the phases nowhere. -/
theorem Windows.setPhases {s : State} (h : Windows s) (d : Dev) (a : StartPhase) (p : StopPhase) (q : RecPhase) :
    Windows { s with dev := d, startPh := a, stopPh := p, recPh := q } := h

theorem recStopping_windows (s : State) (hw : Windows s) : Windows (recStopping s) :=
  ((stopEngines_quiet s).windows hw).setPhases _ _ _ .reinit

theorem recReinit_windows (s : State) (hc : CoreOk s) : Windows (recReinit s) :=
  (rebuild_windows s hc).setPhases _ _ _ .reapply

theorem recReapply_windows (s : State) (hw : Windows s) : Windows (recReapply s) :=
  ((recReapply_quiet s).windows hw).setPhases _ _ _ .restart

theorem recRestart_windows (s : State) (hs : Live s) (hb : BasesSet s) : Windows (recRestart s) :=
  recRestart_eq s ▸ ((startEngines_after_clear s _ (fun _ => hb) hs.core).windows hs.windows).setPhases .running _ _ .none

theorem startFin_windows (s : State) (hs : Live s) (hb : BasesSet s) : Windows (startFin s) :=
  (respond_quiet _ _).windows
    (((startEngines_after_clear s _ (fun _ => hb) hs.core).windows hs.windows).setPhases .running .none _ _)

theorem stopEnd_windows (s : State) (hw : Windows s) : Windows (stopEnd s) :=
  have hquiet := (writeReg_quiet s .dmaIer 0).trans (stopEngines_quiet _)
  (respond_quiet _ .ok).windows ((hquiet.windows hw).setPhases _ _ .none _)

/-- A flag that is one bit of a register (R41, R48). -/
theorem getLsbD_of_hasFlag (w flag : Word) (n : Nat) (hflag : ∀ i : Fin 32, flag.getLsbD i = true → i = n)
    (h : hasFlag w flag = true) : w.getLsbD n = true := by
  by_contra hn
  refine (decide_eq_true_iff.mp h) (BitVec.eq_of_getLsbD_eq fun i hi => ?_)
  by_cases hf : flag.getLsbD i = true
  · obtain rfl : i = n := hflag ⟨i, hi⟩ hf
    simp [hn]
  · simp [hf]

/-- The TX engine steps with its base programmed (R52, R260). -/
theorem txBase_of_txEnabled (s : State) (hc : CoreOk s) (h : txEnabled s = true) :
    s.regs.dmaTxBase = s.params.txDescBase := by
  simp only [txEnabled, Bool.and_eq_true] at h
  obtain ⟨⟨⟨hst, -⟩, -⟩, -⟩ := h
  exact hc.startBits.1 (getLsbD_of_hasFlag _ flagST 13 (by decide) hst)

/-- The RX engine steps with its base programmed (R52, R260). -/
theorem rxBase_of_rxEnabled (s : State) (hc : CoreOk s) (h : rxEnabled s = true) :
    s.regs.dmaRxBase = s.params.rxDescBase := by
  simp only [rxEnabled, Bool.and_eq_true] at h
  obtain ⟨⟨hsr, -⟩, -⟩ := h
  exact hc.startBits.2 (getLsbD_of_hasFlag _ flagSR 1 (by decide) hsr)

/-- On an attached device every step of an agent keeps both windows. -/
theorem exec_windows (i : Instr) (s : State) (ha : agentStep i = true) (hs : Live s) (hp : ControlOk s) :
    Answers (exec i s) Windows := by
  have hq : ∀ t, Quiet s t → Windows t := fun _ h => h.windows hs.windows
  have hset : ∀ {t r}, Windows t → Windows (t.setRet r) := fun h => (setRet_quiet _ _).windows h
  cases i with
  | attach => exact .ite (fun _ => .fault _) fun _ => .ite (fun hd => absurd hd hs.attached) fun _ => .fault _
  | start => exact .command fun _ _ => start_windows s hs
  | stop => exact .ite (fun _ => .fault _) fun _ => .ite (fun hd => absurd hd hs.attached) fun _ => .next hs.windows
  | send len bytes => exact execSend_windows len bytes s hs
  | receive cap => exact .command_quiet hq fun s => receive_quiet s _
  | getLinkState => exact .command_quiet hq fun _ => .book
  | getStats => exact .command_quiet hq fun _ => .book
  | setMacAddress mac => exact .command_quiet hq fun s => setMacAddress_quiet s mac
  | setModeAuto => exact .command_quiet hq fun s => setMode_quiet s _
  | setModeForced speed duplex => exact .ite (fun _ => .illegal hq) fun _ => .command_quiet hq fun s => setMode_quiet s _
  | watchdog => exact .next (watchdog_windows s hs fun hd => hp.bases (.inr (.inl hd)))
  | negPoll => exact .enabled_quiet hq (negPoll_quiet s)
  | isr => exact .enabled hq fun _ => isr_windows s hs
  | recStepStopping => exact .enabled hq fun _ => hset (recStopping_windows s hs.windows)
  | recStepReinit => exact .enabled hq fun _ => hset (recReinit_windows s hs.core)
  | recStepReapply => exact .enabled hq fun _ => hset (recReapply_windows s hs.windows)
  | recStepRestart =>
    exact .enabled hq fun hr => hset (recRestart_windows s hs (hp.bases (.inr (.inr (.inr hr)))))
  | startFin => exact .enabled hq fun h => hset (startFin_windows s hs (hp.bases (.inl h.1)))
  | stopEnd => exact .enabled hq fun _ => hset (stopEnd_windows s hs.windows)
  | txdmaStep underflow =>
    exact .enabled hq fun h => (txdmaStep_live s underflow hs (txBase_of_txEnabled s hs.core h)).windows
  | rxdmaFrame len bytes crc lerr ovf =>
    exact .enabled hq fun h => (rxdmaFrame_live s _ bytes crc lerr ovf hs (rxBase_of_rxEnabled s hs.core h)).windows
  | busError => exact .enabled_quiet hq fun _ => raiseBusError_quiet s
  | phyLinkEvent => exact .ite (fun _ => .next hs.windows) fun _ => .next (setStatus_quiet s stLSC |>.windows hs.windows)
  | initRing | enqueueTx | reclaimTx | reclaimRx | mdioRead | mdioWrite | startNegotiation | forceLink | resolveLinkMode
  | reconfigureMac | linkChangeService | handleFatalError | handleRxStopped | handleTxStopped => cases ha

/-- ATTACH is the only way out of UNINIT (R20). -/
theorem eq_attach_of_uninit (i : Instr) (s t : State) (hp : PhasesOk s) (h : exec i s = .next t) (hs : s.dev = .uninit)
    (ht : t.dev ≠ .uninit) : i = .attach := by
  obtain ⟨-, -, hi⟩ | ⟨hd, -⟩ | ⟨hd, -⟩ | ⟨hd, -⟩ | ⟨hd, -⟩ := deviceTransitions.2 i s t hp h (hs ▸ ht)
  · exact hi
  all_goals exact absurd (hs.symm.trans hd) (by simp)

/-- What ATTACH leaves when it is carried out (R230). -/
theorem execAttach_answers (s : State) : Answers (execAttach s) fun t => t = respond (attach s) .ok :=
  .ite (fun _ => .fault _) fun _ => .ite (fun _ => .next rfl) fun _ => .fault _

/-- Settles O59: an attached device keeps both windows through every agent step, and ATTACH, the only way out of UNINIT,
starts with both empty. -/
theorem ringWindowsKept : Obligations.RingWindowsKept := by
  intro i s t hs ha h hw ht
  obtain ⟨hc, hp⟩ := (inv_iff s).mp hs
  rw [← windows_iff] at hw ⊢
  by_cases hd : s.dev = .uninit
  · obtain rfl := eq_attach_of_uninit i s t hs.phases h hd ht
    obtain rfl := execAttach_answers s t h
    exact (respond_quiet _ _).windows (attach_windows s hc hd)
  · exact exec_windows i s ha ⟨hc, hd, hw hd⟩ hp t h

end Sys2Proof.Machine
end

section
/-! PROOFS. Little-endian reads and writes of DMA memory (spec/20_memory.md R71, R72). -/

namespace Sys2Proof.Machine

/-! ## A word and its bytes as numbers -/

/-- The little-endian sum of R71. -/
theorem toNat_bytesWord (b0 b1 b2 b3 : Byte) :
    (bytesWord b0 b1 b2 b3).toNat = b0.toNat + 256 * b1.toNat + 65536 * b2.toNat + 16777216 * b3.toNat := by
  simp only [bytesWord, toNat_append_eq]
  omega

/-- The bytes of R72: byte `k` of a word is its base 256 digit `k`. -/
theorem toNat_getElem_wordBytes (v : Word) (k : Nat) (hk : k < (wordBytes v).length) :
    (wordBytes v)[k].toNat = v.toNat / 256 ^ k % 256 := by
  have digit : ∀ n, (v.extractLsb' n 8).toNat = v.toNat / 2 ^ n % 256 := fun n => by
    rw [BitVec.extractLsb'_toNat, Nat.shiftRight_eq_div_pow]
  match k, hk with
  | 0, _ => exact digit 0
  | 1, _ => exact digit 8
  | 2, _ => exact digit 16
  | 3, _ => exact digit 24

/-! ## One byte after a store -/

theorem Memory.read_write (m : Memory) (a x : Nat) (b : Byte) (h : m.wf = true) :
    (m.write a b).read x = if x = a then b else m.read x := by
  split
  · next hx => rw [hx, Memory.read_write_same m a b h]
  · next hx => exact Memory.read_write_other m a x b hx

theorem Memory.toNat_read_write32 (m : Memory) (a x : Nat) (v : Word) (h : m.wf = true) :
    ((m.write32 a v).read x).toNat =
      if a ≤ x ∧ x < a + 4 then v.toNat / 256 ^ (x - a) % 256 else (m.read x).toNat := by
  split
  · next hx =>
    have hk : x - a < (wordBytes v).length := by rw [length_wordBytes]; omega
    rw [← toNat_getElem_wordBytes v (x - a) hk, ← Memory.read_writeBytes_inside (wordBytes v) m a (x - a) h hk,
      Nat.add_sub_cancel' hx.1, Memory.write32]
  · next hx => rw [Memory.read_write32_outside m a x v (by omega)]

/-- Settles O12, from the law of a read after each kind of store and the number of a word in terms of its bytes. -/
theorem memoryReadsAndWrites : Obligations.MemoryReadsAndWrites := fun m a x b v h =>
  ⟨toNat_bytesWord _ _ _ _, m.read_write a x b h, m.toNat_read_write32 a x v h, m.wf_write a b h, m.wf_write32 a v h⟩

end Sys2Proof.Machine
end

section
/-! PROOFS. The encodings (spec/30_encoding.md): the decoder on encoded operands, what the host port rejects, the response
word and the descriptor words as numbers. -/

namespace Sys2Proof.Machine

open Sys2Proof.Safety

/-! ## The decoder on what the encoder writes (R113, R114, R118) -/

/-- A composed word is read by its fields. -/
theorem decodeWord_commandWord {op : BitVec 8} {sub : BitVec 4} {imm : Half} {p : List Byte}
    {r : Except DecodeError Instr} (h : decodeFields op sub imm p = r) :
    decodeWord (commandWord op sub imm) p = r := by
  simp [decodeWord, h]

/-- A mode is read back from its IMM; only bytes after the word can spoil it. -/
theorem decodeMode_modeImm (speed : Speed) (duplex : Duplex) (p : List Byte) (f : Speed → Duplex → Instr) :
    decodeMode (modeImm speed duplex) p f = if p ≠ [] then .error .badPayload else .ok (f speed duplex) := by
  cases speed <;> cases duplex <;> rfl

/-- A PHY register number is read back from IMM[4:0]. -/
theorem decodePhyReg_setWidth (reg : BitVec 5) (k : BitVec 5 → Except DecodeError Instr) :
    decodePhyReg 0 (reg.setWidth 16) k = k reg := by
  have hhigh : (reg.setWidth 16).extractLsb' 5 11 = 0 := by revert reg; decide
  have hlow : (reg.setWidth 16).extractLsb' 0 5 = reg := by revert reg; decide
  rw [decodePhyReg, hhigh, hlow]
  rfl

theorem decodeFields_startNegotiation (adv : BitVec 6) :
    decodeFields 0x26 0 (adv.setWidth 16) [] = .ok (.startNegotiation adv) := by
  revert adv; decide

/-- The 16-bit value of MDIO_WRITE is read back from its two bytes (log 9). -/
theorem decodeMdioWrite_bytes (reg : BitVec 5) (v : Half) :
    decodeMdioWrite reg [v.extractLsb' 0 8, v.extractLsb' 8 8] = .ok (.mdioWrite reg v) := by
  have hv : v.extractLsb' 8 8 ++ v.extractLsb' 0 8 = v := by
    apply BitVec.eq_of_toNat_eq
    have := v.isLt
    simp only [toNat_append_eq, BitVec.extractLsb'_toNat, Nat.shiftRight_eq_div_pow]
    omega
  rw [decodeMdioWrite, hv]

theorem decodeTxDraw_txDrawByte (u : Bool) : decodeTxDraw [txDrawByte u] = .ok (.txdmaStep u) := by
  cases u <;> rfl

theorem decodeRxFlags_rxFlagByte (len : Half) (bytes : List Byte) (crc lerr ovf : Bool) :
    decodeRxFlags len bytes [rxFlagByte crc lerr ovf] = .ok (.rxdmaFrame len bytes crc lerr ovf) := by
  cases crc <;> cases lerr <;> cases ovf <;> rfl

/-- The payload of RXDMA_FRAME is cut where the IMM field says (log 9). -/
theorem decodeRxDraw_append (len : Half) (bytes flags : List Byte) (h : bytes.length = len.toNat) :
    decodeRxDraw len (bytes ++ flags) = decodeRxFlags len bytes flags := by
  rw [decodeRxDraw, ← h, List.take_left, List.drop_left, if_neg (not_not_intro rfl)]

/-- The row of R113 that the word of an operation names reads its operands back. -/
theorem decodeWord_instrWord (i : Instr) (h : i.wellFormed = true) :
    decodeWord (instrWord i) (instrPayload i) = .ok i := by
  cases i with
  | initRing kind => cases kind <;> exact decodeWord_commandWord rfl
  | setModeForced speed duplex | forceLink speed duplex | reconfigureMac speed duplex =>
    exact decodeWord_commandWord (decodeMode_modeImm speed duplex [] _)
  | mdioRead reg => exact decodeWord_commandWord (decodePhyReg_setWidth reg fun r => decodePlain 0 0 [] (.mdioRead r))
  | mdioWrite reg value =>
    have hreg := decodePhyReg_setWidth reg fun r => decodeMdioWrite r (instrPayload (.mdioWrite reg value))
    exact decodeWord_commandWord (hreg.trans (decodeMdioWrite_bytes reg value))
  | startNegotiation adv => exact decodeWord_commandWord (decodeFields_startNegotiation adv)
  | txdmaStep underflow => exact decodeWord_commandWord (decodeTxDraw_txDrawByte underflow)
  | rxdmaFrame len bytes crc lerr ovf =>
    have hcut := decodeRxDraw_append len bytes [rxFlagByte crc lerr ovf] (by simpa [Instr.wellFormed] using h)
    exact decodeWord_commandWord (hcut.trans (decodeRxFlags_rxFlagByte len bytes crc lerr ovf))
  | _ => exact decodeWord_commandWord rfl

/-- Settles O1: the packet is split into word and payload, and each row reads its operands back. -/
theorem decodeOfEncodeIsTheInstruction : Obligations.DecodeOfEncodeIsTheInstruction := fun i h =>
  (decode_wordBytes _ _).trans (decodeWord_instrWord i h)

/-- Settles O2: a SEND's payload is no part of its word, and the rest are fixed words. -/
theorem commandWordExamples : Obligations.CommandWordExamples :=
  ⟨by decide, by decide, by decide, fun _ => rfl, by decide⟩

/-- Settles O3: the decoder runs on the twelve words. -/
theorem opcodeTableWords : Obligations.OpcodeTableWords := by
  unfold Obligations.OpcodeTableWords
  decide

/-! ## What the host port calls illegal (R116) -/

/-- A check of the word that fails makes it illegal, whatever a later check says. -/
theorem hostWordOf_check {c : Prop} [Decidable c] {e : DecodeError} {r : Except DecodeError Instr}
    (he : hostWordOf (.error e) = .illegal) :
    hostWordOf (if c then .error e else r) = .illegal ↔ c ∨ hostWordOf r = .illegal := by
  split
  · next hc => simp [he, hc]
  · next hc => simp [hc]

/-- The check of the payload does not make a word illegal (log 25). -/
theorem hostWordOf_payload {c : Prop} [Decidable c] (i : Instr) :
    hostWordOf (if c then .error .badPayload else .ok i) ≠ .illegal := by
  split <;> simp [hostWordOf]

theorem decodePlain_illegal (sub : BitVec 4) (imm : Half) (p : List Byte) (i : Instr) :
    hostWordOf (decodePlain sub imm p i) = .illegal ↔ sub ≠ 0 ∨ imm ≠ 0 := by
  rw [decodePlain, hostWordOf_check rfl, hostWordOf_check rfl, or_iff_left (hostWordOf_payload i)]

theorem decodeImm_illegal (sub : BitVec 4) (p : List Byte) (i : Instr) :
    hostWordOf (decodeImm sub p i) = .illegal ↔ sub ≠ 0 := by
  rw [decodeImm, hostWordOf_check rfl, or_iff_left (hostWordOf_payload i)]

theorem decodeFrame_illegal (sub : BitVec 4) (i : Instr) :
    hostWordOf (decodeFrame sub i) = .illegal ↔ sub ≠ 0 := by
  rw [decodeFrame, hostWordOf_check rfl, or_iff_left (by simp [hostWordOf])]

theorem decodeMac_not_illegal (p : List Byte) : hostWordOf (decodeMac p) ≠ .illegal := by
  unfold decodeMac
  split <;> simp [hostWordOf]

theorem speedOfCode_eq_none (c : BitVec 2) : speedOfCode c = none ↔ c = 3 := by revert c; decide

/-- IMM of a mode is illegal by a bit of IMM[15:3] or by speed code 3. -/
theorem decodeMode_illegal (imm : Half) (p : List Byte) (f : Speed → Duplex → Instr) :
    hostWordOf (decodeMode imm p f) = .illegal ↔ imm.extractLsb' 3 13 ≠ 0 ∨ imm.extractLsb' 0 2 = 3 := by
  rw [decodeMode, hostWordOf_check rfl, ← speedOfCode_eq_none]
  refine or_congr_right ?_
  cases speedOfCode (imm.extractLsb' 0 2) with
  | none => exact iff_of_true rfl rfl
  | some speed => exact iff_of_false (hostWordOf_payload _) nofun

/-- What R116 says of SUB and IMM of SET_MODE: SUB 0 with an IMM, SUB 1 with an IMM that is no mode, SUB above 1. -/
def IllegalSetMode (sub : BitVec 4) (imm : Half) : Prop :=
  (sub = 0 ∧ imm ≠ 0) ∨ (sub = 1 ∧ (imm.extractLsb' 3 13 ≠ 0 ∨ imm.extractLsb' 0 2 = 3)) ∨ (sub ≠ 0 ∧ sub ≠ 1)

/-- What R116 says of SUB and IMM of a word with a host OP: only SET_MODE has a SUB, only SEND, RECEIVE and SET_MODE an
IMM. -/
def IllegalFields (op : BitVec 8) (sub : BitVec 4) (imm : Half) : Prop :=
  (op ≠ 9 ∧ sub ≠ 0) ∨ (op ≠ 4 ∧ op ≠ 5 ∧ op ≠ 9 ∧ imm ≠ 0) ∨ (op = 9 ∧ IllegalSetMode sub imm)

theorem decodeSetMode_illegal (sub : BitVec 4) (imm : Half) (p : List Byte) :
    hostWordOf (decodeSetMode sub imm p) = .illegal ↔ IllegalSetMode sub imm := by
  unfold decodeSetMode IllegalSetMode
  split
  · next h => simp [h, decodePlain_illegal]
  · next h0 =>
    split
    · next h => simp [h, decodeMode_illegal]
    · next h1 => exact iff_of_true rfl (.inr (.inr ⟨h0, h1⟩))

/-- The host OPs of R113 whose words have no operand in SUB or IMM and no payload. -/
def plainHostOps : List (BitVec 8) := [0x01, 0x02, 0x03, 0x06, 0x07, 0x0A]

theorem decodeFields_plain (op : BitVec 8) (sub : BitVec 4) (imm : Half) (p : List Byte)
    (h : op ∈ plainHostOps) : ∃ i, decodeFields op sub imm p = decodePlain sub imm p i := by
  simp only [plainHostOps, List.mem_cons, List.not_mem_nil, or_false] at h
  obtain rfl | rfl | rfl | rfl | rfl | rfl := h <;> exact ⟨_, rfl⟩

/-- The ten host OPs, by the form of their words. -/
theorem hostOp_cases (op : BitVec 8) (h : hostOp op = true) :
    op ∈ plainHostOps ∨ op = 0x04 ∨ op = 0x05 ∨ op = 0x08 ∨ op = 0x09 := by
  revert op; decide

/-- The rows of the host commands reject what R116 says. -/
theorem decodeFields_illegal (op : BitVec 8) (sub : BitVec 4) (imm : Half) (p : List Byte) (h : hostOp op = true) :
    hostWordOf (decodeFields op sub imm p) = .illegal ↔ IllegalFields op sub imm := by
  obtain hplain | rfl | rfl | rfl | rfl := hostOp_cases op h
  · obtain ⟨i, hi⟩ := decodeFields_plain op sub imm p hplain
    have hop : op ≠ 4 ∧ op ≠ 5 ∧ op ≠ 9 := by clear hi; revert op; decide
    rw [hi, decodePlain_illegal]
    simp only [IllegalFields, hop, ne_eq, not_false_eq_true, true_and, false_and, or_false]
  · exact (decodeFrame_illegal sub _).trans (by simp [IllegalFields])
  · exact (decodeImm_illegal sub p _).trans (by simp [IllegalFields])
  · have hrow : hostWordOf (decodeFields 0x08 sub imm p) = .illegal ↔
        sub ≠ 0 ∨ imm ≠ 0 ∨ hostWordOf (decodeMac p) = .illegal :=
      (hostWordOf_check rfl).trans (or_congr_right (hostWordOf_check rfl))
    rw [hrow]
    simp [IllegalFields, decodeMac_not_illegal]
  · exact (decodeSetMode_illegal sub imm p).trans (by simp [IllegalFields])

/-- `illegalWord`, on the fields of the word. -/
theorem illegalWord_iff (w : Word) : illegalWord w ↔
    hostOp (opField w) = false ∨ reservedField w ≠ 0 ∨ IllegalFields (opField w) (subField w) (immField w) := by
  obtain ⟨hop, hsub, hres, himm⟩ := fields_toNat w
  have hspeed : ((immField w).extractLsb' 0 2).toNat = (immField w).toNat % 4 := by
    rw [BitVec.extractLsb'_toNat, Nat.shiftRight_zero]
  have hhigh : ((immField w).extractLsb' 3 13).toNat = (immField w).toNat / 8 % 8192 := by
    rw [BitVec.extractLsb'_toNat, Nat.shiftRight_eq_div_pow]
  have := (immField w).isLt
  simp only [illegalWord, ← hop, ← hsub, ← hres, ← himm, hostOp, IllegalFields, IllegalSetMode, ne_eq,
    ← BitVec.toNat_inj, hspeed, hhigh, BitVec.ofNat_eq_ofNat, BitVec.toNat_ofNat, Bool.and_eq_false_iff,
    decide_eq_false_iff_not]
  omega

/-- Settles O4: the OP is judged first, then the reserved bits, then the row of R113 for the OP. -/
theorem hostPortIllegalExactly : Obligations.HostPortIllegalExactly := by
  intro w p
  rw [decodeHost_wordBytes, illegalWord_iff]
  cases hop : hostOp (opField w) with
  | false => simp
  | true =>
    rw [if_pos rfl, decodeWord, hostWordOf_check rfl, decodeFields_illegal _ _ _ _ hop]
    simp

/-- The host port reads a word that forces the speed 1000 as that command; with bytes after it, as no packet (R118). -/
theorem decodeHost_forced1000 (duplex : Duplex) (p : List Byte) :
    decodeHost (wordBytes (instrWord (.setModeForced .s1000 duplex)) ++ p) =
      if p ≠ [] then .malformed else .command (.setModeForced .s1000 duplex) := by
  have hop : opField (instrWord (.setModeForced .s1000 duplex)) = 0x09 := opField_commandWord _ _ _
  have hd : decodeWord (instrWord (.setModeForced .s1000 duplex)) p =
      if p ≠ [] then .error .badPayload else .ok (.setModeForced .s1000 duplex) :=
    decodeWord_commandWord (decodeMode_modeImm .s1000 duplex p _)
  rw [decodeHost_wordBytes, hop, if_pos (by decide : hostOp 0x09 = true), hd]
  split <;> rfl

/-- On a MAC without gigabit a word that forces the speed 1000 is judged illegal, whatever bytes follow it (log 30). -/
theorem stepHost_forced1000 (s : State) (duplex : Duplex) (p : List Byte) (hg : s.params.macGigabit = false) :
    stepHost (wordBytes (instrWord (.setModeForced .s1000 duplex)) ++ p) s = illegalCommand s := by
  have hd := decodeHost_forced1000 duplex p
  split at hd
  · have hw : forcesGigabit (wordBytes (instrWord (.setModeForced .s1000 duplex)) ++ p) = true := by
      rw [forcesGigabit_wordBytes]
      cases duplex <;> rfl
    rw [stepHost, hg, hostPacket_gigabit_stray _ p hw hd]
  · rw [stepHost, hostPacket_of_decodeHost _ _ (by simp [hd]), hd]
    exact if_pos (by simp [modeIllegal, hg])

/-- A word illegal by its encoding is judged illegal (R116). -/
theorem stepHost_illegalWord (s : State) (w : Word) (p : List Byte) (h : illegalWord w) :
    stepHost (wordBytes w ++ p) s = illegalCommand s := by
  have hd := (hostPortIllegalExactly w p).mpr h
  rw [stepHost, hostPacket_of_decodeHost _ _ (by simp [hd]), hd]

/-- An illegal word from a host that waits for nothing is answered 0x7F (R116, R300). -/
theorem illegalCommand_answered (s : State) (h : Answered s) :
    illegalCommand s = .next { s with resp := some ⟨0x0000007F, .none⟩ } := by
  rw [illegalCommand, (unanswered_eq_false s).mpr h]
  rfl

/-- Settles O5: each way a word is illegal ends in the same answer. -/
theorem illegalCommandAnswered : Obligations.IllegalCommandAnswered := by
  intro s w p rest hp ha hw hs
  have hill : stepHost (wordBytes w ++ p) (takeItem s rest) = illegalCommand (takeItem s rest) := by
    obtain h | ⟨hg, rfl | rfl⟩ := hw
    · exact stepHost_illegalWord _ w p h
    · exact stepHost_forced1000 (takeItem s rest) .half p hg
    · exact stepHost_forced1000 (takeItem s rest) .full p hg
  rw [step_item s _ _ hp hs, stepItem, hill]
  exact illegalCommand_answered (takeItem s rest) ha

/-! ## The response word and the descriptor words as numbers (R101, R102, R104, R115) -/

/-- Settles O6: the three fields of the word as a number, and the table of R300. -/
theorem responseWordLayout : Obligations.ResponseWordLayout := by
  refine ⟨fun code v => ?_, rfl, rfl, rfl, rfl, rfl⟩
  simp only [responseWord, toNat_append_eq, BitVec.ofNat_eq_ofNat, BitVec.toNat_ofNat]
  omega

theorem toNat_des0_tx (d : Desc) : (des0 .tx d).toNat = d.own.toNat * 2147483648 + d.unf.toNat := by
  simp only [des0, toNat_append_eq, BitVec.toNat_ofBool, BitVec.ofNat_eq_ofNat, BitVec.toNat_ofNat]
  omega

theorem toNat_des0_rx (d : Desc) : (des0 .rx d).toNat = d.own.toNat * 2147483648 + d.flen.toNat * 65536
    + d.fs.toNat * 512 + d.ls.toNat * 256 + d.ovf.toNat * 4 + d.lerr.toNat * 2 + d.crc.toNat := by
  simp only [des0, toNat_append_eq, BitVec.toNat_ofBool, BitVec.ofNat_eq_ofNat, BitVec.toNat_ofNat]
  omega

theorem toNat_des1_tx (d : Desc) : (des1 .tx d).toNat = d.fs.toNat * 1073741824 + d.ls.toNat * 536870912
    + d.wrap.toNat * 33554432 + d.chain.toNat * 16777216 + d.len.toNat := by
  simp only [des1, toNat_append_eq, BitVec.toNat_ofBool, BitVec.ofNat_eq_ofNat, BitVec.toNat_ofNat]
  omega

theorem toNat_des1_rx (d : Desc) :
    (des1 .rx d).toNat = d.wrap.toNat * 33554432 + d.chain.toNat * 16777216 + d.len.toNat := by
  simp only [des1, toNat_append_eq, BitVec.toNat_ofBool, BitVec.ofNat_eq_ofNat, BitVec.toNat_ofNat]
  omega

/-- A bit that a mask keeps. -/
theorem getLsbD_and_mask (w m : Word) (i : Nat) (h : m.getLsbD i = true) : (w &&& m).getLsbD i = w.getLsbD i := by
  rw [BitVec.getLsbD_and, h, Bool.and_true]

/-- A field that a mask keeps. -/
theorem extractLsb'_and_mask (w m : Word) (i n : Nat) (h : m.extractLsb' i n = BitVec.allOnes n) :
    (w &&& m).extractLsb' i n = w.extractLsb' i n := by
  rw [BitVec.extractLsb'_and, h, BitVec.and_allOnes]

/-- A reader of a TX descriptor looks only at the bits R101 and R102 define (R104). -/
theorem descOfWords_tx_masked (w0 w1 w2 w3 : Word) :
    descOfWords .tx (w0 &&& 0x80000001) (w1 &&& 0x63003FFF) w2 w3 = descOfWords .tx w0 w1 w2 w3 := by
  simp (disch := decide) only [descOfWords, getLsbD_and_mask, extractLsb'_and_mask]

/-- A reader of an RX descriptor looks only at the bits R101 and R102 define (R104). -/
theorem descOfWords_rx_masked (w0 w1 w2 w3 : Word) :
    descOfWords .rx (w0 &&& 0xBFFF0307) (w1 &&& 0x03003FFF) w2 w3 = descOfWords .rx w0 w1 w2 w3 := by
  simp (disch := decide) only [descOfWords, getLsbD_and_mask, extractLsb'_and_mask]

/-- Settles O7: each word as the number its fields make, the law of reading back, and the masks of a reader. -/
theorem descriptorWordsAndFields : Obligations.DescriptorWordsAndFields :=
  ⟨toNat_des0_tx, toNat_des0_rx, toNat_des1_tx, toNat_des1_rx, descOfWords_des, fun w0 w1 w2 w3 =>
    ⟨(descOfWords_tx_masked w0 w1 w2 w3).symm, (descOfWords_rx_masked w0 w1 w2 w3).symm⟩⟩

/-- Settles O8: the words of the eleven descriptors, computed. -/
theorem descriptorWordExamples : Obligations.DescriptorWordExamples := by
  unfold Obligations.DescriptorWordExamples
  decide

end Sys2Proof.Machine
end

section
/-! PROOFS. The descriptor ring manager (spec/40_ring_manager.md R130 to R137): INIT_RING, ENQUEUE_TX and the two reclaim
walks, from the laws of the shared operations. -/

namespace Sys2Proof.Machine

open Sys2Proof.Safety

/-! ## INIT_RING (R130) -/

/-- Every byte outside a ring stays when the ring is initialised. -/
theorem read_initRing_outside (s : State) (k : RingKind) (a : Nat) (ha : OutsideRing s.params k a) :
    (initRing s k).mem.read a = s.mem.read a := by
  rw [initRing_mem]
  exact read_initDescs_outside _ _ _ _ _ ha

theorem initRing_freshRing (s : State) (k : RingKind) (hm : s.mem.wf = true) : FreshRing (initRing s k) k :=
  freshRing_initDescs s _ k s.mem hm (initRing_params s k) fun a _ => by rw [initRing_mem]

/-! ## ENQUEUE_TX (R131) -/

theorem execEnqueueTx_goodLength (s : State) (len : Half) (bytes : List Byte) (h : GoodLength s.params len bytes) :
    exec (.enqueueTx len bytes) s = .next ((enqueueTx s len.toNat bytes).2.2.setRet
      (.enqueue (enqueueTx s len.toNat bytes).1 (enqueueTx s len.toNat bytes).2.1)) :=
  if_pos ((lengthOk_iff _ _ _).mpr h)

theorem enqueueTx_full (s : State) (length : Nat) (bytes : List Byte) (h : (s.desc .tx s.txHead).own = true) :
    enqueueTx s length bytes = (.ringFull, 0, s) := if_pos h

theorem enqueueTx_room (s : State) (length : Nat) (bytes : List Byte) (h : (s.desc .tx s.txHead).own = false) :
    enqueueTx s length bytes = (.ok, length, publishTx s length bytes) := if_neg (by simp [h])

theorem publishTx_mem (s : State) (length : Nat) (bytes : List Byte) : (publishTx s length bytes).mem =
    writeDesc s.params .tx (s.mem.writeBytes (bufAddr s.params .tx s.txHead) bytes) s.txHead
      (publishedDesc (s.desc .tx s.txHead) length) := by
  rw [publishTx_frame]

/-- Besides memory a publication moves the head and wakes the TX engine. -/
theorem publishTx_state (s : State) (length : Nat) (bytes : List Byte) : publishTx s length bytes = { s with
    mem := (publishTx s length bytes).mem, txHead := (s.txHead + 1) % s.params.nTx
    tx := { s.tx with susp := false } } := by
  rw [publishTx_mem]
  exact publishTx_frame s length bytes

theorem publishTx_params (s : State) (length : Nat) (bytes : List Byte) :
    (publishTx s length bytes).params = s.params := by
  rw [publishTx_frame]

/-- The head's descriptor after a publication. -/
theorem publishTx_slotHolds (s : State) (length : Nat) (bytes : List Byte) (hm : s.mem.wf = true) :
    SlotHolds (publishTx s length bytes) .tx s.txHead (publishedDesc (s.desc .tx s.txHead) length) := by
  unfold SlotHolds
  rw [publishTx_params, publishTx_mem]
  exact readBytes_writeDesc _ _ _ _ _ (Memory.wf_writeBytes _ _ _ hm)

/-- The head's buffer after a publication: the descriptor written last does not meet it. -/
theorem publishTx_bufBytes (s : State) (length : Nat) (bytes : List Byte) (hp : paramsOk s.params = true)
    (hm : s.mem.wf = true) (hi : s.txHead < s.params.nTx) (hb : bytes.length = length) (hmax : length ≤ s.params.bufSize) :
    (publishTx s length bytes).mem.readBytes (bufAddr s.params .tx s.txHead) length = bytes := by
  have hfar := desc_buf_disjoint s.params .tx .tx s.txHead s.txHead hp hi hi
  subst hb
  rw [publishTx_mem, readBytes_writeDesc_other _ _ _ _ _ _ _ (by omega)]
  exact Memory.readBytes_writeBytes _ _ _ hm

/-- A publication writes the head's descriptor and the frame, no other byte. -/
theorem read_publishTx_outside (s : State) (length : Nat) (bytes : List Byte) (a : Nat) (hb : bytes.length = length)
    (hdesc : Outside (descAddr s.params .tx s.txHead) 16 a) (hbuf : Outside (bufAddr s.params .tx s.txHead) length a) :
    (publishTx s length bytes).mem.read a = s.mem.read a := by
  subst hb
  rw [publishTx_mem, read_writeDesc_outside _ _ _ _ _ _ hdesc]
  exact Memory.read_writeBytes_outside _ _ _ _ hbuf

end Sys2Proof.Machine

namespace Sys2Proof.RingManager

open Sys2Proof.Machine Sys2Proof.Safety

/-- Settles O16: the slots by the law of `initDescs`, the rest of the state by the definition. -/
theorem initRing : Obligations.InitRing := by
  intro s ⟨_, hm⟩
  exact ⟨⟨_, rfl, initRing_freshRing s .tx hm, read_initRing_outside s .tx, rfl⟩,
    ⟨_, rfl, initRing_freshRing s .rx hm, read_initRing_outside s .rx, rfl⟩⟩

/-- Settles O17: by the owner of the head. -/
theorem enqueueTx : Obligations.EnqueueTx := by
  intro s len bytes ⟨hp, hm⟩ hi hlen i d
  have hexec := execEnqueueTx_goodLength s len bytes hlen
  obtain ⟨-, hmax, hb⟩ := hlen
  constructor
  · intro ho
    rw [hexec, enqueueTx_full s _ bytes ho]
    rfl
  · intro ho
    rw [hexec, enqueueTx_room s _ bytes ho]
    have hstate := publishTx_state s len.toNat bytes
    have hslot := publishTx_slotHolds s len.toNat bytes hm
    have hbuffer := publishTx_bufBytes s len.toNat bytes hp hm hi hb hmax
    have hother := fun a => read_publishTx_outside s len.toNat bytes a hb
    generalize publishTx s len.toNat bytes = u at *
    exact ⟨_, rfl, congrArg (State.setRet · (.enqueue .ok len.toNat)) hstate, hslot, hbuffer, hother⟩

end Sys2Proof.RingManager
end

section
/-! PROOFS. The reclaim walks (spec/40_ring_manager.md R132 to R137): what each does in closed form, its bound, and that it
is exact when every slot is complete. -/

namespace Sys2Proof.Machine

open Sys2Proof.Safety

/-! ## The bound of the RX walk (R137) -/

theorem reclaimRxLoop_count_le (n : Nat) (s : State) : (reclaimRxLoop n s).1 ≤ n := by
  induction n generalizing s with
  | zero => exact le_rfl
  | succ n ih =>
    unfold reclaimRxLoop
    split
    · exact Nat.zero_le _
    · exact Nat.succ_le_succ (ih _)

/-- One iteration changes no descriptor but the one at the head. -/
theorem reclaimRxOne_desc_other (s : State) (i : Nat) (hp : paramsOk s.params = true) (hhead : s.rxHead < s.params.nRx)
    (hi : i < s.params.nRx) (hne : s.rxHead ≠ i) : (reclaimRxOne s).desc .rx i = s.desc .rx i := by
  unfold State.desc
  rw [reclaimRxOne_params, reclaimRxOne_mem]
  exact readDesc_writeDesc_other _ _ _ _ _ _ _ (desc_desc_disjoint s.params .rx .rx _ i hp hhead hi (.inr hne))

/-- The walk consumes as many slots as it may when that many from the head on are SW-owned, whatever they hold. -/
theorem reclaimRxLoop_exact (n : Nat) (s : State) (hp : paramsOk s.params = true) (hhead : s.rxHead < s.params.nRx)
    (hn : n ≤ s.params.nRx) (ho : ∀ j < n, (s.desc .rx ((s.rxHead + j) % s.params.nRx)).own = false) :
    (reclaimRxLoop n s).1 = n := by
  induction n generalizing s with
  | zero => rfl
  | succ n ih =>
    have hpos : 0 < s.params.nRx := by omega
    have hfirst : (s.rxHead + 0) % s.params.nRx = s.rxHead := Nat.mod_eq_of_lt hhead
    have hown := ho 0 (by omega)
    rw [hfirst] at hown
    have hnext : (reclaimRxLoop n (reclaimRxOne s)).1 = n := by
      refine ih (reclaimRxOne s) ?_ ?_ ?_ fun j hj => ?_
      · rwa [reclaimRxOne_params]
      · rw [reclaimRxOne_rxHead, reclaimRxOne_params]
        exact Nat.mod_lt _ hpos
      · rw [reclaimRxOne_params]
        omega
      · have hne := slot_ne s.params.nRx s.rxHead 0 (j + 1) hpos (by omega) (by omega)
        rw [hfirst] at hne
        rw [reclaimRxOne_rxHead, reclaimRxOne_params, slot_shift,
          reclaimRxOne_desc_other s _ hp hhead (Nat.mod_lt _ hpos) hne]
        exact ho (j + 1) (by omega)
    simp only [reclaimRxLoop, hown, Bool.false_eq_true, if_false, hnext]

/-! ## The poll demand after the RX walk (R133) -/

/-- The RX engine woken when `n` slots were re-armed, if there was one. -/
def wakeRx (n : Nat) (s : State) : State := { s with rx := { s.rx with susp := if n = 0 then s.rx.susp else false } }

/-- The walk, then the poll demand when a slot was re-armed. -/
theorem reclaimRx_eq (s : State) (maxCount : Nat) : (reclaimRx s maxCount).2 =
    wakeRx (reclaimRxLoop (min maxCount s.params.nRx) s).1 (reclaimRxLoop (min maxCount s.params.nRx) s).2 := by
  unfold reclaimRx wakeRx
  dsimp only
  split
  · next h =>
    rw [if_neg (by omega)]
    rfl
  · next h => rw [if_pos (by omega)]

theorem execReclaimRx_eq (s : State) (maxCount : Half) : exec (.reclaimRx maxCount) s =
    let r := reclaimRxLoop (min maxCount.toNat s.params.nRx) s
    .next ((wakeRx r.1 r.2).setRet (.count r.1)) :=
  congrArg (fun t => Host.Outcome.next (State.setRet t _)) (reclaimRx_eq s maxCount.toNat)

end Sys2Proof.Machine

namespace Sys2Proof.RingManager

open Sys2Proof.Machine Sys2Proof.Safety

/-- Settles O18: the walk's law at its bound, the capacity. -/
theorem reclaimTx : Obligations.ReclaimTx := by
  intro s ⟨hp, hm⟩ ht N slot
  obtain ⟨⟨-, hslots, hstate, hfreed, hother⟩, hbound, hstop⟩ := reclaimTxLoop_spec N s hp hm ht le_rfl
  have hexec : exec .reclaimTx s = .next ((reclaimTxLoop N s).2.setRet (.count (reclaimTxLoop N s).1)) := rfl
  generalize reclaimTxLoop N s = r at *
  exact ⟨r.1, _, hexec, hbound, hslots, hstop, congrArg (State.setRet · (.count r.1)) hstate, hfreed, hother⟩

/-- Settles O19: the walk's law at its bound, then the poll demand. -/
theorem reclaimRx : Obligations.ReclaimRx := by
  intro s maxCount ⟨hp, hm⟩ ht hl N slot
  obtain ⟨⟨-, hslots, hstate, harmed, hother⟩, hbound, hstop⟩ :=
    reclaimRxLoop_spec (min maxCount.toNat N) s hp hm ht hl (min_le_right _ _)
  have hexec := execReclaimRx_eq s maxCount
  generalize reclaimRxLoop (min maxCount.toNat N) s = r at *
  have hwoken := congrArg (fun t => (wakeRx r.1 t).setRet (.count r.1)) hstate
  exact ⟨r.1, _, hexec, hbound, hslots, hstop, hwoken, harmed, hother⟩

/-- Settles O20: the TX walk stops early only at a slot that is not complete; the RX walk by its own law, since here
nothing is known of the received lengths. -/
theorem reclaimExactlyCapacity : Obligations.ReclaimExactlyCapacity := by
  intro s maxCount ⟨hp, hm⟩ htail hhead
  obtain ⟨-, hbound, hstop⟩ := reclaimTxLoop_spec s.params.nTx s hp hm htail le_rfl
  have htx : 0 < s.params.nTx := by omega
  have hrx : 0 < s.params.nRx := by omega
  have hboundRx := reclaimRxLoop_count_le (min maxCount.toNat s.params.nRx) s
  refine ⟨⟨_, _, rfl, rfl, hbound, fun hall => ?tx⟩, ⟨_, _, rfl, rfl, hboundRx, fun hall => ?rx⟩⟩
  case tx =>
    obtain ⟨hown, hlen⟩ := hall _ (Nat.mod_lt (s.txTail + (reclaimTxLoop s.params.nTx s).1) htx)
    obtain h | h | h := hstop
    · exact h
    · exact absurd (hown.symm.trans h) (by simp)
    · exact absurd h hlen
  case rx =>
    exact reclaimRxLoop_exact _ s hp hhead (min_le_right _ _) fun j _ => hall _ (Nat.mod_lt _ hrx)

end Sys2Proof.RingManager
end

section
/-! PROOFS. Who writes buffers (spec/40_ring_manager.md R138, spec/10_state.md R29): every operation but ENQUEUE_TX, SEND and
RXDMA_FRAME writes only into the two rings, which lie outside all buffers; ENQUEUE_TX and SEND write the buffer of a slot
that is SW-owned. -/

namespace Sys2Proof.Machine

open Sys2Proof.Safety

/-! ## Steps that write only into the rings -/

/-- `t` has the parameters of `s`, and no byte outside the two rings has changed. -/
structure RingsOnly (s t : State) : Prop where
  params : t.params = s.params
  bytes  : ∀ a, OutsideRing s.params .tx a → OutsideRing s.params .rx a → t.mem.read a = s.mem.read a

theorem RingsOnly.refl (s : State) : RingsOnly s s := ⟨rfl, fun _ _ _ => rfl⟩

theorem RingsOnly.trans {s t u : State} (h : RingsOnly s t) (g : RingsOnly t u) : RingsOnly s u where
  params := g.params.trans h.params
  bytes  := fun a htx hrx => (g.bytes a (h.params ▸ htx) (h.params ▸ hrx)).trans (h.bytes a htx hrx)

/-- Fields other than the parameters and memory do not matter. -/
theorem RingsOnly.congr {s t u : State} (h : RingsOnly s t) (hp : u.params = t.params := by rfl)
    (hm : u.mem = t.mem := by rfl) : RingsOnly s u :=
  ⟨hp.trans h.params, fun a htx hrx => by rw [hm, h.bytes a htx hrx]⟩

theorem RingsOnly.setRet {s t : State} (h : RingsOnly s t) (r : OpResult) : RingsOnly s (t.setRet r) := h.congr

/-- A byte outside both rings is outside each of their slots. -/
theorem outside_desc {p : Params} {k : RingKind} {i a : Nat} (hi : i < ringSize p k) (htx : OutsideRing p .tx a)
    (hrx : OutsideRing p .rx a) : Outside (descAddr p k i) 16 a := by
  have hring : OutsideRing p k a := by cases k <;> assumption
  simp only [Outside, OutsideRing, descAddr] at hring ⊢
  omega

theorem Quiet.ringsOnly {s t : State} (h : Quiet s t) : RingsOnly s t := ⟨h.params, fun _ _ _ => by rw [h.mem]⟩

theorem writeReg_ringsOnly (s : State) (r : Reg) (v : Word) : RingsOnly s (writeReg s r v) :=
  ⟨writeReg_params s r v, fun _ _ _ => by rw [writeReg_mem]⟩

theorem setEngine_ringsOnly (s : State) (k : RingKind) (e : Engine) : RingsOnly s (s.setEngine k e) := by
  cases k <;> exact (RingsOnly.refl s).congr

theorem initRing_ringsOnly (s : State) (k : RingKind) : RingsOnly s (initRing s k) :=
  ⟨initRing_params s k, fun a htx hrx => read_initRing_outside s k a (by cases k <;> assumption)⟩

theorem initRings_ringsOnly (s : State) : RingsOnly s (initRings s) :=
  (initRing_ringsOnly s .tx).trans (initRing_ringsOnly _ .rx)

theorem rebuild_ringsOnly (s : State) : RingsOnly s (programBases (initRings s)) :=
  (initRings_ringsOnly s).trans ((writeReg_ringsOnly _ .dmaTxBase _).trans (writeReg_ringsOnly _ .dmaRxBase _))

theorem Rebuilt.ringsOnly {s t : State} (h : Rebuilt s t) : RingsOnly s t := by
  obtain ⟨u, hu, ht⟩ := h
  exact hu.ringsOnly.trans ((rebuild_ringsOnly u).trans ht.ringsOnly)

/-! ### The reclaim walks -/

theorem reclaimTxOne_ringsOnly (s : State) (h : s.txTail < s.params.nTx) : RingsOnly s (reclaimTxOne s) :=
  ⟨reclaimTxOne_params s, fun a htx hrx => by
    rw [reclaimTxOne_mem]
    exact read_writeDesc_outside _ _ _ _ _ _ (outside_desc h htx hrx)⟩

theorem reclaimRxOne_ringsOnly (s : State) (h : s.rxHead < s.params.nRx) : RingsOnly s (reclaimRxOne s) :=
  ⟨reclaimRxOne_params s, fun a htx hrx => by
    rw [reclaimRxOne_mem]
    exact read_writeDesc_outside _ _ _ _ _ _ (outside_desc h htx hrx)⟩

theorem reclaimRxOne_txTail (s : State) : (reclaimRxOne s).txTail = s.txTail := by rw [reclaimRxOne_frame]

theorem reclaimTx_ringsOnly (s : State) (h : s.txTail < s.params.nTx) : RingsOnly s (reclaimTx s).2 := by
  have hwalk : RingsOnly s (reclaimTx s).2 ∧ (reclaimTx s).2.txTail < (reclaimTx s).2.params.nTx := by
    refine reclaimTxLoop_induction (P := fun t => RingsOnly s t ∧ t.txTail < t.params.nTx)
      (fun t _ ⟨ht, hi⟩ => ⟨ht.trans (reclaimTxOne_ringsOnly t hi), ?_⟩) _ s ⟨.refl s, h⟩
    rw [reclaimTxOne_txTail, reclaimTxOne_params]
    exact Nat.mod_lt _ (Nat.zero_lt_of_lt hi)
  exact hwalk.1

/-- The RX walk also leaves the tail of the TX ring alone, from which the ISR reclaims next (R190). -/
theorem reclaimRx_ringsOnly (s : State) (maxCount : Nat) (h : s.rxHead < s.params.nRx) :
    RingsOnly s (reclaimRx s maxCount).2 ∧ (reclaimRx s maxCount).2.txTail = s.txTail := by
  obtain ⟨hwalk, -, htail⟩ := reclaimRxLoop_induction
    (P := fun t => RingsOnly s t ∧ t.rxHead < t.params.nRx ∧ t.txTail = s.txTail)
    (fun t _ ⟨ht, hi, htail⟩ => ⟨ht.trans (reclaimRxOne_ringsOnly t hi), by
      rw [reclaimRxOne_rxHead, reclaimRxOne_params]
      exact Nat.mod_lt _ (Nat.zero_lt_of_lt hi), (reclaimRxOne_txTail t).trans htail⟩)
    (min maxCount s.params.nRx) s ⟨.refl s, h, rfl⟩
  rw [reclaimRx_eq]
  exact ⟨hwalk.congr, htail⟩

/-! ### Recovery, interrupts, the tick -/

theorem handleRxStopped_ringsOnly (s : State) : RingsOnly s (handleRxStopped s) := by
  obtain h | ⟨u, hu, ht⟩ := handleRxStopped_cases s
  · exact h.ringsOnly
  · exact hu.ringsOnly.trans ((initRing_ringsOnly u .rx).trans ((writeReg_ringsOnly _ _ _).trans ht.ringsOnly))

theorem handleTxStopped_ringsOnly (s : State) : RingsOnly s (handleTxStopped s) := by
  obtain h | ⟨u, hu, ht⟩ := handleTxStopped_cases s
  · exact h.ringsOnly
  · exact hu.ringsOnly.trans ((initRing_ringsOnly u .tx).trans ((writeReg_ringsOnly _ _ _).trans ht.ringsOnly))

theorem handleFatalError_ringsOnly (s : State) : RingsOnly s (handleFatalError s) := by
  unfold handleFatalError
  split <;> exact (RingsOnly.refl s).congr

theorem linkChangeService_ringsOnly (s : State) : RingsOnly s (linkChangeService s) :=
  (linkChangeService_cases s).elim Quiet.ringsOnly Rebuilt.ringsOnly

theorem isrDataPath_ringsOnly (s : State) (snapshot : Word) (htail : s.txTail < s.params.nTx)
    (hhead : s.rxHead < s.params.nRx) : RingsOnly s (isrDataPath s snapshot) := by
  obtain ⟨hrx, hkept⟩ := reclaimRx_ringsOnly s s.params.nRx hhead
  have hwalks := hrx.trans (reclaimTx_ringsOnly _ (by rwa [hkept, hrx.params]))
  unfold isrDataPath
  dsimp only
  split
  · exact hwalks.trans ((handleRxStopped_ringsOnly _).trans (writeReg_ringsOnly _ _ _))
  · exact hwalks.trans (writeReg_ringsOnly _ _ _)

theorem isrService_ringsOnly (s : State) (snapshot : Word) (htail : s.txTail < s.params.nTx)
    (hhead : s.rxHead < s.params.nRx) : RingsOnly s (isrService s snapshot) := by
  have hcount := (setStats_quiet s s.stats.countInterrupt).ringsOnly
  have hmask := hcount.trans (writeReg_ringsOnly _ .dmaIer 0)
  unfold isrService
  dsimp only
  split
  · exact hcount.trans (linkChangeService_ringsOnly _)
  split
  · exact hmask.trans (handleFatalError_ringsOnly _)
  split
  · exact hmask.trans (isrDataPath_ringsOnly _ _ (by simpa using htail) (by simpa using hhead))
  · exact hmask

theorem isr_ringsOnly (s : State) (htail : s.txTail < s.params.nTx) (hhead : s.rxHead < s.params.nRx) :
    RingsOnly s (isr s) := by
  have hsnap := (statusSnapshot_quiet s).ringsOnly
  unfold isr
  dsimp only
  split
  · exact hsnap
  · exact hsnap.trans (isrService_ringsOnly _ _ htail hhead)

theorem watchdogTick_ringsOnly (s : State) : RingsOnly s (watchdogTick s) := by
  unfold watchdogTick
  dsimp only
  split_ifs
  · exact (RingsOnly.refl s).congr
  · have hcount : RingsOnly s { s with wdCount := s.wdCount + 1 } := (RingsOnly.refl s).congr
    exact (hcount.trans (handleTxStopped_ringsOnly _)).congr
  · exact (RingsOnly.refl s).congr

theorem watchdog_ringsOnly (s : State) : RingsOnly s (watchdog s) := by
  unfold watchdog
  split
  · exact .refl s
  · exact watchdogTick_ringsOnly s
  · exact (RingsOnly.refl s).congr
  · exact (RingsOnly.refl s).congr

/-! ### The TX engine -/

theorem advance_ringsOnly (s : State) (k : RingKind) (i : Nat) (d : Desc) : RingsOnly s (advance s k i d) := by
  obtain ⟨j, -, h⟩ | ⟨-, h⟩ := advance_cases s k i d
  · exact h ▸ setEngine_ringsOnly s k _
  · exact h ▸ (raiseBusError_quiet s).ringsOnly

theorem txComplete_params (s : State) (u : Bool) : (txComplete s u).params = s.params :=
  (advance_ringsOnly _ _ _ _).params

/-- The write-back of DES0 stays inside the slot at the cursor (R261). -/
theorem txComplete_ringsOnly (s : State) (u : Bool) (h : s.tx.cur < s.params.nTx) : RingsOnly s (txComplete s u) :=
  ⟨txComplete_params s u, fun a htx hrx => by
    rw [txComplete_mem]
    refine read_writeStatus_outside _ _ _ _ _ _ ?_
    obtain hout | hout := outside_desc (k := .tx) h htx hrx
    · exact .inl hout
    · exact .inr (by omega)⟩

theorem txdmaStep_ringsOnly (s : State) (u : Bool) (h : s.tx.cur < s.params.nTx) : RingsOnly s (txdmaStep s u) := by
  unfold txdmaStep
  split
  · exact txComplete_ringsOnly s u h
  · exact (suspend_quiet s .tx stTXU).ringsOnly

/-! ### Host commands and recovery steps -/

theorem attach_ringsOnly (s : State) : RingsOnly s (attach s) := by
  have hcleared : RingsOnly s (clearedState s) := (RingsOnly.refl s).congr
  rw [attach_eq]
  exact (hcleared.trans (initRings_ringsOnly _)).congr

theorem start_ringsOnly (s : State) : RingsOnly s (start s) := by
  unfold start
  split
  · exact .refl s
  · exact (respond_quiet s _).ringsOnly
  · split <;> exact (RingsOnly.refl s).congr
  · have hphase : RingsOnly s { awaitAnswer s with startPh := .neg } := (RingsOnly.refl s).congr
    exact hphase.trans (startBegin_rebuilt (awaitAnswer s)).ringsOnly

theorem startEngines_ringsOnly (s : State) : RingsOnly s (startEngines s) :=
  (writeReg_ringsOnly s .dmaIer _).trans <| (writeReg_ringsOnly _ .macCfg _).trans <|
    (writeReg_ringsOnly _ .dmaOpmode _).trans (writeReg_ringsOnly _ .dmaRxPoll _)

theorem startFin_ringsOnly (s : State) : RingsOnly s (startFin s) :=
  ((writeReg_ringsOnly s .dmaStatus 0x3F).trans (startEngines_ringsOnly _)).congr

theorem stop_ringsOnly (s : State) : RingsOnly s (stop s) := (RingsOnly.refl s).congr

theorem stopEnd_ringsOnly (s : State) : RingsOnly s (stopEnd s) := (RingsOnly.refl s).congr

theorem recStopping_ringsOnly (s : State) : RingsOnly s (recStopping s) := (stopEngines_quiet s).ringsOnly.congr

theorem recReinit_ringsOnly (s : State) : RingsOnly s (recReinit s) := (rebuild_ringsOnly s).congr

theorem recReapply_ringsOnly (s : State) : RingsOnly s (recReapply s) := (recReapply_quiet s).ringsOnly.congr

theorem recRestart_ringsOnly (s : State) : RingsOnly s (recRestart s) := by
  rw [recRestart_eq]
  exact ((writeReg_ringsOnly s .dmaStatus 0x1F).trans (startEngines_ringsOnly _)).congr

/-! ## Buffers -/

/-- No byte of an RX buffer has changed, and none of the buffer of a TX slot that was HW-owned (R138). -/
def BuffersKept (s t : State) : Prop :=
  (∀ j < s.params.nRx, t.bufBytes .rx j s.params.bufSize = s.bufBytes .rx j s.params.bufSize) ∧
    ∀ j < s.params.nTx, (s.desc .tx j).own = true →
      t.bufBytes .tx j s.params.bufSize = s.bufBytes .tx j s.params.bufSize

theorem BuffersKept.setRet {s t : State} (h : BuffersKept s t) (r : OpResult) : BuffersKept s (t.setRet r) := h

/-- A buffer whose bytes read as before. -/
theorem bufBytes_congr {s t : State} {k : RingKind} {i n : Nat} (hp : t.params = s.params)
    (h : ∀ a, bufAddr s.params k i ≤ a → a < bufAddr s.params k i + n → t.mem.read a = s.mem.read a) :
    t.bufBytes k i n = s.bufBytes k i n := by
  unfold State.bufBytes
  rw [hp]
  exact Memory.readBytes_congr _ _ _ _ h

/-- The buffers lie outside the rings (R79). -/
theorem outsideRing_of_buffer (p : Params) (k k' : RingKind) (j a : Nat) (hp : paramsOk p = true) (hj : j < ringSize p k')
    (hlo : bufAddr p k' j ≤ a) (hhi : a < bufAddr p k' j + p.bufSize) : OutsideRing p k a := by
  obtain ⟨-, -, -, -, hregions⟩ := paramsOk_regions p hp
  have hd := hregions k k'
  have hb := bufAddr_bounds p k' j hj
  simp only [disjoint, Bool.or_eq_true, decide_eq_true_eq] at hd
  simp only [descRange] at hd
  simp only [OutsideRing]
  omega

/-- A step that writes only into the rings keeps every buffer. -/
theorem RingsOnly.buffersKept {s t : State} (hp : paramsOk s.params = true) (h : RingsOnly s t) : BuffersKept s t := by
  have hbuf : ∀ k, ∀ j < ringSize s.params k, t.bufBytes k j s.params.bufSize = s.bufBytes k j s.params.bufSize :=
    fun k j hj => bufBytes_congr h.params fun a hlo hhi =>
      h.bytes a (outsideRing_of_buffer _ _ k j a hp hj hlo hhi) (outsideRing_of_buffer _ _ k j a hp hj hlo hhi)
  exact ⟨hbuf .rx, fun j hj _ => hbuf .tx j hj⟩

/-- A publication writes the buffer of the head, which is SW-owned (R131). -/
theorem publishTx_buffersKept (s : State) (length : Nat) (bytes : List Byte) (hp : paramsOk s.params = true)
    (hhead : s.txHead < s.params.nTx) (hmax : length ≤ s.params.bufSize) (hb : bytes.length = length)
    (ho : (s.desc .tx s.txHead).own = false) : BuffersKept s (publishTx s length bytes) := by
  have hbuf : ∀ k, ∀ j < ringSize s.params k, (RingKind.tx ≠ k ∨ s.txHead ≠ j) →
      (publishTx s length bytes).bufBytes k j s.params.bufSize = s.bufBytes k j s.params.bufSize := by
    intro k j hj hne
    have hdesc := desc_buf_disjoint s.params .tx k s.txHead j hp hhead hj
    have hother := buf_buf_disjoint s.params .tx k s.txHead j hp hhead hj hne
    refine bufBytes_congr (publishTx_params s length bytes) fun a hlo hhi => ?_
    exact read_publishTx_outside s length bytes a hb (by simp only [Outside]; omega) (by simp only [Outside]; omega)
  refine ⟨fun j hj => hbuf .rx j hj (.inl (by simp)), fun j hj hown => hbuf .tx j hj (.inr ?_)⟩
  rintro rfl
  exact absurd (ho.symm.trans hown) (by simp)

theorem enqueueTx_buffersKept (s : State) (length : Nat) (bytes : List Byte) (hp : paramsOk s.params = true)
    (hhead : s.txHead < s.params.nTx) (hmax : length ≤ s.params.bufSize) (hb : bytes.length = length) :
    BuffersKept s (enqueueTx s length bytes).2.2 := by
  unfold enqueueTx
  split
  · exact (RingsOnly.refl s).buffersKept hp
  · next ho => exact publishTx_buffersKept s length bytes hp hhead hmax hb (Bool.not_eq_true _ ▸ ho)

theorem send_buffersKept (s : State) (length : Nat) (bytes : List Byte) (hp : paramsOk s.params = true)
    (hhead : s.txHead < s.params.nTx) (hmax : length ≤ s.params.bufSize) (hb : bytes.length = length) :
    BuffersKept s (send s length bytes) := by
  unfold send
  split
  · exact enqueueTx_buffersKept s length bytes hp hhead hmax hb
  · exact (respond_quiet s _).ringsOnly.buffersKept hp

theorem execSend_buffersKept (len : Half) (bytes : List Byte) (s : State) (hp : paramsOk s.params = true)
    (hhead : s.txHead < s.params.nTx) : Answers (execSend len bytes s) (BuffersKept s) := by
  unfold execSend
  obtain ⟨-, h⟩ | ⟨-, -, h⟩ | ⟨-, -, h⟩ := hostCommand_cases s id
  · rw [h]; exact .fault _
  · rw [h]; exact .fault _
  · rw [h]; exact .goodLength fun ⟨_, hmax, hb⟩ => send_buffersKept s _ bytes hp hhead hmax hb

/-- Every operation but RXDMA_FRAME keeps the RX buffers and the HW-owned TX buffers, one line for each. -/
theorem exec_buffersKept (i : Instr) (s : State) (hi : ∀ len bytes crc lerr ovf, i ≠ .rxdmaFrame len bytes crc lerr ovf)
    (hp : paramsOk s.params = true) (htxHead : s.txHead < s.params.nTx) (htxTail : s.txTail < s.params.nTx)
    (hrxHead : s.rxHead < s.params.nRx) (hcur : s.tx.cur < s.params.nTx) : Answers (exec i s) (BuffersKept s) := by
  have hr : ∀ {t}, RingsOnly s t → BuffersKept s t := fun h => h.buffersKept hp
  have hq : ∀ t, Quiet s t → BuffersKept s t := fun _ h => hr h.ringsOnly
  have hret : ∀ {t r}, RingsOnly s t → Answers (.next (t.setRet r)) (BuffersKept s) := fun h => .next (hr (h.setRet _))
  cases i with
  | attach => exact .ite (fun _ => .fault _) fun _ => .ite (fun _ => .next (hr (attach_ringsOnly s).congr)) fun _ => .fault _
  | start => exact .command fun _ _ => hr (start_ringsOnly s)
  | stop =>
    exact .ite (fun _ => .fault _) fun _ => .ite (fun _ => .next (hq _ (respond_quiet s _))) fun _ =>
      .next (hr (stop_ringsOnly s))
  | send len bytes => exact execSend_buffersKept len bytes s hp htxHead
  | receive cap => exact .command_quiet hq fun s => receive_quiet s _
  | getLinkState => exact .command_quiet hq fun _ => .book
  | getStats => exact .command_quiet hq fun _ => .book
  | setMacAddress mac => exact .command_quiet hq fun s => setMacAddress_quiet s mac
  | setModeAuto => exact .command_quiet hq fun s => setMode_quiet s _
  | setModeForced speed duplex => exact .ite (fun _ => .illegal hq) fun _ => .command_quiet hq fun s => setMode_quiet s _
  | watchdog => exact .next (hr (watchdog_ringsOnly s).congr)
  | initRing kind => exact hret (initRing_ringsOnly s kind)
  | enqueueTx len bytes =>
    exact .goodLength fun ⟨_, hmax, hb⟩ => (enqueueTx_buffersKept s _ bytes hp htxHead hmax hb).setRet _
  | reclaimTx => exact hret (reclaimTx_ringsOnly s htxTail)
  | reclaimRx maxCount => exact hret (reclaimRx_ringsOnly s _ hrxHead).1
  | mdioRead reg => exact hret (mdioRead_quiet s reg).ringsOnly
  | mdioWrite reg value => exact hret (mdioWrite_quiet s reg value).ringsOnly
  | startNegotiation adv => exact hret (startNegotiation_quiet s adv).ringsOnly
  | negPoll => exact .enabled_quiet hq (negPoll_quiet s)
  | forceLink speed duplex => exact hret (forceLink_quiet s _).ringsOnly
  | resolveLinkMode => exact hret (resolveLinkMode_quiet s).ringsOnly
  | reconfigureMac speed duplex => exact hret (reconfigureMac_rebuilt s _).ringsOnly
  | isr => exact .enabled hq fun _ => hr ((isr_ringsOnly s htxTail hrxHead).setRet _)
  | linkChangeService => exact hret (linkChangeService_ringsOnly s)
  | handleFatalError => exact hret (handleFatalError_ringsOnly s)
  | recStepStopping => exact .enabled hq fun _ => hr ((recStopping_ringsOnly s).setRet _)
  | recStepReinit => exact .enabled hq fun _ => hr ((recReinit_ringsOnly s).setRet _)
  | recStepReapply => exact .enabled hq fun _ => hr ((recReapply_ringsOnly s).setRet _)
  | recStepRestart => exact .enabled hq fun _ => hr ((recRestart_ringsOnly s).setRet _)
  | handleRxStopped => exact hret (handleRxStopped_ringsOnly s)
  | handleTxStopped => exact hret (handleTxStopped_ringsOnly s)
  | startFin => exact .enabled hq fun _ => hr ((startFin_ringsOnly s).setRet _)
  | stopEnd => exact .enabled hq fun _ => hr ((stopEnd_ringsOnly s).setRet _)
  | txdmaStep underflow => exact .enabled hq fun _ => hr ((txdmaStep_ringsOnly s underflow hcur).setRet _)
  | rxdmaFrame len bytes crc lerr ovf => exact absurd rfl (hi len bytes crc lerr ovf)
  | busError => exact .enabled_quiet hq fun _ => raiseBusError_quiet s
  | phyLinkEvent =>
    exact .ite (fun _ => .next (hq _ (setRet_quiet s _))) fun _ => hret (setStatus_quiet s stLSC).ringsOnly

end Sys2Proof.Machine

namespace Sys2Proof.RingManager

open Sys2Proof.Machine

/-- Settles O53: by the operation. -/
theorem buffersRespectOwnership : Obligations.BuffersRespectOwnership :=
  fun i s t hp htxHead hi h htxTail hrxHead hcur => exec_buffersKept i s hi hp htxHead htxTail hrxHead hcur t h

end Sys2Proof.RingManager
end

section
/-! PROOFS. The link sequencer (spec/41_link_sequencer.md R160 to R170): the management cycles and their draws, the
negotiation, the resolution of the mode, the forced path, and the reconfiguration of the MAC. -/

namespace Sys2Proof.Machine

open Sys2Proof.Safety

/-! ## Management cycles (R160, R161) -/

/-- A read cycle run alone returns what it read (R160). -/
theorem exec_mdioRead_eq {s t : State} {reg : BitVec 5} {v : Half} (h : mdioRead s reg = (v, t)) :
    exec (.mdioRead reg) s = .next (t.setRet (.phyWord v)) := by
  rw [exec, execMdioRead, h]

/-- Each of the three PHY registers that keep a value takes it exactly when it is the one written (R161). -/
theorem phyStore_eq (s : State) (reg : BitVec 5) (v : Half) : phyStore s reg v = { s with phy := {
    bmcr := if reg = 0 then v else s.phy.bmcr
    anar := if reg = 4 then v else s.phy.anar
    gtcr := if reg = 9 then v else s.phy.gtcr } } := by
  unfold phyStore
  split
  · next h => subst h; rfl
  split
  · next h => subst h; rfl
  split
  · next h => subst h; rfl
  · rfl

/-- `s` after read cycles that took `n` draws, the last of them of register `reg` with value `v`. -/
def afterReads (s : State) (n reg : Nat) (v : Half) : State := { afterDraws s n with regs := readCycle s reg v }

theorem mdioRead_first (s : State) : mdioRead s 1 = (answer s 0, afterReads s 1 1 (answer s 0)) :=
  mdioRead_drawn s 1 (by decide) (by decide) (by decide)

theorem mdioRead_first_anar (s : State) : mdioRead s 4 = (s.phy.anar, afterReads s 0 4 s.phy.anar) := by
  rw [mdioRead_anar]
  simp [afterReads, afterDraws]

/-- One more draw after `n` of them (R270). -/
theorem mdioRead_afterReads (s : State) (n r : Nat) (v : Half) (reg : BitVec 5)
    (hreg : reg ≠ 0 ∧ reg ≠ 4 ∧ reg ≠ 9 := by decide) :
    mdioRead (afterReads s n r v) reg = (answer s n, afterReads s (n + 1) reg.toNat (answer s n)) := by
  obtain ⟨h0, h4, h9⟩ := hreg
  have hans : answer (afterReads s n r v) 0 = answer s n := answer_afterDraws s n 0
  have hdraw := congrArg (fun t : State => { t with regs := readCycle s reg.toNat (answer s n) })
    (afterDraws_afterDraws s n 1)
  rw [mdioRead_drawn _ reg h0 h4 h9, hans]
  exact congrArg (Prod.mk _) hdraw

theorem mdioRead_afterReads_gtcr (s : State) (n r : Nat) (v : Half) :
    mdioRead (afterReads s n r v) 9 = (s.phy.gtcr, afterReads s n 9 s.phy.gtcr) := mdioRead_gtcr _

/-! ## Resolution (R165 to R167) -/

/-- Without gigabit registers 15, 9 and 10 do not count (R166). -/
theorem commonModes_noGigabit (la lp es gc gs : Half) :
    commonModes false la lp 0 0 0 = commonModes false la lp es gc gs := rfl

/-- The modes common to this device and its partner, the partner's registers being the draws in R166's order. -/
def commonDrawn (s : State) : BitVec 6 :=
  commonModes s.params.macGigabit s.phy.anar (answer s 0) (answer s 1) s.phy.gtcr (answer s 2)

/-- How many draws the capability registers take (R166). -/
def capabilityDraws (p : Params) : Nat := if p.macGigabit = true then 3 else 1

theorem readCommon_eq (s : State) :
    ∃ r v, readCommon s = (commonDrawn s, afterReads s (capabilityDraws s.params) r v) := by
  unfold readCommon commonDrawn capabilityDraws
  simp only [mdioRead_first_anar, mdioRead_afterReads _ _ _ _ 5, mdioRead_afterReads _ _ _ _ 15,
    mdioRead_afterReads_gtcr, mdioRead_afterReads _ _ _ _ 10]
  split
  · next h => exact ⟨_, _, by rw [h]⟩
  · next h => exact ⟨_, _, by rw [Bool.eq_false_of_not_eq_true h, commonModes_noGigabit]⟩

/-- The resolution reads the capability registers, then BMSR, and applies what they say (R166). -/
theorem resolveLinkMode_eq (s : State) : resolveLinkMode s =
    applyResolution
      (afterReads s (capabilityDraws s.params + 1) 1 (answer s (capabilityDraws s.params)))
      (commonDrawn s) (answer s (capabilityDraws s.params)) := by
  obtain ⟨r, v, h⟩ := readCommon_eq s
  unfold resolveLinkMode
  simp only [h, mdioRead_afterReads _ _ _ _ 1]
  rfl

theorem applyResolution_shared (s : State) (common : BitVec 6) (bmsr : Half) (h : common ≠ 0) :
    applyResolution s common bmsr = (.ok, { s with
      link := ⟨(highestMode common).speed, (highestMode common).duplex, carrierBit bmsr, .auto⟩
      knownGood := if bmsr.getLsbD 2 = true then s.knownGood ||| (1 <<< modeRank (highestMode common))
        else s.knownGood }) := by
  rw [← modeBit_eq]
  exact if_pos h

theorem applyResolution_none (s : State) (bmsr : Half) : applyResolution s 0 bmsr =
    (.negotiationTimeout, { s with link :=
      ⟨(fallbackMode s.knownGood).speed, (fallbackMode s.knownGood).duplex, carrierBit bmsr, .auto⟩ }) := rfl

/-- The highest common mode is the preferred one of those both sides share (R16, R166). -/
theorem highestMode_commonModes (giga : Bool) (la lp es gc gs : Half) (h : commonModes giga la lp es gc gs ≠ 0) :
    Preferred (Shared giga la lp es gc gs) (highestMode (commonModes giga la lp es gc gs)) := by
  obtain ⟨hmem, hmax⟩ := highestMode_preferred _ h
  exact ⟨(commonModes_getLsbD ..).mp hmem, fun m hm => hmax m ((commonModes_getLsbD ..).mpr hm)⟩

/-- The resolution does not look at the record of the last operation, and leaves it as it is. -/
theorem resolveLinkMode_setRet (s : State) (r : OpResult) :
    resolveLinkMode (s.setRet r) = ((resolveLinkMode s).1, (resolveLinkMode s).2.setRet r) := by
  rw [resolveLinkMode_eq, resolveLinkMode_eq]
  unfold applyResolution
  change (if commonDrawn s ≠ 0 then _ else _) = _
  split <;> rfl

/-! ## Polling (R164) -/

/-- A poll reads BMSR, then resolves the mode or counts. -/
theorem negPoll_eq (s : State) : negPoll s =
    if (answer s 0).getLsbD 5 = true then
      { (resolveLinkMode (afterReads s 1 1 (answer s 0))).2 with
        neg := .resolved, negResult := (resolveLinkMode (afterReads s 1 1 (answer s 0))).1 }
    else pollIncomplete (afterReads s 1 1 (answer s 0)) (answer s 0) := by
  rw [negPoll, mdioRead_first]
  rfl

/-! ## PHY words (R163, R168) -/

theorem anarWord_eq (adv : BitVec 6) : anarWord adv = BitVec.ofNat 16 (32 * (adv.toNat % 16) + 1) := by
  revert adv; decide

theorem gtcrWord_eq (adv : BitVec 6) : gtcrWord adv = BitVec.ofNat 16 (256 * (adv.toNat / 16)) := by
  revert adv; decide

theorem bmcrForced_eq (speed : Speed) (duplex : Duplex) : bmcrForced speed duplex =
    BitVec.ofNat 16 ((if speed = .s100 then 8192 else 0) + (if duplex = .full then 256 else 0)
      + (if speed = .s1000 then 64 else 0)) := by
  cases speed <;> cases duplex <;> rfl

/-! ## Reconfiguration (R170) -/

/-- The last register writes of a reconfiguration: filter, MAC_CFG for a mode with both enables, both directions
started, the RX engine woken. -/
theorem restartMac_eq (s : State) (filter : Word) (m : LinkMode) :
    writeReg (writeReg (writeReg (writeReg s .macFilter filter) .macCfg (macCfgWord m.speed m.duplex true))
      .dmaOpmode opmodeRun) .dmaRxPoll 0 = { s with
        rx := { s.rx with susp := false }
        regs := { s.regs with
          macFilter := filter, macCfg := macCfgFor s.params m.speed m.duplex true, dmaOpmode := 0x00002002 } } := by
  simp only [writeReg, State.setRegs, State.setRx, macCfgWrite_macCfgWord]
  rfl

end Sys2Proof.Machine

namespace Sys2Proof.LinkSequencer

open Sys2Proof.Machine Sys2Proof.Safety

/-- Settles O15: mode by mode. -/
theorem macCfgWordValue : Obligations.MacCfgWordValue := by
  refine ⟨fun speed duplex en => ?_, rfl, rfl, rfl⟩
  cases speed <;> cases duplex <;> cases en <;> decide

/-- Settles O21: the three registers the PHY keeps, then every other number, answered by a draw. -/
theorem mdioReadCycle : Obligations.MdioReadCycle := by
  intro s reg kept
  by_cases h0 : reg = 0
  · have hkept : kept = some (s.phy.bmcr &&& 0xFDFF) := if_pos h0
    rw [hkept]
    exact exec_mdioRead_eq (mdioRead_kept s reg _ fun t h => by simp [phyRegister, h, h0, bmcrRead])
  by_cases h4 : reg = 4
  · have hkept : kept = some s.phy.anar := (if_neg h0).trans (if_pos h4)
    rw [hkept]
    exact exec_mdioRead_eq (mdioRead_kept s reg _ fun t h => by simp [phyRegister, h, h4])
  by_cases h9 : reg = 9
  · have hkept : kept = some s.phy.gtcr := (if_neg h0).trans ((if_neg h4).trans (if_pos h9))
    rw [hkept]
    exact exec_mdioRead_eq (mdioRead_kept s reg _ fun t h => by simp [phyRegister, h, h9])
  · have hkept : kept = none := (if_neg h0).trans ((if_neg h4).trans (if_neg h9))
    rw [hkept]
    exact exec_mdioRead_eq (mdioRead_drawn s reg h0 h4 h9)

/-- Settles O22: the cycle in closed form, and what the PHY stores of it. -/
theorem mdioWriteCycle : Obligations.MdioWriteCycle := by
  intro s reg v
  rw [exec, execMdioWrite, mdioWrite_eq, phyStore_eq]
  rfl

/-- Settles O23: two or three write cycles, of which the registers show the last and the PHY every one. -/
theorem startNegotiation : Obligations.StartNegotiation := by
  intro s adv
  rw [← anarWord_eq, ← gtcrWord_eq, exec, execStartNegotiation, Machine.startNegotiation]
  simp only [mdioWrite_eq, phyStore_eq]
  split <;> simp [writeCycle, bmcrRestart, State.setRet]

/-- Settles O24: with a common mode the highest one, else the fallback. -/
theorem resolveLinkMode : Obligations.ResolveLinkMode := by
  intro s giga n bmsr shared
  have hn : n = capabilityDraws s.params + 1 := by
    simp only [n, giga, capabilityDraws]
    split <;> rfl
  have hshared : commonDrawn s ≠ 0 ↔ ∃ m, shared m := commonModes_ne_zero ..
  rw [exec, execResolveLinkMode, resolveLinkMode_eq]
  simp only [bmsr, hn, Nat.add_sub_cancel]
  by_cases h : commonDrawn s = 0
  · refine ⟨fallbackMode s.knownGood, .negotiationTimeout, by simp [← hshared, h], nofun,
      fun _ => fallbackMode_spec _, ?_⟩
    rw [h, applyResolution_none]
    simp only [reduceCtorEq, false_and, if_false]
    rfl
  · refine ⟨highestMode (commonDrawn s), .ok, iff_of_true rfl (hshared.mp h),
      fun _ => highestMode_commonModes _ _ _ _ _ _ h, fun hr => absurd rfl hr, ?_⟩
    rw [applyResolution_shared _ _ _ h]
    simp only [true_and]
    rfl

/-- Settles O25: BMSR is read, then one of the three paths is taken. -/
theorem negPoll : Obligations.NegPoll := by
  intro s hneg bmsr polled
  have hpoll : exec .negPoll s = .next ((Machine.negPoll s).setRet .none) := if_pos hneg
  rw [hpoll, negPoll_eq]
  refine ⟨fun hc => ⟨_, _, rfl, rfl, ?_⟩, fun hc hmore => ?_, fun hc hlast => ⟨_, fallbackMode_spec _, ?_⟩⟩
  · have hpolled : polled = (afterReads s 1 1 bmsr).setRet .none := rfl
    rw [if_pos hc, hpolled, resolveLinkMode_setRet]
    rfl
  · rw [if_neg (Bool.eq_false_iff.mp hc), pollIncomplete, if_neg (by exact hmore)]
    rfl
  · rw [if_neg (Bool.eq_false_iff.mp hc), pollIncomplete, if_pos (by exact hlast)]
    rfl

/-- Settles O26: a write cycle of BMCR, a read cycle of BMSR, then the forced mode. -/
theorem forceLink : Obligations.ForceLink := by
  intro s speed duplex bmsr
  rw [← bmcrForced_eq, ← modeBit_eq, exec, execForceLink, Machine.forceLink, mdioRead_first, mdioWrite_eq, phyStore_eq]
  rfl

/-- Settles O27: the rings as INIT_RING leaves them, the bases, then the last register writes. -/
theorem reconfigureMac : Obligations.ReconfigureMac := by
  intro s speed duplex ⟨hp, hm⟩
  obtain ⟨m, -, hrings, hfresh⟩ := initRings_spec (writeMacCfg (writeReg s .dmaOpmode 0) false) hp hm
  have hexec : exec (.reconfigureMac speed duplex) s =
    .next ((Machine.reconfigureMac s ⟨speed, duplex⟩).setRet .none) := rfl
  have hbases := programBases_eq (ringsCleared (writeMacCfg (writeReg s .dmaOpmode 0) false) m) hp
  rw [Machine.reconfigureMac, initRings, hrings, hbases, restartMac_eq] at hexec
  exact ⟨_, hexec, ringsFresh_congr _ _ _ _ rfl rfl rfl rfl hfresh, rfl⟩

end Sys2Proof.LinkSequencer
end

section
/-! PROOFS. Who writes `link` and the known-good mask (spec/41_link_sequencer.md R172): the operations that keep both,
one lemma for each, and one line for each in an inversion of `exec`. -/

namespace Sys2Proof.Machine

open Sys2Proof.Safety

/-- The link state and the known-good mask (R30, R31). -/
def linkView (s : State) : Link × BitVec 6 := (s.link, s.knownGood)

/-- Fields other than the two do not matter. -/
theorem linkView_congr {s t u : State} (h : linkView t = linkView s) (hl : u.link = t.link := by rfl)
    (hk : u.knownGood = t.knownGood := by rfl) : linkView u = linkView s := by
  rw [← h, linkView, hl, hk, linkView]

/-! ## Operations that keep the link -/

@[simp] theorem writeReg_linkView (s : State) (r : Reg) (v : Word) : linkView (writeReg s r v) = linkView s := by
  cases r <;> rfl

@[simp] theorem mdioRead_linkView (s : State) (reg : BitVec 5) : linkView (mdioRead s reg).2 = linkView s := by
  obtain ⟨a, d, q, n, h⟩ := mdioRead_frame s reg
  rw [h]
  rfl

@[simp] theorem mdioWrite_linkView (s : State) (reg : BitVec 5) (v : Half) :
    linkView (mdioWrite s reg v) = linkView s := by
  obtain ⟨a, d, y, h⟩ := mdioWrite_frame s reg v
  rw [h]
  rfl

@[simp] theorem initRing_linkView (s : State) (k : RingKind) : linkView (initRing s k) = linkView s := by
  cases k <;> rfl

@[simp] theorem setEngine_linkView (s : State) (k : RingKind) (e : Engine) :
    linkView (s.setEngine k e) = linkView s := by
  cases k <;> rfl

@[simp] theorem setStats_linkView (s : State) (c : Stats) : linkView (s.setStats c) = linkView s := rfl

/-- The negotiation is begun without a word about the link (R163). -/
@[simp] theorem startNegotiation_linkView (s : State) (adv : BitVec 6) :
    linkView (startNegotiation s adv) = linkView s := by
  have hanar := mdioWrite_linkView s 4 (anarWord adv)
  have hrestart : ∀ t, linkView { mdioWrite t 0 bmcrRestart with neg := .negotiating, negPolls := 0 } = linkView t :=
    fun t => linkView_congr (mdioWrite_linkView t 0 bmcrRestart)
  unfold startNegotiation
  dsimp only
  split
  · exact (hrestart _).trans ((mdioWrite_linkView _ 9 (gtcrWord adv)).trans hanar)
  · exact (hrestart _).trans hanar

@[simp] theorem programBases_linkView (s : State) : linkView (programBases s) = linkView s := by
  simp only [programBases, writeReg_linkView]

@[simp] theorem initRings_linkView (s : State) : linkView (initRings s) = linkView s := by
  simp only [initRings, initRing_linkView]

@[simp] theorem writeMacCfg_linkView (s : State) (en : Bool) : linkView (writeMacCfg s en) = linkView s :=
  writeReg_linkView _ _ _

@[simp] theorem writeMacAddr_linkView (s : State) : linkView (writeMacAddr s) = linkView s := by
  simp only [writeMacAddr, writeReg_linkView]

@[simp] theorem startEngines_linkView (s : State) : linkView (startEngines s) = linkView s := by
  simp only [startEngines, writeReg_linkView, writeMacCfg_linkView]

/-- The MAC is reconfigured for a mode, the link itself not written (R170). -/
@[simp] theorem reconfigureMac_linkView (s : State) (m : LinkMode) : linkView (reconfigureMac s m) = linkView s := by
  simp only [reconfigureMac, writeReg_linkView, programBases_linkView, initRings_linkView, writeMacCfg_linkView]

/-! ### The rings -/

@[simp] theorem enqueueTx_linkView (s : State) (length : Nat) (bytes : List Byte) :
    linkView (enqueueTx s length bytes).2.2 = linkView s := by
  unfold enqueueTx
  split
  · rfl
  · rw [publishTx_frame]
    exact linkView_congr rfl

@[simp] theorem reclaimTx_linkView (s : State) : linkView (reclaimTx s).2 = linkView s :=
  reclaimTxLoop_induction (P := fun t => linkView t = linkView s) (fun _ _ h => linkView_congr h) _ s rfl

@[simp] theorem reclaimRx_linkView (s : State) (maxCount : Nat) : linkView (reclaimRx s maxCount).2 = linkView s := by
  rw [reclaimRx_eq]
  refine reclaimRxLoop_induction (P := fun t => linkView t = linkView s) (fun t _ h => ?_) _ s rfl
  rw [reclaimRxOne_frame]
  exact linkView_congr h

/-! ### The recovery steps -/

theorem recStopping_linkView (s : State) : linkView (recStopping s) = linkView s :=
  linkView_congr ((writeMacCfg_linkView _ false).trans (writeReg_linkView s .dmaOpmode 0))

theorem recReinit_linkView (s : State) : linkView (recReinit s) = linkView s :=
  linkView_congr ((programBases_linkView (initRings s)).trans (initRings_linkView s))

theorem recReapply_linkView (s : State) : linkView (recReapply s) = linkView s :=
  linkView_congr ((writeMacCfg_linkView _ false).trans
    ((writeReg_linkView (writeMacAddr s) .macFilter s.cfg.filter).trans (writeMacAddr_linkView s)))

theorem recRestart_linkView (s : State) : linkView (recRestart s) = linkView s :=
  linkView_congr ((startEngines_linkView { writeReg s .dmaStatus 0x1F with dev := .idle }).trans
    (linkView_congr (writeReg_linkView s .dmaStatus 0x1F)))

/-! ### The recoveries, the ISR and the tick -/

@[simp] theorem handleFatalError_linkView (s : State) : linkView (handleFatalError s) = linkView s := by
  unfold handleFatalError
  split <;> exact linkView_congr rfl

@[simp] theorem handleRxStopped_linkView (s : State) : linkView (handleRxStopped s) = linkView s := by
  unfold handleRxStopped
  split
  · simp only [writeReg_linkView, initRing_linkView, setStats_linkView]
  · rfl

@[simp] theorem handleTxStopped_linkView (s : State) : linkView (handleTxStopped s) = linkView s := by
  unfold handleTxStopped
  split
  · simp only [writeReg_linkView, initRing_linkView, setStats_linkView]
  · rfl

@[simp] theorem isrDataPath_linkView (s : State) (snapshot : Word) :
    linkView (isrDataPath s snapshot) = linkView s := by
  unfold isrDataPath
  dsimp only
  split <;> simp only [writeReg_linkView, handleRxStopped_linkView, reclaimTx_linkView, reclaimRx_linkView]

/-- The link-change service does nothing unless RUNNING (R196). -/
theorem linkChangeService_linkView (s : State) (h : s.dev ≠ .running) :
    linkView (linkChangeService s) = linkView s := by
  rw [linkChangeService, if_neg h]

/-- Only the path of LSC reaches the link (R190). -/
theorem isrService_linkView (s : State) (snapshot : Word) (h : hasFlag snapshot stLSC = true → s.dev ≠ .running) :
    linkView (isrService s snapshot) = linkView s := by
  unfold isrService
  dsimp only
  split
  · next hlsc => exact linkChangeService_linkView _ (h hlsc)
  split
  · exact (handleFatalError_linkView _).trans (writeReg_linkView _ _ _)
  split
  · exact (isrDataPath_linkView _ _).trans (writeReg_linkView _ _ _)
  · exact writeReg_linkView _ _ _

/-- The snapshot has LSC only when DMA_STATUS has it (R47, R313). -/
theorem getLsbD_of_snapshot_stLSC (s : State) (h : hasFlag (readReg s .dmaStatus) stLSC = true) :
    s.regs.dmaStatus.getLsbD 5 = true := by
  have hbit := getLsbD_of_hasFlag _ stLSC 5 (by decide) h
  rw [readReg, BitVec.getLsbD_and, Bool.and_eq_true] at hbit
  exact hbit.1

theorem isr_linkView (s : State) (h : s.regs.dmaStatus.getLsbD 5 = true → s.dev ≠ .running) :
    linkView (isr s) = linkView s := by
  unfold isr
  dsimp only
  split
  · exact writeReg_linkView _ _ _
  · exact isrService_linkView _ _ fun hlsc => h (getLsbD_of_snapshot_stLSC s hlsc)

@[simp] theorem watchdog_linkView (s : State) : linkView (watchdog s) = linkView s := by
  unfold watchdog watchdogTick
  dsimp only
  split
  · rfl
  · split_ifs
    · rfl
    · exact handleTxStopped_linkView _
    · rfl
  · rfl
  · rfl

/-! ### The engines -/

@[simp] theorem advance_linkView (s : State) (k : RingKind) (i : Nat) (d : Desc) :
    linkView (advance s k i d) = linkView s := by
  obtain ⟨j, -, h⟩ | ⟨-, h⟩ := advance_cases s k i d
  · rw [h, setEngine_linkView]
  · rw [h]
    rfl

@[simp] theorem suspend_linkView (s : State) (k : RingKind) (flag : Word) : linkView (suspend s k flag) = linkView s :=
  setEngine_linkView (setStatus s flag) k _

@[simp] theorem txdmaStep_linkView (s : State) (u : Bool) : linkView (txdmaStep s u) = linkView s := by
  unfold txdmaStep
  split
  · exact (advance_linkView _ _ _ _).trans (linkView_congr rfl)
  · exact suspend_linkView _ _ _

@[simp] theorem rxdmaFrame_linkView (s : State) (len : Nat) (bytes : List Byte) (crc lerr ovf : Bool) :
    linkView (rxdmaFrame s len bytes crc lerr ovf) = linkView s := by
  unfold rxdmaFrame
  split
  · rfl
  split
  · exact (advance_linkView _ _ _ _).trans (linkView_congr rfl)
  · exact suspend_linkView _ _ _

/-! ### The host commands -/

@[simp] theorem send_linkView (s : State) (length : Nat) (bytes : List Byte) :
    linkView (send s length bytes) = linkView s := by
  unfold send
  split
  · exact enqueueTx_linkView _ _ _
  · rfl

@[simp] theorem receive_linkView (s : State) (cap : Nat) : linkView (receive s cap) = linkView s := by
  unfold receive
  split <;> exact linkView_congr rfl

@[simp] theorem respondWith_linkView (s : State) (code : ResultCode) (value : Nat) (payload : RespPayload) :
    linkView (respondWith s code value payload) = linkView s := rfl

@[simp] theorem setMode_linkView (s : State) (mode : CfgMode) : linkView (setMode s mode) = linkView s := rfl

@[simp] theorem setMacAddress_linkView (s : State) (mac : MacAddr) : linkView (setMacAddress s mac) = linkView s :=
  linkView_congr (writeMacAddr_linkView { s with cfg := { s.cfg with mac := mac } })

theorem stop_linkView (s : State) : linkView (stop s) = linkView s :=
  linkView_congr (writeReg_linkView (awaitAnswer s) .dmaIer 0)

theorem startFin_linkView (s : State) : linkView (startFin s) = linkView s :=
  linkView_congr ((startEngines_linkView _).trans (writeReg_linkView s .dmaStatus 0x3F))

theorem stopEnd_linkView (s : State) : linkView (stopEnd s) = linkView s :=
  linkView_congr ((writeMacCfg_linkView _ false).trans
    ((writeReg_linkView _ .dmaOpmode 0).trans (writeReg_linkView s .dmaIer 0)))

/-- Without a forced mode START begins a negotiation (R232). -/
theorem beginLink_linkView (s : State) (h : s.cfg.mode = .auto) : linkView (beginLink s) = linkView s := by
  rw [beginLink, h]
  exact startNegotiation_linkView { s with neg := .idle } _

theorem startBegin_linkView (s : State) (h : s.cfg.mode = .auto) : linkView (startBegin s) = linkView s := by
  unfold startBegin
  dsimp only
  refine (beginLink_linkView _ ?_).trans ?_
  · simpa [writeMacAddr, programBases, initRings, initRing, writeMacCfg] using h
  · simp only [writeReg_linkView, writeMacAddr_linkView, programBases_linkView, initRings_linkView,
      writeMacCfg_linkView]
    rfl

/-- START begins a negotiation, or answers, or is held; only the forced path of START_BEGIN writes the link (R231,
R232). -/
theorem start_linkView (s : State) (h : s.dev = .idle → ∀ m, s.cfg.mode ≠ .forced m) :
    linkView (start s) = linkView s := by
  unfold start
  split
  · rfl
  · rfl
  · split <;> exact linkView_congr rfl
  · next hidle =>
    have hauto : s.cfg.mode = .auto := by
      cases hm : s.cfg.mode with
      | auto => rfl
      | forced m => exact absurd hm (h hidle m)
    exact startBegin_linkView (awaitAnswer s) hauto

/-! ## The writers (R172) -/

/-- Operation `i` is one of the writers of `link` and the known-good mask in state `s`. -/
inductive WritesLink : Instr → State → Prop
  | attached {s} (hd : s.dev = .uninit) : WritesLink .attach s
  | polled {s} : WritesLink .negPoll s
  | resolved {s} : WritesLink .resolveLinkMode s
  | forced {speed duplex s} : WritesLink (.forceLink speed duplex) s
  | serviced {s} (hd : s.dev = .running) : WritesLink .linkChangeService s
  | interrupted {s} (hlsc : s.regs.dmaStatus.getLsbD 5 = true) (hd : s.dev = .running) : WritesLink .isr s
  | started {s m} (hd : s.dev = .idle) (hm : s.cfg.mode = .forced m) : WritesLink .start s

/-- `t` has the link and the known-good mask of `s`. -/
def LinkKept (s t : State) : Prop := linkView t = linkView s

/-- An operation that runs and leaves its return value (log 18). -/
theorem LinkKept.returns {s t : State} {r : OpResult} (h : linkView t = linkView s) :
    Answers (.next (t.setRet r)) (LinkKept s) := .next (linkView_congr h)

/-- A step under an enabling condition (log 6). -/
theorem LinkKept.enabled {c : Prop} [Decidable c] {s t : State} (h : linkView t = linkView s) :
    Answers (if c then .next (t.setRet .none) else .next (notEnabled s)) (LinkKept s) :=
  .ite (fun _ => LinkKept.returns h) fun _ => .next rfl

/-- A command under the host duties (R245, R246). -/
theorem LinkKept.command {s : State} {k : State → State} (h : ∀ s, linkView (k s) = linkView s) :
    Answers (hostCommand s k) (LinkKept s) := Answers.command fun _ _ => h s

theorem illegalCommand_linkKept (s : State) : Answers (illegalCommand s) (LinkKept s) :=
  .ite (fun _ => .fault _) fun _ => .next rfl

theorem execSend_linkKept (len : Half) (bytes : List Byte) (s : State) :
    Answers (execSend len bytes s) (LinkKept s) := by
  unfold execSend
  obtain ⟨-, h⟩ | ⟨-, -, h⟩ | ⟨-, -, h⟩ := hostCommand_cases s id
  · rw [h]; exact .fault _
  · rw [h]; exact .fault _
  · rw [h]; exact .goodLength fun _ => send_linkView s _ bytes

theorem execStart_linkKept (s : State) (h : s.dev = .idle → ∀ m, s.cfg.mode ≠ .forced m) :
    Answers (execStart s) (LinkKept s) := .command fun _ _ => start_linkView s h

/-- Every operation that is not a writer keeps both. -/
theorem exec_linkKept (i : Instr) (s : State) (hw : ¬ WritesLink i s) : Answers (exec i s) (LinkKept s) := by
  cases i with
  | attach => exact .ite (fun _ => .fault _) fun _ => .ite (fun hd => absurd (.attached hd) hw) fun _ => .fault _
  | start =>
    exact execStart_linkKept s fun hd _ hm => hw (.started hd hm)
  | stop =>
    exact .ite (fun _ => .fault _) fun _ =>
      .ite (fun _ => .next (respondWith_linkView s _ _ _)) fun _ => .next (stop_linkView s)
  | send len bytes => exact execSend_linkKept len bytes s
  | receive cap => exact LinkKept.command fun s => receive_linkView s _
  | setMacAddress mac => exact LinkKept.command fun s => setMacAddress_linkView s mac
  | getLinkState => exact LinkKept.command fun s => respondWith_linkView s _ _ _
  | getStats => exact LinkKept.command fun s => respondWith_linkView s _ _ _
  | setModeAuto => exact LinkKept.command fun s => setMode_linkView s _
  | setModeForced speed duplex =>
    exact .ite (fun _ => illegalCommand_linkKept s) fun _ => LinkKept.command fun s => setMode_linkView s _
  | watchdog => exact .next (watchdog_linkView s)
  | initRing kind => exact LinkKept.returns (initRing_linkView s kind)
  | enqueueTx len bytes => exact .goodLength fun _ => enqueueTx_linkView s _ bytes
  | reclaimTx => exact LinkKept.returns (reclaimTx_linkView s)
  | reclaimRx maxCount => exact LinkKept.returns (reclaimRx_linkView s _)
  | mdioRead reg => exact LinkKept.returns (mdioRead_linkView s reg)
  | mdioWrite reg value => exact LinkKept.returns (mdioWrite_linkView s reg value)
  | startNegotiation adv => exact LinkKept.returns (startNegotiation_linkView s adv)
  | negPoll => exact absurd .polled hw
  | forceLink speed duplex => exact absurd .forced hw
  | resolveLinkMode => exact absurd .resolved hw
  | reconfigureMac speed duplex => exact LinkKept.returns (reconfigureMac_linkView s _)
  | isr => exact LinkKept.enabled (isr_linkView s fun hlsc hd => hw (.interrupted hlsc hd))
  | linkChangeService => exact LinkKept.returns (linkChangeService_linkView s fun hd => hw (.serviced hd))
  | handleFatalError => exact LinkKept.returns (handleFatalError_linkView s)
  | recStepStopping => exact LinkKept.enabled (recStopping_linkView s)
  | recStepReinit => exact LinkKept.enabled (recReinit_linkView s)
  | recStepReapply => exact LinkKept.enabled (recReapply_linkView s)
  | recStepRestart => exact LinkKept.enabled (recRestart_linkView s)
  | startFin => exact LinkKept.enabled (startFin_linkView s)
  | stopEnd => exact LinkKept.enabled (stopEnd_linkView s)
  | busError => exact LinkKept.enabled rfl
  | handleRxStopped => exact LinkKept.returns (handleRxStopped_linkView s)
  | handleTxStopped => exact LinkKept.returns (handleTxStopped_linkView s)
  | txdmaStep underflow => exact LinkKept.enabled (txdmaStep_linkView s underflow)
  | rxdmaFrame len bytes crc lerr ovf => exact LinkKept.enabled (rxdmaFrame_linkView s _ bytes crc lerr ovf)
  | phyLinkEvent => exact .ite (fun _ => .next rfl) fun _ => .next rfl

end Sys2Proof.Machine

namespace Sys2Proof.LinkSequencer

open Sys2Proof.Machine

/-- Settles O28: an operation that is not one of the writers keeps both. -/
theorem linkSingleWriter : Obligations.LinkSingleWriter := by
  intro i s t h hchanged
  have hw : WritesLink i s := by
    by_contra hw
    obtain ⟨hlink, hgood⟩ := Prod.mk.inj (exec_linkKept i s hw t h)
    exact hchanged.elim (· hlink) (· hgood)
  cases hw with
  | attached hd => exact .inl ⟨rfl, hd⟩
  | polled => exact .inr (.inl rfl)
  | resolved => exact .inr (.inr (.inl rfl))
  | forced => exact .inr (.inr (.inr (.inl ⟨_, _, rfl⟩)))
  | serviced hd => exact .inr (.inr (.inr (.inr (.inl ⟨.inl rfl, hd⟩))))
  | interrupted hlsc hd => exact .inr (.inr (.inr (.inr (.inl ⟨.inr ⟨rfl, hlsc⟩, hd⟩))))
  | started hd hm => exact .inr (.inr (.inr (.inr (.inr ⟨rfl, hd, _, hm⟩))))

end Sys2Proof.LinkSequencer
end

section
/-! PROOFS. The record of the last operation (log 18): the operations an ISR invocation is made of do not look at it and
leave it as it is, so an operation run inside another and the same operation run alone differ in that record only. -/

namespace Sys2Proof.Machine

section
variable (s : State) (r : OpResult)

@[simp] theorem setRet_setRet (r' : OpResult) : (s.setRet r).setRet r' = s.setRet r' := rfl

@[simp] theorem setRet_desc : (s.setRet r).desc = s.desc := rfl

@[simp] theorem readReg_setRet : readReg (s.setRet r) = readReg s := by
  funext reg
  cases reg <;> rfl

@[simp] theorem writeReg_setRet (reg : Reg) (v : Word) : writeReg (s.setRet r) reg v = (writeReg s reg v).setRet r := by
  cases reg <;> rfl

@[simp] theorem initRing_setRet (k : RingKind) : initRing (s.setRet r) k = (initRing s k).setRet r := by cases k <;> rfl

@[simp] theorem setStats_setRet (c : Stats) : (s.setRet r).setStats c = (s.setStats c).setRet r := rfl

@[simp] theorem setCarrier_setRet (c : Carrier) : setCarrier (s.setRet r) c = (setCarrier s c).setRet r := rfl

/-! ### The reclaim walks -/

@[simp] theorem reclaimStops_setRet : reclaimStops (s.setRet r) = reclaimStops s := rfl

@[simp] theorem reclaimTxOne_setRet : reclaimTxOne (s.setRet r) = (reclaimTxOne s).setRet r := rfl

theorem reclaimTxLoop_setRet (n : Nat) :
    reclaimTxLoop n (s.setRet r) = ((reclaimTxLoop n s).1, (reclaimTxLoop n s).2.setRet r) := by
  induction n generalizing s with
  | zero => rfl
  | succ n ih =>
    simp only [reclaimTxLoop, reclaimStops_setRet, reclaimTxOne_setRet, ih]
    split <;> rfl

@[simp] theorem reclaimTx_setRet : reclaimTx (s.setRet r) = ((reclaimTx s).1, (reclaimTx s).2.setRet r) :=
  reclaimTxLoop_setRet s r s.params.nTx

@[simp] theorem reclaimRxOne_setRet : reclaimRxOne (s.setRet r) = (reclaimRxOne s).setRet r := by
  rw [reclaimRxOne_frame, reclaimRxOne_frame]
  rfl

theorem reclaimRxLoop_setRet (n : Nat) :
    reclaimRxLoop n (s.setRet r) = ((reclaimRxLoop n s).1, (reclaimRxLoop n s).2.setRet r) := by
  induction n generalizing s with
  | zero => rfl
  | succ n ih =>
    simp only [reclaimRxLoop, setRet_desc, State.setRet_rxHead, reclaimRxOne_setRet, ih]
    split <;> rfl

@[simp] theorem reclaimRx_setRet (maxCount : Nat) :
    (reclaimRx (s.setRet r) maxCount).2 = (reclaimRx s maxCount).2.setRet r := by
  simp only [reclaimRx_eq, State.setRet_params, reclaimRxLoop_setRet]
  rfl

/-! ### The recoveries -/

@[simp] theorem handleRxStopped_setRet : handleRxStopped (s.setRet r) = (handleRxStopped s).setRet r := by
  simp only [handleRxStopped, State.setRet_dev, State.setRet_stats, State.setRet_params, setStats_setRet,
    readReg_setRet, writeReg_setRet, initRing_setRet]
  split <;> rfl

@[simp] theorem handleFatalError_setRet : handleFatalError (s.setRet r) = (handleFatalError s).setRet r := by
  unfold handleFatalError
  by_cases hd : s.dev = .running
  · rw [if_pos hd, if_pos (by exact hd)]
    rfl
  · rw [if_neg hd, if_neg (by exact hd)]

/-! ### The services of the ISR -/

@[simp] theorem isrDataPath_setRet (w : Word) : isrDataPath (s.setRet r) w = (isrDataPath s w).setRet r := by
  simp only [isrDataPath, State.setRet_params, reclaimRx_setRet, reclaimTx_setRet, handleRxStopped_setRet]
  split <;> exact writeReg_setRet _ r _ _

@[simp] theorem reconfigureMac_setRet (m : LinkMode) : reconfigureMac (s.setRet r) m = (reconfigureMac s m).setRet r := by
  simp only [reconfigureMac, writeMacCfg, programBases, initRings, writeReg_setRet, initRing_setRet, State.setRet_params,
    State.setRet_link, State.setRet_cfg]

@[simp] theorem reconfigureIfChanged_setRet (old : LinkMode) :
    reconfigureIfChanged old (s.setRet r) = (reconfigureIfChanged old s).setRet r := by
  simp only [reconfigureIfChanged, State.setRet_link, reconfigureMac_setRet]
  split <;> rfl

theorem mdioRead_first_setRet : mdioRead (s.setRet r) 1 = ((mdioRead s 1).1, (mdioRead s 1).2.setRet r) := by
  rw [mdioRead_first, mdioRead_first]
  rfl

@[simp] theorem serviceLink_setRet : serviceLink (s.setRet r) = (serviceLink s).setRet r := by
  simp only [serviceLink, mdioRead_first_setRet, State.setRet_link, resolveLinkMode_setRet, setCarrier_setRet,
    reconfigureIfChanged_setRet]
  split_ifs <;> rfl

@[simp] theorem linkChangeService_setRet : linkChangeService (s.setRet r) = (linkChangeService s).setRet r := by
  simp only [linkChangeService, State.setRet_dev, serviceLink_setRet]
  split <;> rfl

end

end Sys2Proof.Machine
end

section
/-! PROOFS. The interrupt engine (spec/42_interrupt_engine.md R190, R191, R194, R199): the status snapshot and the paths of
an ISR invocation. -/

namespace Sys2Proof.Machine

open Sys2Proof.Safety

/-! ## Status flags -/

/-- A flag of one bit is that bit of the word. -/
theorem hasFlag_twoPow (w : Word) (n : Nat) (hn : n < 32) : hasFlag w (BitVec.twoPow 32 n) = w.getLsbD n := by
  have hbit : BitVec.twoPow 32 n ≠ 0 := fun hz => by
    have hzero := congrArg (BitVec.getLsbD · n) hz
    simp [hn] at hzero
  unfold hasFlag
  rw [BitVec.and_twoPow]
  cases w.getLsbD n
  · exact decide_eq_false (by simp)
  · exact decide_eq_true hbit

theorem hasFlag_stRXU (w : Word) : hasFlag w stRXU = w.getLsbD 3 := hasFlag_twoPow w 3 (by decide)

theorem hasFlag_stFBE (w : Word) : hasFlag w stFBE = w.getLsbD 4 := hasFlag_twoPow w 4 (by decide)

theorem hasFlag_stLSC (w : Word) : hasFlag w stLSC = w.getLsbD 5 := hasFlag_twoPow w 5 (by decide)

/-- ISR entry reads the status bits and clears them all (R190, R191, R313). -/
theorem statusSnapshot_eq (s : State) :
    statusSnapshot s = (s.regs.dmaStatus &&& 0x3F, { s with regs := { s.regs with dmaStatus := 0 } }) := by
  simp only [statusSnapshot, readReg, writeReg, w1c_self]
  rfl

/-! ## ISR (R190, R199) -/

theorem isrEnabled_iff (s : State) : isrEnabled s = true ↔
    s.params.sharedLine = true ∨ s.regs.dmaStatus &&& s.regs.dmaIer &&& 0x3F ≠ 0 := by
  rw [isrEnabled, lineAsserted, Bool.or_eq_true, decide_eq_true_iff]
  exact or_comm

/-- A pending and enabled status bit raises the line (R310). -/
theorem isrEnabled_of_bit (s : State)
    (h : s.params.sharedLine = true ∨ ∃ j < 6, s.regs.dmaStatus.getLsbD j = true ∧ s.regs.dmaIer.getLsbD j = true) :
    isrEnabled s = true := by
  refine (isrEnabled_iff s).mpr (h.imp_right fun ⟨j, hj, hstatus, hier⟩ hzero => ?_)
  have hmask : ∀ j < 6, (0x3F : Word).getLsbD j = true := by decide
  have hbit := congrArg (BitVec.getLsbD · j) hzero
  simp only [BitVec.getLsbD_and, hstatus, hier, hmask j hj] at hbit
  simp at hbit

theorem exec_isr_of_enabled (s : State) (h : isrEnabled s = true) : exec .isr s = .next ((isr s).setRet .none) := if_pos h

/-- The state an invocation with a snapshot that is not 0 goes on with: the status cleared, the interrupt counted. -/
def isrCounted (s : State) : State :=
  { s with regs := { s.regs with dmaStatus := 0 }, stats := s.stats.countInterrupt }

/-- The same with interrupts off: where a fatal error and the data path start (R190). -/
def isrMasked (s : State) : State := { isrCounted s with regs := { s.regs with dmaStatus := 0, dmaIer := 0 } }

/-- An invocation by its snapshot (R190). -/
theorem isr_eq (s : State) : isr s =
    let snapshot := s.regs.dmaStatus &&& 0x3F
    if snapshot = 0 then { s with regs := { s.regs with dmaStatus := 0 } }
    else if snapshot.getLsbD 5 = true then linkChangeService (isrCounted s)
    else if snapshot.getLsbD 4 = true then handleFatalError (isrMasked s)
    else if s.dev = .running then isrDataPath (isrMasked s) snapshot
    else isrMasked s := by
  rw [isr, statusSnapshot_eq]
  simp only [isrService, hasFlag_stLSC, hasFlag_stFBE]
  rfl

/-- The data path is the two reclaim walks, the RXU recovery and the enables, each as it runs alone (R190, R194). -/
theorem isrDataPath_steps (s : State) (w : Word) (hp : paramsOk s.params = true) :
    ∃ t1 t2 t3, exec (.reclaimRx (BitVec.ofNat 16 s.params.nRx)) s = .next t1 ∧ exec .reclaimTx t1 = .next t2 ∧
      (if w.getLsbD 3 = true then exec .handleRxStopped t2 = .next t3 else t3 = t2) ∧
      (isrDataPath s w).setRet .none = { t3 with regs := { t3.regs with dmaIer := 0x3F }, ret := .none } := by
  obtain ⟨-, -, -, hN, -⟩ := paramsOk_sizes s.params hp
  have hcount : (BitVec.ofNat 16 s.params.nRx).toNat = s.params.nRx := Nat.mod_eq_of_lt (by omega)
  have henables (t : State) (r : OpResult) : (writeReg t .dmaIer ieAll).setRet .none =
    { t.setRet r with regs := { (t.setRet r).regs with dmaIer := 0x3F }, ret := .none } := rfl
  simp only [exec, execReclaimRx, execReclaimTx, execHandleRxStopped, hcount, isrDataPath, hasFlag_stRXU]
  by_cases hrxu : w.getLsbD 3 = true
  · simp only [if_pos hrxu]
    refine ⟨_, _, _, rfl, rfl, rfl, ?_⟩
    rw [reclaimTx_setRet, setRet_setRet, handleRxStopped_setRet, setRet_setRet]
    exact henables _ _
  · simp only [if_neg hrxu]
    refine ⟨_, _, _, rfl, rfl, rfl, ?_⟩
    rw [reclaimTx_setRet, setRet_setRet]
    exact henables _ _

end Sys2Proof.Machine

namespace Sys2Proof.InterruptEngine

open Sys2Proof.Machine Sys2Proof.Safety

/-- Settles O29: the snapshot selects one path, and each service runs there as it runs alone. -/
theorem isrSteps : Obligations.IsrSteps := by
  intro s ⟨hp, _⟩ henabled snapshot cleared counted masked
  have hcounted : counted = (isrCounted s).setRet .none := rfl
  have hmasked : masked = (isrMasked s).setRet .none := rfl
  have hexec : exec .isr s = .next ((isr s).setRet .none) := exec_isr_of_enabled s (isrEnabled_of_bit s henabled)
  rw [isr_eq] at hexec
  change exec .isr s = .next ((if snapshot = 0 then _ else _ : State).setRet .none) at hexec
  have hne (n : Nat) (h : snapshot.getLsbD n = true) : snapshot ≠ 0 := fun hz => by simp [hz] at h
  refine ⟨fun hz => ?_, fun hlsc => ?_, fun hlsc hfbe => ?_, fun hnz hlsc hfbe hd => ?_, fun hnz hlsc hfbe hd => ?_⟩
  · rw [hexec, if_pos hz]
    rfl
  · rw [hexec, if_neg (hne 5 hlsc), if_pos hlsc, hcounted, exec, execLinkChangeService, linkChangeService_setRet,
      setRet_setRet]
  · rw [hexec, if_neg (hne 4 hfbe), if_neg (Bool.eq_false_iff.mp hlsc), if_pos hfbe, hmasked, exec,
      execHandleFatalError, handleFatalError_setRet, setRet_setRet]
  · rw [hexec, if_neg hnz, if_neg (Bool.eq_false_iff.mp hlsc), if_neg (Bool.eq_false_iff.mp hfbe), if_neg hd]
    rfl
  · obtain ⟨t1, t2, t3, hrx, htx, hrxu, hdata⟩ := isrDataPath_steps masked snapshot hp
    refine ⟨t1, t2, t3, hrx, htx, hrxu, ?_⟩
    rw [hexec, if_neg hnz, if_neg (Bool.eq_false_iff.mp hlsc), if_neg (Bool.eq_false_iff.mp hfbe), if_pos hd, ← hdata,
      hmasked, isrDataPath_setRet, setRet_setRet]

end Sys2Proof.InterruptEngine
end

section
/-! PROOFS. The `interrupts` counter (spec/42_interrupt_engine.md R198): what an invocation adds to it, and that no other
operation but ATTACH touches it. -/

namespace Sys2Proof.Machine

/-! ## Operations that count other events -/

theorem handleFatalError_interrupts (s : State) : (handleFatalError s).stats.interrupts = s.stats.interrupts := by
  rw [handleFatalError_stats]
  split <;> rfl

theorem handleRxStopped_interrupts (s : State) : (handleRxStopped s).stats.interrupts = s.stats.interrupts := by
  rw [handleRxStopped_stats]
  split <;> rfl

theorem handleTxStopped_interrupts (s : State) : (handleTxStopped s).stats.interrupts = s.stats.interrupts := by
  rw [handleTxStopped_stats]
  split <;> rfl

theorem reclaimTx_interrupts (s : State) : (reclaimTx s).2.stats.interrupts = s.stats.interrupts :=
  reclaimTxLoop_induction (P := fun t => t.stats.interrupts = s.stats.interrupts)
    (fun t _ h => by rw [reclaimTxOne_frame]; exact h) _ s rfl

theorem reclaimRx_interrupts (s : State) (maxCount : Nat) :
    (reclaimRx s maxCount).2.stats.interrupts = s.stats.interrupts := by
  rw [reclaimRx_eq]
  exact reclaimRxLoop_induction (P := fun t => t.stats.interrupts = s.stats.interrupts)
    (fun t _ h => by rw [reclaimRxOne_frame]; exact h) _ s rfl

theorem watchdog_interrupts (s : State) : (watchdog s).stats.interrupts = s.stats.interrupts := by
  unfold watchdog watchdogTick
  dsimp only
  split
  · rfl
  · split_ifs
    · rfl
    · exact handleTxStopped_interrupts _
    · rfl
  · rfl
  · rfl

/-! ## The ISR (R190) -/

theorem isrDataPath_interrupts (s : State) (w : Word) : (isrDataPath s w).stats.interrupts = s.stats.interrupts := by
  have hwalks := (reclaimTx_interrupts _).trans (reclaimRx_interrupts s s.params.nRx)
  unfold isrDataPath
  dsimp only
  rw [writeReg_stats]
  split
  · exact (handleRxStopped_interrupts _).trans hwalks
  · exact hwalks

/-- An invocation counts when its snapshot is not zero, whichever path it takes. -/
theorem isr_interrupts (s : State) : (isr s).stats.interrupts =
    s.stats.interrupts + if s.regs.dmaStatus &&& 0x3F = 0 then 0 else 1 := by
  rw [isr_eq]
  dsimp only
  split
  · rfl
  split
  · rw [linkChangeService_stats]
    rfl
  split
  · exact handleFatalError_interrupts _
  split
  · exact isrDataPath_interrupts _ _
  · rfl

/-! ## Every operation -/

/-- The outcome, if it is a next state, has counted as many interrupts as `s`. -/
def InterruptsKept (s : State) (o : Host.Outcome State Fault Refusal) : Prop :=
  Answers o fun t => t.stats.interrupts = s.stats.interrupts

namespace InterruptsKept

variable {s t : State}

theorem next (h : t.stats.interrupts = s.stats.interrupts) : InterruptsKept s (.next t) := Answers.next h

/-- A next state whose counters are all as before. -/
theorem next_eq (h : t.stats = s.stats) : InterruptsKept s (.next t) := next (congrArg _ h)

/-- An operation that runs and leaves its return value (log 18). -/
theorem returns (r : OpResult) (h : t.stats.interrupts = s.stats.interrupts) : InterruptsKept s (.next (t.setRet r)) :=
  next h

theorem returns_eq (r : OpResult) (h : t.stats = s.stats) : InterruptsKept s (.next (t.setRet r)) := next_eq h

/-- A choice between two outcomes. -/
theorem ite {c : Prop} [Decidable c] {o o' : Host.Outcome State Fault Refusal} (h : InterruptsKept s o)
    (h' : InterruptsKept s o') : InterruptsKept s (if c then o else o') := Answers.ite (fun _ => h) fun _ => h'

/-- A step under an enabling condition (log 6). -/
theorem enabled {c : Prop} [Decidable c] (h : t.stats = s.stats) :
    InterruptsKept s (if c then .next (t.setRet .none) else .next (notEnabled s)) :=
  ite (returns_eq _ h) (returns_eq _ rfl)

/-- A command under the host duties (R245, R246). -/
theorem command {k : State → State} (h : ∀ s, (k s).stats = s.stats) : InterruptsKept s (hostCommand s k) :=
  Answers.command fun _ _ => congrArg _ (h s)

theorem illegal : InterruptsKept s (illegalCommand s) := ite (Answers.fault _) (next_eq rfl)

end InterruptsKept

theorem execSend_interruptsKept (len : Half) (bytes : List Byte) (s : State) :
    InterruptsKept s (execSend len bytes s) := by
  unfold execSend
  obtain ⟨-, h⟩ | ⟨-, -, h⟩ | ⟨-, -, h⟩ := hostCommand_cases s id
  · rw [h]; exact .fault _
  · rw [h]; exact .fault _
  · rw [h]; exact .ite (.next_eq (send_stats s _ bytes)) (.fault _)

/-- Every operation but ATTACH and the ISR leaves the counter alone. -/
theorem exec_interruptsKept (i : Instr) (s : State) (hattach : i ≠ .attach) (hisr : i ≠ .isr) :
    InterruptsKept s (exec i s) := by
  cases i with
  | attach => exact absurd rfl hattach
  | isr => exact absurd rfl hisr
  | start => exact .command start_stats
  | stop => exact .ite (.fault _) (.ite (.next_eq (respond_stats s _)) (.next_eq (stop_stats s)))
  | send len bytes => exact execSend_interruptsKept len bytes s
  | receive cap => exact .command fun s => receive_stats s _
  | getLinkState => exact .command fun s => respondWith_stats s _ _ _
  | getStats => exact .command fun s => respondWith_stats s _ _ _
  | setMacAddress mac => exact .command fun s => setMacAddress_stats s mac
  | setModeAuto => exact .command fun s => setMode_stats s _
  | setModeForced speed duplex => exact .ite .illegal (.command fun s => setMode_stats s _)
  | watchdog => exact .next (watchdog_interrupts s)
  | initRing kind => exact .returns_eq _ (initRing_stats s kind)
  | enqueueTx len bytes => exact .ite (.returns_eq _ (enqueueTx_stats s _ bytes)) (.fault _)
  | reclaimTx => exact .returns _ (reclaimTx_interrupts s)
  | reclaimRx maxCount => exact .returns _ (reclaimRx_interrupts s _)
  | mdioRead reg => exact .returns_eq _ (mdioRead_stats s reg)
  | mdioWrite reg value => exact .returns_eq _ (mdioWrite_stats s reg value)
  | startNegotiation adv => exact .returns_eq _ (startNegotiation_stats s adv)
  | negPoll => exact .enabled (negPoll_stats s)
  | forceLink speed duplex => exact .returns_eq _ (forceLink_stats s _)
  | resolveLinkMode => exact .returns_eq _ (resolveLinkMode_stats s)
  | reconfigureMac speed duplex => exact .returns_eq _ (reconfigureMac_stats s _)
  | linkChangeService => exact .returns_eq _ (linkChangeService_stats s)
  | handleFatalError => exact .returns _ (handleFatalError_interrupts s)
  | recStepStopping => exact .enabled (recStopping_stats s)
  | recStepReinit => exact .enabled (recReinit_stats s)
  | recStepReapply => exact .enabled (recReapply_stats s)
  | recStepRestart => exact .enabled (recRestart_stats s)
  | handleRxStopped => exact .returns _ (handleRxStopped_interrupts s)
  | handleTxStopped => exact .returns _ (handleTxStopped_interrupts s)
  | startFin => exact .enabled (startFin_stats s)
  | stopEnd => exact .enabled (stopEnd_stats s)
  | txdmaStep underflow => exact .enabled (txdmaStep_stats s underflow)
  | rxdmaFrame len bytes crc lerr ovf => exact .enabled (rxdmaFrame_stats s _ bytes crc lerr ovf)
  | busError => exact .enabled (raiseBusError_stats s)
  | phyLinkEvent => exact .ite (.returns_eq _ rfl) (.returns_eq _ (setStatus_stats s _))

/-- A scheduled ISR step counts when it is enabled and its snapshot is not zero (R198, R199). -/
theorem exec_isr_interrupts (s : State) : Answers (exec .isr s) fun t => t.stats.interrupts = s.stats.interrupts +
    if isrEnabled s = true ∧ s.regs.dmaStatus &&& 0x3F ≠ 0 then 1 else 0 :=
  .ite (fun he => .next ((isr_interrupts s).trans (by simp only [he, true_and, ite_not])))
    fun he => .next (by simp [he, notEnabled])

end Sys2Proof.Machine

namespace Sys2Proof.InterruptEngine

open Sys2Proof.Machine

/-- Settles O31: the ISR counts on every path but the first; the other operations do not count interrupts. -/
theorem interruptsCounted : Obligations.InterruptsCounted := by
  intro i s t h hattach
  by_cases hisr : i = .isr
  · subst hisr
    have hcount := exec_isr_interrupts s t h
    simp only [isrEnabled_iff] at hcount
    simpa only [true_and] using hcount
  · rw [if_neg fun hc => hisr hc.1]
    exact exec_interruptsKept i s hattach hisr t h

end Sys2Proof.InterruptEngine
end

section
/-! PROOFS. The link-change service (spec/42_interrupt_engine.md R196, R171) and the watchdog tick (R197) in closed form. -/

namespace Sys2Proof.Machine

open Sys2Proof.Safety

/-! ## The link-change service (R196) -/

/-- A resolution that kept the mode leaves the MAC alone (R171). -/
theorem reconfigureIfChanged_same (s : State) : reconfigureIfChanged ⟨s.link.speed, s.link.duplex⟩ s = s :=
  if_neg fun h => h rfl

/-- BMSR is read; then the carrier alone is set, or the mode is resolved (R196). -/
theorem serviceLink_eq (s : State) : serviceLink s =
    let polled := afterReads s 1 1 (answer s 0)
    if (answer s 0).getLsbD 2 = false then setCarrier polled .down
    else if s.link.negmode = .auto ∧ (answer s 0).getLsbD 5 = true then
      reconfigureIfChanged ⟨s.link.speed, s.link.duplex⟩ (resolveLinkMode polled).2
    else setCarrier polled .up := by
  have hforced := reconfigureIfChanged_same (setCarrier (afterReads s 1 1 (answer s 0)) .up)
  simp only [serviceLink, mdioRead_first, anComplete]
  by_cases hauto : s.link.negmode = .auto
  · cases (answer s 0).getLsbD 5 <;>
      simp only [hauto, true_and, if_true, Bool.false_eq_true, Bool.true_eq_false, if_false]
  · simp only [hauto, false_and, if_false]
    exact congrArg (ite _ _) hforced

/-- The reconfiguration of a resolved mode that differs, as it runs alone (R171). -/
theorem next_reconfigureIfChanged (old : LinkMode) (u : State) (r : OpResult) :
    Host.Outcome.next ((reconfigureIfChanged old u).setRet .none) =
      if u.link.speed = old.speed ∧ u.link.duplex = old.duplex then .next ((u.setRet r).setRet .none)
      else exec (.reconfigureMac u.link.speed u.link.duplex) (u.setRet r) := by
  have hsame : (⟨u.link.speed, u.link.duplex⟩ : LinkMode) = old ↔
      u.link.speed = old.speed ∧ u.link.duplex = old.duplex := by
    cases old
    simp only [LinkMode.mk.injEq]
  unfold reconfigureIfChanged
  by_cases hmode : u.link.speed = old.speed ∧ u.link.duplex = old.duplex
  · rw [if_pos hmode, if_neg (not_not.mpr (hsame.mpr hmode)), setRet_setRet]
  · rw [if_neg hmode, if_pos (mt hsame.mp hmode), exec, execReconfigureMac, reconfigureMac_setRet, setRet_setRet]

/-- The service of a RUNNING device, run alone. -/
theorem exec_linkChangeService_running (s : State) (hd : s.dev = .running) :
    exec .linkChangeService s = .next ((serviceLink s).setRet .none) :=
  congrArg (fun t => Host.Outcome.next (State.setRet t .none)) (if_pos hd)

/-! ## The watchdog tick (R197) -/

/-- The answer of a tick (log 17). -/
def ticked (s : State) : State := { s with tickResp := some (reply 0 0) }

theorem exec_watchdog_eq (s : State) : exec .watchdog s = .next (ticked (watchdog s)) := rfl

theorem watchdog_uninit (s : State) (hd : s.dev = .uninit) : watchdog s = s := by simp only [watchdog, hd]

theorem watchdog_resting (s : State) (hd : s.dev = .idle ∨ s.dev = .fault) : watchdog s = { s with wdCount := 0 } := by
  obtain hd | hd := hd <;> simp only [watchdog, hd]

/-- A tick of a RUNNING device whose base is programmed, by the slot at the engine's cursor. -/
theorem watchdog_running (s : State) (hd : s.dev = .running) (hp : paramsOk s.params = true)
    (hb : s.regs.dmaTxBase = s.params.txDescBase) (hcur : s.tx.cur < s.params.nTx) : watchdog s =
    if (s.desc .tx s.tx.cur).own = false ∨ s.tx.cur ≠ s.wdCur then { s with wdCur := s.tx.cur, wdCount := 0 }
    else if s.wdCount + 1 = s.params.stallTicks then
      { handleTxStopped { s with wdCount := s.wdCount + 1 } with wdCount := 0 }
    else { s with wdCount := s.wdCount + 1 } := by
  simp only [watchdog, hd, watchdogTick, watchdogCursor_eq s hp hb hcur, Bool.or_eq_true, decide_eq_true_eq]

section
variable (s : State)

@[simp] theorem ticked_params : (ticked s).params = s.params := rfl
@[simp] theorem ticked_dev : (ticked s).dev = s.dev := rfl
@[simp] theorem ticked_stats : (ticked s).stats = s.stats := rfl

@[simp] theorem setStats_ticked (c : Stats) : (ticked s).setStats c = ticked (s.setStats c) := rfl

@[simp] theorem readReg_ticked : readReg (ticked s) = readReg s := by
  funext r
  cases r <;> rfl

@[simp] theorem writeReg_ticked (r : Reg) (v : Word) : writeReg (ticked s) r v = ticked (writeReg s r v) := by
  cases r <;> rfl

@[simp] theorem initRing_ticked (k : RingKind) : initRing (ticked s) k = ticked (initRing s k) := by cases k <;> rfl

@[simp] theorem initRing_ret (k : RingKind) : (initRing s k).ret = s.ret := by cases k <;> rfl

end

/-- The TX recovery does not look at the tick's answer, and leaves it as it is. -/
theorem handleTxStopped_ticked (s : State) : handleTxStopped (ticked s) = ticked (handleTxStopped s) := by
  simp only [handleTxStopped, ticked_dev, ticked_stats, ticked_params, setStats_ticked, initRing_ticked, writeReg_ticked,
    readReg_ticked]
  split <;> rfl

/-- The TX recovery leaves the record of the last operation (log 18). -/
theorem handleTxStopped_ret (s : State) : (handleTxStopped s).ret = s.ret := by
  unfold handleTxStopped
  split
  · simp only [writeReg_ret, initRing_ret, State.setStats_ret]
  · rfl

end Sys2Proof.Machine

namespace Sys2Proof.InterruptEngine

open Sys2Proof.Machine Sys2Proof.Safety

/-- Settles O32: the closed form of the service, path by path. -/
theorem linkChangeService : Obligations.LinkChangeService := by
  intro s bmsr polled carrier
  have hcarrier (c : Carrier) : carrier c = (setCarrier (afterReads s 1 1 bmsr) c).setRet .none := rfl
  refine ⟨fun hd => ?_, fun hd => ?_⟩
  · rw [exec, execLinkChangeService, Machine.linkChangeService, if_neg hd]
    rfl
  rw [exec_linkChangeService_running s hd, serviceLink_eq]
  refine ⟨fun hdown => ?_, fun hup hstay => ?_, fun hup hauto hdone => ⟨_, rfl, ?_⟩⟩
  · rw [if_pos hdown, hcarrier]
  · have hnot : ¬ (s.link.negmode = .auto ∧ bmsr.getLsbD 5 = true) := fun ⟨hauto, hdone⟩ => by
      simp only [hauto, hdone, reduceCtorEq, or_self] at hstay
    rw [if_neg (ne_false_of_eq_true hup), if_neg hnot, hcarrier]
  · have hpolled : polled = (afterReads s 1 1 bmsr).setRet .none := rfl
    rw [if_neg (ne_false_of_eq_true hup), if_pos ⟨hauto, hdone⟩, hpolled, resolveLinkMode_setRet]
    exact next_reconfigureIfChanged _ _ _

/-- Settles O33: by the device state; while RUNNING by the slot at the cursor and the count. -/
theorem watchdogTick : Obligations.WatchdogTick := by
  intro s hp hcur answered
  rw [exec_watchdog_eq]
  refine ⟨fun hd => ?_, fun hd => ?_, fun hd hb => ?_⟩
  · rw [watchdog_uninit s hd]
    rfl
  · rw [watchdog_resting s hd]
    rfl
  have hstays (hown : (s.desc .tx s.tx.cur).own = true) (hstuck : s.tx.cur = s.wdCur) :
      ¬ ((s.desc .tx s.tx.cur).own = false ∨ s.tx.cur ≠ s.wdCur) :=
    not_or.mpr ⟨ne_false_of_eq_true hown, not_not.mpr hstuck⟩
  rw [watchdog_running s hd hp hb hcur]
  refine ⟨fun hmoved => ?_, fun hown hstuck hmore => ?_, fun hown hstuck hlast => ⟨_, rfl, ?_⟩⟩
  · rw [if_pos hmoved]
    rfl
  · rw [if_neg (hstays hown hstuck), if_neg hmore]
    rfl
  · have hcounted : { answered with wdCount := s.wdCount + 1 } = ticked { s with wdCount := s.wdCount + 1 } := rfl
    have hret := handleTxStopped_ret { s with wdCount := s.wdCount + 1 }
    rw [if_neg (hstays hown hstuck), if_pos hlast, hcounted, handleTxStopped_ticked]
    generalize handleTxStopped { s with wdCount := s.wdCount + 1 } = u at hret ⊢
    rw [← hret]
    rfl

end Sys2Proof.InterruptEngine
end

section
/-! PROOFS. The fault and recovery controller (spec/43_recovery.md R210 to R219): each REC step and each narrow recovery
in closed form, and the run of the four REC steps. -/

namespace Sys2Proof.Machine

open Sys2Proof.Safety

/-! ## The fatal-error entry (R210, R215) -/

theorem handleFatalError_running (s : State) (hd : s.dev = .running) :
    handleFatalError s = { s with dev := .fault, stats := s.stats.countFatal, recPh := .stopping } := if_pos hd

theorem handleFatalError_resting (s : State) (hd : s.dev ≠ .running) : handleFatalError s = s := if_neg hd

theorem handleRxStopped_resting (s : State) (hd : s.dev ≠ .running) : handleRxStopped s = s := if_neg hd

theorem handleTxStopped_resting (s : State) (hd : s.dev ≠ .running) : handleTxStopped s = s := if_neg hd

/-- A narrow recovery of a device that is not RUNNING only leaves its record (R216, R217). -/
theorem exec_narrow_resting (s : State) (hd : s.dev ≠ .running) :
    exec .handleRxStopped s = .next (s.setRet .none) ∧ exec .handleTxStopped s = .next (s.setRet .none) := by
  rw [exec, exec, execHandleRxStopped, execHandleTxStopped, handleRxStopped_resting s hd, handleTxStopped_resting s hd]
  exact ⟨rfl, rfl⟩

/-- Settles O34: after the first call the device is not RUNNING, where every one of the three does nothing. -/
theorem fatalErrorEntered : Obligations.FatalErrorEntered := by
  intro s
  refine ⟨fun hd => ⟨_, rfl, ?_, ?_⟩, fun hd => ⟨?_, exec_narrow_resting s hd⟩⟩
  · rw [handleFatalError_running s hd]
    rfl
  · rw [handleFatalError_running s hd, exec, execHandleFatalError, handleFatalError_resting _ (by simp)]
    rfl
  · rw [exec, execHandleFatalError, handleFatalError_resting s hd]
    rfl

/-! ## The four REC steps (R211 to R214) -/

/-- The state REC_STEP STOPPING leaves (R211). -/
def recStopped (s : State) : State := { s with
  recPh := .reinit, ret := .none
  regs := { s.regs with dmaOpmode := 0, macCfg := macCfgFor s.params s.link.speed s.link.duplex false } }

/-- The state REC_STEP REINIT leaves with memory `m` (R212). -/
def recRebuilt (s : State) (m : Memory) : State :=
  { basesWritten (ringsCleared s m) with recPh := .reapply, ret := .none }

/-- The state REC_STEP REAPPLY leaves (R213). -/
def recReapplied (s : State) : State := { s with
  recPh := .restart, ret := .none
  regs := { s.regs with
    macAddrHi := BitVec.ofNat 32 (s.cfg.mac.b5.toNat * 256 + s.cfg.mac.b4.toNat)
    macAddrLo := BitVec.ofNat 32 (s.cfg.mac.b3.toNat * 16777216 + s.cfg.mac.b2.toNat * 65536 + s.cfg.mac.b1.toNat * 256
      + s.cfg.mac.b0.toNat)
    macFilter := s.cfg.filter, macCfg := macCfgFor s.params s.link.speed s.link.duplex false } }

/-- The state REC_STEP RESTART leaves: of the status bits only LSC stays (R214). -/
def recRestarted (s : State) : State := { s with
  dev := .running, recPh := .none, rx := { s.rx with susp := false }, ret := .none
  regs := { s.regs with
    dmaStatus := s.regs.dmaStatus &&& 0x20, dmaIer := 0x3F, dmaOpmode := 0x00002002
    macCfg := macCfgFor s.params s.link.speed s.link.duplex true } }

theorem exec_recStepStopping (s : State) (h : s.recPh = .stopping) :
    exec .recStepStopping s = .next (recStopped s) := by
  rw [exec, execRecStepStopping, if_pos h, recStopping, writeMacCfg_eq]
  rfl

theorem exec_recStepReinit (s : State) (hs : Sound s) (h : s.recPh = .reinit) :
    ∃ m, exec .recStepReinit s = .next (recRebuilt s m) ∧ RingsFresh s (recRebuilt s m) := by
  obtain ⟨hp, hm⟩ := hs
  obtain ⟨m, -, hrings, hfresh⟩ := initRings_spec s hp hm
  refine ⟨m, ?_, ringsFresh_congr _ _ _ _ rfl rfl rfl rfl hfresh⟩
  rw [exec, execRecStepReinit, if_pos h, recReinit, initRings, hrings, programBases_eq (ringsCleared s m) hp]
  rfl

theorem exec_recStepReapply (s : State) (h : s.recPh = .reapply) :
    exec .recStepReapply s = .next (recReapplied s) := by
  rw [exec, execRecStepReapply, if_pos h, recReapply, writeMacCfg_eq, writeMacAddr_eq]
  rfl

/-- Writing ones to the five data and error bits leaves LSC (R47, R214). -/
theorem w1c_keeps_lsc (v : Word) : w1c v 0x1F = v &&& 0x20 := by
  rw [w1c, BitVec.and_assoc]
  rfl

theorem exec_recStepRestart (s : State) (h : s.recPh = .restart) :
    exec .recStepRestart s = .next (recRestarted s) := by
  rw [exec, execRecStepRestart, if_pos h, recRestart, startEngines_eq, writeReg, w1c_keeps_lsc]
  rfl

/-- Settles O35: each step in closed form. -/
theorem recoverySteps : Obligations.RecoverySteps := by
  intro s hs mac
  refine ⟨exec_recStepStopping s, fun h => ?_, exec_recStepReapply s, exec_recStepRestart s⟩
  obtain ⟨m, hexec, hfresh⟩ := exec_recStepReinit s hs h
  exact ⟨_, hexec, hfresh, rfl⟩

/-! ## The narrow recoveries (R216, R217) -/

/-- Clearing a flag before setting it makes no difference. -/
theorem and_not_or_self (w f : Word) : w &&& ~~~f ||| f = w ||| f := by
  simpa only [BitVec.and_allOnes] using stop_then_start (BitVec.allOnes 32) w f (by simp) (by simp)

/-- MAC_CFG with an enable cleared and then set again has the enable set and the rest kept (R40, R41). -/
theorem macCfg_stop_then_start {s : State} (hr : RegsOk s) (f : Word) (hf : f &&& ~~~macCfgMask = 0)
    (hf15 : f.getLsbD 15 = false) :
    let write := macCfgWrite s.params.macGigabit
    write (write (write (write s.regs.macCfg &&& ~~~f)) ||| f) = s.regs.macCfg ||| f := by
  intro write
  obtain ⟨hcfg, hps, -⟩ := hr
  have hstop : write (s.regs.macCfg &&& ~~~f) = s.regs.macCfg &&& ~~~f := by
    refine macCfgWrite_self _ _ ?_ fun hg => ?_
    · rw [BitVec.and_assoc, BitVec.and_comm (~~~f), ← BitVec.and_assoc, macCfgMask, hcfg]
      exact BitVec.zero_and
    · rw [BitVec.getLsbD_and, hps hg, BitVec.getLsbD_not, hf15]
      rfl
  have hstart : write (s.regs.macCfg ||| f) = s.regs.macCfg ||| f :=
    macCfgWrite_self _ _ (or_reserved _ _ _ hcfg hf) fun hg => by simp [hps hg]
  have hread : write s.regs.macCfg = s.regs.macCfg := macCfgWrite_self _ _ hcfg hps
  rw [hread, hstop, hstop, and_not_or_self, hstart]

/-- DMA_OPMODE with a start bit cleared and then set again has it set and the rest kept (R40, R48). -/
theorem opmode_stop_then_start {s : State} (hr : RegsOk s) (f : Word) (hf : f &&& ~~~opmodeMask = 0) :
    ((s.regs.dmaOpmode &&& opmodeMask &&& ~~~f) &&& opmodeMask &&& opmodeMask ||| f) &&& opmodeMask =
      s.regs.dmaOpmode ||| f := by
  obtain ⟨-, -, -, -, -, -, -, -, hop, -⟩ := hr
  exact stop_then_start opmodeMask s.regs.dmaOpmode f hop hf

/-- The RX recovery of a RUNNING device: the stall counted, its ring initialised, its engine reset, its enable and start
bit set (R216). -/
theorem handleRxStopped_running (s : State) (hp : paramsOk s.params = true) (hr : RegsOk s) (hd : s.dev = .running) :
    handleRxStopped s = { initRing s .rx with
      stats := s.stats.countStall, rx := ⟨0, false, false⟩
      regs := { s.regs with
        dmaRxBase := s.params.rxDescBase
        macCfg := s.regs.macCfg ||| flagRE, dmaOpmode := s.regs.dmaOpmode ||| flagSR } } := by
  have hmac := macCfg_stop_then_start hr flagRE (by decide) (by decide)
  have hopmode := opmode_stop_then_start hr flagSR (by decide)
  simp only [handleRxStopped, if_pos hd, initRing_rx, writeReg, readReg, State.setRegs, State.setRx, State.setStats,
    Engine.reset, hmac, hopmode, rxDescBase_masked _ hp]

/-- The TX recovery of a RUNNING device (R217). -/
theorem handleTxStopped_running (s : State) (hp : paramsOk s.params = true) (hr : RegsOk s) (hd : s.dev = .running) :
    handleTxStopped s = { initRing s .tx with
      stats := s.stats.countStall, tx := ⟨0, false, false⟩
      regs := { s.regs with
        dmaTxBase := s.params.txDescBase
        macCfg := s.regs.macCfg ||| flagTE, dmaOpmode := s.regs.dmaOpmode ||| flagST } } := by
  have hmac := macCfg_stop_then_start hr flagTE (by decide) (by decide)
  have hopmode := opmode_stop_then_start hr flagST (by decide)
  simp only [handleTxStopped, if_pos hd, initRing_tx, writeReg, readReg, State.setRegs, State.setTx, State.setStats,
    Engine.reset, hmac, hopmode, txDescBase_masked _ hp]

/-- Settles O36: each recovery in closed form, its memory that of `initRing`. -/
theorem narrowRecoveries : Obligations.NarrowRecoveries := by
  intro s
  refine ⟨exec_narrow_resting s, ?_⟩
  intro ⟨hp, hm⟩ hr hd stats
  refine ⟨?rx, ?tx⟩
  case rx =>
    rw [exec, execHandleRxStopped, handleRxStopped_running s hp hr hd]
    exact ⟨_, rfl, freshRing_congr _ _ .rx rfl rfl (initRing_freshRing s .rx hm), read_initRing_outside s .rx, rfl⟩
  case tx =>
    rw [exec, execHandleTxStopped, handleTxStopped_running s hp hr hd]
    exact ⟨_, rfl, freshRing_congr _ _ .tx rfl rfl (initRing_freshRing s .tx hm), read_initRing_outside s .tx, rfl⟩

/-! ## The run of the four REC steps (R219) -/

/-- A run goes on from where its first step ends. -/
theorem run_succ (M : Host.Core) (n : Nat) {s t : M.State} (h : M.step s = .next t) : M.run (n + 1) s = M.run n t := by
  rw [Host.Core.run, h]

/-- A run whose next item schedules an operation goes on from where that operation ends (R14, log 4). -/
theorem run_scheduled {i : Instr} {s t : State} {rest : List Item} (n : Nat) (hp : paramsOk s.params = true)
    (hi : i.wellFormed = true) (hexec : exec i (takeItem s rest) = .next t) :
    Host.Core.run Sys2Proof.core (n + 1) (takeItem s (scheduled i :: rest)) = Host.Core.run Sys2Proof.core n t := by
  refine run_succ Sys2Proof.core n ?_
  change step (takeItem s (scheduled i :: rest)) = .next t
  rw [step_item (takeItem s (scheduled i :: rest)) (scheduled i) rest hp rfl, ← hexec]
  exact stepAgent_of_decode (encode i) i (takeItem s rest) (decodeOfEncodeIsTheInstruction i hi)

/-- The four REC steps in a row (R211 to R214), the rings as REINIT makes them. -/
theorem run_recSteps (s : State) (rest : List Item) (hs : Sound s) (h : s.recPh = .stopping) :
    ∃ m, RingsFresh s (recRebuilt (recStopped s) m) ∧
      Host.Core.run Sys2Proof.core 4 (takeItem s (scheduled .recStepStopping :: scheduled .recStepReinit ::
        scheduled .recStepReapply :: scheduled .recStepRestart :: rest)) =
      .next (takeItem (recRestarted (recReapplied (recRebuilt (recStopped s) m))) rest) := by
  obtain ⟨m, hreinit, hfresh⟩ := exec_recStepReinit
    (takeItem (recStopped s) (scheduled .recStepReapply :: scheduled .recStepRestart :: rest)) hs rfl
  refine ⟨m, ringsFresh_congr _ _ _ _ rfl rfl rfl rfl hfresh, ?_⟩
  have hstop (l : List Item) : exec .recStepStopping (takeItem s l) = .next (takeItem (recStopped s) l) :=
    exec_recStepStopping (takeItem s l) h
  have hreapply (l : List Item) : exec .recStepReapply (takeItem (recRebuilt (recStopped s) m) l) =
      .next (takeItem (recReapplied (recRebuilt (recStopped s) m)) l) :=
    exec_recStepReapply (takeItem (recRebuilt (recStopped s) m) l) rfl
  obtain ⟨hp, -⟩ := hs
  calc
    _ = Host.Core.run Sys2Proof.core 3 (takeItem (recStopped s) (scheduled .recStepReinit ::
        scheduled .recStepReapply :: scheduled .recStepRestart :: rest)) := run_scheduled 3 hp rfl (hstop _)
    _ = Host.Core.run Sys2Proof.core 2 (takeItem (recRebuilt (recStopped s) m) (scheduled .recStepReapply ::
        scheduled .recStepRestart :: rest)) := run_scheduled 2 hp rfl hreinit
    _ = Host.Core.run Sys2Proof.core 1 (takeItem (recReapplied (recRebuilt (recStopped s) m))
        (scheduled .recStepRestart :: rest)) := run_scheduled 1 hp rfl (hreapply _)
    _ = .next (takeItem (recRestarted (recReapplied (recRebuilt (recStopped s) m))) rest) :=
      run_scheduled 0 hp rfl (exec_recStepRestart (takeItem (recReapplied (recRebuilt (recStopped s) m)) rest) rfl)

/-- Settles O37: the closed form of the run. -/
theorem fullRecoveryInFourSteps : Obligations.FullRecoveryInFourSteps := by
  intro s rest hs _ hph hscript
  obtain ⟨m, ⟨htx, hrx, -⟩, hrun⟩ := run_recSteps s rest hs hph
  rw [← hscript] at hrun
  refine ⟨_, hrun, rfl, rfl, rfl, freshRing_congr _ _ .tx rfl rfl htx, freshRing_congr _ _ .rx rfl rfl hrx, ?_⟩
  exact ⟨rfl, rfl, rfl, rfl, rfl, rfl, rfl, rfl, rfl, rfl, rfl, rfl, rfl, rfl⟩

end Sys2Proof.Machine
end

section
/-! PROOFS. The host commands (spec/44_facade.md R230 to R244): under the host duties each answers with its code, its value
and its payload, and START and STOP end in the steps START_FIN and STOP_END. -/

namespace Sys2Proof.Facade

open Sys2Proof.Machine Sys2Proof.Safety

/-! ## The host duties and the answers (R115, R245, R246, R300) -/

/-- On an attached device with no command unanswered a host command runs. -/
theorem hostCommand_next {s : State} (k : State → State) (ha : Answered s) (hd : s.dev ≠ .uninit) :
    hostCommand s k = .next (k s) := by
  rw [hostCommand, (unanswered_eq_false s).mpr ha, if_neg Bool.false_ne_true, if_neg hd]

/-- Before ATTACH a host command is the host's fault. -/
theorem hostCommand_notAttached {s : State} (k : State → State) (ha : Answered s) (hd : s.dev = .uninit) :
    hostCommand s k = .fault (.hostDuty .notAttached) := by
  rw [hostCommand, (unanswered_eq_false s).mpr ha, if_neg Bool.false_ne_true, if_pos hd]

theorem responseWord_eq_reply (code : ResultCode) (value : Nat) :
    responseWord code value = reply (resultByte code).toNat value := by
  apply BitVec.eq_of_toNat_eq
  have hcode := (resultByte code).isLt
  rw [responseWordLayout.1, reply, BitVec.toNat_ofNat]
  omega

theorem respondWith_eq (s : State) (code : ResultCode) (value : Nat) (payload : RespPayload) :
    respondWith s code value payload = { s with resp := some ⟨reply (resultByte code).toNat value, payload⟩ } := by
  rw [respondWith, responseWord_eq_reply]

theorem respond_eq (s : State) (code : ResultCode) :
    respond s code = { s with resp := some ⟨reply (resultByte code).toNat 0, .none⟩ } := respondWith_eq s code 0 .none

/-- The code of START's answer as a number (R234). -/
theorem resultByte_negCode (r : NegResult) : (resultByte (negCode r)).toNat = if r = .ok then 0 else 3 := by
  cases r <;> rfl

/-! ## Turning the device off (R232, R236) -/

/-- DMA, interrupts and the MAC's enables off. -/
def turnedOff (s : State) : State := { s with
  regs := { s.regs with dmaOpmode := 0, dmaIer := 0, macCfg := macCfgFor s.params s.link.speed s.link.duplex false } }

theorem opmode_then_ier_off (s : State) :
    writeMacCfg (writeReg (writeReg s .dmaOpmode 0) .dmaIer 0) false = turnedOff s := by
  simp only [writeMacCfg_eq, writeReg, State.setRegs, turnedOff, BitVec.ofNat_eq_ofNat, BitVec.zero_and]

theorem ier_then_opmode_off (s : State) :
    writeMacCfg (writeReg (writeReg s .dmaIer 0) .dmaOpmode 0) false = turnedOff s := by
  simp only [writeMacCfg_eq, writeReg, State.setRegs, turnedOff, BitVec.ofNat_eq_ofNat, BitVec.zero_and]

/-! ## START (R231, R232) -/

/-- The state in which START_BEGIN chooses its path: both rings rebuilt in memory `m`, the device stopped, bases, MAC address
and filter written (R232). -/
def startPrepared (s : State) (m : Memory) : State := { basesWritten (ringsCleared s m) with
  resp := none, startPh := .neg, neg := .idle
  regs := { (basesWritten s).regs with
    dmaOpmode := 0, dmaIer := 0, macCfg := macCfgFor s.params s.link.speed s.link.duplex false
    macAddrHi := BitVec.ofNat 32 (s.cfg.mac.b5.toNat * 256 + s.cfg.mac.b4.toNat)
    macAddrLo := BitVec.ofNat 32 (s.cfg.mac.b3.toNat * 16777216 + s.cfg.mac.b2.toNat * 65536 + s.cfg.mac.b1.toNat * 256
      + s.cfg.mac.b0.toNat)
    macFilter := s.cfg.filter } }

theorem beginLink_auto {s : State} (h : s.cfg.mode = .auto) :
    beginLink s = startNegotiation { s with neg := .idle } s.params.advCaps := by
  rw [beginLink, h]

theorem beginLink_forced {s : State} {m : LinkMode} (h : s.cfg.mode = .forced m) :
    beginLink s = forceLink { s with neg := .idle } m := by
  rw [beginLink, h]

/-- Both rings initialised and both bases written (R130, R46). -/
theorem rebuild_spec (s : State) (hs : Sound s) :
    ∃ m, programBases (initRings s) = basesWritten (ringsCleared s m) ∧ RingsFresh s (ringsCleared s m) := by
  obtain ⟨hp, hm⟩ := hs
  obtain ⟨m, -, hrings, hfresh⟩ := initRings_spec s hp hm
  exact ⟨m, by rw [initRings, hrings, programBases_eq (ringsCleared s m) hp], hfresh⟩

/-- START_BEGIN up to the choice of its path. -/
theorem startBegin_prepared (s : State) (hs : Sound s) :
    ∃ m, startBegin (awaitAnswer s) = beginLink (startPrepared s m) ∧ RingsFresh s (startPrepared s m) := by
  obtain ⟨m, hrebuilt, hfresh⟩ := rebuild_spec (turnedOff { awaitAnswer s with startPh := .neg }) hs
  refine ⟨m, ?_, ringsFresh_congr _ _ _ _ rfl rfl rfl rfl hfresh⟩
  rw [startBegin, opmode_then_ier_off, hrebuilt, writeMacAddr_eq]
  rfl

/-! The path by the mode leaves the record of the last operation as it is. -/

@[simp] theorem mdioRead_ret (s : State) (reg : BitVec 5) : (mdioRead s reg).2.ret = s.ret := by
  obtain ⟨a, d, q, n, h⟩ := mdioRead_frame s reg
  rw [h]

@[simp] theorem mdioWrite_ret (s : State) (reg : BitVec 5) (v : Half) : (mdioWrite s reg v).ret = s.ret := by
  obtain ⟨a, d, y, h⟩ := mdioWrite_frame s reg v
  rw [h]

@[simp] theorem startNegotiation_ret (s : State) (adv : BitVec 6) : (startNegotiation s adv).ret = s.ret := by
  unfold startNegotiation
  dsimp only
  split <;> simp only [mdioWrite_ret]

@[simp] theorem forceLink_ret (s : State) (m : LinkMode) : (forceLink s m).ret = s.ret := by
  simp only [forceLink, mdioRead_ret, mdioWrite_ret]

theorem beginLink_ret (s : State) : (beginLink s).ret = s.ret := by
  unfold beginLink
  split
  · exact startNegotiation_ret _ _
  · exact forceLink_ret _ _

/-! START by device state (R231). -/

theorem start_running {s : State} (h : s.dev = .running) : start s = respond s .ok := by rw [start, h]

theorem start_held {s : State} (h : s.dev = .fault) (hr : s.recPh ≠ .none) :
    start s = { awaitAnswer s with startHeld := true } := by
  rw [start, h]
  exact if_neg hr

theorem start_idle {s : State} (h : s.dev = .idle) : start s = startBegin (awaitAnswer s) := by rw [start, h]

/-- Settles O39: by the device state; from IDLE by the path the mode takes from `startPrepared`. -/
theorem startDispatch : Obligations.StartDispatch := by
  intro s hs ha mac
  have hrun (hd : s.dev ≠ .uninit) : exec .start s = .next (start s) := hostCommand_next start ha hd
  refine ⟨hostCommand_notAttached start ha, fun hd => ?running, fun hd hr => ?fault, fun hd => ?idle⟩
  case running =>
    rw [hrun (by simp [hd]), start_running hd, respond_eq]
    rfl
  case fault =>
    rw [hrun (by simp [hd]), start_held hd hr]
    rfl
  case idle =>
    obtain ⟨m, hbegin, hfresh⟩ := startBegin_prepared s hs
    refine ⟨startPrepared s m, (beginLink (startPrepared s m)).setRet .none, hfresh, rfl, ?_, ?_⟩
    · cases hmode : s.cfg.mode with
      | auto => rw [beginLink_auto (by exact hmode)]; rfl
      | forced mode => rw [beginLink_forced (by exact hmode)]; rfl
    · have hret := beginLink_ret (startPrepared s m)
      rw [hrun (by simp [hd]), start_idle hd, hbegin]
      generalize beginLink (startPrepared s m) = t at hret ⊢
      exact congrArg (fun r => Host.Outcome.next (t.setRet r)) hret

/-- Writing 1 to every status bit clears DMA_STATUS (R47). -/
theorem clearStatus_eq (s : State) : writeReg s .dmaStatus 0x3F = s.setRegs { s.regs with dmaStatus := 0 } := by
  rw [writeReg, w1c_all]

/-- Settles O40: the status cleared, then the last register writes of START. -/
theorem startFin : Obligations.StartFin := by
  intro s hph hneg
  rw [exec, execStartFin, if_pos ⟨hph, hneg⟩, Machine.startFin, clearStatus_eq, startEngines_eq, respond_eq,
    resultByte_negCode]
  rfl

/-! ## STOP (R235, R236) -/

/-- Settles O41: STOP by the device state, STOP_END by what it turns off. -/
theorem stopAndStopEnd : Obligations.StopAndStopEnd := by
  intro s
  have hstop (ha : Answered s) : exec .stop s = if s.dev = .uninit then .next (respond s .ok) else .next (stop s) := by
    rw [exec, execStop, (unanswered_eq_false s).mpr ha, if_neg Bool.false_ne_true]
  refine ⟨fun ha hd => ?_, fun ha hd => ?_, fun hph hr => ?_⟩
  · rw [hstop ha, if_pos hd, respond_eq]
    rfl
  · rw [hstop ha, if_neg hd]
    rfl
  · rw [exec, execStopEnd, if_pos ⟨hph, hr⟩, stopEnd, ier_then_opmode_off, respond_eq]
    rfl

/-! ## SEND and RECEIVE (R238 to R240) -/

/-- On an attached device SEND runs under its length duty (R117). -/
theorem exec_send {s : State} (len : Half) (bytes : List Byte) (ha : Answered s) (hd : s.dev ≠ .uninit) :
    exec (.send len bytes) s = if lengthOk s.params len bytes then .next (send s len.toNat bytes)
      else .fault (.hostDuty .sendLength) := by
  rw [exec, execSend, hostCommand_next id ha hd, id]

theorem publishTx_ret (s : State) (length : Nat) (bytes : List Byte) : (publishTx s length bytes).ret = s.ret := by
  rw [publishTx_frame]

theorem send_running {s : State} (length : Nat) (bytes : List Byte) (hd : s.dev = .running) :
    send s length bytes = respondWith (Machine.enqueueTx s length bytes).2.2 (Machine.enqueueTx s length bytes).1
      (Machine.enqueueTx s length bytes).2.1 .none := if_pos hd

/-- Settles O42: a RUNNING device answers with what ENQUEUE_TX returns. -/
theorem sendCommand : Obligations.SendCommand := by
  intro s len bytes ha hd
  have hgood (h : GoodLength s.params len bytes) : exec (.send len bytes) s = .next (send s len.toNat bytes) := by
    rw [exec_send len bytes ha hd, if_pos ((lengthOk_iff _ _ _).mpr h)]
  refine ⟨fun h => ?_, fun h hnot => ?_, fun h hrun => ⟨_, execEnqueueTx_goodLength s len bytes h, ?_⟩⟩
  · rw [exec_send len bytes ha hd, if_neg (mt (lengthOk_iff _ _ _).mp h)]
  · rw [hgood h, send, if_neg hnot, respond_eq]
    rfl
  · rw [hgood h, send_running _ _ hrun, respondWith_eq]
    cases ho : (s.desc .tx s.txHead).own with
    | true =>
      rw [enqueueTx_full s _ bytes ho]
      exact .inr ⟨rfl, rfl⟩
    | false =>
      have hret := publishTx_ret s len.toNat bytes
      rw [enqueueTx_room s _ bytes ho]
      generalize publishTx s len.toNat bytes = t at hret ⊢
      exact .inl ⟨rfl, congrArg (fun r =>
        Host.Outcome.next { t with resp := some ⟨reply 0 len.toNat, .none⟩, ret := r }) hret⟩

/-- Settles O43: by the first entry of the queue. -/
theorem receiveCommand : Obligations.ReceiveCommand := by
  intro s cap ha hd
  have hrun : exec (.receive cap) s = .next (receive s cap.toNat) := hostCommand_next (receive · cap.toNat) ha hd
  rw [hrun]
  refine ⟨fun hq => ?_, fun rest hq => ?_, fun b rest hq => ?_⟩
  all_goals
    simp only [receive, hq, respondWith_eq]
    rfl

/-! ## The configuration, the link and the counters (R241 to R244) -/

/-- Settles O44: the two register words are those of the address just stored. -/
theorem setMacAddress : Obligations.SetMacAddress := by
  intro s mac ha hd
  have hrun : exec (.setMacAddress mac) s = .next (Machine.setMacAddress s mac) :=
    hostCommand_next (Machine.setMacAddress · mac) ha hd
  rw [hrun, Machine.setMacAddress, writeMacAddr_eq, respond_eq]
  rfl

theorem modeIllegal_iff (p : Params) (speed : Speed) :
    modeIllegal p speed = true ↔ speed = .s1000 ∧ p.macGigabit = false := by
  simp [modeIllegal]

/-- Settles O45: the mode is stored, unless it is one the MAC does not have. -/
theorem setModeCommand : Obligations.SetModeCommand := by
  intro s ha hd
  have hset (mode : CfgMode) : hostCommand s (setMode · mode) =
      .next { s with cfg := { s.cfg with mode := mode }, resp := some ⟨reply 0 0, .none⟩ } := by
    rw [hostCommand_next _ ha hd, setMode, respond_eq]
    rfl
  refine ⟨hset .auto, fun speed duplex => ?_⟩
  by_cases h : speed = .s1000 ∧ s.params.macGigabit = false
  · rw [exec, execSetModeForced, if_pos ((modeIllegal_iff _ _).mpr h), if_pos h]
    exact illegalCommand_answered s ha
  · rw [exec, execSetModeForced, if_neg (mt (modeIllegal_iff _ _).mp h), if_neg h]
    exact hset (.forced ⟨speed, duplex⟩)

/-- The link word as a sum of its fields (R243). -/
theorem linkWord_eq (l : Link) : linkWord l = BitVec.ofNat 32
    ((speedCode l.speed).toNat + (decide (l.duplex = .full)).toNat * 4 + (decide (l.carrier = .up)).toNat * 8
      + (decide (l.negmode = .forced)).toNat * 16) := by
  apply BitVec.eq_of_toNat_eq
  have hspeed := (speedCode l.speed).isLt
  have hduplex := Bool.toNat_le (decide (l.duplex = .full))
  have hcarrier := Bool.toNat_le (decide (l.carrier = .up))
  have hnegmode := Bool.toNat_le (decide (l.negmode = .forced))
  simp only [linkWord, bit1, toNat_append_eq, BitVec.toNat_ofBool, BitVec.toNat_ofNat, BitVec.ofNat_eq_ofNat]
  omega

/-- Settles O46: each answer is read from the state, the link word field by field. -/
theorem getLinkStateAndStats : Obligations.GetLinkStateAndStats := by
  intro s ha hd
  have hread (payload : State → RespPayload) : hostCommand s (fun t => respondWith t .ok 0 (payload t)) =
      .next { s with resp := some ⟨reply 0 0, payload s⟩ } := by
    rw [hostCommand_next _ ha hd, respondWith_eq]
    rfl
  refine ⟨(hread fun t => .linkWord (linkWord t.link)).trans ?_, hread fun t => .counters (countersOf t.stats)⟩
  rw [linkWord_eq]
  refine congrArg (fun n => Host.Outcome.next { s with resp := some ⟨reply 0 0, .linkWord (BitVec.ofNat 32 n)⟩ }) ?_
  refine congrArg₂ (· + ·) (congrArg₂ (· + ·) (congrArg₂ (· + ·) ?speed ?duplex) ?carrier) ?negmode
  case speed => cases s.link.speed <;> rfl
  case duplex => cases s.link.duplex <;> rfl
  case carrier => cases s.link.carrier <;> rfl
  case negmode => cases s.link.negmode <;> rfl

end Sys2Proof.Facade
end

section
/-! PROOFS. The enabling conditions of the engines and the environment (spec/45_dma_engines.md R260), and the steps that are
not enabled (R199, R303). -/

namespace Sys2Proof.Machine

/-! ## When an engine, the bus and the ISR can step (R199, R260) -/

theorem txEnabled_iff (s : State) : txEnabled s = true ↔
    s.regs.dmaOpmode.getLsbD 13 = true ∧ s.regs.macCfg.getLsbD 3 = true ∧ s.tx.halted = false ∧ s.tx.susp = false := by
  have hst : hasFlag s.regs.dmaOpmode flagST = s.regs.dmaOpmode.getLsbD 13 := hasFlag_twoPow _ 13 (by decide)
  have hte : hasFlag s.regs.macCfg flagTE = s.regs.macCfg.getLsbD 3 := hasFlag_twoPow _ 3 (by decide)
  simp only [txEnabled, hst, hte, Bool.and_eq_true, Bool.not_eq_true', and_assoc]

theorem rxEnabled_iff (s : State) : rxEnabled s = true ↔
    s.regs.dmaOpmode.getLsbD 1 = true ∧ s.regs.macCfg.getLsbD 2 = true ∧ s.rx.halted = false := by
  have hsr : hasFlag s.regs.dmaOpmode flagSR = s.regs.dmaOpmode.getLsbD 1 := hasFlag_twoPow _ 1 (by decide)
  have hre : hasFlag s.regs.macCfg flagRE = s.regs.macCfg.getLsbD 2 := hasFlag_twoPow _ 2 (by decide)
  simp only [rxEnabled, hsr, hre, Bool.and_eq_true, Bool.not_eq_true', and_assoc]

theorem busErrorEnabled_iff (s : State) : busErrorEnabled s = true ↔
    (s.regs.dmaOpmode.getLsbD 13 = true ∧ s.tx.halted = false) ∨
      (s.regs.dmaOpmode.getLsbD 1 = true ∧ s.rx.halted = false) := by
  have hst : hasFlag s.regs.dmaOpmode flagST = s.regs.dmaOpmode.getLsbD 13 := hasFlag_twoPow _ 13 (by decide)
  have hsr : hasFlag s.regs.dmaOpmode flagSR = s.regs.dmaOpmode.getLsbD 1 := hasFlag_twoPow _ 1 (by decide)
  simp only [busErrorEnabled, hst, hsr, Bool.or_eq_true, Bool.and_eq_true, Bool.not_eq_true']

/-- A line that is not shared stays low while no status bit is both set and enabled (R310). -/
theorem not_isrEnabled (s : State) (hline : s.params.sharedLine = false)
    (hbits : ∀ j < 6, ¬ (s.regs.dmaStatus.getLsbD j = true ∧ s.regs.dmaIer.getLsbD j = true)) : ¬ isrEnabled s = true := by
  have hmask : ∀ i : Fin 32, (0x3F : Word).getLsbD i = true → (i : Nat) < 6 := by decide
  intro hon
  obtain hshared | hne := (isrEnabled_iff s).mp hon
  · exact nomatch hline.symm.trans hshared
  refine hne (BitVec.eq_of_getLsbD_eq fun i hi =>
    (Bool.eq_false_iff.mpr fun hbit => ?_).trans BitVec.getLsbD_zero.symm)
  rw [BitVec.getLsbD_and, BitVec.getLsbD_and, Bool.and_eq_true, Bool.and_eq_true] at hbit
  obtain ⟨hboth, hlow⟩ := hbit
  exact hbits i (hmask ⟨i, hi⟩ hlow) hboth

/-! ## Steps that are not enabled (R303, log 6) -/

section

variable {s : State}

theorem exec_txdmaStep_disabled (u : Bool) (h : s.regs.dmaOpmode.getLsbD 13 = false ∨ s.regs.macCfg.getLsbD 3 = false ∨
    s.tx.halted = true ∨ s.tx.susp = true) : exec (.txdmaStep u) s = .next (notEnabled s) :=
  if_neg fun hon => by
    obtain ⟨hst, hte, hhalted, hsusp⟩ := (txEnabled_iff s).mp hon
    rw [hst, hte, hhalted, hsusp] at h
    simp at h

theorem exec_rxdmaFrame_disabled (len : Half) (bytes : List Byte) (crc lerr ovf : Bool)
    (h : s.regs.dmaOpmode.getLsbD 1 = false ∨ s.regs.macCfg.getLsbD 2 = false ∨ s.rx.halted = true) :
    exec (.rxdmaFrame len bytes crc lerr ovf) s = .next (notEnabled s) :=
  if_neg fun hon => by
    obtain ⟨hsr, hre, hhalted⟩ := (rxEnabled_iff s).mp hon
    rw [hsr, hre, hhalted] at h
    simp at h

theorem exec_busError_disabled (htx : s.regs.dmaOpmode.getLsbD 13 = false ∨ s.tx.halted = true)
    (hrx : s.regs.dmaOpmode.getLsbD 1 = false ∨ s.rx.halted = true) : exec .busError s = .next (notEnabled s) :=
  if_neg fun hon => by
    obtain ⟨hst, hhalted⟩ | ⟨hsr, hhalted⟩ := (busErrorEnabled_iff s).mp hon
    · rw [hst, hhalted] at htx
      simp at htx
    · rw [hsr, hhalted] at hrx
      simp at hrx

theorem exec_startFin_disabled (h : s.startPh = .none ∨ s.neg ≠ .resolved) : exec .startFin s = .next (notEnabled s) :=
  if_neg fun ⟨hstart, hneg⟩ => h.elim (fun hnone => nomatch hstart.symm.trans hnone) (· hneg)

theorem exec_stopEnd_disabled (h : s.stopPh = .none ∨ s.recPh ≠ .none) : exec .stopEnd s = .next (notEnabled s) :=
  if_neg fun ⟨hstop, hrec⟩ => h.elim (fun hnone => nomatch hstop.symm.trans hnone) (· hrec)

end

/-- An invocation that finds no status bit set returns at once (R190). -/
theorem isr_of_no_status (s : State) (h : s.regs.dmaStatus &&& 0x3F = 0) :
    isr s = { s with regs := { s.regs with dmaStatus := 0 } } := (isr_eq s).trans (if_pos h)

/-- The ISR of a reset block finds a zero status, if a shared line calls it at all (R331). -/
theorem exec_isr_resetOf (p : Params) : ∃ r, exec .isr (State.resetOf p) = .next { State.resetOf p with ret := r } := by
  by_cases hon : isrEnabled (State.resetOf p) = true
  · refine ⟨.none, (exec_isr_of_enabled _ hon).trans ?_⟩
    rw [isr_of_no_status _ BitVec.zero_and]
    rfl
  · exact ⟨.notEnabled, if_neg hon⟩

end Sys2Proof.Machine

namespace Sys2Proof.DmaEngines

open Sys2Proof.Machine

/-- Settles O11: by the operation; at reset every condition but the ISR's fails. -/
theorem disabledStepsChangeNothing : Obligations.DisabledStepsChangeNothing := by
  refine ⟨fun p i hi => ?reset, fun s => ?disabled⟩
  case reset =>
    simp only [List.mem_cons, List.not_mem_nil, or_false] at hi
    rcases hi with rfl | rfl | rfl | rfl | rfl | rfl | rfl | rfl | rfl | rfl | rfl
    · exact ⟨.notEnabled, rfl⟩
    · exact exec_isr_resetOf p
    · exact ⟨.notEnabled, rfl⟩
    · exact ⟨.notEnabled, rfl⟩
    · exact ⟨.notEnabled, rfl⟩
    · exact ⟨.notEnabled, rfl⟩
    · exact ⟨.notEnabled, exec_startFin_disabled (.inl rfl)⟩
    · exact ⟨.notEnabled, exec_stopEnd_disabled (.inl rfl)⟩
    · exact ⟨.notEnabled, exec_txdmaStep_disabled false (.inl BitVec.getLsbD_zero)⟩
    · exact ⟨.notEnabled, exec_txdmaStep_disabled true (.inl BitVec.getLsbD_zero)⟩
    · exact ⟨.notEnabled, exec_busError_disabled (.inl BitVec.getLsbD_zero) (.inl BitVec.getLsbD_zero)⟩
  case disabled =>
    exact ⟨fun u => exec_txdmaStep_disabled u, exec_rxdmaFrame_disabled, exec_busError_disabled, fun h => if_pos h,
      fun hline hbits => if_neg (not_isrEnabled s hline hbits), fun h => if_neg h, fun h => if_neg h, fun h => if_neg h,
      fun h => if_neg h, fun h => if_neg h, exec_startFin_disabled, exec_stopEnd_disabled⟩

/-- Settles O51: each step is one status bit, and a bus error both halts. -/
theorem busErrorAndLinkEvent : Obligations.BusErrorAndLinkEvent :=
  fun s => ⟨fun h => if_pos ((busErrorEnabled_iff s).mpr h), fun h => if_neg h⟩

end Sys2Proof.DmaEngines
end

section
/-! PROOFS. The DMA engines (spec/45_dma_engines.md R261 to R268): the successor of a slot, the engines' steps in closed
form, and what they leave of slots they do not own. -/

namespace Sys2Proof.Machine

open Sys2Proof.Safety

/-! ## The successor (R262) -/

theorem dmaSucc_ring (s : State) (k : RingKind) (i : Nat) (d : Desc) (hm : ringMode s.params k = .ring) :
    dmaSucc s k i d = if d.wrap then some 0 else if i + 1 < ringSize s.params k then some (i + 1) else none := by
  rw [dmaSucc, hm]

theorem dmaSucc_chain (s : State) (k : RingKind) (i : Nat) (d : Desc) (hm : ringMode s.params k = .chain) :
    dmaSucc s k i d = chainSlot (engineBase s k).toNat d.next.toNat (ringSize s.params k) := by
  rw [dmaSucc, hm]

/-- The successor is read from the parameters, the base register, and the descriptor's WRAP flag and next pointer. -/
theorem dmaSucc_congr {s t : State} {k : RingKind} {i : Nat} {d d' : Desc} (hp : t.params = s.params)
    (hbase : engineBase t k = engineBase s k) (hwrap : d'.wrap = d.wrap) (hnext : d'.next = d.next) :
    dmaSucc t k i d' = dmaSucc s k i d := by
  rw [dmaSucc, dmaSucc, hp, hbase, hwrap, hnext]

/-- A slot that is linked has the successor of the fresh slot, which is the next one. -/
theorem dmaSucc_of_slotLinked (s : State) (k : RingKind) (i : Nat) (hp : paramsOk s.params = true)
    (hi : i < ringSize s.params k) (hbase : engineBase s k = descBase s.params k) (h : SlotLinked s k i) :
    dmaSucc s k i (s.desc k i) = some ((i + 1) % ringSize s.params k) := by
  obtain ⟨-, hwrap, -, hnext⟩ := h
  have hfresh : SlotOk s.params k i (freshSlot s.params k i) := .fresh k hp hi
  rw [← dmaSucc_linked s k i _ hp hi hbase hfresh]
  exact dmaSucc_congr rfl rfl (hwrap.trans hfresh.wrap.symm) (hnext.trans hfresh.next.symm)

/-! ## The end of a completed descriptor (R263) -/

/-- The state with status bit `flag` raised, both engines halted by a fatal bus error (R266). -/
def haltedWith (s : State) (flag : Word) : State := { s with
  tx := { s.tx with halted := true }, rx := { s.rx with halted := true }
  regs := { s.regs with dmaStatus := s.regs.dmaStatus ||| flag } }

theorem dmaSucc_setStatus (s : State) (flag : Word) (k : RingKind) (i : Nat) (d : Desc) :
    dmaSucc (setStatus s flag) k i d = dmaSucc s k i d := dmaSucc_congr rfl (by cases k <;> rfl) rfl rfl

theorem advance_setStatus_of_succ (s : State) (flag : Word) (k : RingKind) (i j : Nat) (d : Desc)
    (h : dmaSucc s k i d = some j) :
    advance (setStatus s flag) k i d = (setStatus s flag).setEngine k { s.engine k with cur := j } := by
  rw [advance_of_succ _ k i j d ((dmaSucc_setStatus s flag k i d).trans h)]
  cases k <;> rfl

theorem advance_setStatus_of_none (s : State) (flag : Word) (k : RingKind) (i : Nat) (d : Desc)
    (h : dmaSucc s k i d = none) : advance (setStatus s flag) k i d = haltedWith s (flag ||| stFBE) := by
  rw [advance, dmaSucc_setStatus, h, haltedWith, ← BitVec.or_assoc]
  rfl

/-! ## TXDMA_STEP (R261) -/

/-- The frame the TX engine sends from the slot at its cursor. -/
def sentFrame (s : State) (u : Bool) : WireFrame := ⟨s.bufBytes .tx s.tx.cur (s.desc .tx s.tx.cur).len.toNat, u⟩

/-- The frame is out and the descriptor written back, the cursor not yet moved. -/
def afterSend (s : State) (u : Bool) (m : Memory) : State := { s with wireTx := s.wireTx ++ [sentFrame s u], mem := m }

theorem txComplete_eq (s : State) (u : Bool) : txComplete s u =
    advance (setStatus (afterSend s u (txComplete s u).mem) stTXD) .tx s.tx.cur (s.desc .tx s.tx.cur) := by
  rw [txComplete_mem]
  rfl

theorem txComplete_of_succ (s : State) (u : Bool) (j : Nat)
    (h : dmaSucc s .tx s.tx.cur (s.desc .tx s.tx.cur) = some j) : txComplete s u =
      (setStatus (afterSend s u (txComplete s u).mem) stTXD).setTx { s.tx with cur := j } :=
  (txComplete_eq s u).trans (advance_setStatus_of_succ (afterSend s u _) stTXD .tx _ j _ h)

theorem txComplete_of_none (s : State) (u : Bool) (h : dmaSucc s .tx s.tx.cur (s.desc .tx s.tx.cur) = none) :
    txComplete s u = haltedWith (afterSend s u (txComplete s u).mem) (stTXD ||| stFBE) :=
  (txComplete_eq s u).trans (advance_setStatus_of_none (afterSend s u _) stTXD .tx _ _ h)

theorem txdmaStep_hwOwned (s : State) (u : Bool) (ho : (s.desc .tx s.tx.cur).own = true) :
    txdmaStep s u = txComplete s u := if_pos ho

theorem txdmaStep_swOwned (s : State) (u : Bool) (ho : (s.desc .tx s.tx.cur).own = false) :
    txdmaStep s u = suspend s .tx stTXU := if_neg (by simp [ho])

theorem exec_txdmaStep_enabled (s : State) (u : Bool) (h : txEnabled s = true) :
    exec (.txdmaStep u) s = .next ((txdmaStep s u).setRet .none) := if_pos h

/-! ## RXDMA_FRAME (R264, R265) -/

theorem rxComplete_eq (s : State) (len : Nat) (bytes : List Byte) (crc lerr ovf : Bool) :
    rxComplete s len bytes crc lerr ovf =
      advance (setStatus (s.setMem (rxComplete s len bytes crc lerr ovf).mem) stRXD) .rx s.rx.cur (s.desc .rx s.rx.cur) := by
  rw [rxComplete_mem]
  rfl

theorem rxComplete_of_succ (s : State) (len : Nat) (bytes : List Byte) (crc lerr ovf : Bool) (j : Nat)
    (h : dmaSucc s .rx s.rx.cur (s.desc .rx s.rx.cur) = some j) : rxComplete s len bytes crc lerr ovf =
      (setStatus (s.setMem (rxComplete s len bytes crc lerr ovf).mem) stRXD).setRx { s.rx with cur := j } :=
  (rxComplete_eq s len bytes crc lerr ovf).trans (advance_setStatus_of_succ (s.setMem _) stRXD .rx _ j _ h)

theorem rxComplete_of_none (s : State) (len : Nat) (bytes : List Byte) (crc lerr ovf : Bool)
    (h : dmaSucc s .rx s.rx.cur (s.desc .rx s.rx.cur) = none) : rxComplete s len bytes crc lerr ovf =
      haltedWith (s.setMem (rxComplete s len bytes crc lerr ovf).mem) (stRXD ||| stFBE) :=
  (rxComplete_eq s len bytes crc lerr ovf).trans (advance_setStatus_of_none (s.setMem _) stRXD .rx _ _ h)

/-- A frame that fits is written back with its own length and flags (R264). -/
theorem receivedDesc_of_fits (d : Desc) (len : Nat) (crc lerr ovf : Bool) (h : len ≤ d.len.toNat) :
    receivedDesc d len crc lerr ovf = { d with
      flen := BitVec.ofNat 14 len, fs := true, ls := true, crc := crc, lerr := lerr, ovf := ovf, own := false } := by
  have hfits : decide (d.len.toNat < len) = false := decide_eq_false (by omega)
  rw [receivedDesc, min_eq_left h, hfits, Bool.false_and, Bool.or_false]

/-- A frame that does not fit is written back as its first `d.len` bytes, with LERR unless OVF (log 11). -/
theorem receivedDesc_of_overlong (d : Desc) (len : Nat) (crc lerr ovf : Bool) (h : d.len.toNat < len) :
    receivedDesc d len crc lerr ovf = receivedDesc d d.len.toNat crc (lerr || !ovf) ovf := by
  rw [receivedDesc_of_fits d _ crc _ ovf le_rfl, receivedDesc, min_eq_right h.le, decide_eq_true h, Bool.true_and]

theorem rxComplete_overlong (s : State) (len : Nat) (bytes : List Byte) (crc lerr ovf : Bool)
    (h : (s.desc .rx s.rx.cur).len.toNat < len) : rxComplete s len bytes crc lerr ovf =
      rxComplete s (s.desc .rx s.rx.cur).len.toNat (bytes.take (s.desc .rx s.rx.cur).len.toNat) crc (lerr || !ovf) ovf := by
  rw [rxComplete_eq s len, rxComplete_eq s (s.desc .rx s.rx.cur).len.toNat, rxComplete_mem, rxComplete_mem,
    receivedDesc_of_overlong _ _ _ _ _ h, min_eq_right h.le, min_self, List.take_take, min_self]

theorem rxdmaFrame_suspended (s : State) (len : Nat) (bytes : List Byte) (crc lerr ovf : Bool) (hs : s.rx.susp = true) :
    rxdmaFrame s len bytes crc lerr ovf = s := if_pos hs

theorem rxdmaFrame_hwOwned (s : State) (len : Nat) (bytes : List Byte) (crc lerr ovf : Bool) (hs : s.rx.susp = false)
    (ho : (s.desc .rx s.rx.cur).own = true) :
    rxdmaFrame s len bytes crc lerr ovf = rxComplete s len bytes crc lerr ovf := by
  rw [rxdmaFrame, hs, if_neg Bool.false_ne_true, if_pos ho]

theorem rxdmaFrame_swOwned (s : State) (len : Nat) (bytes : List Byte) (crc lerr ovf : Bool) (hs : s.rx.susp = false)
    (ho : (s.desc .rx s.rx.cur).own = false) : rxdmaFrame s len bytes crc lerr ovf = suspend s .rx stRXU := by
  rw [rxdmaFrame, hs, if_neg Bool.false_ne_true, ho, if_neg Bool.false_ne_true]

theorem exec_rxdmaFrame_enabled (s : State) (len : Half) (bytes : List Byte) (crc lerr ovf : Bool)
    (h : rxEnabled s = true) : exec (.rxdmaFrame len bytes crc lerr ovf) s =
      .next ((rxdmaFrame s len.toNat bytes crc lerr ovf).setRet .none) := if_pos h

/-! ### The memory a received frame leaves -/

theorem outside_shorter {lo m n a : Nat} (h : Outside lo n a) (hmn : m ≤ n) : Outside lo m a :=
  h.imp_right (Nat.le_trans (Nat.add_le_add_left hmn lo))

/-- A byte outside DES0 of the slot and outside the frame is kept (R264). -/
theorem read_rxComplete_outside (s : State) (len : Nat) (bytes : List Byte) (crc lerr ovf : Bool) (a : Nat)
    (hdes0 : Outside (descAddr s.params .rx s.rx.cur) 4 a)
    (hbuf : Outside (bufAddr s.params .rx s.rx.cur) (min len (s.desc .rx s.rx.cur).len.toNat) a) :
    (rxComplete s len bytes crc lerr ovf).mem.read a = s.mem.read a := by
  rw [rxComplete_mem, read_writeStatus_outside _ _ _ _ _ _ hdes0, Memory.read_writeBytes_outside]
  exact outside_shorter hbuf (List.length_take_le _ _)

theorem read32_rxComplete_des0 (s : State) (len : Nat) (bytes : List Byte) (crc lerr ovf : Bool) (hm : s.mem.wf = true) :
    (rxComplete s len bytes crc lerr ovf).mem.read32 (descAddr s.params .rx s.rx.cur) =
      des0 .rx (receivedDesc (s.desc .rx s.rx.cur) len crc lerr ovf) := by
  rw [rxComplete_mem]
  exact Memory.read32_write32_same _ _ _ (Memory.wf_writeBytes _ _ _ hm)

/-- A frame that fits its buffer is there whole: the write-back lies outside the buffer (R79). -/
theorem readBytes_rxComplete_buffer (s : State) (bytes : List Byte) (crc lerr ovf : Bool) (hs : Sound s)
    (hi : s.rx.cur < s.params.nRx) (hfits : bytes.length ≤ (s.desc .rx s.rx.cur).len.toNat)
    (hsize : (s.desc .rx s.rx.cur).len.toNat ≤ s.params.bufSize) :
    (rxComplete s bytes.length bytes crc lerr ovf).mem.readBytes (bufAddr s.params .rx s.rx.cur) bytes.length = bytes := by
  obtain ⟨hp, hm⟩ := hs
  have hapart := desc_buf_disjoint s.params .rx .rx s.rx.cur s.rx.cur hp hi hi
  rw [rxComplete_mem, min_eq_left hfits, List.take_length, Memory.readBytes_congr _ _ _ _ fun x hlo hhi =>
    read_writeStatus_outside _ _ _ _ x _ (by omega)]
  exact Memory.readBytes_writeBytes bytes _ _ hm

/-! ## Ownership (R268) -/

/-- The step of the engine of ring `k` writes nothing if the slot at cursor `i` is SW-owned, and at most DES0 of that slot
and, on the RX ring, its buffer. -/
structure WritesAtCursor (k : RingKind) (i : Nat) (s t : State) : Prop where
  params : t.params = s.params
  idle   : (s.desc k i).own = false → t.mem = s.mem
  bytes  : ∀ a, Outside (descAddr s.params k i) 4 a → (k = .rx → Outside (bufAddr s.params k i) s.params.bufSize a) →
    t.mem.read a = s.mem.read a

namespace WritesAtCursor

variable {k : RingKind} {i : Nat} {s t : State}

theorem of_mem (hp : t.params = s.params) (hm : t.mem = s.mem) : WritesAtCursor k i s t :=
  ⟨hp, fun _ => hm, fun _ _ _ => by rw [hm]⟩

theorem setRet (h : WritesAtCursor k i s t) (r : OpResult) : WritesAtCursor k i s (t.setRet r) :=
  ⟨h.params, h.idle, h.bytes⟩

theorem of_hwOwned (hp : t.params = s.params) (ho : (s.desc k i).own = true)
    (hb : ∀ a, Outside (descAddr s.params k i) 4 a → (k = .rx → Outside (bufAddr s.params k i) s.params.bufSize a) →
      t.mem.read a = s.mem.read a) : WritesAtCursor k i s t :=
  ⟨hp, fun hsw => absurd (hsw.symm.trans ho) (by simp), hb⟩

section
variable (h : WritesAtCursor k i s t) (hp : paramsOk s.params = true) (hi : i < ringSize s.params k)
include h hp hi

/-- The bytes of any slot that is not the HW-owned one at the cursor. -/
theorem slot_kept {k' : RingKind} {j a : Nat} (hj : j < ringSize s.params k')
    (hne : (s.desc k i).own = true → k ≠ k' ∨ i ≠ j) (hlo : descAddr s.params k' j ≤ a)
    (hhi : a < descAddr s.params k' j + 16) : t.mem.read a = s.mem.read a := by
  cases ho : (s.desc k i).own with
  | false => rw [h.idle ho]
  | true =>
    have hslots := desc_desc_disjoint s.params k k' i j hp hi hj (hne ho)
    have hbuf := desc_buf_disjoint s.params k' k j i hp hj hi
    exact h.bytes a (by simp only [Outside]; omega) fun _ => by simp only [Outside]; omega

/-- The bytes of any buffer but that of the HW-owned RX slot at the cursor. -/
theorem buffer_kept {k' : RingKind} {j a : Nat} (hj : j < ringSize s.params k')
    (hne : (s.desc k i).own = true → k = .rx → k ≠ k' ∨ i ≠ j) (hlo : bufAddr s.params k' j ≤ a)
    (hhi : a < bufAddr s.params k' j + s.params.bufSize) : t.mem.read a = s.mem.read a := by
  cases ho : (s.desc k i).own with
  | false => rw [h.idle ho]
  | true =>
    have hslot := desc_buf_disjoint s.params k k' i j hp hi hj
    refine h.bytes a (by simp only [Outside]; omega) fun hk => ?_
    have hbuf := buf_buf_disjoint s.params k k' i j hp hi hj (hne ho hk)
    simp only [Outside]
    omega

/-- No descriptor of a SW-owned slot changes, no slot becomes HW-owned, and no buffer changes but one of a HW-owned RX
slot. -/
theorem respects_ownership (k' : RingKind) (j : Nat) (hj : j < ringSize s.params k') :
    ((s.desc k' j).own = false →
      t.mem.readBytes (descAddr s.params k' j) 16 = s.mem.readBytes (descAddr s.params k' j) 16) ∧
    ((t.desc k' j).own = true → (s.desc k' j).own = true) ∧
    ((k' = .tx ∨ (s.desc k' j).own = false) → t.bufBytes k' j s.params.bufSize = s.bufBytes k' j s.params.bufSize) := by
  have hsw : (s.desc k' j).own = false → (s.desc k i).own = true → k ≠ k' ∨ i ≠ j := by
    intro hsw hhw
    by_contra hsame
    obtain ⟨rfl, rfl⟩ : k = k' ∧ i = j := by simpa only [not_or, not_not] using hsame
    exact nomatch hsw.symm.trans hhw
  refine ⟨fun ho => ?descriptor, fun hown => ?ownership, fun hside => ?buffer⟩
  case descriptor => exact Memory.readBytes_congr _ _ _ _ fun x => h.slot_kept hp hi hj (hsw ho)
  case ownership =>
    by_contra hno
    have ho := Bool.eq_false_iff.mpr hno
    have hkept : t.desc k' j = s.desc k' j := desc_congr s t k' j h.params fun x => h.slot_kept hp hi hj (hsw ho)
    exact hno (hkept ▸ hown)
  case buffer =>
    refine bufBytes_congr h.params fun a => h.buffer_kept hp hi hj fun hhw hk => ?_
    obtain rfl | ho := hside
    · exact .inl (by simp [hk])
    · exact hsw ho hhw

end

end WritesAtCursor

theorem txdmaStep_writesAtCursor (s : State) (u : Bool) : WritesAtCursor .tx s.tx.cur s (txdmaStep s u) := by
  cases ho : (s.desc .tx s.tx.cur).own with
  | false =>
    rw [txdmaStep_swOwned s u ho]
    exact .of_mem rfl rfl
  | true =>
    rw [txdmaStep_hwOwned s u ho]
    refine .of_hwOwned (txComplete_params s u) ho fun a hdes0 _ => ?_
    rw [txComplete_mem]
    exact read_writeStatus_outside _ _ _ _ _ _ hdes0

theorem rxdmaFrame_writesAtCursor (s : State) (len : Nat) (bytes : List Byte) (crc lerr ovf : Bool)
    (hsize : (s.desc .rx s.rx.cur).len.toNat ≤ s.params.bufSize) :
    WritesAtCursor .rx s.rx.cur s (rxdmaFrame s len bytes crc lerr ovf) := by
  have hp := (rxdmaFrame_steady s len bytes crc lerr ovf).params
  cases hs : s.rx.susp with
  | true =>
    rw [rxdmaFrame_suspended s len bytes crc lerr ovf hs]
    exact .of_mem rfl rfl
  | false =>
    cases ho : (s.desc .rx s.rx.cur).own with
    | false =>
      rw [rxdmaFrame_swOwned s len bytes crc lerr ovf hs ho]
      exact .of_mem rfl rfl
    | true =>
      refine .of_hwOwned hp ho fun a hdes0 hbuf => ?_
      rw [rxdmaFrame_hwOwned s len bytes crc lerr ovf hs ho]
      exact read_rxComplete_outside s len bytes crc lerr ovf a hdes0
        (outside_shorter (hbuf rfl) ((min_le_right len _).trans hsize))

theorem exec_txdmaStep_writesAtCursor (s : State) (u : Bool) :
    Answers (exec (.txdmaStep u) s) (WritesAtCursor .tx s.tx.cur s) :=
  .ite (fun _ => .next ((txdmaStep_writesAtCursor s u).setRet _)) fun _ => .next (.of_mem rfl rfl)

theorem exec_rxdmaFrame_writesAtCursor (s : State) (len : Half) (bytes : List Byte) (crc lerr ovf : Bool)
    (hsize : (s.desc .rx s.rx.cur).len.toNat ≤ s.params.bufSize) :
    Answers (exec (.rxdmaFrame len bytes crc lerr ovf) s) (WritesAtCursor .rx s.rx.cur s) :=
  .ite (fun _ => .next ((rxdmaFrame_writesAtCursor s len.toNat bytes crc lerr ovf hsize).setRet _)) fun _ =>
    .next (.of_mem rfl rfl)

end Sys2Proof.Machine

namespace Sys2Proof.DmaEngines

open Sys2Proof.Machine Sys2Proof.Safety

/-- Settles O47: by the mode of the ring; a linked slot has what the fresh slot has. -/
theorem dmaSuccessor : Obligations.DmaSuccessor := by
  intro s k i d N B p
  have hB : (engineBase s k).toNat = B := by cases k <;> rfl
  refine ⟨fun hm hw => ?_, fun hm hw hn => ?_, fun hm hw hn => ?_, fun hm hlo halign hn => ?_, fun hm hno => ?_,
    fun hp hi hbase => dmaSucc_of_slotLinked s k i hp hi (BitVec.eq_of_toNat_eq (hB.trans hbase))⟩
  · rw [dmaSucc_ring s k i d hm, if_pos hw]
  · rw [dmaSucc_ring s k i d hm, hw, if_neg Bool.false_ne_true, if_pos hn]
  · rw [dmaSucc_ring s k i d hm, hw, if_neg Bool.false_ne_true, if_neg (by omega)]
  · rw [dmaSucc_chain s k i d hm, hB, chainSlot, if_pos ⟨hlo, halign, hn⟩]
  · rw [dmaSucc_chain s k i d hm, hB, chainSlot, if_neg hno]

/-- Settles O48: by the owner of the slot at the cursor, then by its successor. -/
theorem txdmaStep : Obligations.TxdmaStep := by
  intro s u hs hi hst hte hhalted hsusp
  have hexec := exec_txdmaStep_enabled s u ((txEnabled_iff s).mpr ⟨hst, hte, hhalted, hsusp⟩)
  dsimp only
  rw [hexec]
  refine ⟨fun ho => ?_, fun ho => ?_⟩
  · rw [txdmaStep_swOwned s u ho]
    rfl
  · rw [txdmaStep_hwOwned s u ho]
    refine ⟨(txComplete s u).mem, ?_, fun a ha => ?_, fun j hj => ?_, fun hno => ?_⟩
    · rw [txComplete_mem]
      exact Memory.read32_write32_same _ _ _ hs.2
    · rw [txComplete_mem]
      exact read_writeStatus_outside _ _ _ _ _ _ ha
    · rw [txComplete_of_succ s u j hj]
      rfl
    · rw [txComplete_of_none s u hno]
      rfl

/-- Settles O49: by suspension, the owner of the slot at the cursor, and its successor. -/
theorem rxdmaFrame : Obligations.RxdmaFrame := by
  intro s len bytes crc lerr ovf hs hi hbytes hsr hre hhalted
  have hexec := exec_rxdmaFrame_enabled s len bytes crc lerr ovf ((rxEnabled_iff s).mpr ⟨hsr, hre, hhalted⟩)
  dsimp only
  rw [hexec]
  refine ⟨fun hsusp => ?_, fun hsusp ho => ?_, fun hsusp ho hfits hsize => ?_⟩
  · rw [rxdmaFrame_suspended _ _ _ _ _ _ hsusp]
    rfl
  · rw [rxdmaFrame_swOwned _ _ _ _ _ _ hsusp ho]
    rfl
  · rw [rxdmaFrame_hwOwned _ _ _ _ _ _ hsusp ho, ← receivedDesc_of_fits _ _ _ _ _ hfits, ← hbytes]
    rw [← hbytes] at hfits
    refine ⟨(rxComplete s bytes.length bytes crc lerr ovf).mem, read32_rxComplete_des0 _ _ _ _ _ _ hs.2,
      readBytes_rxComplete_buffer s bytes crc lerr ovf hs hi hfits hsize, fun a hdes0 hbuf => ?_, fun j hj => ?_,
      fun hno => ?_⟩
    · exact read_rxComplete_outside _ _ _ _ _ _ a hdes0 ((min_eq_left hfits).symm ▸ hbuf)
    · rw [rxComplete_of_succ _ _ _ _ _ _ j hj]
      rfl
    · rw [rxComplete_of_none _ _ _ _ _ _ hno]
      rfl

/-- Settles O50: both frames store the same bytes and write back the same descriptor. -/
theorem overlongFrameTruncated : Obligations.OverlongFrameTruncated := by
  intro s len bytes crc lerr ovf _ d hlong
  have hwidth : (d.len.setWidth 16).toNat = d.len.toNat := BitVec.toNat_setWidth_of_le (by decide)
  have hframe : Machine.rxdmaFrame s len.toNat bytes crc lerr ovf =
      Machine.rxdmaFrame s (d.len.setWidth 16).toNat (bytes.take d.len.toNat) crc (lerr || !ovf) ovf := by
    rw [Machine.rxdmaFrame, Machine.rxdmaFrame, hwidth, rxComplete_overlong _ _ _ _ _ _ hlong]
  rw [exec, exec, execRxdmaFrame, execRxdmaFrame, hframe]

/-- Settles O52: an engine writes at most the HW-owned slot at its cursor and, on the RX ring, the buffer of that slot. -/
theorem enginesRespectOwnership : Obligations.EnginesRespectOwnership := by
  rintro i s t ⟨hp, -⟩ htx hrx hsize hengine h
  obtain ⟨u, rfl⟩ | ⟨len, bytes, crc, lerr, ovf, rfl⟩ := hengine
  · exact (exec_txdmaStep_writesAtCursor s u t h).respects_ownership hp htx
  · exact (exec_rxdmaFrame_writesAtCursor s len bytes crc lerr ovf (hsize _ hrx) t h).respects_ownership hp hrx

end Sys2Proof.DmaEngines
end

section
/-! PROOFS. The host-duty faults (spec/60_exceptions.md R302): the duty an operation breaks and the outcome of running it,
compared check by check. -/

namespace Sys2Proof.Machine

open Sys2Proof.Safety

/-! ## The duties in the order of the checks (log 8) -/

theorem unanswered_iff (s : State) :
    unanswered s = true ↔ s.startPh ≠ .none ∨ s.stopPh ≠ .none ∨ s.startHeld = true := by
  simp only [unanswered, Bool.or_eq_true, decide_eq_true_eq, or_assoc]

/-- The duty a command breaks because another one is unanswered (R245). -/
def waitingDuty (s : State) : Option HostDuty := if unanswered s then some .concurrent else none

theorem waitingDuty_eq (s : State) :
    (if s.startPh ≠ .none ∨ s.stopPh ≠ .none ∨ s.startHeld = true then some .concurrent else none) = waitingDuty s :=
  if_congr (unanswered_iff s).symm rfl rfl

theorem commandDuty_eq (s : State) : commandDuty s =
    if unanswered s then some .concurrent else if s.dev = .uninit then some .notAttached else none :=
  if_congr (unanswered_iff s).symm rfl rfl

theorem stopDuty_attach (s : State) : stopDuty .attach s =
    if unanswered s then some .concurrent else if s.dev = .uninit then none else some .reattach := by
  simp only [stopDuty, waitingDuty_eq, waitingDuty]
  split_ifs <;> rfl

theorem stopDuty_stop (s : State) : stopDuty .stop s = waitingDuty s := waitingDuty_eq s

theorem stopDuty_setModeForced (speed : Speed) (duplex : Duplex) (s : State) :
    stopDuty (.setModeForced speed duplex) s = if modeIllegal s.params speed then waitingDuty s else commandDuty s := by
  simp only [stopDuty, waitingDuty_eq, ← Facade.modeIllegal_iff]

/-! ## Stopping with a duty -/

/-- An outcome is the fault of the duty broken, or a next state when none is. -/
def StopsWith (duty : Option HostDuty) (o : Host.Outcome State Fault Refusal) : Prop :=
  match duty with
  | some d => o = .fault (.hostDuty d)
  | none => ∃ t, o = .next t

namespace StopsWith

variable {duty duty' : Option HostDuty} {o o' : Host.Outcome State Fault Refusal}

theorem fault (d : HostDuty) : StopsWith (some d) (.fault (.hostDuty d)) := rfl

theorem next (t : State) : StopsWith none (.next t) := ⟨t, rfl⟩

/-- The same check on both sides. -/
theorem ite {c : Prop} [Decidable c] (h : StopsWith duty o) (h' : StopsWith duty' o') :
    StopsWith (if c then duty else duty') (if c then o else o') := by
  split
  · exact h
  · exact h'

/-- A step under an enabling condition takes a next state either way (log 6). -/
theorem enabled {c : Prop} [Decidable c] (t t' : State) : StopsWith none (if c then .next t else .next t') := by
  split
  · exact next t
  · exact next t'

/-- The length duty of SEND and ENQUEUE_TX (R117, R131, log 12). -/
theorem length (p : Params) (len : Half) (bytes : List Byte) (t : State) :
    StopsWith (if GoodLength p len bytes then none else some .sendLength)
      (if lengthOk p len bytes then .next t else .fault (.hostDuty .sendLength)) := by
  rw [if_congr (lengthOk_iff p len bytes).symm rfl rfl]
  exact ite (next t) (fault _)

end StopsWith

theorem hostCommand_stopsWith (s : State) (k : State → State) : StopsWith (commandDuty s) (hostCommand s k) := by
  rw [commandDuty_eq]
  exact .ite (.fault _) (.ite (.fault _) (.next _))

theorem illegalCommand_stopsWith (s : State) : StopsWith (waitingDuty s) (illegalCommand s) :=
  .ite (.fault _) (.next _)

/-- A SEND looks at its length when the host command it is runs (R117, log 8). -/
theorem exec_send_stopsWith (len : Half) (bytes : List Byte) (s : State) :
    StopsWith (stopDuty (.send len bytes) s) (exec (.send len bytes) s) := by
  have hcommand := hostCommand_stopsWith s id
  rw [stopDuty, exec, execSend]
  cases hd : commandDuty s with
  | some d =>
    rw [hd] at hcommand
    rw [hcommand]
    exact .fault d
  | none =>
    rw [hd] at hcommand
    obtain ⟨t, ht⟩ := hcommand
    rw [ht]
    exact .length s.params len bytes _

/-- The duty of every operation, by its checks. -/
theorem exec_stopsWith (i : Instr) (s : State) : StopsWith (stopDuty i s) (exec i s) := by
  cases i with
  | attach =>
    rw [stopDuty_attach]
    exact .ite (.fault _) (.ite (.next _) (.fault _))
  | stop =>
    rw [stopDuty_stop]
    exact .ite (.fault _) (.enabled _ _)
  | send len bytes => exact exec_send_stopsWith len bytes s
  | setModeForced speed duplex =>
    rw [stopDuty_setModeForced]
    exact .ite (illegalCommand_stopsWith s) (hostCommand_stopsWith s _)
  | enqueueTx len bytes => exact .length s.params len bytes _
  | start => exact hostCommand_stopsWith s start
  | receive cap => exact hostCommand_stopsWith s fun s => receive s _
  | getLinkState => exact hostCommand_stopsWith s fun s => respondWith s .ok 0 _
  | getStats => exact hostCommand_stopsWith s fun s => respondWith s .ok 0 _
  | setMacAddress mac => exact hostCommand_stopsWith s fun s => setMacAddress s mac
  | setModeAuto => exact hostCommand_stopsWith s fun s => setMode s .auto
  | watchdog | initRing | reclaimTx | reclaimRx | mdioRead | mdioWrite | startNegotiation | forceLink | resolveLinkMode
  | reconfigureMac | linkChangeService | handleFatalError | handleRxStopped | handleTxStopped => exact .next _
  | negPoll | isr | recStepStopping | recStepReinit | recStepReapply | recStepRestart | startFin | stopEnd | txdmaStep
  | rxdmaFrame | busError | phyLinkEvent => exact .enabled _ _

end Sys2Proof.Machine

namespace Sys2Proof.Exceptions

open Sys2Proof.Machine

/-- Settles O10: every operation makes the checks of its duty, in the same order. -/
theorem execStopsExactlyOnHostDuties : Obligations.ExecStopsExactlyOnHostDuties := exec_stopsWith

end Sys2Proof.Exceptions
end

section
/-! PROOFS. DMA_IER across an ISR invocation (spec/60_exceptions.md R314): the link-change service and the fatal-error entry
do not write it, and the data path ends by writing all six enables. -/

namespace Sys2Proof.Machine

/-! ## Operations that leave DMA_IER alone -/

@[simp] theorem mdioRead_dmaIer (s : State) (reg : BitVec 5) : (mdioRead s reg).2.regs.dmaIer = s.regs.dmaIer := by
  obtain ⟨a, d, q, n, h⟩ := mdioRead_frame s reg
  rw [h]

/-- A resolution ends in management cycles and the link (R166). -/
@[simp] theorem resolveLinkMode_dmaIer (s : State) : (resolveLinkMode s).2.regs.dmaIer = s.regs.dmaIer := by
  rw [resolveLinkMode_eq, applyResolution]
  split <;> rfl

theorem reconfigureMac_dmaIer (s : State) (m : LinkMode) : (reconfigureMac s m).regs.dmaIer = s.regs.dmaIer := rfl

@[simp] theorem reconfigureIfChanged_dmaIer (old : LinkMode) (s : State) :
    (reconfigureIfChanged old s).regs.dmaIer = s.regs.dmaIer := by
  unfold reconfigureIfChanged
  split
  · exact reconfigureMac_dmaIer _ _
  · rfl

@[simp] theorem setCarrier_dmaIer (s : State) (c : Carrier) : (setCarrier s c).regs.dmaIer = s.regs.dmaIer := rfl

theorem serviceLink_dmaIer (s : State) : (serviceLink s).regs.dmaIer = s.regs.dmaIer := by
  unfold serviceLink
  dsimp only
  split
  · rw [setCarrier_dmaIer, mdioRead_dmaIer]
  split
  · split
    · rw [setCarrier_dmaIer, mdioRead_dmaIer]
    · rw [reconfigureIfChanged_dmaIer, resolveLinkMode_dmaIer, mdioRead_dmaIer]
  · rw [reconfigureIfChanged_dmaIer, setCarrier_dmaIer, mdioRead_dmaIer]

theorem linkChangeService_dmaIer (s : State) : (linkChangeService s).regs.dmaIer = s.regs.dmaIer := by
  unfold linkChangeService
  split
  · exact serviceLink_dmaIer s
  · rfl

theorem handleFatalError_dmaIer (s : State) : (handleFatalError s).regs.dmaIer = s.regs.dmaIer := by
  unfold handleFatalError
  split <;> rfl

/-! ## The ISR (R190) -/

theorem isrDataPath_dmaIer (s : State) (w : Word) : (isrDataPath s w).regs.dmaIer = 0x3F := rfl

/-- The enables each path of an invocation leaves. -/
theorem isr_dmaIer (s : State) : (isr s).regs.dmaIer =
    let snapshot := s.regs.dmaStatus &&& 0x3F
    if snapshot = 0 ∨ snapshot.getLsbD 5 = true then s.regs.dmaIer
    else if snapshot.getLsbD 4 = true ∨ s.dev ≠ .running then 0 else 0x3F := by
  rw [isr_eq]
  dsimp only
  split
  · next hz => rw [if_pos (.inl hz)]
  next hnz =>
  split
  · next hlsc =>
    rw [if_pos (.inr hlsc)]
    exact linkChangeService_dmaIer (isrCounted s)
  next hlsc =>
  rw [if_neg (not_or.mpr ⟨hnz, hlsc⟩)]
  split
  · next hfbe =>
    rw [if_pos (.inl hfbe)]
    exact handleFatalError_dmaIer (isrMasked s)
  next hfbe =>
  split
  · next hd =>
    rw [if_neg (not_or.mpr ⟨hfbe, not_not.mpr hd⟩)]
    exact isrDataPath_dmaIer _ _
  · next hd =>
    rw [if_pos (.inr hd)]
    rfl

end Sys2Proof.Machine

namespace Sys2Proof.Exceptions

open Sys2Proof.Machine

/-- Settles O30: by the path the snapshot selects; the record of the last operation is no register. -/
theorem isrLeavesEnables : Obligations.IsrLeavesEnables := fun s henabled =>
  ⟨_, exec_isr_of_enabled s (isrEnabled_of_bit s henabled), isr_dmaIer s⟩

end Sys2Proof.Exceptions
end

section
/-! PROOFS. What leaves the block (spec/60_exceptions.md R301, spec/10_state.md R57): one lemma for each operation that
neither answers the host nor sends a frame, and one inversion of `exec` that names the operations that do. -/

namespace Sys2Proof.Machine

open Sys2Proof.Safety

/-! ## Silent operations -/

/-- `t` has the parameters, the input still to come, the wire record and the answer of `s` (R8, R57, R301). -/
structure Silent (s t : State) : Prop where
  params : t.params = s.params := by rfl
  script : t.script = s.script := by rfl
  wireTx : t.wireTx = s.wireTx := by rfl
  resp   : t.resp = s.resp := by rfl

namespace Silent

variable {s t u : State}

theorem refl (s : State) : Silent s s := {}

theorem trans (h : Silent s t) (g : Silent t u) : Silent s u where
  params := g.params.trans h.params
  script := g.script.trans h.script
  wireTx := g.wireTx.trans h.wireTx
  resp   := g.resp.trans h.resp

/-- An operation that runs and leaves its return value (log 18). -/
theorem setRet (h : Silent s t) (r : OpResult) : Silent s (t.setRet r) := h.trans {}

end Silent

/-! ### Registers, counters and rings -/

theorem writeReg_silent (s : State) (r : Reg) (v : Word) : Silent s (writeReg s r v) where
  params := writeReg_params s r v
  script := writeReg_script s r v
  wireTx := writeReg_wireTx s r v
  resp   := writeReg_resp s r v

theorem writeRegs_silent (s : State) (r r' : Reg) (v v' : Word) : Silent s (writeReg (writeReg s r v) r' v') :=
  (writeReg_silent s r v).trans (writeReg_silent _ r' v')

theorem writeMacCfg_silent (s : State) (en : Bool) : Silent s (writeMacCfg s en) := writeReg_silent s .macCfg _

theorem writeMacAddr_silent (s : State) : Silent s (writeMacAddr s) := writeRegs_silent s .macAddrHi .macAddrLo _ _

theorem startEngines_silent (s : State) : Silent s (startEngines s) :=
  (writeRegs_silent s .dmaIer .macCfg _ _).trans (writeRegs_silent _ .dmaOpmode .dmaRxPoll _ 0)

theorem setStats_silent (s : State) (c : Stats) : Silent s (s.setStats c) := {}

theorem initRing_silent (s : State) (k : RingKind) : Silent s (initRing s k) := by cases k <;> exact {}

/-- Both rings and both bases (R130, R46). -/
theorem rebuild_silent (s : State) : Silent s (programBases (initRings s)) :=
  (initRing_silent s .tx).trans <| (initRing_silent _ .rx).trans (writeRegs_silent _ .dmaTxBase .dmaRxBase _ _)

/-! ### The link sequencer -/

theorem mdioRead_silent (s : State) (reg : BitVec 5) : Silent s (mdioRead s reg).2 := by
  obtain ⟨a, d, q, n, h⟩ := mdioRead_frame s reg
  rw [h]
  exact {}

theorem mdioWrite_silent (s : State) (reg : BitVec 5) (v : Half) : Silent s (mdioWrite s reg v) := by
  obtain ⟨a, d, y, h⟩ := mdioWrite_frame s reg v
  rw [h]
  exact {}

theorem startNegotiation_silent (s : State) (adv : BitVec 6) : Silent s (startNegotiation s adv) := by
  have hanar := mdioWrite_silent s 4 (anarWord adv)
  have hrestart (t : State) : Silent t { mdioWrite t 0 bmcrRestart with neg := .negotiating, negPolls := 0 } :=
    (mdioWrite_silent t 0 bmcrRestart).trans {}
  unfold startNegotiation
  dsimp only
  split
  · exact (hanar.trans (mdioWrite_silent _ 9 (gtcrWord adv))).trans (hrestart _)
  · exact hanar.trans (hrestart _)

theorem resolveLinkMode_silent (s : State) : Silent s (resolveLinkMode s).2 := by
  rw [resolveLinkMode_eq, applyResolution]
  split <;> exact {}

theorem pollIncomplete_silent (s : State) (bmsr : Half) : Silent s (pollIncomplete s bmsr) := by
  unfold pollIncomplete
  split <;> exact {}

theorem negPoll_silent (s : State) : Silent s (negPoll s) := by
  have hread := mdioRead_silent s 1
  unfold negPoll
  dsimp only
  split
  · exact (hread.trans (resolveLinkMode_silent _)).trans {}
  · exact hread.trans (pollIncomplete_silent _ _)

theorem forceLink_silent (s : State) (m : LinkMode) : Silent s (forceLink s m) :=
  ((mdioWrite_silent s 0 _).trans (mdioRead_silent _ 1)).trans {}

theorem reconfigureMac_silent (s : State) (m : LinkMode) : Silent s (reconfigureMac s m) :=
  (writeRegs_silent s .dmaOpmode .macCfg 0 _).trans <| (rebuild_silent _).trans <|
    (writeRegs_silent _ .macFilter .macCfg _ _).trans (writeRegs_silent _ .dmaOpmode .dmaRxPoll _ 0)

theorem reconfigureIfChanged_silent (old : LinkMode) (s : State) : Silent s (reconfigureIfChanged old s) := by
  unfold reconfigureIfChanged
  split
  · exact reconfigureMac_silent s _
  · exact .refl s

theorem serviceLink_silent (s : State) : Silent s (serviceLink s) := by
  have hread := mdioRead_silent s 1
  unfold serviceLink
  dsimp only
  split
  · exact hread.trans {}
  split
  · split
    · exact hread.trans {}
    · exact (hread.trans (resolveLinkMode_silent _)).trans (reconfigureIfChanged_silent _ _)
  · exact (hread.trans {}).trans (reconfigureIfChanged_silent _ (setCarrier _ .up))

theorem linkChangeService_silent (s : State) : Silent s (linkChangeService s) := by
  unfold linkChangeService
  split
  · exact serviceLink_silent s
  · exact .refl s

/-! ### The ring manager -/

theorem enqueueTx_silent (s : State) (length : Nat) (bytes : List Byte) : Silent s (enqueueTx s length bytes).2.2 := by
  unfold enqueueTx
  split
  · exact .refl s
  · exact {}

theorem reclaimTx_silent (s : State) : Silent s (reclaimTx s).2 :=
  reclaimTxLoop_induction (P := Silent s) (fun _ _ h => h.trans {}) _ s (.refl s)

theorem reclaimRxOne_silent (s : State) : Silent s (reclaimRxOne s) := by
  rw [reclaimRxOne_frame]
  exact {}

theorem reclaimRx_silent (s : State) (maxCount : Nat) : Silent s (reclaimRx s maxCount).2 := by
  have hwalk : Silent s (reclaimRxLoop (min maxCount s.params.nRx) s).2 :=
    reclaimRxLoop_induction (fun t _ h => h.trans (reclaimRxOne_silent t)) _ s (.refl s)
  rw [reclaimRx_eq]
  exact hwalk.trans {}

/-! ### The recovery steps (R211 to R214) -/

theorem recStopping_silent (s : State) : Silent s (recStopping s) :=
  ((writeReg_silent s .dmaOpmode 0).trans (writeMacCfg_silent _ false)).trans {}

theorem recReinit_silent (s : State) : Silent s (recReinit s) := (rebuild_silent s).trans {}

theorem recReapply_silent (s : State) : Silent s (recReapply s) :=
  .trans ((writeMacAddr_silent s).trans <| (writeReg_silent _ .macFilter s.cfg.filter).trans
    (writeMacCfg_silent _ false)) {}

theorem recRestart_silent (s : State) : Silent s (recRestart s) := by
  have hclear : Silent s { writeReg s .dmaStatus 0x1F with dev := .idle } :=
    (writeReg_silent s .dmaStatus 0x1F).trans {}
  exact (hclear.trans (startEngines_silent _)).trans {}

/-! ### The recoveries, the ISR and the tick -/

theorem handleFatalError_silent (s : State) : Silent s (handleFatalError s) := by
  unfold handleFatalError
  split <;> exact {}

theorem handleRxStopped_silent (s : State) : Silent s (handleRxStopped s) := by
  unfold handleRxStopped
  split
  · exact (setStats_silent s _).trans <| (writeRegs_silent _ .dmaOpmode .macCfg _ _).trans <|
      (initRing_silent _ .rx).trans <| (writeReg_silent _ .dmaRxBase _).trans <|
      (writeRegs_silent _ .macCfg .dmaOpmode _ _).trans (writeReg_silent _ .dmaRxPoll 0)
  · exact .refl s

theorem handleTxStopped_silent (s : State) : Silent s (handleTxStopped s) := by
  unfold handleTxStopped
  split
  · exact (setStats_silent s _).trans <| (writeRegs_silent _ .dmaOpmode .macCfg _ _).trans <|
      (initRing_silent _ .tx).trans <| (writeReg_silent _ .dmaTxBase _).trans <|
      writeRegs_silent _ .macCfg .dmaOpmode _ _
  · exact .refl s

theorem isrDataPath_silent (s : State) (w : Word) : Silent s (isrDataPath s w) := by
  have hwalks := (reclaimRx_silent s s.params.nRx).trans (reclaimTx_silent _)
  unfold isrDataPath
  dsimp only
  split
  · exact (hwalks.trans (handleRxStopped_silent _)).trans (writeReg_silent _ .dmaIer _)
  · exact hwalks.trans (writeReg_silent _ .dmaIer _)

/-- No path of an invocation answers or sends (R190, R301). -/
theorem isr_silent (s : State) : Silent s (isr s) := by
  have hcounted : Silent s (isrCounted s) := {}
  have hmasked : Silent s (isrMasked s) := {}
  rw [isr_eq]
  dsimp only
  split
  · exact {}
  split
  · exact hcounted.trans (linkChangeService_silent _)
  split
  · exact hmasked.trans (handleFatalError_silent _)
  split
  · exact hmasked.trans (isrDataPath_silent _ _)
  · exact hmasked

theorem watchdogTick_silent (s : State) : Silent s (watchdogTick s) := by
  unfold watchdogTick
  dsimp only
  split_ifs
  · exact {}
  · have hcount : Silent s { s with wdCount := s.wdCount + 1 } := {}
    exact (hcount.trans (handleTxStopped_silent _)).trans {}
  · exact {}

theorem watchdog_silent (s : State) : Silent s (watchdog s) := by
  unfold watchdog
  split
  · exact .refl s
  · exact watchdogTick_silent s
  · exact {}
  · exact {}

/-! ### The engines, but for the frame itself -/

theorem setEngine_silent (s : State) (k : RingKind) (e : Engine) : Silent s (s.setEngine k e) := by cases k <;> exact {}

theorem advance_silent (s : State) (k : RingKind) (i : Nat) (d : Desc) : Silent s (advance s k i d) := by
  obtain ⟨j, -, h⟩ | ⟨-, h⟩ := advance_cases s k i d
  · rw [h]
    exact setEngine_silent s k _
  · rw [h]
    exact {}

theorem suspend_silent (s : State) (k : RingKind) (flag : Word) : Silent s (suspend s k flag) :=
  .trans (t := setStatus s flag) {} (setEngine_silent _ k _)

theorem rxComplete_silent (s : State) (len : Nat) (bytes : List Byte) (crc lerr ovf : Bool) :
    Silent s (rxComplete s len bytes crc lerr ovf) := .trans {} (advance_silent (setStatus (s.setMem _) stRXD) .rx _ _)

theorem rxdmaFrame_silent (s : State) (len : Nat) (bytes : List Byte) (crc lerr ovf : Bool) :
    Silent s (rxdmaFrame s len bytes crc lerr ovf) := by
  unfold rxdmaFrame
  split
  · exact .refl s
  split
  · exact rxComplete_silent s len bytes crc lerr ovf
  · exact suspend_silent s .rx stRXU

/-! ## Operations that answer, and the one that sends -/

theorem beginLink_silent (s : State) : Silent s (beginLink s) := by
  unfold beginLink
  split
  · exact .trans {} (startNegotiation_silent { s with neg := .idle } _)
  · exact .trans {} (forceLink_silent { s with neg := .idle } _)

theorem startBegin_silent (s : State) : Silent s (startBegin s) := by
  have hstop : Silent s (writeReg (writeReg { s with startPh := .neg } .dmaOpmode 0) .dmaIer 0) :=
    .trans {} (writeRegs_silent { s with startPh := .neg } .dmaOpmode .dmaIer 0 0)
  exact hstop.trans <| (writeMacCfg_silent _ false).trans <| (rebuild_silent _).trans <| (writeMacAddr_silent _).trans <|
    (writeReg_silent _ .macFilter _).trans (beginLink_silent _)

/-- `t` is what operation `i` leaves of `s`: nothing has gone out, or a host command step has written the answer, or the TX
engine has sent one frame. -/
inductive Emits : Instr → State → State → Prop
  | nothing {i s t} (h : Silent s t) : Emits i s t
  | answer {i s t} (hi : answersHost i = true) (r : Option Response) (h : Silent { s with resp := r } t) : Emits i s t
  | frame {u s t} (f : WireFrame) (h : Silent { s with wireTx := s.wireTx ++ [f] } t) : Emits (.txdmaStep u) s t

namespace Emits

variable {i : Instr} {s t : State}

theorem setRet (h : Emits i s t) (r : OpResult) : Emits i s (t.setRet r) := by
  cases h with
  | nothing h => exact .nothing (h.setRet r)
  | answer hi a h => exact .answer hi a (h.setRet r)
  | frame f h => exact .frame f (h.setRet r)

/-- An operation that runs and leaves its return value (log 18). -/
theorem returns {r : OpResult} (h : Silent s t) : Answers (.next (t.setRet r)) (Emits i s) := .next (.nothing (h.setRet r))

/-- A step under an enabling condition (log 6). -/
theorem enabled {c : Prop} [Decidable c] (h : Emits i s t) :
    Answers (if c then .next (t.setRet .none) else .next (notEnabled s)) (Emits i s) :=
  .ite (fun _ => .next (h.setRet _)) fun _ => .next (.nothing {})

theorem enabled_silent {c : Prop} [Decidable c] (h : Silent s t) :
    Answers (if c then .next (t.setRet .none) else .next (notEnabled s)) (Emits i s) := enabled (.nothing h)

/-- A command under the host duties (R245, R246). -/
theorem command (k : State → State) (hk : Emits i s (k s)) : Answers (hostCommand s k) (Emits i s) :=
  .command fun _ _ => hk

/-- The answer written after a silent operation. -/
theorem responds {code : ResultCode} {value : Nat} {payload : RespPayload} (hi : answersHost i = true) (h : Silent s t) :
    Emits i s (respondWith t code value payload) :=
  .answer hi (respondWith t code value payload).resp { params := h.params, script := h.script, wireTx := h.wireTx }

theorem illegal (hi : answersHost i = true) : Answers (illegalCommand s) (Emits i s) :=
  .ite (fun _ => .fault _) fun _ => .next (responds hi (.refl s))

end Emits

/-- START answers, or takes the answer back until START_FIN or the end of the recovery (R231, R245). -/
theorem start_emits (s : State) : Emits .start s (start s) := by
  unfold start
  split
  · exact .nothing (.refl s)
  · exact .answer rfl _ {}
  · split
    · exact .answer rfl _ {}
    · exact .answer rfl none {}
  · exact .answer rfl none (startBegin_silent (awaitAnswer s))

theorem startFin_emits (s : State) : Emits .startFin s (startFin s) :=
  .responds rfl (((writeReg_silent s .dmaStatus 0x3F).trans (startEngines_silent _)).trans {})

theorem stopEnd_emits (s : State) : Emits .stopEnd s (stopEnd s) :=
  .responds rfl (((writeRegs_silent s .dmaIer .dmaOpmode 0 0).trans (writeMacCfg_silent _ false)).trans {})

theorem send_emits (len : Half) (bytes : List Byte) (s : State) (length : Nat) :
    Emits (.send len bytes) s (send s length bytes) := by
  unfold send
  split
  · exact .responds rfl (enqueueTx_silent s length bytes)
  · exact .responds rfl (.refl s)

theorem execSend_emits (len : Half) (bytes : List Byte) (s : State) :
    Answers (execSend len bytes s) (Emits (.send len bytes) s) := by
  unfold execSend
  obtain ⟨-, h⟩ | ⟨-, -, h⟩ | ⟨-, -, h⟩ := hostCommand_cases s id
  · rw [h]; exact .fault _
  · rw [h]; exact .fault _
  · rw [h]; exact .goodLength fun _ => send_emits len bytes s _

theorem receive_emits (s : State) (cap : Half) : Emits (.receive cap) s (receive s cap.toNat) := by
  unfold receive
  split <;> exact .answer rfl _ {}

/-- The TX engine sends the frame of a HW-owned descriptor, and only that (R261). -/
theorem txdmaStep_emits (s : State) (u : Bool) : Emits (.txdmaStep u) s (txdmaStep s u) := by
  unfold txdmaStep
  split
  · rw [txComplete_eq]
    exact .frame (sentFrame s u) (.trans {} (advance_silent (setStatus (afterSend s u _) stTXD) .tx _ _))
  · exact .nothing (suspend_silent s .tx stTXU)

/-- What leaves the block in each operation. -/
theorem exec_emits (i : Instr) (s : State) : Answers (exec i s) (Emits i s) := by
  cases i with
  | attach => exact .ite (fun _ => .fault _) fun _ => .ite (fun _ => .next (.answer rfl _ {})) fun _ => .fault _
  | start => exact Emits.command start (start_emits s)
  | stop =>
    exact .ite (fun _ => .fault _) fun _ => .ite (fun _ => .next (.answer rfl _ {})) fun _ => .next (.answer rfl none {})
  | send len bytes => exact execSend_emits len bytes s
  | receive cap => exact Emits.command (receive · cap.toNat) (receive_emits s cap)
  | getLinkState => exact Emits.command (respondWith · .ok 0 _) (.responds rfl (.refl s))
  | getStats => exact Emits.command (respondWith · .ok 0 _) (.responds rfl (.refl s))
  | setMacAddress mac => exact Emits.command (setMacAddress · mac) (.responds rfl (.trans {} (writeMacAddr_silent _)))
  | setModeAuto => exact Emits.command (setMode · .auto) (.responds rfl {})
  | setModeForced speed duplex =>
    exact .ite (fun _ => Emits.illegal rfl) fun _ => Emits.command (setMode · _) (.responds rfl {})
  | watchdog => exact .next (.nothing ((watchdog_silent s).trans {}))
  | initRing kind => exact Emits.returns (initRing_silent s kind)
  | enqueueTx len bytes => exact .goodLength fun _ => .nothing ((enqueueTx_silent s _ bytes).setRet _)
  | reclaimTx => exact Emits.returns (reclaimTx_silent s)
  | reclaimRx maxCount => exact Emits.returns (reclaimRx_silent s _)
  | mdioRead reg => exact Emits.returns (mdioRead_silent s reg)
  | mdioWrite reg value => exact Emits.returns (mdioWrite_silent s reg value)
  | startNegotiation adv => exact Emits.returns (startNegotiation_silent s adv)
  | negPoll => exact Emits.enabled_silent (negPoll_silent s)
  | forceLink speed duplex => exact Emits.returns (forceLink_silent s _)
  | resolveLinkMode => exact Emits.returns (resolveLinkMode_silent s)
  | reconfigureMac speed duplex => exact Emits.returns (reconfigureMac_silent s _)
  | isr => exact Emits.enabled_silent (isr_silent s)
  | linkChangeService => exact Emits.returns (linkChangeService_silent s)
  | handleFatalError => exact Emits.returns (handleFatalError_silent s)
  | recStepStopping => exact Emits.enabled_silent (recStopping_silent s)
  | recStepReinit => exact Emits.enabled_silent (recReinit_silent s)
  | recStepReapply => exact Emits.enabled_silent (recReapply_silent s)
  | recStepRestart => exact Emits.enabled_silent (recRestart_silent s)
  | handleRxStopped => exact Emits.returns (handleRxStopped_silent s)
  | handleTxStopped => exact Emits.returns (handleTxStopped_silent s)
  | startFin => exact Emits.enabled (startFin_emits s)
  | stopEnd => exact Emits.enabled (stopEnd_emits s)
  | txdmaStep underflow => exact Emits.enabled (txdmaStep_emits s underflow)
  | rxdmaFrame len bytes crc lerr ovf => exact Emits.enabled_silent (rxdmaFrame_silent s _ bytes crc lerr ovf)
  | busError => exact Emits.enabled_silent (t := raiseBusError s) {}
  | phyLinkEvent => exact .ite (fun _ => .next (.nothing {})) fun _ => .next (.nothing {})

end Sys2Proof.Machine

namespace Sys2Proof.Exceptions

open Sys2Proof.Machine

/-- Settles O56: by what has left the block; only a host command step answers and only TXDMA_STEP sends. -/
theorem onlyHostStepsAnswer : Obligations.OnlyHostStepsAnswer := by
  intro i s t h
  cases exec_emits i s t h with
  | nothing h => exact ⟨fun _ => h.resp, fun _ => h.wireTx, .inl h.wireTx, h.params, h.script⟩
  | answer hi r h =>
    exact ⟨fun hno => (Bool.false_ne_true (hno.symm.trans hi)).elim, fun _ => h.wireTx, .inl h.wireTx, h.params, h.script⟩
  | frame f h => exact ⟨fun _ => h.resp, fun hi => absurd rfl (hi _), .inr ⟨f, h.wireTx⟩, h.params, h.script⟩

end Sys2Proof.Exceptions
end

section
/-! PROOFS. Reset, ATTACH, and the bound on START (spec/70_reset_and_hazards.md R330, R351): the invariant at reset, and the
polls that end a negotiation whatever the PHY answers. -/

namespace Sys2Proof.Machine

open Sys2Proof.Safety

/-! ## Reset and ATTACH (R230, R330) -/

theorem resetOf_coreOk (p : Params) (hp : paramsOk p = true) : CoreOk (State.resetOf p) := by
  obtain ⟨hTx, -, hRx, -, -, -, -, -, -, hstall⟩ := paramsOk_sizes p hp
  exact ⟨hp, wf_reset p, regsOk_reset (State.resetOf p), by simp [StartBitsOk, State.resetOf, Regs.reset],
    ⟨.inl rfl, Nat.zero_le _, nofun⟩, ⟨hTx, hTx, hRx, hTx, hRx, hTx, hstall⟩, absurd rfl, absurd rfl⟩

theorem resetOf_controlOk (p : Params) : ControlOk (State.resetOf p) := by
  constructor <;> simp [State.resetOf]

/-- The interrupt line is low at reset (R310, R330). -/
theorem lineAsserted_resetOf (p : Params) : lineAsserted (State.resetOf p).regs = false := by
  simp [lineAsserted, State.resetOf, Regs.reset]

/-- What ATTACH leaves: the state `clearedState` with both rings initialised, IDLE. -/
theorem attach_spec (s : State) (hs : Sound s) :
    ∃ m, attach s = { ringsCleared (clearedState s) m with dev := .idle } ∧
      RingsFresh s (ringsCleared (clearedState s) m) := by
  obtain ⟨hp, hm⟩ := hs
  obtain ⟨m, -, hrings, hfresh⟩ := initRings_spec (clearedState s) hp hm
  exact ⟨m, by rw [attach_eq, initRings, hrings], hfresh⟩

theorem exec_attach_uninit {s : State} (ha : Answered s) (hd : s.dev = .uninit) :
    exec .attach s = .next (respond (attach s) .ok) := by
  rw [exec, execAttach, (unanswered_eq_false s).mpr ha, if_neg Bool.false_ne_true, if_pos hd]

theorem exec_attach_again {s : State} (ha : Answered s) (hd : s.dev ≠ .uninit) :
    exec .attach s = .fault (.hostDuty .reattach) := by
  rw [exec, execAttach, (unanswered_eq_false s).mpr ha, if_neg Bool.false_ne_true, if_neg hd]

/-! ## The next item of a run (R14, log 4) -/

/-- No operation touches the input still to come (R8). -/
theorem takeItem_of_exec {i : Instr} {s t : State} {rest : List Item} (h : exec i (takeItem s rest) = .next t) :
    takeItem t rest = t := by
  obtain ⟨-, -, -, -, hscript⟩ := Exceptions.onlyHostStepsAnswer i _ t h
  exact congrArg (takeItem t) hscript.symm

theorem step_issued {i : Instr} {s : State} {rest : List Item} (hp : paramsOk s.params = true)
    (hi : i.wellFormed = true) (hhost : i.isHostCommand = true) (hs : s.script = issued i :: rest) :
    step s = exec i (takeItem s rest) := by
  obtain ⟨-, -, hcommand, -⟩ := (stepRunsTheNextItem s (encode i) rest i).2 hp
  exact hcommand hs (decodeOfEncodeIsTheInstruction i hi) hhost

/-! ## The bounded wait (R164, R351) -/

/-- START is under way and at most `left` polls from its resolution. -/
structure Starting (left : Nat) (s : State) : Prop where
  inv     : Inv s
  startPh : s.startPh = .neg
  neg     : s.neg = .resolved ∨ s.neg = .negotiating ∧ s.params.negPollMax ≤ s.negPolls + left

namespace Starting

variable {left : Nat} {s : State}

theorem takeItem (h : Starting left s) (rest : List Item) : Starting left (takeItem s rest) :=
  ⟨Quiet.inv (s := s) .book h.inv, h.startPh, h.neg⟩

/-- The invariant keeps a negotiation below the bound, so one with no poll left is over. -/
theorem resolved (h : Starting 0 s) : s.neg = .resolved := by
  obtain hr | ⟨hn, hmax⟩ := h.neg
  · exact hr
  · obtain ⟨-, -, -, -, -, -, -, -, hlt⟩ := h.inv.indices
    exact absurd (hlt hn) (Nat.not_lt.mpr hmax)

end Starting

/-- A poll that finds the negotiation not complete ends it or is counted. -/
theorem pollIncomplete_resolved_or_counted (s : State) (bmsr : Half) :
    (pollIncomplete s bmsr).neg = .resolved ∨
      (pollIncomplete s bmsr).neg = s.neg ∧ (pollIncomplete s bmsr).negPolls = s.negPolls + 1 := by
  unfold pollIncomplete
  split
  · exact .inl rfl
  · exact .inr ⟨rfl, rfl⟩

/-- Whatever the PHY answers, a poll ends the negotiation or is counted. -/
theorem negPoll_resolved_or_counted (s : State) : (negPoll s).neg = .resolved ∨
    (negPoll s).neg = s.neg ∧ (negPoll s).negPolls = s.negPolls + 1 := by
  rw [negPoll_eq]
  split
  · exact .inl rfl
  · exact pollIncomplete_resolved_or_counted _ _

/-- A poll brings START one closer to its resolution; after the resolution it is not enabled (log 6). -/
theorem exec_negPoll_starting {left : Nat} {s : State} (h : Starting (left + 1) s) :
    ∃ t, exec .negPoll s = .next t ∧ Starting left t := by
  obtain hr | ⟨hn, hmax⟩ := h.neg
  · have hexec : exec .negPoll s = .next (notEnabled s) := if_neg (by simp [hr])
    exact ⟨_, hexec, ⟨exec_inv _ _ _ h.inv hexec, h.startPh, .inl hr⟩⟩
  · have hexec : exec .negPoll s = .next ((negPoll s).setRet .none) := if_pos hn
    have hquiet := negPoll_quiet s hn
    refine ⟨_, hexec, ⟨exec_inv _ _ _ h.inv hexec, hquiet.startPh.trans h.startPh, ?_⟩⟩
    refine (negPoll_resolved_or_counted s).imp_right fun ⟨hsame, hcount⟩ => ⟨hsame.trans hn, ?_⟩
    have hparams := hquiet.params
    simp only [State.setRet_params, State.setRet_negPolls, hparams, hcount]
    omega

/-- As many polls as are left end the negotiation. -/
theorem run_polls (k : Nat) (l : List Item) {left : Nat} {s : State} (h : Starting left s) :
    ∃ t, Starting 0 t ∧ Host.Core.run Sys2Proof.core (left + k)
      (takeItem s (List.replicate left (scheduled .negPoll) ++ l)) = Host.Core.run Sys2Proof.core k (takeItem t l) := by
  induction left generalizing s with
  | zero => exact ⟨s, h, by rw [Nat.zero_add]; rfl⟩
  | succ n ih =>
    obtain ⟨u, hpoll, hu⟩ := exec_negPoll_starting (h.takeItem (List.replicate n (scheduled .negPoll) ++ l))
    obtain ⟨t, ht, hrun⟩ := ih hu
    rw [← takeItem_of_exec hpoll] at hpoll
    rw [Nat.succ_add]
    exact ⟨t, ht, (run_scheduled (n + k) h.inv.params rfl hpoll).trans hrun⟩

/-- START begins a negotiation, or forces the link (R232). -/
theorem beginLink_resolved_or_negotiating (s : State) :
    (beginLink s).neg = .resolved ∨ (beginLink s).neg = .negotiating := by
  unfold beginLink
  split
  · exact .inr rfl
  · exact .inl rfl

/-- START of an IDLE device is resolved within NEG_POLL_MAX polls (R232, R351). -/
theorem exec_start_starting {s : State} (hs : Inv s) (hd : s.dev = .idle) (ha : Answered s) :
    ∃ t, exec .start s = .next t ∧ Starting s.params.negPollMax t := by
  have hexec : exec .start s = .next (startBegin (awaitAnswer s)) := by
    rw [← Facade.start_idle hd]
    exact Facade.hostCommand_next start ha (by simp [hd])
  have hsteady := (startBegin_rebuilt (awaitAnswer s)).steady
  obtain ⟨-, -, -, hparams, -⟩ := Exceptions.onlyHostStepsAnswer _ _ _ hexec
  refine ⟨_, hexec, ⟨exec_inv _ _ _ hs hexec, hsteady.startPh, ?_⟩⟩
  refine (beginLink_resolved_or_negotiating _).imp_right fun hn => ⟨hn, ?_⟩
  rw [hparams]
  exact Nat.le_add_left _ _

end Sys2Proof.Machine

namespace Sys2Proof.ResetAndHazards

open Sys2Proof.Machine Sys2Proof.Safety

/-- Settles O60: START, the polls that end its negotiation, then START_FIN, each one step of the run. -/
theorem startIsBounded : Obligations.StartIsBounded := by
  intro s rest hs hd ha hscript
  obtain ⟨u, hstart, hu⟩ := exec_start_starting
    (s := takeItem s (List.replicate s.params.negPollMax (scheduled .negPoll) ++ scheduled .startFin :: rest))
    (Quiet.inv (s := s) .book hs) hd ha
  rw [← takeItem_of_exec hstart] at hstart
  have hfirst := (step_issued hs.params rfl rfl hscript).trans hstart
  obtain ⟨v, hv, hpolls⟩ := run_polls 1 (scheduled .startFin :: rest) hu
  have hlast := run_scheduled 0 hv.inv.params rfl (Facade.startFin (takeItem v rest) hv.startPh hv.resolved)
  have hrun := (run_succ Sys2Proof.core _ hfirst).trans (hpolls.trans hlast)
  refine ⟨_, hrun, rfl, rfl, ?_⟩
  cases hresult : v.negResult with
  | ok => exact .inl ⟨hresult, by simp [takeItem, hresult]⟩
  | negotiationTimeout => exact .inr ⟨hresult, by simp [takeItem, hresult]⟩

/-- Settles O38: the reset column, and ATTACH by the device state. -/
theorem resetAndAttach : Obligations.ResetAndAttach := by
  refine ⟨fun p => ?reset, fun s hs hd ha => ?attach, fun s hd ha => exec_attach_again ha hd⟩
  case reset =>
    exact ⟨rfl, rfl, rfl, rfl, rfl, rfl, rfl, rfl, rfl, rfl, rfl, rfl, rfl, rfl, rfl, rfl, rfl, rfl, rfl, rfl,
      regRead_resetOf p, lineAsserted_resetOf p⟩
  case attach =>
    obtain ⟨m, hattach, hfresh⟩ := attach_spec s hs
    refine ⟨_, exec_attach_uninit ha hd, ?_⟩
    rw [hattach, Facade.respond_eq]
    exact ⟨ringsFresh_congr _ _ _ _ rfl rfl rfl rfl hfresh, rfl⟩

/-- Settles O57: by the two parts of the invariant. -/
theorem invAtReset : Obligations.InvAtReset := fun p hp =>
  (inv_iff _).mpr ⟨resetOf_coreOk p hp, resetOf_controlOk p⟩

end Sys2Proof.ResetAndHazards
end
